-- ==== Sys2Proof/Word.lean ====
section
/-! DEFINITION. The two word types of the DL8: an octet of the station link, which is also one stored character
(spec 10: R168, 01: R2), and the 16-bit remainder of the frame check (10: R168). Every count, number and time of the
part is a Nat. -/

namespace Sys2Proof

/-- An octet of the station link (10: R166), and the code of one character (01: R2). -/
abbrev Byte := BitVec 8

/-- The remainder of the frame check (10: R168). -/
abbrev Crc := BitVec 16

end Sys2Proof
end

