-- ==== Sys2Proof/Config.lean ====
section
/-! DEFINITION. The fixed sizes, limits and periods of the DL8, each with the rule that states it. The spec leaves no
value of the part open, so there is no free value here. -/

namespace Sys2Proof.Config

/-- Time is counted in ticks of 1/288000 s (log 1): an octet of the line (10: R166), a millisecond and every symbol
period of 06: R93 are whole numbers of ticks. -/
def ticksPerSecond : Nat := 288000

def ticksPerMillisecond : Nat := 288

/-- 10 bit times at 115200 bit/s (10: R166). -/
def ticksPerOctet : Nat := 25

def seconds (n : Nat) : Nat := n * ticksPerSecond

def milliseconds (n : Nat) : Nat := n * ticksPerMillisecond

/-- 04: R53, R55, R57, R58: the two periods of the advance timer, and the age that tells an edge that advances. -/
def advancePeriodLocked : Nat := seconds 61
def advancePeriodFree : Nat := seconds 60
def edgeAdvanceAge : Nat := seconds 30

/-- 10: R167, R174; 06: R95. -/
def interOctetPeriod : Nat := milliseconds 20
def batchPeriod : Nat := milliseconds 500
def lockPeriod : Nat := milliseconds 250

/-- 01: R1. -/
def blockCount : Nat := 1024
def blockSize : Nat := 64

/-- 01: R15, 05: R79, R80. -/
def queueLimit : Nat := 512
def pauseThreshold : Nat := 384
def resumeThreshold : Nat := 128

/-- 10: R172, R167, R177. -/
def receiveQueueSize : Nat := 16
def linkReadyLimit : Nat := 14
def payloadLimit : Nat := 240

/-- The largest value of every saturating counter of 16 bits (02: R23, 06: R109, 10: R171, 11: R179), and of the run
counters and the interrupted count (07: R118, 04: R66). -/
def counterMax : Nat := 65535
def runMax : Nat := 255

/-- 08: R137, 09: R154. -/
def quotaMargin : Nat := 32
def urgencyLimit : Nat := 16

end Sys2Proof.Config
end

