-- ==== Sys2Proof/Syntax.lean ====
section
/-! DEFINITION. The commands of the DL8: one constructor of Instr for each row of spec/opcode_table.json, and Request,
the 25 request kinds of 10: section 10.8 as a payload of the line spells them. Field values stand as the line carries
them (10: R169): a name from a list is its place in the list, a set is its bit field, and nothing is range checked
yet, since the check is part of what the command does. -/

namespace Sys2Proof

/-- What the reply to a request copies from its frame (10: R177). -/
structure ReplyTo where
  tag : Byte
  position : BitVec 4
  deriving DecidableEq, Repr

/-- The fields of SET STATION (11: R182), in seconds for the two times. -/
structure StationFields where
  markSource : Nat
  holdLimit : Nat
  gapTimeout : Nat
  storeReserve : Nat
  deriving DecidableEq, Repr

/-- The profile record of SET PROFILE (06: R92). -/
structure ProfileFields where
  rate : Nat
  code : Nat
  lead : Nat
  phasing : Nat
  keyHold : Nat
  permitTimeout : Nat
  retryInterval : Nat
  telexQuota : Nat
  turnGrace : Nat
  telexBurst : Nat
  bulletinBurst : Nat
  categories : Nat
  observeSilence : Nat
  deriving DecidableEq, Repr

/-- The start field of the schedule group (02: R22). -/
inductive StartField where
  | now
  | atMinutes (minutes : List Nat)
  | every (interval : Nat)
  deriving DecidableEq, Repr

/-- The schedule group (02: R22). -/
structure ScheduleFields where
  mask : Nat
  start : StartField
  passes : Nat
  limit : Option Nat
  deriving DecidableEq, Repr

/-- The request kinds of 10: section 10.8, with the fields of the rule that owns each. -/
inductive Request where
  | setStation (f : StationFields)
  | setClock (minute : Nat)
  | readStation
  | restart
  | setProfile (channel : Nat) (f : ProfileFields)
  | channelOn (channel : Nat)
  | channelOff (channel mode : Nat)
  | readChannel (channel : Nat)
  | openCircuit (circuit channel : Nat) (callUp : List Byte)
  | circuitText (circuit : Nat) (chars : List Byte)
  | holdCircuit (circuit setting : Nat)
  | moveCircuit (circuit target : Nat)
  | closeCircuit (circuit mode : Nat)
  | readCircuit (circuit : Nat)
  | declareBulletin (number serial category length : Nat) (f : ScheduleFields)
  | bulletinText (number target : Nat) (block : Option Nat) (chars : List Byte)
  | amendBulletin (number : Nat) (f : ScheduleFields)
  | releaseBulletin (number : Nat)
  | withdrawBulletin (number : Nat)
  | clearMarks (number : Nat)
  | readBulletin (number : Nat)
  | readText (number target offset count : Nat)
  | stageRevision (number length : Nat)
  | commitRevision (number : Nat)
  | discardRevision (number : Nat)
  deriving DecidableEq, Repr

/-- The commands, in the order of spec/opcode_table.json. A request row carries what its reply copies and the
request's fields; a channel or circuit event carries the number of its channel or circuit. -/
inductive Instr where
  | setStation (r : ReplyTo) (f : StationFields)
  | setClock (r : ReplyTo) (minute : Nat)
  | readStation (r : ReplyTo)
  | restart (r : ReplyTo)
  | setProfile (r : ReplyTo) (channel : Nat) (f : ProfileFields)
  | channelOn (r : ReplyTo) (channel : Nat)
  | channelOffGraceful (r : ReplyTo) (channel : Nat)
  | channelOffAbort (r : ReplyTo) (channel : Nat)
  | readChannel (r : ReplyTo) (channel : Nat)
  | openCircuit (r : ReplyTo) (circuit channel : Nat) (callUp : List Byte)
  | circuitText (r : ReplyTo) (circuit : Nat) (chars : List Byte)
  | holdCircuitOn (r : ReplyTo) (circuit : Nat)
  | holdCircuitOff (r : ReplyTo) (circuit : Nat)
  | moveCircuit (r : ReplyTo) (circuit target : Nat)
  | closeCircuitDrain (r : ReplyTo) (circuit : Nat)
  | closeCircuitPurge (r : ReplyTo) (circuit : Nat)
  | readCircuit (r : ReplyTo) (circuit : Nat)
  | declareBulletin (r : ReplyTo) (number serial category length : Nat) (f : ScheduleFields)
  | bulletinTextCurrent (r : ReplyTo) (number : Nat) (block : Option Nat) (chars : List Byte)
  | bulletinTextStaged (r : ReplyTo) (number : Nat) (block : Option Nat) (chars : List Byte)
  | amendBulletin (r : ReplyTo) (number : Nat) (f : ScheduleFields)
  | releaseBulletin (r : ReplyTo) (number : Nat)
  | withdrawBulletin (r : ReplyTo) (number : Nat)
  | clearMarks (r : ReplyTo) (number : Nat)
  | readBulletin (r : ReplyTo) (number : Nat)
  | readText (r : ReplyTo) (number target offset count : Nat)
  | stageRevision (r : ReplyTo) (number length : Nat)
  | commitRevision (r : ReplyTo) (number : Nat)
  | discardRevision (r : ReplyTo) (number : Nat)
  | linkOctetReceived (octet : Byte)
  | interOctetTimerExpiry
  | frameTake
  | batchTimerExpiry
  | frameCompletion
  | restartReset
  | resetAssert
  | resetRelease
  | markFallingEdge
  | markEdgeEvent
  | advanceTimerExpiry
  | silenceAssert
  | silenceRelease
  | keyokGrant (channel : Fin 8)
  | permitLoss (channel : Fin 8)
  | lockTimerExpiry (channel : Fin 8)
  | permitTimerExpiry (channel : Fin 8)
  | retryTimerExpiry (channel : Fin 8)
  | holdTimerExpiry (circuit : Fin 32)
  | gapTimerExpiry (channel : Fin 8)
  | symbolCompletion (channel : Fin 8)
  deriving DecidableEq, Repr

end Sys2Proof
end

