-- ==== Sys2Proof/WellFormed.lean ====
section
/-! DEFINITION. Which commands are well formed: a request must be one that a frame of the line can carry, so every
field fits the octets that 10: R169 gives it and the payload is at most 240 octets (10: R167, R168). A value out of
the range of its rule is well formed: the part itself answers it with RANGE. -/

namespace Sys2Proof

/-- A number carried in one octet (10: R169). -/
def oneOctet (n : Nat) : Bool := n < 256

/-- A number carried in two octets (10: R169). -/
def twoOctets (n : Nat) : Bool := n < 65536

def StationFields.fits (f : StationFields) : Bool :=
  oneOctet f.markSource && twoOctets f.holdLimit && oneOctet f.gapTimeout && twoOctets f.storeReserve

def ProfileFields.fits (f : ProfileFields) : Bool :=
  oneOctet f.rate && oneOctet f.code && oneOctet f.lead && oneOctet f.phasing && oneOctet f.keyHold &&
  twoOctets f.permitTimeout && oneOctet f.retryInterval && twoOctets f.telexQuota && oneOctet f.turnGrace &&
  oneOctet f.telexBurst && oneOctet f.bulletinBurst && oneOctet f.categories && oneOctet f.observeSilence

def StartField.fits : StartField → Bool
  | .now => true
  | .atMinutes ms => ms.all twoOctets
  | .every n => twoOctets n

/-- How many octets the start takes: its form, then the values of the form (10: R169). -/
def StartField.octets : StartField → Nat
  | .now => 1
  | .atMinutes ms => 2 + 2 * ms.length
  | .every _ => 3

/-- A field that may be absent takes one octet for that, and its value if present (10: R169). -/
def optionalOctets : Option Nat → Nat
  | none => 1
  | some _ => 2

def ScheduleFields.fits (f : ScheduleFields) : Bool :=
  oneOctet f.mask && f.start.fits && oneOctet f.passes && f.limit.all oneOctet

def ScheduleFields.octets (f : ScheduleFields) : Nat := 2 + f.start.octets + optionalOctets f.limit

/-- A request that the payload of one frame can carry (10: R168, R169). -/
def Request.wellFormed : Request → Bool
  | .setStation f => f.fits
  | .setClock m => twoOctets m
  | .readStation => true
  | .restart => true
  | .setProfile ch f => oneOctet ch && f.fits
  | .channelOn ch => oneOctet ch
  | .channelOff ch mode => oneOctet ch && oneOctet mode
  | .readChannel ch => oneOctet ch
  | .openCircuit c ch t => oneOctet c && oneOctet ch && 4 + t.length ≤ Config.payloadLimit
  | .circuitText c t => oneOctet c && 3 + t.length ≤ Config.payloadLimit
  | .holdCircuit c x => oneOctet c && oneOctet x
  | .moveCircuit c ch => oneOctet c && oneOctet ch
  | .closeCircuit c x => oneOctet c && oneOctet x
  | .readCircuit c => oneOctet c
  | .declareBulletin n ser cat len f =>
      oneOctet n && twoOctets ser && oneOctet cat && twoOctets len && f.fits && 7 + f.octets ≤ Config.payloadLimit
  | .bulletinText n tgt b t =>
      oneOctet n && oneOctet tgt && b.all oneOctet && 4 + optionalOctets b + t.length ≤ Config.payloadLimit
  | .amendBulletin n f => oneOctet n && f.fits && 2 + f.octets ≤ Config.payloadLimit
  | .releaseBulletin n => oneOctet n
  | .withdrawBulletin n => oneOctet n
  | .clearMarks n => oneOctet n
  | .readBulletin n => oneOctet n
  | .readText n tgt off cnt => oneOctet n && oneOctet tgt && twoOctets off && oneOctet cnt
  | .stageRevision n len => oneOctet n && twoOctets len
  | .commitRevision n => oneOctet n
  | .discardRevision n => oneOctet n

/-- The request a request row stands for, with what its reply copies; none for the rows that are events. -/
def Instr.request : Instr → Option (ReplyTo × Request)
  | .setStation r f => some (r, .setStation f)
  | .setClock r m => some (r, .setClock m)
  | .readStation r => some (r, .readStation)
  | .restart r => some (r, .restart)
  | .setProfile r ch f => some (r, .setProfile ch f)
  | .channelOn r ch => some (r, .channelOn ch)
  | .channelOffGraceful r ch => some (r, .channelOff ch 0)
  | .channelOffAbort r ch => some (r, .channelOff ch 1)
  | .readChannel r ch => some (r, .readChannel ch)
  | .openCircuit r c ch t => some (r, .openCircuit c ch t)
  | .circuitText r c t => some (r, .circuitText c t)
  | .holdCircuitOn r c => some (r, .holdCircuit c 0)
  | .holdCircuitOff r c => some (r, .holdCircuit c 1)
  | .moveCircuit r c ch => some (r, .moveCircuit c ch)
  | .closeCircuitDrain r c => some (r, .closeCircuit c 0)
  | .closeCircuitPurge r c => some (r, .closeCircuit c 1)
  | .readCircuit r c => some (r, .readCircuit c)
  | .declareBulletin r n ser cat len f => some (r, .declareBulletin n ser cat len f)
  | .bulletinTextCurrent r n b t => some (r, .bulletinText n 0 b t)
  | .bulletinTextStaged r n b t => some (r, .bulletinText n 1 b t)
  | .amendBulletin r n f => some (r, .amendBulletin n f)
  | .releaseBulletin r n => some (r, .releaseBulletin n)
  | .withdrawBulletin r n => some (r, .withdrawBulletin n)
  | .clearMarks r n => some (r, .clearMarks n)
  | .readBulletin r n => some (r, .readBulletin n)
  | .readText r n tgt off cnt => some (r, .readText n tgt off cnt)
  | .stageRevision r n len => some (r, .stageRevision n len)
  | .commitRevision r n => some (r, .commitRevision n)
  | .discardRevision r n => some (r, .discardRevision n)
  | .linkOctetReceived _ => none
  | .interOctetTimerExpiry => none
  | .frameTake => none
  | .batchTimerExpiry => none
  | .frameCompletion => none
  | .restartReset => none
  | .resetAssert => none
  | .resetRelease => none
  | .markFallingEdge => none
  | .markEdgeEvent => none
  | .advanceTimerExpiry => none
  | .silenceAssert => none
  | .silenceRelease => none
  | .keyokGrant _ => none
  | .permitLoss _ => none
  | .lockTimerExpiry _ => none
  | .permitTimerExpiry _ => none
  | .retryTimerExpiry _ => none
  | .holdTimerExpiry _ => none
  | .gapTimerExpiry _ => none
  | .symbolCompletion _ => none

/-- An event row is well formed by its operand's type; a request row when a frame can carry it. -/
def Instr.wellFormed (i : Instr) : Bool := i.request.all fun q => q.2.wellFormed

end Sys2Proof
end

