-- ==== Sys2Proof/Decode.lean ====
section
/-! DEFINITION. Reading and writing the payload of a request frame (10: R168, R169, section 10.8), and
decodeTableWord. No row of spec/opcode_table.json gives bits, so decodeTableWord spells no command; what the line
carries is a request payload, which decodeRequest reads and encodeRequest writes. -/

namespace Sys2Proof

/-- The high and low octet of a number carried in two octets, most significant first (10: R169). -/
def encodeWord (n : Nat) : List Byte := [BitVec.ofNat 8 (n / 256), BitVec.ofNat 8 n]

def encodeOctet (n : Nat) : List Byte := [BitVec.ofNat 8 n]

/-- A string is preceded by one octet with the number of its characters (10: R169). -/
def encodeString (t : List Byte) : List Byte := BitVec.ofNat 8 t.length :: t

/-- A field that may be absent: 0, or 1 and its value (10: R169). -/
def encodeOptional : Option Nat → List Byte
  | none => [0]
  | some n => [1, BitVec.ofNat 8 n]

/-- The place of the form, then the values of that form (10: R169). -/
def encodeStart : StartField → List Byte
  | .now => [0]
  | .atMinutes ms => 1 :: BitVec.ofNat 8 ms.length :: ms.flatMap encodeWord
  | .every n => 2 :: encodeWord n

def encodeSchedule (f : ScheduleFields) : List Byte :=
  encodeOctet f.mask ++ encodeStart f.start ++ encodeOctet f.passes ++ encodeOptional f.limit

def encodeStation (f : StationFields) : List Byte :=
  encodeOctet f.markSource ++ encodeWord f.holdLimit ++ encodeOctet f.gapTimeout ++ encodeWord f.storeReserve

def encodeProfile (f : ProfileFields) : List Byte :=
  encodeOctet f.rate ++ encodeOctet f.code ++ encodeOctet f.lead ++ encodeOctet f.phasing ++ encodeOctet f.keyHold ++
  encodeWord f.permitTimeout ++ encodeOctet f.retryInterval ++ encodeWord f.telexQuota ++ encodeOctet f.turnGrace ++
  encodeOctet f.telexBurst ++ encodeOctet f.bulletinBurst ++ encodeOctet f.categories ++ encodeOctet f.observeSilence

/-- The request kind code (10: section 10.8). -/
def Request.kindCode : Request → Byte
  | .setStation _ => 0x01
  | .setClock _ => 0x02
  | .readStation => 0x03
  | .restart => 0x04
  | .setProfile _ _ => 0x10
  | .channelOn _ => 0x11
  | .channelOff _ _ => 0x12
  | .readChannel _ => 0x13
  | .openCircuit _ _ _ => 0x20
  | .circuitText _ _ => 0x21
  | .holdCircuit _ _ => 0x22
  | .moveCircuit _ _ => 0x23
  | .closeCircuit _ _ => 0x24
  | .readCircuit _ => 0x25
  | .declareBulletin _ _ _ _ _ => 0x30
  | .bulletinText _ _ _ _ => 0x31
  | .amendBulletin _ _ => 0x32
  | .releaseBulletin _ => 0x33
  | .withdrawBulletin _ => 0x34
  | .clearMarks _ => 0x35
  | .readBulletin _ => 0x36
  | .readText _ _ _ _ => 0x37
  | .stageRevision _ _ => 0x38
  | .commitRevision _ => 0x39
  | .discardRevision _ => 0x3A

/-- The fields of a request after its kind code, in the order its rule lists them (10: R169). -/
def Request.encodeFields : Request → List Byte
  | .setStation f => encodeStation f
  | .setClock m => encodeWord m
  | .readStation => []
  | .restart => []
  | .setProfile ch f => encodeOctet ch ++ encodeProfile f
  | .channelOn ch => encodeOctet ch
  | .channelOff ch mode => encodeOctet ch ++ encodeOctet mode
  | .readChannel ch => encodeOctet ch
  | .openCircuit c ch t => encodeOctet c ++ encodeOctet ch ++ encodeString t
  | .circuitText c t => encodeOctet c ++ encodeString t
  | .holdCircuit c x => encodeOctet c ++ encodeOctet x
  | .moveCircuit c ch => encodeOctet c ++ encodeOctet ch
  | .closeCircuit c x => encodeOctet c ++ encodeOctet x
  | .readCircuit c => encodeOctet c
  | .declareBulletin n ser cat len f =>
      encodeOctet n ++ encodeWord ser ++ encodeOctet cat ++ encodeWord len ++ encodeSchedule f
  | .bulletinText n tgt b t => encodeOctet n ++ encodeOctet tgt ++ encodeOptional b ++ encodeString t
  | .amendBulletin n f => encodeOctet n ++ encodeSchedule f
  | .releaseBulletin n => encodeOctet n
  | .withdrawBulletin n => encodeOctet n
  | .clearMarks n => encodeOctet n
  | .readBulletin n => encodeOctet n
  | .readText n tgt off cnt => encodeOctet n ++ encodeOctet tgt ++ encodeWord off ++ encodeOctet cnt
  | .stageRevision n len => encodeOctet n ++ encodeWord len
  | .commitRevision n => encodeOctet n
  | .discardRevision n => encodeOctet n

/-- The payload of a request frame: the kind code, then the fields (10: R168, R169). -/
def encodeRequest (q : Request) : List Byte := q.kindCode :: q.encodeFields

/-! Reading: each reader takes the octets of one field from the front and gives the rest. -/

def takeOctet : List Byte → Option (Nat × List Byte)
  | b :: bs => some (b.toNat, bs)
  | [] => none

def takeWord : List Byte → Option (Nat × List Byte)
  | hi :: lo :: bs => some (hi.toNat * 256 + lo.toNat, bs)
  | _ => none

def takeWords : Nat → List Byte → Option (List Nat × List Byte)
  | 0, bs => some ([], bs)
  | k + 1, bs => do
    let (w, bs) ← takeWord bs
    let (ws, bs) ← takeWords k bs
    return (w :: ws, bs)

def takeString (bs : List Byte) : Option (List Byte × List Byte) := do
  let (k, bs) ← takeOctet bs
  if k ≤ bs.length then return (bs.take k, bs.drop k) else none

/-- A presence octet other than 0 and 1 gives the field no layout, so the request is malformed (log 10). -/
def takeOptional (bs : List Byte) : Option (Option Nat × List Byte) := do
  let (p, bs) ← takeOctet bs
  if p = 0 then return (none, bs)
  else if p = 1 then
    let (n, bs) ← takeOctet bs
    return (some n, bs)
  else none

/-- A form octet that names no form of the start gives the field no layout, so the request is malformed (log 10). -/
def takeStart (bs : List Byte) : Option (StartField × List Byte) := do
  let (form, bs) ← takeOctet bs
  if form = 0 then return (.now, bs)
  else if form = 1 then
    let (k, bs) ← takeOctet bs
    let (ms, bs) ← takeWords k bs
    return (.atMinutes ms, bs)
  else if form = 2 then
    let (n, bs) ← takeWord bs
    return (.every n, bs)
  else none

def takeSchedule (bs : List Byte) : Option (ScheduleFields × List Byte) := do
  let (mask, bs) ← takeOctet bs
  let (start, bs) ← takeStart bs
  let (passes, bs) ← takeOctet bs
  let (limit, bs) ← takeOptional bs
  return (⟨mask, start, passes, limit⟩, bs)

def takeStation (bs : List Byte) : Option (StationFields × List Byte) := do
  let (source, bs) ← takeOctet bs
  let (hold, bs) ← takeWord bs
  let (gap, bs) ← takeOctet bs
  let (reserve, bs) ← takeWord bs
  return (⟨source, hold, gap, reserve⟩, bs)

def takeProfile (bs : List Byte) : Option (ProfileFields × List Byte) := do
  let (rate, bs) ← takeOctet bs
  let (code, bs) ← takeOctet bs
  let (lead, bs) ← takeOctet bs
  let (phasing, bs) ← takeOctet bs
  let (keyHold, bs) ← takeOctet bs
  let (permit, bs) ← takeWord bs
  let (retry, bs) ← takeOctet bs
  let (quota, bs) ← takeWord bs
  let (grace, bs) ← takeOctet bs
  let (telexBurst, bs) ← takeOctet bs
  let (bulletinBurst, bs) ← takeOctet bs
  let (categories, bs) ← takeOctet bs
  let (observe, bs) ← takeOctet bs
  return (⟨rate, code, lead, phasing, keyHold, permit, retry, quota, grace, telexBurst, bulletinBurst, categories, observe⟩, bs)

/-- The fields must end exactly at the end of the payload (10: R169, R173). -/
def atEnd {α : Type} : Option (α × List Byte) → Option α
  | some (a, []) => some a
  | _ => none

def readOctet (bs : List Byte) : Option Nat := atEnd (takeOctet bs)

def readTwoOctets (bs : List Byte) : Option (Nat × Nat) := atEnd do
  let (a, bs) ← takeOctet bs
  let (b, bs) ← takeOctet bs
  return ((a, b), bs)

def readOpenCircuit (bs : List Byte) : Option Request := atEnd do
  let (c, bs) ← takeOctet bs
  let (ch, bs) ← takeOctet bs
  let (t, bs) ← takeString bs
  return (.openCircuit c ch t, bs)

def readCircuitText (bs : List Byte) : Option Request := atEnd do
  let (c, bs) ← takeOctet bs
  let (t, bs) ← takeString bs
  return (.circuitText c t, bs)

def readSetProfile (bs : List Byte) : Option Request := atEnd do
  let (ch, bs) ← takeOctet bs
  let (f, bs) ← takeProfile bs
  return (.setProfile ch f, bs)

def readDeclare (bs : List Byte) : Option Request := atEnd do
  let (n, bs) ← takeOctet bs
  let (ser, bs) ← takeWord bs
  let (cat, bs) ← takeOctet bs
  let (len, bs) ← takeWord bs
  let (f, bs) ← takeSchedule bs
  return (.declareBulletin n ser cat len f, bs)

def readBulletinText (bs : List Byte) : Option Request := atEnd do
  let (n, bs) ← takeOctet bs
  let (tgt, bs) ← takeOctet bs
  let (b, bs) ← takeOptional bs
  let (t, bs) ← takeString bs
  return (.bulletinText n tgt b t, bs)

def readAmend (bs : List Byte) : Option Request := atEnd do
  let (n, bs) ← takeOctet bs
  let (f, bs) ← takeSchedule bs
  return (.amendBulletin n f, bs)

def readReadText (bs : List Byte) : Option Request := atEnd do
  let (n, bs) ← takeOctet bs
  let (tgt, bs) ← takeOctet bs
  let (off, bs) ← takeWord bs
  let (cnt, bs) ← takeOctet bs
  return (.readText n tgt off cnt, bs)

def readStage (bs : List Byte) : Option Request := atEnd do
  let (n, bs) ← takeOctet bs
  let (len, bs) ← takeWord bs
  return (.stageRevision n len, bs)

/-- The request that the fields spell under a kind code (10: section 10.8), none where the code is unknown or the
fields have the wrong count or sizes (10: R173). -/
def decodeFields (kind : Byte) (bs : List Byte) : Option Request :=
  match kind.toNat with
  | 0x01 => (atEnd (takeStation bs)).map .setStation
  | 0x02 => (atEnd (takeWord bs)).map .setClock
  | 0x03 => if bs = [] then some .readStation else none
  | 0x04 => if bs = [] then some .restart else none
  | 0x10 => readSetProfile bs
  | 0x11 => (readOctet bs).map .channelOn
  | 0x12 => (readTwoOctets bs).map fun p => .channelOff p.1 p.2
  | 0x13 => (readOctet bs).map .readChannel
  | 0x20 => readOpenCircuit bs
  | 0x21 => readCircuitText bs
  | 0x22 => (readTwoOctets bs).map fun p => .holdCircuit p.1 p.2
  | 0x23 => (readTwoOctets bs).map fun p => .moveCircuit p.1 p.2
  | 0x24 => (readTwoOctets bs).map fun p => .closeCircuit p.1 p.2
  | 0x25 => (readOctet bs).map .readCircuit
  | 0x30 => readDeclare bs
  | 0x31 => readBulletinText bs
  | 0x32 => readAmend bs
  | 0x33 => (readOctet bs).map .releaseBulletin
  | 0x34 => (readOctet bs).map .withdrawBulletin
  | 0x35 => (readOctet bs).map .clearMarks
  | 0x36 => (readOctet bs).map .readBulletin
  | 0x37 => readReadText bs
  | 0x38 => readStage bs
  | 0x39 => (readOctet bs).map .commitRevision
  | 0x3A => (readOctet bs).map .discardRevision
  | _ => none

/-- The payload check of 10: R173: none is BAD_REQUEST. -/
def decodeRequest : List Byte → Option Request
  | [] => none
  | kind :: fields => decodeFields kind fields

/-- No row of spec/opcode_table.json gives bits, so no word spells a command (log 22). -/
def decodeTableWord (_nbits _w : Nat) : Option Instr := none

end Sys2Proof
end

