-- ==== Sys2Proof/Machine/State.lean ====
section
/-! DEFINITION. Everything the spec gives the DL8 as state, block by block (spec 00: block table), as plain data, and
the state right after power-on reset (11: R184). What is computed from a field here (a circuit's ACTIVE or HELD, a
bulletin's length, a queue count) is not stored a second time (log 18). -/

namespace Sys2Proof.Machine

/-! ## Timers -/

/-- A running timer: its period and the time it expires, in ticks (log 1). A stopped timer is none. -/
structure Timer where
  period : Nat
  due : Nat
  deriving DecidableEq, Repr

/-! ## Text Store (01) -/

/-- A block number, 0 to 1023 (01: R1). -/
abbrev BlockNo := Fin 1024

/-- The character positions of the store (01: R1): the cell of position p of block b has address 64 × b + p. Only
positions that do not read as an unlisted one are listed, by rising address. -/
abbrev Memory := List Host.Cell

/-- 01: R4, R7, R1. -/
structure TextStore where
  free : List BlockNo
  reserve : Nat
  cells : Memory
  deriving DecidableEq, Repr

/-- One block of a bulletin map with its fill (01: R11). -/
structure MapBlock where
  block : BlockNo
  fill : Nat
  deriving DecidableEq, Repr

/-- A bulletin map (01: R10 to R13). The write pointer is at map position `pointer`, at that block's fill. -/
structure TextMap where
  length : Nat
  blocks : List MapBlock
  pointer : Nat
  deriving DecidableEq, Repr

/-- A circuit's chain (01: R14), head block first. An empty chain has both offsets 0. -/
structure Chain where
  blocks : List BlockNo
  headOffset : Nat
  tailFill : Nat
  deriving DecidableEq, Repr

/-! ## Bulletin Table (02, 03) -/

/-- 02: R21. -/
inductive Category where
  | dr | ur | nw | mw | wf | ir | rn
  deriving DecidableEq, Repr

/-- The class of a bulletin, 0 the most urgent (02: R21). -/
abbrev Rank := Fin 4

/-- The states of an entry that is not EMPTY (02: lifecycle). -/
inductive BulletinState where
  | composing | released | withdrawing
  deriving DecidableEq, Repr

/-- 02: R22. -/
inductive Start where
  | now
  | atMinutes (minutes : List Nat)
  | every (interval : Nat)
  deriving DecidableEq, Repr

/-- The schedule group (02: R22), with the channels of the mask in ascending order. -/
structure Schedule where
  mask : List (Fin 8)
  start : Start
  passes : Nat
  limit : Option Nat
  deriving DecidableEq, Repr

/-- The descriptor of an entry that is not EMPTY (02: section 2.2). Its length is its current map's. -/
structure Bulletin where
  state : BulletinState
  serial : Nat
  category : Category
  current : TextMap
  staged : Option TextMap
  commitPending : Bool
  schedule : Schedule
  countdown : Nat
  revision : Nat
  sent : Bool
  revised : Bool
  completed : Nat
  interrupted : Nat
  abandoned : Nat
  missed : Nat
  onAir : Nat
  deriving DecidableEq, Repr

/-! ## Schedule Unit (04) -/

inductive MarkSource where
  | external | internal
  deriving DecidableEq, Repr

inductive ClockStatus where
  | locked | drifting
  deriving DecidableEq, Repr

/-- The Station Clock (04: R53). The advance age is the time since `lastAdvance`. -/
structure Clock where
  minute : Nat
  isSet : Bool
  status : ClockStatus
  source : MarkSource
  advanceTimer : Timer
  markLatched : Bool
  lastAdvance : Nat
  deriving DecidableEq, Repr

/-! ## Circuit Table (05) -/

/-- FREE, CLOSING, or neither; 05: R71 works out ACTIVE and HELD from the hold reasons. -/
inductive CircuitLife where
  | free | bound | closing
  deriving DecidableEq, Repr

inductive Flow where
  | flowing | pausedThreshold | pausedStore
  deriving DecidableEq, Repr

/-- A circuit record (05: R70). The hold timer runs while there is a wait start and hold notified is no (05: R78). -/
structure Circuit where
  life : CircuitLife
  hostHold : Bool
  channelHold : Bool
  channel : Fin 8
  callUp : List Byte
  chain : Chain
  flow : Flow
  resume : Bool
  waitStart : Option Nat
  holdNotified : Bool
  movePending : Option (Fin 8)
  drainPending : Bool
  deriving DecidableEq, Repr

/-! ## Channel Controllers (06 to 09) -/

inductive Code where
  | fiveUnit | sevenUnit
  deriving DecidableEq, Repr

/-- A profile (06: R92): rate in baud, permit timeout in ms, retry interval in s. -/
structure Profile where
  rate : Nat
  code : Code
  lead : Nat
  phasing : Nat
  keyHold : Nat
  permitTimeout : Nat
  retryInterval : Nat
  telexQuota : Nat
  turnGrace : Nat
  telexBurst : Nat
  bulletinBurst : Nat
  categories : List Category
  observeSilence : Bool
  deriving DecidableEq, Repr

inductive ChannelState where
  | unset | off | locking | idle | requesting | keyed | backoff | stopping
  deriving DecidableEq, Repr

inductive Shift where
  | letters | figures | unknown
  deriving DecidableEq, Repr

/-- A symbol (06: R93). A data character keeps beside the code sent the stored character it is sent for (06: R108). -/
inductive Symbol where
  | idle
  | phase
  | shiftLetters
  | shiftFigures
  | data (sent source : Byte)
  deriving DecidableEq, Repr

/-- The symbol in progress and the time of its completion (06: R93). -/
structure Emission where
  symbol : Symbol
  due : Nat
  deriving DecidableEq, Repr

/-- The phases of a turn (08: R128); HOLD is a KEYED channel with a clear turn record (06: R101). -/
inductive Phase where
  | lead | preamble | header | body | gap | closing | trailer
  deriving DecidableEq, Repr

/-- The reasons of the first kind, which wait for a point and emit a sequence (09: R152). -/
inductive CutReason where
  | distress | urgency | withdraw | purge
  deriving DecidableEq, Repr

/-- The reasons of the second kind, which stop emission (09: R158). -/
inductive StopReason where
  | permit | silence | abort
  deriving DecidableEq, Repr

/-- 09: R152, R154. -/
structure PendingCut where
  reason : CutReason
  urgencyCount : Nat
  deriving DecidableEq, Repr

/-- A telex turn's own fields (07: R122, 08: R128). -/
structure TelexTurn where
  circuit : Fin 32
  bodyCount : Nat
  graceCount : Nat
  deriving DecidableEq, Repr

/-- A pass's own fields: the values loaded at its start (07: R121), and 08: R128. -/
structure PassTurn where
  bulletin : Fin 64
  serial : Nat
  category : Category
  rank : Rank
  revision : Nat
  length : Nat
  passes : Nat
  interrupted : Nat
  minuteQueued : Nat
  bodyOffset : Nat
  gapTimer : Option Timer
  abandoned : Bool
  deriving DecidableEq, Repr

inductive TurnKind where
  | telex (t : TelexTurn)
  | pass (p : PassTurn)
  deriving DecidableEq, Repr

/-- The turn record while a turn is current (08: R128, 09: R152). Phase `closing` is BREAK. -/
structure Turn where
  kind : TurnKind
  phase : Phase
  phaseCount : Nat
  text : List Byte
  textPosition : Nat
  held : Option Byte
  pendingCut : Option PendingCut
  cutInProgress : Option CutReason
  deriving DecidableEq, Repr

/-- A broadcast queue entry (04: R66). -/
structure Entry where
  bulletin : Fin 64
  rank : Rank
  passes : Nat
  interrupted : Nat
  minuteQueued : Nat
  deriving DecidableEq, Repr

/-- A Channel Controller (06: R91). -/
structure Channel where
  profile : Option Profile
  state : ChannelState
  keyreq : Bool
  output : Option Emission
  turn : Option Turn
  silenceStop : Bool
  holdCount : Nat
  lockTimer : Option Timer
  permitTimer : Option Timer
  retryTimer : Option Timer
  queue : List Entry
  bound : List (Fin 32)
  bulletinRun : Nat
  telexRun : Nat
  lastServed : Option (Fin 32)
  shift : Shift
  substitutions : Nat
  deriving DecidableEq, Repr

/-! ## Link Interface and Request Processor (10) -/

/-- A checked request frame (10: R168). -/
structure Frame where
  tag : Byte
  position : BitVec 4
  more : Bool
  payload : List Byte
  deriving DecidableEq, Repr

/-- The ASSEMBLING state (10: R167): the octets held, octet 0 first, and the inter-octet timer. -/
structure Assembly where
  octets : List Byte
  timer : Timer
  deriving DecidableEq, Repr

/-- The statuses of 10: R177, in the order of their codes. -/
inductive Status where
  | ok | partialText | badRequest | range | state | notPresent | nullEntry | storeFull | limit | readOnly | category
  | badCharacter | incomplete | revisionLimit | skipped | batchDiscarded | busy
  deriving DecidableEq, Repr

/-- A reply in the reply list (10: R177), with the number of its payload octets already put into frames. -/
structure Reply where
  tag : Byte
  position : BitVec 4
  kind : Byte
  status : Status
  fields : List Byte
  sent : Nat
  deriving DecidableEq, Repr

/-- The kinds of an outgoing frame (10: R168). -/
inductive FrameKind where
  | reply | notice
  deriving DecidableEq, Repr

/-- The outgoing frame in progress (10: R178) and the time of its completion (10: R166). -/
structure OutFrame where
  kind : FrameKind
  more : Bool
  position : BitVec 4
  tag : Byte
  payload : List Byte
  due : Nat
  deriving DecidableEq, Repr

/-- An open batch (10: R174): the frames held, first position first, and the batch timer. The expected position is
the number of frames held. -/
structure Batch where
  held : List Frame
  timer : Timer
  deriving DecidableEq, Repr

/-- The Link Interface and the Request Processor (10: R167, R171 to R173, R177, R178; 11: R185). An assembly of none
is HUNTING, an outgoing frame of none is an idle line, a batch of none is no open batch. `executing` holds the
requests of a whole batch that are still to be executed, first position first (R176, log 5). -/
structure Link where
  assembly : Option Assembly
  receiveQueue : List Frame
  linkReady : Bool
  errors : Nat
  replies : List Reply
  outgoing : Option OutFrame
  batch : Option Batch
  executing : List Frame
  restartPending : Bool
  deriving DecidableEq, Repr

/-! ## Notice Queue (11) -/

/-- The 104 notice keys (11: R179); no notice is raised for bulletin 0. -/
inductive NoticeKey where
  | circuit (c : Fin 32)
  | bulletin (n : Fin 64)
  | channel (ch : Fin 8)
  | station
  deriving DecidableEq, Repr

/-- The event names of the four kinds, each kind's in the order of 11: R181. -/
inductive NoticeEvent where
  | pause | resume | holdExceeded | moved | closed
  | completed | interrupted | abandoned | missed | committed | retired
  | locked | off | permitTimeout | permitLost | gapStart | gapEnd
  | started | clockDrifting | clockLocked | silenceOn | silenceOff
  deriving DecidableEq, Repr

/-- The counts a raise carries or an entry has gathered (11: R179). -/
structure Counts where
  completed : Nat
  interrupted : Nat
  abandoned : Nat
  missed : Nat
  linkErrors : Nat
  deriving DecidableEq, Repr

/-- A waiting notice (11: R179). The event set is a list without repeats. -/
structure NoticeEntry where
  key : NoticeKey
  events : List NoticeEvent
  counts : Counts
  deriving DecidableEq, Repr

/-! ## The part -/

/-- The whole part. Entry 0 of `bulletins` is the null entry, and an EMPTY entry is none (02: R19, R20). `now` is the
time in ticks (log 1); `keyok` and `silence` are the levels of the inputs (log 7); `resetHeld` says that RESET is low
(11: R184); `pending` is the queue of commands, first in, first out (log 21). `pauses` says after how many requests, one
more than its head, the execution of a batch next lets events of other blocks come (10: R176; the model's own, log 5). -/
structure State where
  store : TextStore
  bulletins : Vector (Option Bulletin) 64
  clock : Clock
  holdLimit : Nat
  gapTimeout : Nat
  circuits : Vector Circuit 32
  channels : Vector Channel 8
  keyok : Vector Bool 8
  silence : Bool
  link : Link
  notices : List NoticeEntry
  resetHeld : Bool
  now : Nat
  pending : List Instr
  pauses : List Nat
  deriving DecidableEq, Repr

/-- The faults of the part: none. The spec names no condition that stops it; every failing request is a reply with a
status (10: R177) and every line error is counted (10: R171). No command raises a fault, which is safe and unsafe of
nothing. -/
inductive Fault where
  deriving DecidableEq, Repr

/-- The refusals of the model. -/
inductive Refusal where
  /-- Raised by an arm of exec whose command has no meaning yet, under the row's mnemonic: safe. No arm does. -/
  | notModelled (mnemonic : String)
  deriving DecidableEq, Repr

/-- The value of a FREE record after reset (05: R70). -/
def Circuit.reset : Circuit where
  life := .free
  hostHold := false
  channelHold := false
  channel := 0
  callUp := []
  chain := ⟨[], 0, 0⟩
  flow := .flowing
  resume := false
  waitStart := none
  holdNotified := false
  movePending := none
  drainPending := false

/-- 06: R91, last column. -/
def Channel.reset : Channel where
  profile := none
  state := .unset
  keyreq := false
  output := none
  turn := none
  silenceStop := false
  holdCount := 0
  lockTimer := none
  permitTimer := none
  retryTimer := none
  queue := []
  bound := []
  bulletinRun := 0
  telexRun := 0
  lastServed := none
  shift := .unknown
  substitutions := 0

/-- The Link Interface held at rest (11: R184): LINK READY low and the line idle. -/
def Link.reset : Link where
  assembly := none
  receiveQueue := []
  linkReady := false
  errors := 0
  replies := []
  outgoing := none
  batch := none
  executing := []
  restartPending := false

/-- 04: R53. The advance timer and the advance age start with the release (11: R184), at time 0 (log 17). -/
def Clock.reset : Clock where
  minute := 0
  isSet := false
  status := .drifting
  source := .external
  advanceTimer := ⟨Config.advancePeriodLocked, Config.advancePeriodLocked⟩
  markLatched := false
  lastAdvance := 0

/-- Every block at its reset values while RESET is low (11: R184 and its table of reset values), with the levels of
the inputs, the waiting commands and the pauses given. The hold limit is 120 s, the gap timeout 20 s, the store reserve 64.
No cell keeps what a request has written (the model's choice, log 8). -/
def State.atRest (keyok : Vector Bool 8) (silence : Bool) (pending : List Instr) (pauses : List Nat) : State where
  store := ⟨List.finRange 1024, 64, []⟩
  bulletins := Vector.replicate 64 none
  clock := Clock.reset
  holdLimit := 120
  gapTimeout := 20
  circuits := Vector.replicate 32 Circuit.reset
  channels := Vector.replicate 8 Channel.reset
  keyok := keyok
  silence := silence
  link := Link.reset
  notices := []
  resetHeld := true
  now := 0
  pending := pending
  pauses := pauses

/-- The first notice after a release of RESET with SILENCE released (11: R184, R181, 10: R169): station key, no key
number, STARTED, minute 0, DRIFTING, RELEASED, free count 1024, 0 link errors. -/
def startedPayload : List Byte := [3, 0, 1, 0, 0, 1, 1, 4, 0, 0, 0]

/-- The part right after power-on reset (11: R184): every block at its reset values, LINK READY asserted, and the
STARTED notice, a frame of 17 octets, just begun. The inputs are taken as SILENCE released and KEYOK low
(DESIGN CHOICE, log 7); no command waits, and no batch pauses (DESIGN CHOICE, log 5). -/
def State.reset : State :=
  { State.atRest (Vector.replicate 8 false) false [] [] with
    resetHeld := false
    link := { Link.reset with
      linkReady := true
      outgoing := some ⟨.notice, false, 0, 0, startedPayload, 17 * Config.ticksPerOctet⟩ } }

end Sys2Proof.Machine
end

