-- ==== Sys2Proof/Machine/Wire.lean ====
section
/-! DEFINITION. What the line carries (10: R168, R169, R177; 11: R181): the frame check, the octets of a frame, the
codes of statuses, and the place of every name in the list its rule gives. -/

namespace Sys2Proof.Machine

/-! ## The frame check (10: R168) -/

/-- One step of the remainder: the top bit shifted out selects x^16 + x^12 + x^5 + 1. -/
def crcBit (c : Crc) : Crc := if c.msb then (c <<< 1) ^^^ 0x1021 else c <<< 1

/-- One octet, most significant bit first. -/
def crcOctet (c : Crc) (b : Byte) : Crc :=
  crcBit (crcBit (crcBit (crcBit (crcBit (crcBit (crcBit (crcBit (c ^^^ ((b.setWidth 16) <<< 8)))))))))

/-- The remainder over the octets, from 0xFFFF, with no final inversion. -/
def crc (bs : List Byte) : Crc := bs.foldl crcOctet 0xFFFF

/-- The two CRC octets, high octet first. -/
def crcOctets (bs : List Byte) : List Byte := [(crc bs).extractLsb' 8 8, (crc bs).extractLsb' 0 8]

/-- The sync octet (10: R168). -/
def sync : Byte := 0xA5

/-- The control octet (10: R168): kind in bits 7 and 6, MORE in bit 5, bit 4 sent as 0, position in bits 3 to 0. -/
def controlOctet (kind : BitVec 2) (more : Bool) (position : BitVec 4) : Byte :=
  kind ++ BitVec.ofBool more ++ 0#1 ++ position

/-- The octets of a frame (10: R168). -/
def frameOctets (kind : BitVec 2) (more : Bool) (position : BitVec 4) (tag : Byte) (payload : List Byte) : List Byte :=
  let inside := controlOctet kind more position :: tag :: BitVec.ofNat 8 payload.length :: payload
  sync :: inside ++ crcOctets inside

/-- The kind bits of a request, a reply and a notice (10: R168). -/
def requestKind : BitVec 2 := 1

def FrameKind.bits : FrameKind → BitVec 2
  | .reply => 2
  | .notice => 3

/-- The octets of a request frame as the station computer sends them. -/
def Frame.octets (f : Frame) : List Byte := frameOctets requestKind f.more f.position f.tag f.payload

/-- The octets of an outgoing frame, from sync to CRC (10: R178). -/
def OutFrame.octets (f : OutFrame) : List Byte := frameOctets f.kind.bits f.more f.position f.tag f.payload

/-- How long a frame with this payload takes on the line (10: R166). -/
def frameTicks (payload : List Byte) : Nat := (payload.length + 6) * Config.ticksPerOctet

/-! ## Codes and places (10: R169, R177) -/

/-- 10: R177. -/
def Status.code : Status → Byte
  | .ok => 0x00
  | .partialText => 0x01
  | .badRequest => 0x02
  | .range => 0x03
  | .state => 0x04
  | .notPresent => 0x05
  | .nullEntry => 0x06
  | .storeFull => 0x07
  | .limit => 0x08
  | .readOnly => 0x09
  | .category => 0x0A
  | .badCharacter => 0x0B
  | .incomplete => 0x0C
  | .revisionLimit => 0x0D
  | .skipped => 0x0E
  | .batchDiscarded => 0x0F
  | .busy => 0x10

/-- 02: R21's list. -/
def Category.place : Category → Nat
  | .dr => 0
  | .ur => 1
  | .nw => 2
  | .mw => 3
  | .wf => 4
  | .ir => 5
  | .rn => 6

/-- The bulletin states in the order of 02: section 2.2, EMPTY first. -/
def bulletinStatePlace : Option BulletinState → Nat
  | none => 0
  | some .composing => 1
  | some .released => 2
  | some .withdrawing => 3

/-- 04: R53. -/
def MarkSource.place : MarkSource → Nat
  | .external => 0
  | .internal => 1

def ClockStatus.place : ClockStatus → Nat
  | .locked => 0
  | .drifting => 1

/-- 06: R92. -/
def Code.place : Code → Nat
  | .fiveUnit => 0
  | .sevenUnit => 1

/-- 06: R91. -/
def ChannelState.place : ChannelState → Nat
  | .unset => 0
  | .off => 1
  | .locking => 2
  | .idle => 3
  | .requesting => 4
  | .keyed => 5
  | .backoff => 6
  | .stopping => 7

def Shift.place : Shift → Nat
  | .letters => 0
  | .figures => 1
  | .unknown => 2

/-- 08: R128. -/
def Phase.place : Phase → Nat
  | .lead => 0
  | .preamble => 1
  | .header => 2
  | .body => 3
  | .gap => 4
  | .closing => 5
  | .trailer => 6

/-- 09: R152. -/
def CutReason.place : CutReason → Nat
  | .distress => 0
  | .urgency => 1
  | .withdraw => 2
  | .purge => 3

/-- 05: R70. -/
def Flow.place : Flow → Nat
  | .flowing => 0
  | .pausedThreshold => 1
  | .pausedStore => 2

/-- The level of SILENCE, ASSERTED or RELEASED (11: R181). -/
def silencePlace (asserted : Bool) : Nat := if asserted then 0 else 1

/-- The place of an event in its kind's list (11: R181). -/
def NoticeEvent.place : NoticeEvent → Nat
  | .pause => 0
  | .resume => 1
  | .holdExceeded => 2
  | .moved => 3
  | .closed => 4
  | .completed => 0
  | .interrupted => 1
  | .abandoned => 2
  | .missed => 3
  | .committed => 4
  | .retired => 5
  | .locked => 0
  | .off => 1
  | .permitTimeout => 2
  | .permitLost => 3
  | .gapStart => 4
  | .gapEnd => 5
  | .started => 0
  | .clockDrifting => 1
  | .clockLocked => 2
  | .silenceOn => 3
  | .silenceOff => 4

/-- 11: R179. -/
def NoticeKey.kindPlace : NoticeKey → Nat
  | .circuit _ => 0
  | .bulletin _ => 1
  | .channel _ => 2
  | .station => 3

/-- The key number, absent for the station key (11: R181). -/
def NoticeKey.number : NoticeKey → Option Nat
  | .circuit c => some c.val
  | .bulletin n => some n.val
  | .channel ch => some ch.val
  | .station => none

/-- A yes-or-no field (10: R169). -/
def encodeFlag (b : Bool) : List Byte := if b then [1] else [0]

/-- A set as a bit field of one octet (10: R169), given by the places of its members. -/
def encodePlaces (ps : List Nat) : List Byte := [ps.foldl (fun b p => b ||| ((1 : Byte) <<< p)) 0]

end Sys2Proof.Machine
end

