-- ==== Sys2Proof/Machine/Ops.lean ====
section
/-! DEFINITION. The named operations over the state: the one place where each table is read and written, time and
timers, the Text Store's cells, free list, bulletin maps and circuit chains (01), and the two places of a broadcast
queue (07: R114). -/

namespace Sys2Proof.Machine

/-! ## Reading and writing the tables -/

def State.channel (s : State) (ch : Fin 8) : Channel := s.channels[ch.val]

def State.setChannel (s : State) (ch : Fin 8) (x : Channel) : State :=
  { s with channels := s.channels.set ch.val x }

def State.circuit (s : State) (c : Fin 32) : Circuit := s.circuits[c.val]

def State.setCircuit (s : State) (c : Fin 32) (x : Circuit) : State :=
  { s with circuits := s.circuits.set c.val x }

/-- The descriptor of an entry, none while it is EMPTY (02: R20). -/
def State.bulletin (s : State) (n : Fin 64) : Option Bulletin := s.bulletins[n.val]

def State.setBulletin (s : State) (n : Fin 64) (x : Option Bulletin) : State :=
  { s with bulletins := s.bulletins.set n.val x }

/-- Changes the descriptor of an entry that is not EMPTY. -/
def State.mapBulletin (s : State) (n : Fin 64) (f : Bulletin → Bulletin) : State :=
  s.setBulletin n ((s.bulletin n).map f)

def State.setLink (s : State) (l : Link) : State := { s with link := l }

def State.setStore (s : State) (t : TextStore) : State := { s with store := t }

def State.setClock (s : State) (c : Clock) : State := { s with clock := c }

/-- The channels, the circuits and the entries 1 to 63 in ascending number. -/
def allChannels : List (Fin 8) := List.finRange 8

def allCircuits : List (Fin 32) := List.finRange 32

def allEntries : List (Fin 64) := (List.finRange 64).tail

/-- The profile of a channel. A channel that has none and yet needs one is met in no run (log 16). -/
def Channel.settings (x : Channel) : Profile :=
  x.profile.getD ⟨50, .sevenUnit, 0, 4, 0, 100, 1, 64, 2, 1, 1, [], false⟩

/-- ON is IDLE, REQUESTING, KEYED and BACKOFF (06: section 6.2). -/
def Channel.isOn (x : Channel) : Bool :=
  match x.state with
  | .idle | .requesting | .keyed | .backoff => true
  | .unset | .off | .locking | .stopping => false

/-- A channel that has no profile accepts no category (02: R31). -/
def Channel.accepts (x : Channel) (k : Category) : Bool := x.profile.any fun p => p.categories.contains k

/-- The channel observes silence and SILENCE is asserted (06: R107). -/
def State.silenced (s : State) (ch : Fin 8) : Bool :=
  s.silence && (s.channel ch).profile.any fun p => p.observeSilence

/-! ## Time (log 1, log 2) -/

/-- A timer started now. -/
def State.startTimer (s : State) (period : Nat) : Timer := ⟨period, s.now + period⟩

/-- The event that ends at `t` is taken: the time is `t`, or now if that is later. -/
def State.reach (s : State) (t : Nat) : State := { s with now := max s.now t }

/-- The symbol period (06: R93): 7.5 unit intervals for five-unit code and 10 for seven-unit. -/
def Profile.symbolTicks (p : Profile) : Nat :=
  match p.code with
  | .fiveUnit => 15 * Config.ticksPerSecond / (2 * p.rate)
  | .sevenUnit => 10 * Config.ticksPerSecond / p.rate

/-- A counter that stops at its largest value (00: Counts and saturation). -/
def saturate (limit n : Nat) : Nat := min limit n

/-! ## The cells of the Text Store (01: R1) -/

/-- What a position that no request has written reads as. The spec calls it undefined and lets nothing read it
(DESIGN CHOICE, log 8). -/
def blankByte : Byte := 0

def Memory.read : Memory → Nat → Byte
  | [], _ => blankByte
  | (a, b) :: m, x => if x = a then b else Memory.read m x

/-- Writes one position and keeps the canonical form. -/
def Memory.write : Memory → Nat → Byte → Memory
  | [], x, v => if v = blankByte then [] else [(x, v)]
  | (a, b) :: m, x, v =>
    if x < a then (if v = blankByte then (a, b) :: m else (x, v) :: (a, b) :: m)
    else if x = a then (if v = blankByte then m else (x, v) :: m)
    else (a, b) :: Memory.write m x v

/-- Addresses rise from `low` on and no cell reads as an unlisted one. -/
def Memory.wfFrom : Nat → Memory → Bool
  | _, [] => true
  | low, (a, b) :: m => decide (low ≤ a) && b != blankByte && Memory.wfFrom (a + 1) m

/-- The canonical form of the cells. -/
def Memory.wf (m : Memory) : Bool := Memory.wfFrom 0 m

/-- The address of a position of a block (01: R1). -/
def cellAddress (b : BlockNo) (position : Nat) : Nat := b.val * Config.blockSize + position

/-! ## The free list (01: R4 to R9) -/

def State.freeCount (s : State) : Nat := s.store.free.length

/-- The blocks that a text of this length needs (01: R8). -/
def blocksNeeded (length : Nat) : Nat := (length + 63) / 64

/-- A bulletin claim is granted when the free count less n is at least the store reserve (01: R8). -/
def State.claimGranted (s : State) (n : Nat) : Bool := n + s.store.reserve ≤ s.freeCount

/-- Takes the first n blocks off the free list (01: R5). -/
def State.takeBlocks (s : State) (n : Nat) : State :=
  s.setStore { s.store with free := s.store.free.drop n }

/-- Appends blocks at the tail of the free list (01: R6). -/
def State.returnBlocks (s : State) (bs : List BlockNo) : State :=
  s.setStore { s.store with free := s.store.free ++ bs }

/-! ## Bulletin maps (01: R10 to R13) -/

/-- A map of the claimed blocks, every fill 0, pointer at position 0 (01: R5, R11, R12). -/
def TextMap.fresh (length : Nat) (bs : List BlockNo) : TextMap :=
  ⟨length, bs.map fun b => ⟨b, 0⟩, 0⟩

def TextMap.blockNumbers (m : TextMap) : List BlockNo := m.blocks.map fun b => b.block

/-- The size of the block at a map position: 64, but for the last (01: R10). -/
def TextMap.size (m : TextMap) (p : Nat) : Nat :=
  if p + 1 < m.blocks.length then 64 else m.length - 64 * (m.blocks.length - 1)

def TextMap.fill (m : TextMap) (p : Nat) : Nat := (m.blocks[p]?).elim 0 fun b => b.fill

/-- Fill equal to size (01: R11). -/
def TextMap.present (m : TextMap) (p : Nat) : Bool := m.size p ≤ m.fill p

def TextMap.allPresent (m : TextMap) : Bool := (List.range m.blocks.length).all m.present

/-- The character at an offset is written (01: R11). -/
def TextMap.written (m : TextMap) (o : Nat) : Bool := o % 64 < m.fill (o / 64)

/-- The character at an offset (01: R10). -/
def TextMap.charAt (m : TextMap) (cells : Memory) (o : Nat) : Byte :=
  (m.blocks[o / 64]?).elim blankByte fun b => cells.read (cellAddress b.block (o % 64))

/-- The pointer is at the end of the text (01: R12). -/
def TextMap.pointerAtEnd (m : TextMap) : Bool := m.blocks.length ≤ m.pointer + 1 && m.present m.pointer

def TextMap.setFill (m : TextMap) (p fill : Nat) : TextMap :=
  { m with blocks := m.blocks.modify p fun b => { b with fill := fill } }

/-- The two manners of a map write (01: R12, R13). -/
inductive Manner where
  | rewriting | extending
  deriving DecidableEq, Repr

/-- One character stored at the pointer, raising that block's fill (01: R12, R13). -/
def TextMap.storeAtPointer (m : TextMap) (cells : Memory) (c : Byte) : TextMap × Memory :=
  match m.blocks[m.pointer]? with
  | none => (m, cells)
  | some b => (m.setFill m.pointer (b.fill + 1), cells.write (cellAddress b.block b.fill) c)

/-- The pointer moved to the next block: at offset 0 with its fill cleared in the rewriting manner (01: R12), at the
fill it has in the extending manner (01: R13). -/
def TextMap.advance (m : TextMap) : Manner → TextMap
  | .rewriting => { m with pointer := m.pointer + 1 }.setFill (m.pointer + 1) 0
  | .extending => { m with pointer := m.pointer + 1 }

/-- Stores characters one at a time from the pointer; the last component counts those stored. It stops at the end of
the text, and in the extending manner at a present block, with the pointer there (01: R12, R13). -/
def TextMap.storeChars (how : Manner) : List Byte → TextMap → Memory → TextMap × Memory × Nat
  | [], m, cells => (m, cells, 0)
  | c :: cs, m, cells =>
    if m.present m.pointer then
      if m.blocks.length ≤ m.pointer + 1 then (m, cells, 0)
      else
        let m := m.advance how
        if m.present m.pointer then (m, cells, 0)
        else
          let (m, cells) := m.storeAtPointer cells c
          let (m, cells, n) := TextMap.storeChars how cs m cells
          (m, cells, n + 1)
    else
      let (m, cells) := m.storeAtPointer cells c
      let (m, cells, n) := TextMap.storeChars how cs m cells
      (m, cells, n + 1)

/-- Where a map write begins, or the status with which it fails and stores nothing (01: R12, R13). -/
def TextMap.beginWrite (m : TextMap) : Manner → Option Nat → Except Status TextMap
  | .rewriting, some p => .ok ({ m with pointer := p }.setFill p 0)
  | .rewriting, none => if m.pointerAtEnd then .error .limit else .ok m
  | .extending, some p => if m.present p then .error .readOnly else .ok { m with pointer := p }
  | .extending, none =>
    if m.pointerAtEnd then .error .limit
    else if m.present m.pointer && m.present (m.pointer + 1) then .error .readOnly
    else .ok m

/-! ## Circuit chains (01: R14 to R17) -/

def Chain.empty : Chain := ⟨[], 0, 0⟩

/-- The character count (01: R14's table). -/
def Chain.count (k : Chain) : Nat :=
  match k.blocks.length with
  | 0 => 0
  | 1 => k.tailFill - k.headOffset
  | n + 2 => (64 - k.headOffset) + 64 * n + k.tailFill

/-- Why an arrival stopped (01: R15). -/
inductive ArrivalStop where
  | limit | noBlock
  deriving DecidableEq, Repr

/-- The character at the head of the queue (01: R16). -/
def Chain.head? (k : Chain) (cells : Memory) : Option Byte :=
  k.blocks.head?.map fun b => cells.read (cellAddress b k.headOffset)

/-- The character is stored at the tail fill's position in the tail block (01: R15, step 3). -/
def Chain.storeAtTail (k : Chain) (cells : Memory) (c : Byte) : Chain × Memory :=
  match k.blocks.getLast? with
  | none => (k, cells)
  | some b => ({ k with tailFill := k.tailFill + 1 }, cells.write (cellAddress b k.tailFill) c)

/-- A claimed block is appended at the tail, with tail fill 0; in an empty chain it is head as well (01: R15). -/
def Chain.append (k : Chain) (b : BlockNo) : Chain :=
  ⟨k.blocks ++ [b], if k.blocks = [] then 0 else k.headOffset, 0⟩

/-- The arrival of characters, one at a time (01: R15): the chain, the store, how many were stored, and the stop. -/
def storeArrival : List Byte → Chain → TextStore → Chain × TextStore × Nat × Option ArrivalStop
  | [], k, t => (k, t, 0, none)
  | c :: cs, k, t =>
    if Config.queueLimit ≤ k.count then (k, t, 0, some .limit)
    else if k.blocks = [] ∨ k.tailFill = 64 then
      match t.free with
      | [] => (k, t, 0, some .noBlock)
      | b :: free =>
        let (k, cells) := (k.append b).storeAtTail t.cells c
        let (k, t, n, stop) := storeArrival cs k { t with free := free, cells := cells }
        (k, t, n + 1, stop)
    else
      let (k, cells) := k.storeAtTail t.cells c
      let (k, t, n, stop) := storeArrival cs k { t with cells := cells }
      (k, t, n + 1, stop)

/-- The head character leaves the queue; the block that this empties leaves the chain (01: R16). -/
def Chain.leave (k : Chain) : Chain × List BlockNo :=
  if k.count ≤ 1 then (Chain.empty, k.blocks)
  else if k.headOffset + 1 = 64 then (⟨k.blocks.tail, 0, k.tailFill⟩, k.blocks.take 1)
  else (⟨k.blocks, k.headOffset + 1, k.tailFill⟩, [])

/-! ## Broadcast queues (07: R114) -/

/-- At the tail of its class: after every entry of its class or a lower class number. -/
def insertAtTail (q : List Entry) (e : Entry) : List Entry :=
  q.takeWhile (fun x => x.rank ≤ e.rank) ++ e :: q.dropWhile (fun x => x.rank ≤ e.rank)

/-- At the head of its class: after every entry of a lower class number. -/
def insertAtHead (q : List Entry) (e : Entry) : List Entry :=
  q.takeWhile (fun x => x.rank < e.rank) ++ e :: q.dropWhile (fun x => x.rank < e.rank)

def Channel.holdsEntry (x : Channel) (n : Fin 64) : Bool := x.queue.any fun e => e.bulletin = n

def TurnKind.isPassOf (n : Fin 64) : TurnKind → Bool
  | .pass p => p.bulletin = n
  | .telex _ => false

def TurnKind.isTurnOf (c : Fin 32) : TurnKind → Bool
  | .pass _ => false
  | .telex t => t.circuit = c

/-- The channel's current turn is a pass of the bulletin. -/
def Channel.carriesPass (x : Channel) (n : Fin 64) : Bool := x.turn.any fun t => t.kind.isPassOf n

/-- The channel's current turn is a telex turn of the circuit. -/
def Channel.carriesCircuit (x : Channel) (c : Fin 32) : Bool := x.turn.any fun t => t.kind.isTurnOf c

/-! ## Classes and circuit states -/

/-- 02: R21. -/
def Category.rank : Category → Rank
  | .dr => 0
  | .ur => 1
  | .nw => 2
  | .mw => 2
  | .wf => 3
  | .ir => 3
  | .rn => 3

/-- The states of 05: R71. -/
inductive CircuitState where
  | free | active | held | closing
  deriving DecidableEq, Repr

/-- 05: R71. -/
def Circuit.state (x : Circuit) : CircuitState :=
  match x.life with
  | .free => .free
  | .closing => .closing
  | .bound => if x.hostHold || x.channelHold then .held else .active

def Circuit.count (x : Circuit) : Nat := x.chain.count

/-- The circuit is the current turn of its channel (05: R72). -/
def State.onAir (s : State) (c : Fin 32) : Bool := (s.channel (s.circuit c).channel).carriesCircuit c

/-- 05: R77. -/
def State.waiting (s : State) (c : Fin 32) : Bool :=
  let x := s.circuit c
  x.life ≠ .free && !x.hostHold && !x.channelHold && decide (1 ≤ x.count) && !s.onAir c

/-- The FREE values of a record, which keeps its channel (05: R70). -/
def Circuit.freed (x : Circuit) : Circuit := { Circuit.reset with channel := x.channel }

/-- The blocks held by bulletin maps, current and staged together (01: R8). -/
def Bulletin.blocksHeld (b : Bulletin) : Nat :=
  b.current.blocks.length + b.staged.elim 0 fun m => m.blocks.length

def State.bulletinHeld (s : State) : Nat :=
  s.bulletins.toList.foldl (fun k b => k + b.elim 0 Bulletin.blocksHeld) 0

end Sys2Proof.Machine
end

