-- ==== Sys2Proof/Machine/Flags.lean ====
section
/-! DEFINITION. What the part reports: raises into the Notice Queue (11: R179, R180), the payload of a notice (R181),
replies into the reply list (10: R177), link errors (R171), and the arbiter of the outgoing line (R178). -/

namespace Sys2Proof.Machine

/-! ## Raises (11: R180) -/

def Counts.zero : Counts := ⟨0, 0, 0, 0, 0⟩

/-- Each carried count is added and stops at 65535. -/
def Counts.add (a b : Counts) : Counts where
  completed := saturate Config.counterMax (a.completed + b.completed)
  interrupted := saturate Config.counterMax (a.interrupted + b.interrupted)
  abandoned := saturate Config.counterMax (a.abandoned + b.abandoned)
  missed := saturate Config.counterMax (a.missed + b.missed)
  linkErrors := saturate Config.counterMax (a.linkErrors + b.linkErrors)

/-- An event already present stays present once. -/
def addEvent (es : List NoticeEvent) : Option NoticeEvent → List NoticeEvent
  | none => es
  | some e => if e ∈ es then es else es ++ [e]

/-- A raise merges into the entry of its key, which keeps its place, or appends an entry. -/
def raiseInto : List NoticeEntry → NoticeKey → Option NoticeEvent → Counts → List NoticeEntry
  | [], key, event, add => [⟨key, addEvent [] event, add⟩]
  | e :: es, key, event, add =>
    if e.key = key then { e with events := addEvent e.events event, counts := e.counts.add add } :: es
    else e :: raiseInto es key event add

def State.raise (s : State) (key : NoticeKey) (event : Option NoticeEvent) (add : Counts) : State :=
  { s with notices := raiseInto s.notices key event add }

/-- A raise that carries an event and no count. -/
def State.raiseEvent (s : State) (key : NoticeKey) (event : NoticeEvent) : State := s.raise key (some event) Counts.zero

/-! ## Link errors (10: R171) -/

def State.linkError (s : State) : State :=
  { s with link := { s.link with errors := saturate Config.counterMax (s.link.errors + 1) } }.raise .station none
    { Counts.zero with linkErrors := 1 }

/-! ## The payload of a notice (11: R181) -/

def CircuitState.place : CircuitState → Nat
  | .free => 0
  | .active => 1
  | .held => 2
  | .closing => 3

/-- HOST is place 0 and CHANNEL place 1. -/
def holdReasonFields (x : Circuit) : List Byte :=
  encodePlaces ((if x.hostHold then [0] else []) ++ (if x.channelHold then [1] else []))

/-- The state fields of a circuit notice: state, flow with its reason, queue count, channel (05: R90, 11: R181). A CLOSING
circuit has its hold reasons beside the state (05: R71), and no other (the model's choice, log 30). -/
def Circuit.noticeFields (x : Circuit) : List Byte :=
  encodeOctet x.state.place ++ (if x.state = .closing then holdReasonFields x else []) ++
  encodeOctet x.flow.place ++ encodeWord x.count ++ encodeOctet x.channel.val

/-- The state fields of a bulletin notice: state, revision, on-air count; 0 and 0 for an EMPTY entry. -/
def bulletinNoticeFields (b : Option Bulletin) : List Byte :=
  encodeOctet (bulletinStatePlace (b.map fun x => x.state)) ++ encodeWord (b.elim 0 fun x => x.revision) ++
  encodeOctet (b.elim 0 fun x => x.onAir)

/-- The state fields of the station notice: minute of day, clock status, silence state, free count. -/
def State.stationNoticeFields (s : State) : List Byte :=
  encodeWord s.clock.minute ++ encodeOctet s.clock.status.place ++ encodeOctet (silencePlace s.silence) ++
  encodeWord s.freeCount

/-- The state fields and the counts of a notice, in the order of 11: R181. The station notice carries the link error
count of the Link Interface (10: R171). -/
def State.noticeBody (s : State) (e : NoticeEntry) : List Byte :=
  match e.key with
  | .circuit c => (s.circuit c).noticeFields
  | .bulletin n =>
    bulletinNoticeFields (s.bulletin n) ++ encodeWord e.counts.completed ++ encodeWord e.counts.interrupted ++
    encodeWord e.counts.abandoned ++ encodeWord e.counts.missed
  | .channel ch => encodeOctet (s.channel ch).state.place
  | .station => s.stationNoticeFields ++ encodeWord s.link.errors

/-- The payload: key kind, key number, event set, state fields, counts. -/
def State.noticePayload (s : State) (e : NoticeEntry) : List Byte :=
  encodeOctet e.key.kindPlace ++ encodeOptional e.key.number ++ encodePlaces (e.events.map NoticeEvent.place) ++
  s.noticeBody e

/-! ## Replies (10: R177) -/

/-- What the owning block forms of a request: its status and its reply fields (10: R173). -/
structure Verdict where
  status : Status
  fields : List Byte
  deriving DecidableEq, Repr

def Verdict.ok : Verdict := ⟨.ok, []⟩

/-- RANGE names a field by its place among the fields of the request (10: R169). -/
def Verdict.range (field : Nat) : Verdict := ⟨.range, encodeOctet field⟩

def Verdict.fail (st : Status) : Verdict := ⟨st, []⟩

/-- The payload of a reply: the kind octet, the status code, the reply fields (10: R177). -/
def Reply.payload (r : Reply) : List Byte := r.kind :: r.status.code :: r.fields

/-- A reply formed and placed at the tail of the reply list. -/
def State.placeReply (s : State) (who : ReplyTo) (kind : Byte) (v : Verdict) : State :=
  { s with link := { s.link with replies := s.link.replies ++ [⟨who.tag, who.position, kind, v.status, v.fields, 0⟩] } }

/-- The kind octet of a reply is the first payload octet of its request, or 0 (10: R177). -/
def Frame.kindOctet (f : Frame) : Byte := f.payload.head?.getD 0

/-- A reply that carries no more than a status, to a frame. -/
def State.replyStatus (s : State) (f : Frame) (st : Status) : State :=
  s.placeReply ⟨f.tag, f.position⟩ f.kindOctet ⟨st, []⟩

/-- Whether a reply was formed by the Link Interface (10: R172). -/
def Reply.isBusy (r : Reply) : Bool := r.status = .busy

/-! ## The arbiter of the outgoing line (10: R178) -/

/-- The next frame of a reply begins: at most 240 octets of its payload, with MORE set if octets remain (10: R177). -/
def State.beginReply (s : State) (r : Reply) (rest : List Reply) : State :=
  let chunk := (r.payload.drop r.sent).take Config.payloadLimit
  let sent := r.sent + chunk.length
  { s with link := { s.link with
      replies := { r with sent := sent } :: rest
      outgoing := some ⟨.reply, decide (sent < r.payload.length), r.position, r.tag, chunk, s.now + frameTicks chunk⟩ } }

/-- A notice begins: its entry leaves the queue, its snapshot is formed, and the station notice sets the link error
count back to 0 (11: R181, 10: R171). -/
def State.beginNotice (s : State) (e : NoticeEntry) (rest : List NoticeEntry) : State :=
  let payload := s.noticePayload e
  { s with
    notices := rest
    link := { s.link with
      errors := if e.key = .station then 0 else s.link.errors
      outgoing := some ⟨.notice, false, 0, 0, payload, s.now + frameTicks payload⟩ } }

/-- What an idle line sends next: a reply before any notice. -/
def State.chooseNext (s : State) : State :=
  match s.link.replies, s.notices with
  | r :: rest, _ => s.beginReply r rest
  | [], e :: rest => s.beginNotice e rest
  | [], [] => s

/-- At the end of an event that gives an idle line something to send, the arbiter chooses (log 3). -/
def State.arbitrate (s : State) : State := if s.link.outgoing.isSome then s else s.chooseNext

end Sys2Proof.Machine
end

