-- ==== Sys2Proof/Machine/Operands.lean ====
section
/-! DEFINITION. The operands of the requests: the range checks that each rule makes on a field and the value an
accepted field stands for (02: R19, R21, R22; 05: R70; 06: R91, R92; 01: R2), and the conversion of a character for
its channel's code (06: R108). -/

namespace Sys2Proof.Machine

/-! ## Numbers of entries, circuits and channels -/

/-- The number checks of 02: R19: 0, then 64 or above. -/
def entryNumber (n : Nat) : Except Verdict (Fin 64) :=
  if n = 0 then .error (.fail .nullEntry) else if h : n < 64 then .ok ⟨n, h⟩ else .error (.range 0)

/-- 02: R19 for the requests that an EMPTY entry fails with NOT_PRESENT. -/
def State.presentEntry (s : State) (n : Nat) : Except Verdict (Fin 64 × Bulletin) :=
  match entryNumber n with
  | .error v => .error v
  | .ok i =>
    match s.bulletin i with
    | none => .error (.fail .notPresent)
    | some b => .ok (i, b)

/-- 05: R70. -/
def circuitNumber (n : Nat) : Except Verdict (Fin 32) := if h : n < 32 then .ok ⟨n, h⟩ else .error (.range 0)

/-- A channel number in the field at a place (06: R91, 05: R73, R83). -/
def channelNumber (field n : Nat) : Except Verdict (Fin 8) := if h : n < 8 then .ok ⟨n, h⟩ else .error (.range field)

/-! ## Characters (01: R2) -/

def acceptedChar (c : Byte) : Bool := (0x20 ≤ c && c ≤ 0x7E) || c = 0x0D || c = 0x0A

/-- A call-up string takes 0x20 to 0x7E only (05: R73). -/
def acceptedCallUp (c : Byte) : Bool := 0x20 ≤ c && c ≤ 0x7E

/-! ## Sets and names -/

/-- A set of channels as a bit field (10: R169), in ascending order. -/
def channelsOfMask (mask : Nat) : List (Fin 8) := allChannels.filter fun ch => mask.testBit ch.val

def allCategories : List Category := [.dr, .ur, .nw, .mw, .wf, .ir, .rn]

/-- The category at a place of 02: R21's list. -/
def categoryAt (n : Nat) : Option Category := allCategories[n]?

/-- A set of categories; bit 7 names none and is out of range (log 10). -/
def categoriesOfMask (mask : Nat) : Option (List Category) :=
  if mask < 128 then some (allCategories.filter fun k => mask.testBit k.place) else none

def codeAt : Nat → Option Code
  | 0 => some .fiveUnit
  | 1 => some .sevenUnit
  | _ => none

def markSourceAt : Nat → Option MarkSource
  | 0 => some .external
  | 1 => some .internal
  | _ => none

/-- A yes-or-no octet (10: R169). -/
def flagAt : Nat → Option Bool
  | 0 => some false
  | 1 => some true
  | _ => none

def within (low high n : Nat) : Bool := low ≤ n && n ≤ high

/-! ## The profile record (06: R92) -/

/-- The fields checked in the order of the table; the channel is field 0, so rate is field 1. -/
def acceptProfile (f : ProfileFields) : Except Verdict Profile :=
  if !([50, 75, 100, 200].contains f.rate) then .error (.range 1)
  else match codeAt f.code with
  | none => .error (.range 2)
  | some code =>
    if !within 0 32 f.lead then .error (.range 3)
    else if !within 4 64 f.phasing then .error (.range 4)
    else if !within 0 255 f.keyHold then .error (.range 5)
    else if !within 100 5000 f.permitTimeout then .error (.range 6)
    else if !within 1 60 f.retryInterval then .error (.range 7)
    else if !within 64 2048 f.telexQuota then .error (.range 8)
    else if !within 2 64 f.turnGrace then .error (.range 9)
    else if !within 1 8 f.telexBurst then .error (.range 10)
    else if !within 1 8 f.bulletinBurst then .error (.range 11)
    else match categoriesOfMask f.categories with
    | none => .error (.range 12)
    | some categories =>
      match flagAt f.observeSilence with
      | none => .error (.range 13)
      | some observe =>
        .ok ⟨f.rate, code, f.lead, f.phasing, f.keyHold, f.permitTimeout, f.retryInterval, f.telexQuota, f.turnGrace,
          f.telexBurst, f.bulletinBurst, categories, observe⟩

/-! ## The schedule group (02: R22) -/

def strictlyAscending : List Nat → Bool
  | a :: b :: l => decide (a < b) && strictlyAscending (b :: l)
  | _ => true

def acceptStart : StartField → Option Start
  | .now => some .now
  | .atMinutes ms =>
    if within 1 8 ms.length && ms.all (fun m => decide (m ≤ 1439)) && strictlyAscending ms then some (.atMinutes ms) else none
  | .every n => if within 5 1440 n then some (.every n) else none

/-- The group checked field by field; `first` is the place of the channel mask among the request's fields (log 23). -/
def acceptSchedule (first : Nat) (f : ScheduleFields) : Except Verdict Schedule :=
  if !within 0 255 f.mask then .error (.range first)
  else match acceptStart f.start with
  | none => .error (.range (first + 1))
  | some start =>
    if !within 1 3 f.passes then .error (.range (first + 2))
    else if !(f.limit.all (within 1 255)) then .error (.range (first + 3))
    else .ok ⟨channelsOfMask f.mask, start, f.passes, f.limit⟩

/-- The every countdown that goes with an accepted group: the interval, or 0 (02: R22). -/
def Start.countdown : Start → Nat
  | .every n => n
  | .now => 0
  | .atMinutes _ => 0

/-! ## Five-unit code (06: R108, R109) -/

/-- What is sent for a character, the shift it needs, and whether another character is sent in its place as "?". -/
structure Converted where
  sent : Byte
  need : Option Shift
  substituted : Bool
  deriving DecidableEq, Repr

/-- The digits and - ? : ( ) . , ' = / + . -/
def isFigure (c : Byte) : Bool :=
  (0x30 ≤ c && c ≤ 0x39) ||
  [0x2D, 0x3F, 0x3A, 0x28, 0x29, 0x2E, 0x2C, 0x27, 0x3D, 0x2F, 0x2B].contains c

def convert (code : Code) (c : Byte) : Converted :=
  match code with
  | .sevenUnit => ⟨c, none, false⟩
  | .fiveUnit =>
    if 0x41 ≤ c && c ≤ 0x5A then ⟨c, some .letters, false⟩
    else if 0x61 ≤ c && c ≤ 0x7A then ⟨c - 0x20, some .letters, false⟩
    else if isFigure c then ⟨c, some .figures, false⟩
    else if c = 0x20 || c = 0x0D || c = 0x0A then ⟨c, none, false⟩
    else ⟨0x3F, some .figures, true⟩

/-- A space, CR or LF: what makes a word boundary (08: R137). -/
def isBreakChar (c : Byte) : Bool := c = 0x20 || c = 0x0D || c = 0x0A

end Sys2Proof.Machine
end

