-- ==== Sys2Proof/Machine/Selection.lean ====
section
/-! DEFINITION. The turn selector (07): eligibility, the choice, the start of a turn; and the keying steps that lead to
a selection (06: R96, R97, R101). -/

namespace Sys2Proof.Machine

def State.keyokOf (s : State) (ch : Fin 8) : Bool := s.keyok[ch.val]

/-- A symbol begins and lasts one symbol period (06: R93). -/
def State.emit (s : State) (ch : Fin 8) (y : Symbol) : State :=
  let x := s.channel ch
  s.setChannel ch { x with output := some ⟨y, s.now + x.settings.symbolTicks⟩ }

/-! ## Eligibility (07: R115, R116, R113) -/

/-- An entry is eligible unless its bulletin has commit pending, or silence holds back its class. The bulletin of a
queued entry is always RELEASED (07: R115). -/
def State.entryEligible (s : State) (ch : Fin 8) (e : Entry) : Bool :=
  match s.bulletin e.bulletin with
  | none => false
  | some b => b.state = .released && !b.commitPending && !(s.silenced ch && e.rank ≠ 0)

def State.circuitEligible (s : State) (ch : Fin 8) (c : Fin 32) : Bool := s.waiting c && !s.silenced ch

/-- The one question of a consultation (07: R113). -/
def State.anythingEligible (s : State) (ch : Fin 8) : Bool :=
  (s.channel ch).queue.any (s.entryEligible ch) || (s.channel ch).bound.any (s.circuitEligible ch)

/-! ## The choice (07: R119, R120) -/

inductive Choice where
  | entry (e : Entry)
  | circuit (c : Fin 32)
  | nothing
  deriving DecidableEq, Repr

/-- The head eligible entry of a class (07: R115). -/
def State.headEligible (s : State) (ch : Fin 8) (k : Rank) : Option Entry :=
  (s.channel ch).queue.find? fun e => e.rank = k && s.entryEligible ch e

def State.headEligibleAny (s : State) (ch : Fin 8) : Option Entry :=
  (s.channel ch).queue.find? (s.entryEligible ch)

/-- The bound list from the circuit after the last served one, wrapping to the head, each circuit once (07: R120). -/
def Channel.rotation (x : Channel) : List (Fin 32) :=
  match x.lastServed with
  | none => x.bound
  | some c =>
    if c ∈ x.bound then x.bound.drop (x.bound.idxOf c + 1) ++ x.bound.take (x.bound.idxOf c + 1) else x.bound

def State.nextCircuit (s : State) (ch : Fin 8) : Option (Fin 32) :=
  (s.channel ch).rotation.find? (s.circuitEligible ch)

/-- 07: R119, the first choice that applies. -/
def State.choose (s : State) (ch : Fin 8) : Choice :=
  let x := s.channel ch
  let p := x.settings
  match s.headEligible ch 0, s.headEligible ch 1 with
  | some e, _ => .entry e
  | none, some e => .entry e
  | none, none =>
    match (if x.bulletinRun < p.bulletinBurst then s.headEligible ch 2 else none) with
    | some e => .entry e
    | none =>
      match (if p.telexBurst ≤ x.telexRun ∧ x.bulletinRun < p.bulletinBurst then s.headEligible ch 3 else none) with
      | some e => .entry e
      | none =>
        match s.nextCircuit ch with
        | some c => .circuit c
        | none =>
          match s.headEligibleAny ch with
          | some e => .entry e
          | none => .nothing

/-! ## Starting a turn (07: R121, R122) -/

/-- LEAD at a grant, unless the lead is 0, and PREAMBLE otherwise (07: R112, 08: R130). -/
def firstPhase (atGrant : Bool) (p : Profile) : Phase := if atGrant && p.lead ≠ 0 then .lead else .preamble

/-- The first symbol of LEAD or PREAMBLE (08: R130, R131). -/
def firstSymbol : Phase → Symbol
  | .lead => .idle
  | .preamble | .header | .body | .gap | .closing | .trailer => .phase

/-- A turn record at its start (08: R128, 09: R152). -/
def Turn.fresh (kind : TurnKind) (phase : Phase) : Turn := ⟨kind, phase, 0, [], 0, none, none, none⟩

/-- The values that a pass loads (07: R121). -/
def loadPass (b : Bulletin) (e : Entry) : PassTurn where
  bulletin := e.bulletin
  serial := b.serial
  category := b.category
  rank := b.category.rank
  revision := b.revision
  length := b.current.length
  passes := e.passes
  interrupted := e.interrupted
  minuteQueued := e.minuteQueued
  bodyOffset := 0
  gapTimer := none
  abandoned := false

/-- A pass starts from an entry: the entry leaves the queue, the turn record loads the pass, the on-air count goes up
by one and the run counters move (07: R121, R118). -/
def State.startPass (s : State) (atGrant : Bool) (ch : Fin 8) (e : Entry) : State :=
  match s.bulletin e.bulletin with
  | none => s
  | some b =>
    let x := s.channel ch
    let phase := firstPhase atGrant x.settings
    let s := s.setChannel ch { x with
      queue := x.queue.eraseP fun y => y.bulletin = e.bulletin
      turn := some (Turn.fresh (.pass (loadPass b e)) phase)
      holdCount := 0
      bulletinRun := saturate Config.runMax (x.bulletinRun + 1)
      telexRun := 0 }
    let s := s.setBulletin e.bulletin (some { b with onAir := b.onAir + 1 })
    s.emit ch (firstSymbol phase)

/-- A telex turn starts: the circuit becomes the current turn and its wait episode ends (07: R122, 05: R86). -/
def State.startTelex (s : State) (atGrant : Bool) (ch : Fin 8) (c : Fin 32) : State :=
  let x := s.channel ch
  let phase := firstPhase atGrant x.settings
  let s := s.setChannel ch { x with
    turn := some (Turn.fresh (.telex ⟨c, 0, 0⟩) phase)
    holdCount := 0
    lastServed := some c
    telexRun := saturate Config.runMax (x.telexRun + 1)
    bulletinRun := 0 }
  let s := s.setCircuit c { s.circuit c with waitStart := none }
  s.emit ch (firstSymbol phase)

/-- A selection (07: R112): none where it finds nothing, and then nothing of the selector has changed (R123). -/
def State.selectTurn (s : State) (atGrant : Bool) (ch : Fin 8) : Option State :=
  match s.choose ch with
  | .entry e => some (s.startPass atGrant ch e)
  | .circuit c => some (s.startTelex atGrant ch c)
  | .nothing => none

/-! ## Keying around a selection (06: R96, R97, R101, R106) -/

/-- The transmitter is released: KEYREQ drops and the state is IDLE. The callers have just found nothing eligible, so
the consultation of a channel entering IDLE would find nothing (06: R101; log 13). -/
def State.release (s : State) (ch : Fin 8) : State :=
  s.setChannel ch { s.channel ch with
    state := .idle, keyreq := false, output := none, turn := none, holdCount := 0 }

/-- Phase HOLD with hold count 0; a key hold of 0, or SILENCE on a channel that observes it, releases the transmitter
in the same event (06: R101, R106). -/
def State.enterHold (s : State) (ch : Fin 8) : State :=
  if (s.channel ch).settings.keyHold = 0 || s.silenced ch then s.release ch
  else (s.setChannel ch { s.channel ch with turn := none, holdCount := 0 }).emit ch .idle

/-- The grant (06: R97). -/
def State.grant (s : State) (ch : Fin 8) : State :=
  let s := s.setChannel ch { s.channel ch with state := .keyed, permitTimer := none }
  (s.selectTurn true ch).getD (s.enterHold ch)

/-- KEYREQ is raised, the permit timer starts, and the state is REQUESTING; a KEYOK already present is the grant
(06: R96). -/
def State.requestKey (s : State) (ch : Fin 8) : State :=
  let x := s.channel ch
  let s := s.setChannel ch { x with
    state := .requesting
    keyreq := true
    permitTimer := some (s.startTimer (Config.milliseconds x.settings.permitTimeout)) }
  if s.keyokOf ch then s.grant ch else s

/-- An IDLE channel raises KEYREQ if anything is eligible (06: R96). -/
def State.consult (s : State) (ch : Fin 8) : State :=
  if s.anythingEligible ch then s.requestKey ch else s

/-- The report that traffic has become eligible, to a channel that acts on it only in IDLE (07: R117). -/
def State.tellIdle (s : State) (ch : Fin 8) : State :=
  if (s.channel ch).state = .idle then s.consult ch else s

end Sys2Proof.Machine
end

