-- ==== Sys2Proof/Machine/Cuts.lean ====
section
/-! DEFINITION. The causes of the cuts of the first kind (09: R153, R156, R157), and what a channel does when an entry
becomes eligible on it (07: R117). -/

namespace Sys2Proof.Machine

/-- A cause replaces a pending URGENCY cut unless it is URGENCY itself; any other pending cut stays (09: R156). -/
def nextPending (pending : Option PendingCut) (reason : CutReason) : Option PendingCut :=
  match pending with
  | none => some ⟨reason, 0⟩
  | some p => if p.reason = .urgency ∧ reason ≠ .urgency then some ⟨reason, 0⟩ else some p

/-- A cause that arrives in TRAILER or BREAK makes no cut (09: R153, R157). -/
def Turn.causeCut (t : Turn) (reason : CutReason) : Turn :=
  match t.phase with
  | .trailer | .closing => t
  | .lead | .preamble | .header | .body | .gap => { t with pendingCut := nextPending t.pendingCut reason }

def State.causeCut (s : State) (ch : Fin 8) (reason : CutReason) : State :=
  let x := s.channel ch
  s.setChannel ch { x with turn := x.turn.map fun t => t.causeCut reason }

/-- An entry of a lower class number goes ahead of this turn: a telex turn, or a pass of a higher class number. -/
def Turn.yieldsTo (t : Turn) (k : Rank) : Bool :=
  match t.kind with
  | .telex _ => true
  | .pass p => k < p.rank

/-- An entry has become eligible on the channel (07: R117): an IDLE channel consults, and on a KEYED channel class 0
causes DISTRESS and class 1 URGENCY where the current turn yields (09: R153). -/
def State.tellEntry (s : State) (ch : Fin 8) (k : Rank) : State :=
  let x := s.channel ch
  match x.state with
  | .idle => s.consult ch
  | .keyed =>
    if x.turn.any (fun t => t.yieldsTo k) then
      if k = 0 then s.causeCut ch .distress else if k = 1 then s.causeCut ch .urgency else s
    else s
  | .unset | .off | .locking | .requesting | .backoff | .stopping => s

/-- Tells a channel of the entry of a bulletin that it holds, if that entry is eligible (07: R117, 03: R50). -/
def State.tellEntryOf (s : State) (n : Fin 64) (ch : Fin 8) : State :=
  match (s.channel ch).queue.find? (fun e => e.bulletin = n) with
  | none => s
  | some e => if s.entryEligible ch e then s.tellEntry ch e.rank else s

end Sys2Proof.Machine
end

