-- ==== Sys2Proof/Machine/CircuitOps.lean ====
section
/-! DEFINITION. What the Circuit Table does inside an event: wait episodes (05: R77), flow (R80, R81), moves (R83), the
finish of a close (R84), the end of a turn (R87), and the CHANNEL hold (R74). -/

namespace Sys2Proof.Machine

/-! ## Wait episodes (05: R77) -/

/-- Begins or ends the wait episode of a circuit, as it now is or is not waiting. -/
def State.updateWait (s : State) (c : Fin 32) : State :=
  let x := s.circuit c
  if s.waiting c then
    if x.waitStart.isSome then s else s.setCircuit c { x with waitStart := some s.now, holdNotified := false }
  else s.setCircuit c { x with waitStart := none }

/-- The same, and a circuit that has just become waiting is reported to its channel (05: R76, R82, R87). -/
def State.settleWait (s : State) (c : Fin 32) : State :=
  if s.waiting c && (s.circuit c).waitStart.isNone then (s.updateWait c).tellIdle (s.circuit c).channel
  else s.updateWait c

/-! ## Flow (05: R80, R81) -/

/-- A paused circuit becomes FLOWING and raises RESUME. -/
def State.resumeFlow (s : State) (c : Fin 32) : State :=
  (s.setCircuit c { s.circuit c with flow := .flowing }).raiseEvent (.circuit c) .resume

/-- The emission test after a body character has left the queue (05: R80). -/
def State.emissionTest (s : State) (c : Fin 32) : State :=
  let x := s.circuit c
  if x.count ≤ Config.resumeThreshold then
    match x.flow with
    | .flowing => s
    | .pausedThreshold => s.resumeFlow c
    | .pausedStore => if 1 ≤ s.freeCount then s.resumeFlow c else s
  else s

/-- One circuit at a block return report (05: R81). -/
def State.reportTo (s : State) (c : Fin 32) : State :=
  let x := s.circuit c
  if x.flow = .pausedStore ∧ x.count ≤ Config.resumeThreshold then s.resumeFlow c else s

/-- The block return report (01: R18, 05: R81). -/
def State.returnReport (s : State) : State := allCircuits.foldl State.reportTo s

/-- Blocks returned, and the report if there was one to return (01: R18). -/
def State.returnAndReport (s : State) (bs : List BlockNo) : State :=
  if bs = [] then s else (s.returnBlocks bs).returnReport

/-! ## Moves, closes and turn ends (05: R83, R84, R87) -/

def State.unbind (s : State) (c : Fin 32) : State :=
  let ch := (s.circuit c).channel
  s.setChannel ch { s.channel ch with bound := (s.channel ch).bound.erase c }

def State.bindTail (s : State) (ch : Fin 8) (c : Fin 32) : State :=
  s.setChannel ch { s.channel ch with bound := (s.channel ch).bound ++ [c] }

/-- A move is applied (05: R83): a circuit that is waiting afterwards is reported to the target, whether or not its
episode is a new one. -/
def State.applyMove (s : State) (c : Fin 32) (target : Fin 8) : State :=
  let s := (s.unbind c).bindTail target c
  let s := s.setCircuit c { s.circuit c with
    channel := target, movePending := none, channelHold := !(s.channel target).isOn }
  let s := (s.raiseEvent (.circuit c) .moved).updateWait c
  if s.waiting c then s.tellIdle target else s

/-- A close is finished (05: R84). -/
def State.finishClose (s : State) (c : Fin 32) : State :=
  let s := s.unbind c
  (s.setCircuit c (s.circuit c).freed).raiseEvent (.circuit c) .closed

/-- The end of a telex turn, once the turn record is clear (05: R87, log 12). -/
def State.circuitTurnEnd (s : State) (c : Fin 32) : State :=
  let x := s.circuit c
  if x.life = .closing ∧ x.count = 0 then s.finishClose c
  else match x.movePending with
    | some target => s.applyMove c target
    | none => s.settleWait c

/-! ## The CHANNEL hold (05: R74) -/

/-- CHANNEL is added to, or removed from, the hold reasons of one circuit; the channel is not told (log 14). -/
def State.setChannelHold (on : Bool) (s : State) (c : Fin 32) : State :=
  (s.setCircuit c { s.circuit c with channelHold := on }).updateWait c

/-- The same for every circuit of a channel's bound list, in ascending circuit number. -/
def State.holdBound (s : State) (ch : Fin 8) (on : Bool) : State :=
  (allCircuits.filter fun c => c ∈ (s.channel ch).bound).foldl (State.setChannelHold on) s

end Sys2Proof.Machine
end

