-- ==== Sys2Proof/Machine/BulletinOps.lean ====
section
/-! DEFINITION. What the Bulletin Table and the Schedule Unit do inside an event: missed occasions (02: R23), the
retirement (R36, R37), the commit (03: R47), the pass end report (02: R25), occasions (04: R64, R65, R67) and the
minute advance (R54). -/

namespace Sys2Proof.Machine

/-- One more miss, and MISSED in the bulletin notice (02: R23, R41). -/
def State.missed (s : State) (n : Fin 64) : State :=
  (s.mapBulletin n fun b => { b with missed := saturate Config.counterMax (b.missed + 1) }).raise (.bulletin n)
    (some .missed) { Counts.zero with missed := 1 }

/-! ## The end of a bulletin (02: R35, R36, R37) -/

/-- The blocks of the current map, then those of a staged map (01: R6). -/
def Bulletin.allBlocks (b : Bulletin) : List BlockNo :=
  b.current.blockNumbers ++ b.staged.elim [] TextMap.blockNumbers

/-- The maps are returned with their report, and the entry is EMPTY. -/
def State.emptyEntry (s : State) (n : Fin 64) (b : Bulletin) : State :=
  (s.setBulletin n none).returnAndReport b.allBlocks

/-- The three conditions of retirement (02: R36). -/
def State.retires (s : State) (n : Fin 64) (b : Bulletin) : Bool :=
  b.state = .released && b.schedule.limit = some 0 && b.onAir = 0 &&
  !(allChannels.any fun ch => (s.channel ch).holdsEntry n)

/-- The retirement test, and the retirement where it is met (02: R36, R37). -/
def State.retirementTest (s : State) (n : Fin 64) : State :=
  match s.bulletin n with
  | none => s
  | some b => if s.retires n b then (s.emptyEntry n b).raiseEvent (.bulletin n) .retired else s

/-! ## The commit (03: R47) -/

/-- Each channel holding an entry of the bulletin is told of it, in ascending number (03: R50, log 20). -/
def State.tellHolders (s : State) (n : Fin 64) : State := allChannels.foldl (fun s ch => s.tellEntryOf n ch) s

/-- The commit of a staged map. Queued entries become eligible at the end of a pending time only. -/
def State.commit (s : State) (n : Fin 64) (b : Bulletin) (m : TextMap) : State :=
  let s := s.returnBlocks b.current.blockNumbers
  let s := s.setBulletin n (some { b with
    current := m, staged := none, revision := b.revision + 1, revised := true, commitPending := false })
  let s := (s.raiseEvent (.bulletin n) .committed).returnReport
  if b.commitPending then s.tellHolders n else s

/-! ## The pass end report (02: R24, R25) -/

/-- The outcome of a pass (02: R24). -/
inductive PassOutcome where
  | completed | abandoned | interrupted | withdrawn | aborted
  deriving DecidableEq, Repr

/-- Step 1: the account (02: R23). -/
def Bulletin.account (b : Bulletin) : PassOutcome → Bulletin
  | .completed => { b with sent := true, completed := saturate Config.counterMax (b.completed + 1) }
  | .abandoned => { b with abandoned := saturate Config.counterMax (b.abandoned + 1) }
  | .interrupted => { b with interrupted := saturate Config.counterMax (b.interrupted + 1) }
  | .withdrawn => b
  | .aborted => { b with missed := saturate Config.counterMax (b.missed + 1) }

/-- Step 2: the notice (02: R25, R41). -/
def State.raiseOutcome (s : State) (n : Fin 64) : PassOutcome → State
  | .completed => s.raise (.bulletin n) (some .completed) { Counts.zero with completed := 1 }
  | .abandoned => s.raise (.bulletin n) (some .abandoned) { Counts.zero with abandoned := 1 }
  | .interrupted => s.raise (.bulletin n) (some .interrupted) { Counts.zero with interrupted := 1 }
  | .withdrawn => s
  | .aborted => s.raise (.bulletin n) (some .missed) { Counts.zero with missed := 1 }

/-- Step 4: what the on-air count of 0 brings about (02: R25, R35). -/
def State.lastPassEnded (s : State) (n : Fin 64) : State :=
  match s.bulletin n with
  | none => s
  | some b =>
    match b.state with
    | .withdrawing => (s.emptyEntry n b).raise (.bulletin n) none Counts.zero
    | .composing => s
    | .released =>
      match b.commitPending, b.staged with
      | true, some m => (s.commit n b m).retirementTest n
      | _, _ => s.retirementTest n

/-- The handling of a pass end report (02: R25). -/
def State.passEndReport (s : State) (n : Fin 64) (o : PassOutcome) : State :=
  match s.bulletin n with
  | none => s
  | some b =>
    let s := (s.setBulletin n (some (b.account o))).raiseOutcome n o
    let s := s.mapBulletin n fun b => { b with onAir := b.onAir - 1 }
    if b.onAir ≤ 1 then s.lastPassEnded n else s

/-! ## Occasions (04: R64 to R67) -/

/-- The four tests of 04: R64, all failed: the channel takes an entry. -/
def Channel.takesOccasion (x : Channel) (n : Fin 64) (b : Bulletin) : Bool :=
  x.isOn && x.accepts b.category && !x.holdsEntry n && !x.carriesPass n

/-- The entry of a placed occasion (04: R66). -/
def State.newEntry (s : State) (n : Fin 64) (b : Bulletin) : Entry :=
  ⟨n, b.category.rank, b.schedule.passes, 0, s.clock.minute⟩

/-- An occasion visits one channel, and gathers the channel if it is placed there. -/
def State.visitChannel (n : Fin 64) (b : Bulletin) (acc : State × List (Fin 8)) (ch : Fin 8) : State × List (Fin 8) :=
  let (s, placed) := acc
  let x := s.channel ch
  if x.takesOccasion n b then
    (s.setChannel ch { x with queue := insertAtTail x.queue (s.newEntry n b) }, placed ++ [ch])
  else (s.missed n, placed)

/-- The occasion counts against the limit, with the retirement test where that brings it to 0 (04: R65). -/
def State.countOccasion (s : State) (n : Fin 64) (limit : Option Nat) : State :=
  match limit with
  | none => s
  | some l =>
    let s := s.mapBulletin n fun b => { b with schedule := { b.schedule with limit := some (l - 1) } }
    if l - 1 = 0 then s.retirementTest n else s

/-- An occasion (04: R64, R65, R67). The channels it was placed on act on their new entry once the occasion has been
handled on every channel of the mask (04: R68, log 11). -/
def State.occasion (s : State) (n : Fin 64) : State :=
  match s.bulletin n with
  | none => s
  | some b =>
    let (s, placed) := b.schedule.mask.foldl (State.visitChannel n b) (s, [])
    placed.foldl (fun s ch => s.tellEntryOf n ch) (s.countOccasion n b.schedule.limit)

/-! ## The minute advance (04: R54) -/

/-- One bulletin at an advance. -/
def State.advanceBulletin (s : State) (n : Fin 64) : State :=
  match s.bulletin n with
  | none => s
  | some b =>
    if b.state = .released ∧ b.schedule.limit ≠ some 0 then
      match b.schedule.start with
      | .now => s
      | .atMinutes ms => if s.clock.isSet && ms.contains s.clock.minute then s.occasion n else s
      | .every interval =>
        if b.countdown ≤ 1 then
          (s.mapBulletin n fun b => { b with countdown := interval }).occasion n
        else s.mapBulletin n fun b => { b with countdown := b.countdown - 1 }
    else s

def State.minuteAdvance (s : State) : State :=
  allEntries.foldl State.advanceBulletin
    (s.setClock { s.clock with minute := (s.clock.minute + 1) % 1440, lastAdvance := s.now })

/-! ## The category test (02: R31) -/

/-- The lowest-numbered channel of the mask that does not accept the category. -/
def State.refusingChannel (s : State) (mask : List (Fin 8)) (k : Category) : Option (Fin 8) :=
  mask.find? fun ch => !(s.channel ch).accepts k

end Sys2Proof.Machine
end

