-- ==== Sys2Proof/Machine/Turns.lean ====
section
/-! DEFINITION. How a turn ends: what a cut or a natural end leaves to the circuit or the entry (08: R140, R148, R150;
09: R159, R160), a stop of the second kind (R158), entering OFF (06: R105), and what follows a turn end (R101, R103,
07: R124). -/

namespace Sys2Proof.Machine

/-- How a turn ends: by its own ending, at the end of the sequence of a cut of the first kind, or at a stop. -/
inductive Ending where
  | own
  | broken (reason : CutReason)
  | stopped (reason : StopReason)
  deriving DecidableEq, Repr

/-- The turn record becomes clear and no symbol is in progress (08: R128). -/
def State.clearTurn (s : State) (ch : Fin 8) : State :=
  s.setChannel ch { s.channel ch with turn := none, output := none }

/-! ## Telex turns (08: R140, 09: R159) -/

/-- The resume flag after the ending: a cut sets it once a body character has been emitted (09: R159). -/
def resumeAfter (resume : Bool) (bodyCount : Nat) : Ending → Bool
  | .own => resume
  | .broken _ => resume || decide (1 ≤ bodyCount)
  | .stopped _ => resume || decide (1 ≤ bodyCount)

def State.endTelex (s : State) (ch : Fin 8) (t : TelexTurn) (e : Ending) : State :=
  let x := s.circuit t.circuit
  let s := s.setCircuit t.circuit { x with resume := resumeAfter x.resume t.bodyCount e }
  (s.clearTurn ch).circuitTurnEnd t.circuit

/-! ## Passes (08: R148, R150; 09: R160) -/

/-- The outcome reported: an abandoned pass ends ABANDONED however it ends (08: R148). -/
def PassTurn.outcome (p : PassTurn) (e : Ending) : PassOutcome :=
  if p.abandoned then .abandoned
  else match e with
    | .own => .completed
    | .broken .withdraw => .withdrawn
    | .broken .distress | .broken .urgency | .broken .purge => .interrupted
    | .stopped .abort => .aborted
    | .stopped .permit | .stopped .silence => .interrupted

/-- The entry with the fields carried in the turn record (04: R66). -/
def PassTurn.entry (p : PassTurn) (passes interrupted : Nat) : Entry :=
  ⟨p.bulletin, p.rank, passes, interrupted, p.minuteQueued⟩

/-- The queue once the pass's entry has been put back or dropped (08: R150, R148; 09: R160). No
channel is told of an entry put back (log 24). -/
def PassTurn.requeue (p : PassTurn) (released : Bool) (o : PassOutcome) (q : List Entry) : List Entry :=
  if !released then q
  else match o with
    | .completed => if 1 < p.passes then insertAtTail q (p.entry (p.passes - 1) p.interrupted) else q
    | .interrupted => insertAtHead q (p.entry p.passes (saturate Config.runMax (p.interrupted + 1)))
    | .abandoned => q
    | .withdrawn => q
    | .aborted => q

def State.isReleased (s : State) (n : Fin 64) : Bool := (s.bulletin n).any fun b => b.state = .released

def State.endPass (s : State) (ch : Fin 8) (p : PassTurn) (e : Ending) : State :=
  let x := s.channel ch
  let o := p.outcome e
  let s := s.setChannel ch { x with queue := p.requeue (s.isReleased p.bulletin) o x.queue }
  (s.clearTurn ch).passEndReport p.bulletin o

/-! ## Any turn -/

/-- The end of the current turn is handled in full, before any selection (07: R124). -/
def State.endTurn (s : State) (ch : Fin 8) (e : Ending) : State :=
  match (s.channel ch).turn with
  | none => s
  | some t =>
    match t.kind with
    | .telex x => s.endTelex ch x e
    | .pass p => s.endPass ch p e

/-- At the last symbol of a trailer or a sequence. -/
def Turn.naturalEnding (t : Turn) : Ending :=
  match t.cutInProgress with
  | some r => .broken r
  | none => .own

/-- At a stop: a cut in progress keeps its reason (09: R158). -/
def Turn.stopEnding (t : Turn) (r : StopReason) : Ending :=
  match t.cutInProgress with
  | some c => .broken c
  | none => .stopped r

/-- The current turn ends where it stands (09: R158). -/
def State.stopTurn (s : State) (ch : Fin 8) (r : StopReason) : State :=
  match (s.channel ch).turn with
  | none => s
  | some t => s.endTurn ch (t.stopEnding r)

/-! ## Entering OFF (06: R105) -/

/-- Step 1. -/
def Channel.switchOff (x : Channel) : Channel :=
  { x with
    state := .off, keyreq := false, output := none, turn := none, silenceStop := false, holdCount := 0,
    lockTimer := none, permitTimer := none, retryTimer := none }

/-- Steps 2 and 3: the queue is emptied from head to tail, and each bulletin is tested for retirement. Each retirement
makes its own block return report, before the next bulletin is tested (the model's choice, log 32). -/
def State.dropQueue (s : State) (ch : Fin 8) : State :=
  let q := (s.channel ch).queue
  let s := s.setChannel ch { s.channel ch with queue := [] }
  q.foldl (fun s e => s.retirementTest e.bulletin) (q.foldl (fun s e => s.missed e.bulletin) s)

/-- Step 5. -/
def Channel.forgetRotation (x : Channel) : Channel :=
  { x with bulletinRun := 0, telexRun := 0, lastServed := none, shift := .unknown }

def State.enterOff (s : State) (ch : Fin 8) : State :=
  let s := s.setChannel ch (s.channel ch).switchOff
  let s := (s.dropQueue ch).holdBound ch true
  let s := s.setChannel ch (s.channel ch).forgetRotation
  s.raiseEvent (.channel ch) .off

/-! ## After a turn end -/

/-- The selection that follows on a KEYED channel, and OFF on a STOPPING one (06: R103, 07: R124). -/
def State.afterTurnEnd (s : State) (ch : Fin 8) : State :=
  match (s.channel ch).state with
  | .stopping => s.enterOff ch
  | .keyed => (s.selectTurn false ch).getD (s.enterHold ch)
  | .unset | .off | .locking | .idle | .requesting | .backoff => s

/-- Where a SILENCE stop leads: OFF from STOPPING, otherwise IDLE with a consultation at once (06: R106). -/
def State.afterSilence (s : State) (ch : Fin 8) : State :=
  match (s.channel ch).state with
  | .stopping => s.enterOff ch
  | .unset | .off | .locking | .idle | .requesting | .keyed | .backoff => (s.release ch).tellIdle ch

/-- REQUESTING with the permit timer restarted and KEYREQ still raised (06: R100). KEYOK has just fallen, so there is
no grant to take. -/
def State.requestAgain (s : State) (ch : Fin 8) : State :=
  let x := s.channel ch
  s.setChannel ch { x with
    state := .requesting
    keyreq := true
    output := none
    turn := none
    holdCount := 0
    permitTimer := some (s.startTimer (Config.milliseconds x.settings.permitTimeout)) }

end Sys2Proof.Machine
end

