-- ==== Sys2Proof/Machine/Air.lean ====
section
/-! DEFINITION. A turn on air (08): the texts of headers, trailers and sequences, the choice of the next symbol, and
the work of a symbol completion with its cut points (09: R154, R155). -/

namespace Sys2Proof.Machine

/-! ## Texts (08: R132, R134, R140, R147, R149; 09: R157) -/

def ascii (cs : List Char) : List Byte := cs.map fun c => BitVec.ofNat 8 c.toNat

def crlf : List Byte := [0x0D, 0x0A]

def digit (n : Nat) : Byte := BitVec.ofNat 8 (0x30 + n % 10)

/-- Three digits with leading zeros. -/
def threeDigits (n : Nat) : List Byte := [digit (n / 100), digit (n / 10), digit n]

/-- Decimal without leading zeros, for the revisions 1 to 999. -/
def decimal (n : Nat) : List Byte :=
  if n < 10 then [digit n] else if n < 100 then [digit (n / 10), digit n] else threeDigits n

/-- The two-letter code of 02: R21. -/
def Category.code : Category → List Byte
  | .dr => ascii ['D', 'R']
  | .ur => ascii ['U', 'R']
  | .nw => ascii ['N', 'W']
  | .mw => ascii ['M', 'W']
  | .wf => ascii ['W', 'F']
  | .ir => ascii ['I', 'R']
  | .rn => ascii ['R', 'N']

def telexHeader (callUp : List Byte) (resume : Bool) : List Byte :=
  callUp ++ (if resume then ascii [' ', 'C', 'O', 'N', 'T'] else []) ++ crlf

def passHeader (p : PassTurn) : List Byte :=
  ascii ['B', 'L', 'T', ' '] ++ threeDigits p.serial ++ ascii [' '] ++ p.category.code ++
  ascii [' ', 'R', 'E', 'V', ' '] ++ decimal p.revision ++ crlf

def passTrailer (p : PassTurn) : List Byte :=
  crlf ++ ascii ['E', 'N', 'D', ' '] ++ threeDigits p.serial ++ crlf

def breakSequence : List Byte := crlf ++ ascii ['B', 'R', 'K'] ++ crlf

def cancelTrailer (serial : Nat) : List Byte :=
  crlf ++ ascii ['C', 'A', 'N', 'C', 'E', 'L', ' '] ++ threeDigits serial ++ crlf

/-- The closing sequence of a cut (09: R157). A telex turn meets no WITHDRAW (R153). -/
def closingSequence (k : TurnKind) (r : CutReason) : List Byte :=
  match k, r with
  | .pass p, .withdraw => cancelTrailer p.serial
  | .telex _, .withdraw => breakSequence
  | _, .distress => breakSequence
  | _, .urgency => breakSequence
  | _, .purge => breakSequence

def State.headerText (s : State) : TurnKind → List Byte
  | .telex t => telexHeader (s.circuit t.circuit).callUp (s.circuit t.circuit).resume
  | .pass p => passHeader p

def trailerText : TurnKind → List Byte
  | .telex _ => crlf
  | .pass p => passTrailer p

/-! ## Changes of the turn record -/

def State.mapTurn (s : State) (ch : Fin 8) (f : Turn → Turn) : State :=
  s.setChannel ch { s.channel ch with turn := (s.channel ch).turn.map f }

/-- A phase that emits a text begins at its first character. The phase count of LEAD or PREAMBLE stays as it is (the
model's choice, log 31). -/
def Turn.enterText (t : Turn) (phase : Phase) (text : List Byte) : Turn :=
  { t with phase := phase, text := text, textPosition := 0, held := none }

def TurnKind.stopGapTimer : TurnKind → TurnKind
  | .telex t => .telex t
  | .pass p => .pass { p with gapTimer := none }

/-- The body ends: TRAILER, and a pending cut is dropped (08: R140, R149). -/
def Turn.enterTrailer (t : Turn) : Turn := { t.enterText .trailer (trailerText t.kind) with pendingCut := none }

/-- The cut falls (09: R155). -/
def Turn.fall (t : Turn) (r : CutReason) : Turn :=
  { t.enterText .closing (closingSequence t.kind r) with
    kind := t.kind.stopGapTimer, pendingCut := none, cutInProgress := some r }

/-- The gap ends by abandonment (08: R147). -/
def Turn.enterBreak (t : Turn) : Turn :=
  { t.enterText .closing breakSequence with kind := t.kind.stopGapTimer, pendingCut := none }

/-- The urgency count after a body character (09: R154). -/
def Turn.countUrgency (t : Turn) : Turn :=
  { t with pendingCut := t.pendingCut.map fun p =>
      if p.reason = .urgency then { p with urgencyCount := saturate Config.urgencyLimit (p.urgencyCount + 1) } else p }

/-! ## Beginning a symbol (06: R108; 08: R129) -/

/-- A data character goes through the conversion: its shift first, with the character held, where it needs one. -/
def State.sendChar (s : State) (ch : Fin 8) (c : Byte) : State :=
  let x := s.channel ch
  let v := convert x.settings.code c
  match v.need with
  | some .letters =>
    if x.shift = .letters then s.emit ch (.data v.sent c)
    else (s.mapTurn ch fun t => { t with held := some c }).emit ch .shiftLetters
  | some .figures =>
    if x.shift = .figures then s.emit ch (.data v.sent c)
    else (s.mapTurn ch fun t => { t with held := some c }).emit ch .shiftFigures
  | some .unknown => s.emit ch (.data v.sent c)
  | none => s.emit ch (.data v.sent c)

def State.bulletinText (s : State) (n : Fin 64) : TextMap := (s.bulletin n).elim ⟨0, [], 0⟩ fun b => b.current

/-- The character at the body offset is written (01: R11). -/
def State.bodyWritten (s : State) (p : PassTurn) : Bool := (s.bulletinText p.bulletin).written p.bodyOffset

def State.bodyChar (s : State) (p : PassTurn) : Byte := (s.bulletinText p.bulletin).charAt s.store.cells p.bodyOffset

/-- The next symbol of the phase the turn is in. -/
def State.phaseSymbol (s : State) (ch : Fin 8) (t : Turn) : State :=
  match t.phase with
  | .lead => s.emit ch .idle
  | .preamble => s.emit ch .phase
  | .header | .closing | .trailer => s.sendChar ch (t.text[t.textPosition]?.getD 0x20)
  | .gap => s.emit ch .idle
  | .body =>
    match t.kind with
    | .telex x =>
      match (s.circuit x.circuit).chain.head? s.store.cells with
      | some c => s.sendChar ch c
      | none => s.emit ch .idle
    | .pass p => s.sendChar ch (s.bodyChar p)

/-- The next symbol begins: a held character, now that its shift has been sent, or the phase's next symbol. -/
def State.beginSymbol (s : State) (ch : Fin 8) : State :=
  match (s.channel ch).turn with
  | none => s
  | some t =>
    match t.held with
    | some c =>
      (s.mapTurn ch fun t => { t with held := none }).emit ch
        (.data (convert (s.channel ch).settings.code c).sent c)
    | none => s.phaseSymbol ch t

/-! ## Finishing a symbol (06: R108, R109) -/

/-- The shift state and the substitution count after a symbol of this channel; PHASE acts under either code
(log 26). -/
def Channel.finishSymbol (x : Channel) (y : Symbol) : Channel :=
  match y with
  | .idle => x
  | .phase => { x with shift := .unknown }
  | .shiftLetters => { x with shift := .letters }
  | .shiftFigures => { x with shift := .figures }
  | .data _ source =>
    if (convert x.settings.code source).substituted then
      { x with substitutions := saturate Config.counterMax (x.substitutions + 1) }
    else x

/-! ## The work of a completion (08: R129) -/

/-- What a completion leads to: the next symbol, the fall of the pending cut, or the end of the turn. -/
inductive Progress where
  | goOn | cutFalls | turnEnds
  deriving DecidableEq, Repr

/-- The pending cut's point is the next symbol completion whatever the symbol (09: R154). -/
def Turn.cutAnywhere (t : Turn) : Bool := t.pendingCut.any fun p => p.reason ≠ .urgency

/-- Outside BODY every completion is the point of every pending cut, and in BODY an URGENCY cut waits (09: R154). -/
def Turn.cutAtShift (t : Turn) : Bool := if t.phase = .body then t.cutAnywhere else t.pendingCut.isSome

/-- The point in a body, at a boundary or once 16 body characters have been emitted (09: R154). -/
def Turn.cutInBody (t : Turn) (boundary : Bool) : Bool :=
  t.pendingCut.any fun p => p.reason ≠ .urgency || boundary || decide (Config.urgencyLimit ≤ p.urgencyCount)

/-- LEAD and PREAMBLE count their symbols (08: R130, R131). -/
def State.completeLead (s : State) (ch : Fin 8) (t : Turn) : State × Progress :=
  let n := t.phaseCount + 1
  let s := s.mapTurn ch fun t => { t with phaseCount := n }
  if t.pendingCut.isSome then (s, .cutFalls)
  else if (s.channel ch).settings.lead ≤ n then
    (s.mapTurn ch fun t => { t with phase := .preamble, phaseCount := 0 }, .goOn)
  else (s, .goOn)

def State.completePreamble (s : State) (ch : Fin 8) (t : Turn) : State × Progress :=
  let n := t.phaseCount + 1
  let s := s.mapTurn ch fun t => { t with phaseCount := n }
  if t.pendingCut.isSome then (s, .cutFalls)
  else if (s.channel ch).settings.phasing ≤ n then
    (s.mapTurn ch fun t => t.enterText .header (s.headerText t.kind), .goOn)
  else (s, .goOn)

/-- A pass enters its gap (08: R143). -/
def State.enterGap (s : State) (ch : Fin 8) (p : PassTurn) : State :=
  let timer := s.startTimer (Config.seconds s.gapTimeout)
  (s.mapTurn ch fun t => { t with phase := .gap, kind := .pass { p with gapTimer := some timer } }).raiseEvent
    (.channel ch) .gapStart

/-- The header is complete: BODY, and for a pass whose first character is missing the gap (08: R132 to R134). The text
field keeps the header, with its position at the end, until another text begins (the model's choice, log 31). -/
def State.enterBody (s : State) (ch : Fin 8) (t : Turn) : State :=
  match t.kind with
  | .telex x =>
    (s.setCircuit x.circuit { s.circuit x.circuit with resume := false }).mapTurn ch fun t =>
      { t with phase := .body, kind := .telex { x with bodyCount := 0, graceCount := 0 } }
  | .pass p =>
    let p := { p with bodyOffset := 0 }
    let s := s.mapTurn ch fun t => { t with phase := .body, kind := .pass p }
    if s.bodyWritten p then s else s.enterGap ch p

/-- The position goes up at the completion of a character, so until then it names the character that is being emitted (the
model's choice, log 31). A cut that falls at the last character leaves the resume flag set, since BODY is not entered
(log 27). -/
def State.completeHeader (s : State) (ch : Fin 8) (t : Turn) : State × Progress :=
  let k := t.textPosition + 1
  let s := s.mapTurn ch fun t => { t with textPosition := k }
  if t.pendingCut.isSome then (s, .cutFalls)
  else if t.text.length ≤ k then (s.enterBody ch t, .goOn)
  else (s, .goOn)

/-- A character of a trailer or a closing sequence (08: R140, R148, R150; 09: R157). -/
def State.completeClosing (s : State) (ch : Fin 8) (t : Turn) : State × Progress :=
  let k := t.textPosition + 1
  (s.mapTurn ch fun t => { t with textPosition := k }, if t.text.length ≤ k then .turnEnds else .goOn)

/-! ### The telex body (08: R135 to R139) -/

/-- The end tests, in any order since any of them ends the body alike (08: R137). -/
def bodyEnds (p : Profile) (x : Circuit) (t : TelexTurn) (boundary : Bool) : Bool :=
  (x.life = .closing && x.count = 0) ||
  decide (p.telexQuota + Config.quotaMargin ≤ t.bodyCount) ||
  (decide (p.telexQuota ≤ t.bodyCount) && boundary) ||
  (x.hostHold && boundary) ||
  decide (p.turnGrace ≤ t.graceCount)

/-- The cut point, and after it the end tests, at a completion in a telex body (09: R155). An end test that is met where a
pending URGENCY cut has not come to its point drops the cut, though 09: R164 has it fall there (the model's choice,
log 33). -/
def State.testTelexBody (s : State) (ch : Fin 8) (boundary : Bool) : State × Progress :=
  match (s.channel ch).turn with
  | none => (s, .goOn)
  | some t =>
    match t.kind with
    | .pass _ => (s, .goOn)
    | .telex x =>
      if t.cutInBody boundary then (s, .cutFalls)
      else if bodyEnds (s.channel ch).settings (s.circuit x.circuit) x boundary then
        (s.mapTurn ch Turn.enterTrailer, .goOn)
      else (s, .goOn)

/-- The head character leaves the queue, the emission test follows, and then the block return report
(01: R16, R18; 05: R80). -/
def State.leaveQueue (s : State) (c : Fin 32) : State :=
  let x := s.circuit c
  let (chain, returned) := x.chain.leave
  let s := (s.setCircuit c { x with chain := chain }).returnBlocks returned
  let s := s.emissionTest c
  if returned = [] then s else s.returnReport

/-- A body character of a telex turn (08: R135). Where a purge has taken the queue away, nothing leaves it and the
body count does not move (09: R162). -/
def State.completeTelexChar (s : State) (ch : Fin 8) (x : TelexTurn) (source : Byte) : State × Progress :=
  let s :=
    if (s.circuit x.circuit).count = 0 then s
    else
      (s.mapTurn ch fun t =>
        { t.countUrgency with kind := .telex { x with bodyCount := x.bodyCount + 1, graceCount := 0 } }).leaveQueue
        x.circuit
  s.testTelexBody ch (isBreakChar source || (s.circuit x.circuit).count = 0)

/-- An IDLE symbol in a telex body (08: R136). -/
def State.completeTelexIdle (s : State) (ch : Fin 8) (t : Turn) (x : TelexTurn) : State × Progress :=
  if (s.circuit x.circuit).count = 0 then
    (s.mapTurn ch fun t => { t with kind := .telex { x with graceCount := x.graceCount + 1 } }).testTelexBody ch true
  else
    let s := s.mapTurn ch fun t => { t with kind := .telex { x with graceCount := 0 } }
    (s, if t.cutInBody false then .cutFalls else .goOn)

/-! ### The pass body and the gap (08: R141, R144) -/

def State.completePassChar (s : State) (ch : Fin 8) (t : Turn) (p : PassTurn) (source : Byte) : State × Progress :=
  let p := { p with bodyOffset := p.bodyOffset + 1 }
  let t := { t.countUrgency with kind := .pass p }
  let s := s.mapTurn ch fun _ => t
  if p.length ≤ p.bodyOffset then (s.mapTurn ch Turn.enterTrailer, .goOn)
  else if t.cutInBody (isBreakChar source) then (s, .cutFalls)
  else if s.bodyWritten p then (s, .goOn)
  else (s.enterGap ch p, .goOn)

def State.completeGap (s : State) (ch : Fin 8) (t : Turn) (p : PassTurn) : State × Progress :=
  if p.abandoned then (s.mapTurn ch Turn.enterBreak, .goOn)
  else if t.pendingCut.isSome then (s, .cutFalls)
  else if s.bodyWritten p then
    ((s.mapTurn ch fun t => { t with phase := .body, kind := t.kind.stopGapTimer }).raiseEvent (.channel ch) .gapEnd, .goOn)
  else (s, .goOn)

/-- A completion in BODY; a symbol that no body emits changes nothing (log 25). -/
def State.completeBody (s : State) (ch : Fin 8) (t : Turn) (y : Symbol) : State × Progress :=
  match t.kind, y with
  | .telex x, .data _ source => s.completeTelexChar ch x source
  | .telex x, .idle => s.completeTelexIdle ch t x
  | .pass p, .data _ source => s.completePassChar ch t p source
  | .pass _, .idle => (s, .goOn)
  | _, .phase => (s, .goOn)
  | _, .shiftLetters => (s, .goOn)
  | _, .shiftFigures => (s, .goOn)

/-- The tests of the phase at the completion of a symbol that is no shift. -/
def State.completePhase (s : State) (ch : Fin 8) (t : Turn) (y : Symbol) : State × Progress :=
  match t.phase with
  | .lead => s.completeLead ch t
  | .preamble => s.completePreamble ch t
  | .header => s.completeHeader ch t
  | .body => s.completeBody ch t y
  | .gap =>
    match t.kind with
    | .pass p => s.completeGap ch t p
    | .telex _ => (s, .goOn)
  | .closing | .trailer => s.completeClosing ch t

/-- The work of a completion while a turn is current: a shift does none of the phase's tests (08: R129). -/
def State.completeTurn (s : State) (ch : Fin 8) (t : Turn) (y : Symbol) : State × Progress :=
  match y with
  | .shiftLetters | .shiftFigures => (s, if t.cutAtShift then .cutFalls else .goOn)
  | .idle | .phase | .data _ _ => s.completePhase ch t y

/-- The pending cut falls and its sequence begins (09: R155). -/
def State.fallCut (s : State) (ch : Fin 8) : State :=
  (s.mapTurn ch fun t => t.pendingCut.elim t fun p => t.fall p.reason).beginSymbol ch

/-- An IDLE symbol of HOLD (06: R101, R106). -/
def State.completeHold (s : State) (ch : Fin 8) (stop : Bool) : State :=
  let x := s.channel ch
  let n := x.holdCount + 1
  let s := s.setChannel ch { x with holdCount := n, output := none }
  match s.selectTurn false ch with
  | some s => s
  | none => if stop || decide (x.settings.keyHold ≤ n) then s.release ch else s.emit ch .idle

/-- What follows the work of a completion. A SILENCE stop takes the place of the next symbol and of a cut that would
fall, but not of the turn's own end (09: R158; log 15). Where a pending cut would fall, the phase's tests that the cut
takes the place of are not made for the stop either, so a header's last character clears no resume flag (log 27), a
body's character begins no gap, and a symbol of a gap does not end it (the model's choice, log 15). -/
def State.goOn (s : State) (ch : Fin 8) (stop : Bool) : Progress → State
  | .goOn => if stop then (s.stopTurn ch .silence).afterSilence ch else s.beginSymbol ch
  | .cutFalls => if stop then (s.stopTurn ch .silence).afterSilence ch else s.fallCut ch
  | .turnEnds =>
    match (s.channel ch).turn with
    | none => s
    | some t => (s.endTurn ch t.naturalEnding).afterTurnEnd ch

/-- The symbol completion event of a channel (06: R93; 08: R129), at the end of the symbol in progress. -/
def State.completeSymbol (s : State) (ch : Fin 8) : State :=
  match (s.channel ch).output with
  | none => s
  | some e =>
    let s := s.reach e.due
    let stop := (s.channel ch).silenceStop
    let s := s.setChannel ch { (s.channel ch).finishSymbol e.symbol with silenceStop := false }
    match (s.channel ch).turn with
    | none => s.completeHold ch stop
    | some t => let r := s.completeTurn ch t e.symbol; r.1.goOn ch stop r.2

end Sys2Proof.Machine
end

