-- ==== Sys2Proof/Machine/Event.lean ====
section
/-! DEFINITION. The frame around every command: nothing happens while RESET is held (11: R184), a request gets its
reply (10: R177), and the arbiter acts at the end of the event (10: R178, log 3). Also the return to the reset values
(11: R184, R185). -/

namespace Sys2Proof.Machine

abbrev Answer := Host.Outcome State Fault Refusal

/-- An event of the part: none while RESET is held (11: R184). -/
def event (f : State → State) (s : State) : Answer := .next (if s.resetHeld then s else (f s).arbitrate)

/-- One request, executed as one event of its owning block, and its reply (10: R173). While a restart is pending it is
not executed (11: R185). -/
def State.answerRequest (s : State) (r : ReplyTo) (kind : Byte) (run : State → State × Verdict) : State :=
  if s.link.restartPending then s.placeReply r kind ⟨.skipped, []⟩
  else (run s).1.placeReply r kind (run s).2

/-- A request row (log 4). -/
def request (r : ReplyTo) (kind : Byte) (run : State → State × Verdict) (s : State) : Answer :=
  event (fun s => s.answerRequest r kind run) s

/-- A request that changes nothing. -/
def reads (f : State → Verdict) (s : State) : State × Verdict := (s, f s)

/-! ## Reset (11: R184, R185) -/

/-- The part starts from its reset values: LINK READY is asserted and the STARTED notice begins. -/
def State.start (s : State) : State :=
  ({ s with resetHeld := false, link := { s.link with linkReady := true } }.raiseEvent .station .started).arbitrate

/-- The reset of a RESTART: at rest and started in one event; the levels of the inputs stay (11: R185). -/
def State.restart (s : State) : State := (State.atRest s.keyok s.silence s.pending s.pauses).start

end Sys2Proof.Machine
end

