-- ==== Sys2Proof/Machine/StationRequests.lean ====
section
/-! DEFINITION. The requests on the station: SET STATION (11: R182), SET CLOCK (04: R61), READ STATION (11: R183) and
RESTART (11: R185). -/

namespace Sys2Proof.Machine

/-! ## SET STATION (11: R182; 04: R60; 05: R78) -/

/-- The mark source put in force: a source already in force changes nothing (04: R60). -/
def State.setMarkSource (s : State) (m : MarkSource) : State :=
  if s.clock.source = m then s
  else match m with
    | .internal =>
      let t := s.setClock { s.clock with
        source := .internal, advanceTimer := s.startTimer Config.advancePeriodFree, markLatched := false, status := .drifting }
      if s.clock.status = .locked then t.raiseEvent .station .clockDrifting else t
    | .external =>
      s.setClock { s.clock with
        source := .external, advanceTimer := s.startTimer Config.advancePeriodLocked, markLatched := false }

/-- The hold timer of a circuit expires (05: R78). -/
def State.holdExceeded (s : State) (c : Fin 32) : State :=
  (s.setCircuit c { s.circuit c with holdNotified := true }).raiseEvent (.circuit c) .holdExceeded

/-- The time at which the running hold timer of a circuit expires, none while it is stopped (05: R78). -/
def State.holdDue (s : State) (c : Fin 32) : Option Nat :=
  let x := s.circuit c
  if x.holdNotified then none else x.waitStart.map fun w => w + Config.seconds s.holdLimit

/-- An episode that has already lasted the hold limit. -/
def State.expireHold (s : State) (c : Fin 32) : State :=
  if (s.holdDue c).any (fun t => t ≤ s.now) then s.holdExceeded c else s

/-- The hold limit put in force, with the expiries it brings about in ascending number (05: R78). -/
def State.setHoldLimit (s : State) (limit : Nat) : State :=
  if s.holdLimit = limit then s else allCircuits.foldl State.expireHold { s with holdLimit := limit }

/-- The largest reserve that SET STATION accepts (11: R182). -/
def State.reserveCeiling (s : State) : Nat := min 288 (Config.blockCount - s.bulletinHeld)

/-- The four settings in force, in the order of the table. -/
def State.putSettings (s : State) (m : MarkSource) (f : StationFields) : State :=
  let s := (s.setMarkSource m).setHoldLimit f.holdLimit
  { s with gapTimeout := f.gapTimeout, store := { s.store with reserve := f.storeReserve } }

def setStation (f : StationFields) (s : State) : State × Verdict :=
  match markSourceAt f.markSource with
  | none => (s, .range 0)
  | some m =>
    if !within 10 600 f.holdLimit then (s, .range 1)
    else if !within 2 120 f.gapTimeout then (s, .range 2)
    else if !within 0 s.reserveCeiling f.storeReserve then (s, .range 3)
    else (s.putSettings m f, .ok)

def execSetStation (r : ReplyTo) (f : StationFields) (s : State) : Answer := request r 0x01 (setStation f) s

/-! ## SET CLOCK (04: R61) -/

def setClock (minute : Nat) (s : State) : State × Verdict :=
  if minute ≤ 1439 then (s.setClock { s.clock with minute := minute, isSet := true }, .ok) else (s, .range 0)

def execSetClock (r : ReplyTo) (minute : Nat) (s : State) : Answer := request r 0x02 (setClock minute) s

/-! ## READ STATION (11: R183) -/

/-- The settings, the clock part, the two block counts, the silence state and the link error count (log 9). -/
def stationFields (s : State) : List Byte :=
  encodeOctet s.clock.source.place ++ encodeWord s.holdLimit ++ encodeOctet s.gapTimeout ++
  encodeWord s.store.reserve ++ encodeWord s.clock.minute ++ encodeFlag s.clock.isSet ++
  encodeOctet s.clock.status.place ++ encodeOctet s.clock.source.place ++ encodeWord s.freeCount ++
  encodeWord s.bulletinHeld ++ encodeOctet (silencePlace s.silence) ++ encodeWord s.link.errors

def readStation (s : State) : State × Verdict := reads (fun s => ⟨.ok, stationFields s⟩) s

def execReadStation (r : ReplyTo) (s : State) : Answer := request r 0x03 readStation s

/-! ## RESTART (11: R185) -/

/-- The receive queue, with LINK READY as its length decides (10: R172). -/
def State.setReceiveQueue (s : State) (q : List Frame) : State :=
  s.setLink { s.link with receiveQueue := q, linkReady := decide (q.length ≤ Config.linkReadyLimit) }

/-- The requests of a batch that are still to be executed are replied SKIPPED, and none of them is (10: R176). -/
def State.skipExecuting (s : State) : State :=
  let s := s.link.executing.foldl (fun s f => s.replyStatus f .skipped) s
  s.setLink { s.link with executing := [] }

/-- While a restart is pending, the rest of a batch in execution and then every frame of the receive queue is replied
SKIPPED (11: R185). -/
def State.skipQueued (s : State) : State :=
  if s.link.restartPending then
    let s := s.skipExecuting
    (s.link.receiveQueue.foldl (fun s f => s.replyStatus f .skipped) s).setReceiveQueue []
  else s

/-- Each held frame is replied BATCH_DISCARDED, and no batch is open (10: R175). -/
def State.discardBatch (s : State) : State :=
  match s.link.batch with
  | none => s
  | some b =>
    let s := b.held.foldl (fun s f => s.replyStatus f .batchDiscarded) s
    s.setLink { s.link with batch := none }

/-- A restart is pending (11: R185); its reply comes before those of the frames then skipped. -/
def restart (s : State) : State × Verdict := (s.setLink { s.link with restartPending := true }, .ok)

/-- A batch still open is discarded first, as it is by the frame of a lone request (10: R174, log 4). -/
def execRestart (r : ReplyTo) (s : State) : Answer :=
  event (fun s =>
    (((if s.link.restartPending then s else s.discardBatch).answerRequest r 0x04 restart).skipQueued)) s

end Sys2Proof.Machine
end

