-- ==== Sys2Proof/Machine/ChannelRequests.lean ====
section
/-! DEFINITION. The requests on a channel: SET PROFILE (06: R92), CHANNEL ON (R95), CHANNEL OFF (R102, R104) and
READ CHANNEL (R110). -/

namespace Sys2Proof.Machine

/-! ## SET PROFILE (06: R92) -/

def Channel.profileWritable (x : Channel) : Bool := x.state = .unset || x.state = .off

def setProfile (channel : Nat) (f : ProfileFields) (s : State) : State × Verdict :=
  match channelNumber 0 channel with
  | .error v => (s, v)
  | .ok ch =>
    if !(s.channel ch).profileWritable then (s, .fail .state)
    else match acceptProfile f with
    | .error v => (s, v)
    | .ok p => (s.setChannel ch { s.channel ch with profile := some p, state := .off }, .ok)

def execSetProfile (r : ReplyTo) (channel : Nat) (f : ProfileFields) (s : State) : Answer :=
  request r 0x10 (setProfile channel f) s

/-! ## CHANNEL ON (06: R95) -/

def channelOn (channel : Nat) (s : State) : State × Verdict :=
  match channelNumber 0 channel with
  | .error v => (s, v)
  | .ok ch =>
    let x := s.channel ch
    if x.state = .off then
      (s.setChannel ch { x with state := .locking, lockTimer := some (s.startTimer Config.lockPeriod) }, .ok)
    else (s, .fail .state)

def execChannelOn (r : ReplyTo) (channel : Nat) (s : State) : Answer := request r 0x11 (channelOn channel) s

/-! ## CHANNEL OFF (06: R102, R104) -/

/-- Mode GRACEFUL on one channel. -/
def State.offGraceful (s : State) (ch : Fin 8) : State × Verdict :=
  let x := s.channel ch
  match x.state with
  | .unset | .off | .stopping => (s, .fail .state)
  | .locking | .idle | .requesting | .backoff => (s.enterOff ch, .ok)
  | .keyed =>
    if x.turn.isSome then (s.setChannel ch { x with state := .stopping }, .ok) else (s.enterOff ch, .ok)

/-- Mode ABORT on one channel: a current turn is cut where it stands (06: R104; 09: R158). -/
def State.offAbort (s : State) (ch : Fin 8) : State × Verdict :=
  match (s.channel ch).state with
  | .unset | .off => (s, .fail .state)
  | .locking | .idle | .requesting | .backoff => (s.enterOff ch, .ok)
  | .keyed | .stopping => ((s.stopTurn ch .abort).enterOff ch, .ok)

def onChannel (channel : Nat) (f : State → Fin 8 → State × Verdict) (s : State) : State × Verdict :=
  match channelNumber 0 channel with
  | .error v => (s, v)
  | .ok ch => f s ch

/-- Mode 0 is GRACEFUL and 1 is ABORT (10: R169). -/
def channelOff (channel mode : Nat) (s : State) : State × Verdict :=
  onChannel channel (fun s ch =>
    if mode = 0 then s.offGraceful ch else if mode = 1 then s.offAbort ch else (s, .range 1)) s

def execChannelOffGraceful (r : ReplyTo) (channel : Nat) (s : State) : Answer := request r 0x12 (channelOff channel 0) s

def execChannelOffAbort (r : ReplyTo) (channel : Nat) (s : State) : Answer := request r 0x12 (channelOff channel 1) s

/-! ## READ CHANNEL (06: R110; 08: R128; 09: R152; log 9) -/

def encodeOption {α : Type} (f : α → List Byte) : Option α → List Byte
  | none => [0]
  | some a => 1 :: f a

def encodeList {α : Type} (f : α → List Byte) (l : List α) : List Byte := encodeOctet l.length ++ l.flatMap f

/-- A set of channels as a bit field of one octet (10: R169). -/
def encodeChannels (chs : List (Fin 8)) : List Byte := encodePlaces (chs.map fun ch => ch.val)

def profileFields (p : Profile) : List Byte :=
  encodeOctet p.rate ++ encodeOctet p.code.place ++ encodeOctet p.lead ++ encodeOctet p.phasing ++
  encodeOctet p.keyHold ++ encodeWord p.permitTimeout ++ encodeOctet p.retryInterval ++ encodeWord p.telexQuota ++
  encodeOctet p.turnGrace ++ encodeOctet p.telexBurst ++ encodeOctet p.bulletinBurst ++
  encodePlaces (p.categories.map Category.place) ++ encodeFlag p.observeSilence

/-- The kind of turn, 1 telex and 2 pass, with the values loaded at its start. -/
def turnKindFields : TurnKind → List Byte
  | .telex t => [1] ++ encodeOctet t.circuit.val
  | .pass p =>
    [2] ++ encodeOctet p.bulletin.val ++ encodeWord p.serial ++ encodeOctet p.category.place ++ encodeOctet p.rank.val ++
    encodeWord p.revision ++ encodeWord p.length ++ encodeOctet p.passes ++ encodeOctet p.interrupted ++
    encodeWord p.minuteQueued

/-- The counts of a turn's own kind. -/
def turnCountFields : TurnKind → List Byte
  | .telex t => encodeWord t.bodyCount ++ encodeOctet t.graceCount
  | .pass p => encodeWord p.bodyOffset ++ encodeFlag p.gapTimer.isSome ++ encodeFlag p.abandoned

/-- A pending cut: its reason, and for URGENCY the urgency count. -/
def pendingCutFields (p : PendingCut) : List Byte :=
  encodeOctet p.reason.place ++ (if p.reason = .urgency then encodeOctet p.urgencyCount else [])

/-- A current turn. A text of none is sent as a string of count 0, and its position follows it all the same (the model's
choice, log 9). -/
def turnFields (t : Turn) : List Byte :=
  turnKindFields t.kind ++ encodeOctet t.phase.place ++ encodeOctet t.phaseCount ++ encodeString t.text ++
  encodeOctet t.textPosition ++ encodeOption (fun c => [c]) t.held ++ turnCountFields t.kind ++
  encodeOption pendingCutFields t.pendingCut ++ encodeOption (fun r => encodeOctet r.place) t.cutInProgress

/-- A clear turn record is form 0, with the hold count present while the phase is HOLD. -/
def turnRecordFields (x : Channel) : List Byte :=
  match x.turn with
  | some t => turnFields t
  | none => [0] ++ encodeOptional (if x.state = .keyed then some x.holdCount else none)

def entryFields (e : Entry) : List Byte :=
  encodeOctet e.bulletin.val ++ encodeOctet e.rank.val ++ encodeOctet e.passes ++ encodeOctet e.interrupted ++
  encodeWord e.minuteQueued

/-- The fields in the order of 06: R110; the levels of KEYREQ and KEYOK are yes-or-no octets, 1 for raised and for present
(the model's choice, log 9). -/
def channelFields (keyok : Bool) (x : Channel) : List Byte :=
  encodeOctet x.state.place ++ encodeFlag x.keyreq ++ encodeFlag keyok ++ encodeOption profileFields x.profile ++
  turnRecordFields x ++ encodeList entryFields x.queue ++ encodeList (fun c => encodeOctet c.val) x.bound ++
  encodeOctet x.bulletinRun ++ encodeOctet x.telexRun ++ encodeOptional (x.lastServed.map fun c => c.val) ++
  encodeOctet x.shift.place ++ encodeWord x.substitutions

def readChannel (channel : Nat) (s : State) : State × Verdict :=
  reads (fun s =>
    match channelNumber 0 channel with
    | .error v => v
    | .ok ch => ⟨.ok, channelFields (s.keyokOf ch) (s.channel ch)⟩) s

def execReadChannel (r : ReplyTo) (channel : Nat) (s : State) : Answer := request r 0x13 (readChannel channel) s

end Sys2Proof.Machine
end

