-- ==== Sys2Proof/Machine/CircuitRequests.lean ====
section
/-! DEFINITION. The requests on a circuit: OPEN CIRCUIT (05: R73), CIRCUIT TEXT (R75, R76, R79), HOLD CIRCUIT (R82),
MOVE CIRCUIT (R83), CLOSE CIRCUIT (R84, R85) and READ CIRCUIT (R89). -/

namespace Sys2Proof.Machine

def onCircuit (circuit : Nat) (f : State → Fin 32 → State × Verdict) (s : State) : State × Verdict :=
  match circuitNumber circuit with
  | .error v => (s, v)
  | .ok c => f s c

/-! ## OPEN CIRCUIT (05: R73) -/

/-- The record that OPEN CIRCUIT makes: CHANNEL holds it unless the channel is ON. -/
def opened (ch : Fin 8) (isOn : Bool) (callUp : List Byte) : Circuit :=
  { Circuit.reset with life := .bound, channelHold := !isOn, channel := ch, callUp := callUp }

def State.openOn (s : State) (c : Fin 32) (ch : Fin 8) (callUp : List Byte) : State :=
  (s.bindTail ch c).setCircuit c (opened ch (s.channel ch).isOn callUp)

def openCircuit (circuit channel : Nat) (callUp : List Byte) (s : State) : State × Verdict :=
  onCircuit circuit (fun s c =>
    if (s.circuit c).life ≠ .free then (s, .fail .state)
    else match channelNumber 1 channel with
    | .error v => (s, v)
    | .ok ch =>
      if !within 1 12 callUp.length then (s, .range 2)
      else if !callUp.all acceptedCallUp then (s, .fail .badCharacter)
      else if (s.channel ch).profile = none then (s, .fail .state)
      else (s.openOn c ch callUp, .ok)) s

def execOpenCircuit (r : ReplyTo) (circuit channel : Nat) (callUp : List Byte) (s : State) : Answer :=
  request r 0x20 (openCircuit circuit channel callUp) s

/-! ## CIRCUIT TEXT (05: R75, R76, R79) -/

/-- The flow after an arrival: a NO BLOCK stop pauses for STORE, and a FLOWING circuit whose count has come to 384
pauses for THRESHOLD (05: R79). -/
def flowAfter (flow : Flow) (before after : Nat) (stop : Option ArrivalStop) : Flow :=
  if stop = some .noBlock then .pausedStore
  else if flow = .flowing ∧ before < Config.pauseThreshold ∧ Config.pauseThreshold ≤ after then .pausedThreshold
  else flow

/-- PAUSE is raised when the flow leaves FLOWING (05: R79). -/
def State.setFlow (s : State) (c : Fin 32) (flow : Flow) : State :=
  let t := s.setCircuit c { s.circuit c with flow := flow }
  if (s.circuit c).flow = .flowing ∧ flow ≠ .flowing then t.raiseEvent (.circuit c) .pause else t

/-- The grace count of the turn returns to 0 (05: R76, 08: R136). -/
def Turn.clearGrace (t : Turn) : Turn :=
  match t.kind with
  | .telex x => { t with kind := .telex { x with graceCount := 0 } }
  | .pass _ => t

/-- The turn's body emits an IDLE symbol (05: R76, 08: R136). -/
def Channel.idlesInBody (x : Channel) : Bool :=
  x.turn.any (fun t => t.phase = .body) && x.output.any fun e => e.symbol = .idle

/-- The report of an arrival to the circuit's channel (05: R76). -/
def State.arrivalReport (s : State) (c : Fin 32) : State :=
  let ch := (s.circuit c).channel
  if s.onAir c then (if (s.channel ch).idlesInBody then s.mapTurn ch Turn.clearGrace else s) else s.settleWait c

/-- The reply from the count stored and the stop reason (05: R75). -/
def arrivalVerdict (stored : Nat) : Option ArrivalStop → Verdict
  | none => ⟨.ok, encodeOctet stored⟩
  | some stop =>
    if 1 ≤ stored then ⟨.partialText, encodeOctet stored⟩
    else match stop with
      | .noBlock => .fail .storeFull
      | .limit => .fail .limit

/-- Characters that passed the checks arrive (01: R15; 05: R75). -/
def State.arrive (s : State) (c : Fin 32) (chars : List Byte) : State × Verdict :=
  let x := s.circuit c
  let (chain, store, stored, stop) := storeArrival chars x.chain s.store
  let t := (s.setStore store).setCircuit c { x with chain := chain }
  let t := t.setFlow c (flowAfter x.flow x.count chain.count stop)
  (if 1 ≤ stored then t.arrivalReport c else t, arrivalVerdict stored stop)

def circuitText (circuit : Nat) (chars : List Byte) (s : State) : State × Verdict :=
  onCircuit circuit (fun s c =>
    if (s.circuit c).life ≠ .bound then (s, .fail .state)
    else if !within 1 200 chars.length then (s, .range 1)
    else if !chars.all acceptedChar then (s, .fail .badCharacter)
    else s.arrive c chars) s

def execCircuitText (r : ReplyTo) (circuit : Nat) (chars : List Byte) (s : State) : Answer :=
  request r 0x21 (circuitText circuit chars) s

/-! ## HOLD CIRCUIT (05: R82) -/

def State.setHostHold (s : State) (c : Fin 32) (on : Bool) : State :=
  (s.setCircuit c { s.circuit c with hostHold := on }).settleWait c

/-- Setting 0 is ON and 1 is OFF (10: R169). -/
def holdCircuit (circuit setting : Nat) (s : State) : State × Verdict :=
  onCircuit circuit (fun s c =>
    if (s.circuit c).life = .free then (s, .fail .state)
    else if setting = 0 then (s.setHostHold c true, .ok)
    else if setting = 1 then (s.setHostHold c false, .ok)
    else (s, .range 1)) s

def execHoldCircuitOn (r : ReplyTo) (circuit : Nat) (s : State) : Answer := request r 0x22 (holdCircuit circuit 0) s

def execHoldCircuitOff (r : ReplyTo) (circuit : Nat) (s : State) : Answer := request r 0x22 (holdCircuit circuit 1) s

/-! ## MOVE CIRCUIT (05: R83) -/

/-- FREE, or with a purge under way. -/
def Circuit.immovable (x : Circuit) : Bool := x.life = .free || (x.life = .closing && !x.drainPending)

def moveCircuit (circuit target : Nat) (s : State) : State × Verdict :=
  onCircuit circuit (fun s c =>
    if (s.circuit c).immovable then (s, .fail .state)
    else match channelNumber 1 target with
    | .error v => (s, v)
    | .ok ch =>
      if (s.channel ch).profile = none then (s, .fail .state)
      else if s.onAir c then (s.setCircuit c { s.circuit c with movePending := some ch }, .ok)
      else (s.applyMove c ch, .ok)) s

def execMoveCircuit (r : ReplyTo) (circuit target : Nat) (s : State) : Answer := request r 0x23 (moveCircuit circuit target) s

/-! ## CLOSE CIRCUIT (05: R84, R85) -/

/-- DRAIN: finished within the request where the queue is empty and the circuit is off air. -/
def State.closeDrain (s : State) (c : Fin 32) : State :=
  let s := s.setCircuit c { s.circuit c with life := .closing, drainPending := true }
  if (s.circuit c).count = 0 && !s.onAir c then s.finishClose c else s

/-- PURGE: the queue goes, and then the circuit at once or, on air, by a cut. -/
def State.closePurge (s : State) (c : Fin 32) : State :=
  let x := s.circuit c
  let s := s.setCircuit c { x with chain := Chain.empty, flow := .flowing, life := .closing, drainPending := false }
  let s := s.returnAndReport x.chain.blocks
  if s.onAir c then s.causeCut x.channel .purge else s.finishClose c

/-- Mode 0 is DRAIN and 1 is PURGE (10: R169). Only a PURGE is taken by a circuit that is draining. -/
def closeCircuit (circuit mode : Nat) (s : State) : State × Verdict :=
  onCircuit circuit (fun s c =>
    let x := s.circuit c
    if x.life = .free then (s, .fail .state)
    else if x.life = .closing && !(x.drainPending && mode = 1) then (s, .fail .state)
    else if mode = 0 then (s.closeDrain c, .ok)
    else if mode = 1 then (s.closePurge c, .ok)
    else (s, .range 1)) s

def execCloseCircuitDrain (r : ReplyTo) (circuit : Nat) (s : State) : Answer := request r 0x24 (closeCircuit circuit 0) s

def execCloseCircuitPurge (r : ReplyTo) (circuit : Nat) (s : State) : Answer := request r 0x24 (closeCircuit circuit 1) s

/-! ## READ CIRCUIT (05: R89; log 9) -/

/-- The time since the wait start in whole seconds, stopping at 65535. -/
def State.waited (s : State) (x : Circuit) : Nat :=
  saturate Config.counterMax ((s.now - x.waitStart.getD s.now) / Config.ticksPerSecond)

/-- The fields in the order of 05: R89. One presence octet says both whether the circuit is waiting and whether the time
since the wait start follows, and one both whether a move is pending and whether its target follows (the model's choice,
log 9). -/
def State.circuitFields (s : State) (c : Fin 32) : List Byte :=
  let x := s.circuit c
  if x.life = .free then encodeOctet x.state.place
  else
    encodeOctet x.state.place ++ holdReasonFields x ++ encodeOctet x.channel.val ++ encodeString x.callUp ++
    encodeWord x.count ++ encodeOctet x.chain.blocks.length ++ encodeOctet x.flow.place ++ encodeFlag x.resume ++
    encodeOption encodeWord (if s.waiting c then some (s.waited x) else none) ++ encodeFlag x.holdNotified ++
    encodeOptional (x.movePending.map fun ch => ch.val) ++ encodeOptional (if x.drainPending then some 0 else none) ++
    encodeFlag (s.onAir c)

def readCircuit (circuit : Nat) (s : State) : State × Verdict :=
  reads (fun s =>
    match circuitNumber circuit with
    | .error v => v
    | .ok c => ⟨.ok, s.circuitFields c⟩) s

def execReadCircuit (r : ReplyTo) (circuit : Nat) (s : State) : Answer := request r 0x25 (readCircuit circuit) s

end Sys2Proof.Machine
end

