-- ==== Sys2Proof/Machine/BulletinRequests.lean ====
section
/-! DEFINITION. The requests on a bulletin: DECLARE (02: R26), BULLETIN TEXT (R27, R28; 03: R44), AMEND (02: R29, R30),
RELEASE (R31, R32), WITHDRAW (R33, R34), CLEAR MARKS (R38), READ BULLETIN (R39) and READ TEXT (R40). -/

namespace Sys2Proof.Machine

def onBulletin (number : Nat) (f : State → Fin 64 → Bulletin → State × Verdict) (s : State) : State × Verdict :=
  match s.presentEntry number with
  | .error v => (s, v)
  | .ok p => f s p.1 p.2

/-! ## DECLARE BULLETIN (02: R26) -/

/-- The descriptor of a fresh declaration (02: R26's table). -/
def declared (serial : Nat) (k : Category) (map : TextMap) (g : Schedule) : Bulletin where
  state := .composing
  serial := serial
  category := k
  current := map
  staged := none
  commitPending := false
  schedule := g
  countdown := g.start.countdown
  revision := 1
  sent := false
  revised := false
  completed := 0
  interrupted := 0
  abandoned := 0
  missed := 0
  onAir := 0

/-- The map that a granted claim for a text of this length gives (01: R5, R8). -/
def State.claimedMap (s : State) (length : Nat) : TextMap :=
  TextMap.fresh length (s.store.free.take (blocksNeeded length))

/-- The bulletin claim: granted whole, or refused with STORE_FULL (01: R8). -/
def State.claim (s : State) (length : Nat) (n : Fin 64) (f : TextMap → Bulletin) : State × Verdict :=
  if s.claimGranted (blocksNeeded length) then
    ((s.takeBlocks (blocksNeeded length)).setBulletin n (some (f (s.claimedMap length))), .ok)
  else (s, .fail .storeFull)

def declareBulletin (number serial category length : Nat) (f : ScheduleFields) (s : State) : State × Verdict :=
  match entryNumber number with
  | .error v => (s, v)
  | .ok n =>
    if (s.bulletin n).isSome then (s, .fail .state)
    else if !within 0 999 serial then (s, .range 1)
    else match categoryAt category with
    | none => (s, .range 2)
    | some k =>
      if !within 1 2048 length then (s, .range 3)
      else match acceptSchedule 4 f with
      | .error v => (s, v)
      | .ok g => s.claim length n fun map => declared serial k map g

def execDeclareBulletin (r : ReplyTo) (number serial category length : Nat) (f : ScheduleFields) (s : State) : Answer :=
  request r 0x30 (declareBulletin number serial category length f) s

/-! ## BULLETIN TEXT (02: R27, R28; 03: R44) -/

/-- The checks on the block position, the count and the characters, in their order (02: R27, 03: R44). -/
def textFault (m : TextMap) (block : Option Nat) (chars : List Byte) : Option Verdict :=
  if block.any fun p => m.blocks.length ≤ p then some (.range 2)
  else if !within 1 200 chars.length then some (.range 3)
  else if !chars.all acceptedChar then some (.fail .badCharacter)
  else none

/-- OK where every character was stored, PARTIAL with the count otherwise (02: R28). -/
def storedVerdict (chars : List Byte) (stored : Nat) : Verdict :=
  if stored = chars.length then .ok else ⟨.partialText, encodeOctet stored⟩

/-- One map write; `put` places the written map in the descriptor (01: R12, R13). -/
def State.writeText (s : State) (n : Fin 64) (m : TextMap) (how : Manner) (block : Option Nat) (chars : List Byte)
    (put : TextMap → Bulletin) : State × Verdict :=
  match textFault m block chars with
  | some v => (s, v)
  | none =>
    match m.beginWrite how block with
    | .error st => (s, .fail st)
    | .ok start =>
      let (map, cells, stored) := TextMap.storeChars how chars start s.store.cells
      ((s.setStore { s.store with cells := cells }).setBulletin n (some (put map)), storedVerdict chars stored)

/-- Target CURRENT: rewriting while COMPOSING, extending while RELEASED (02: R27). -/
def State.currentText (s : State) (n : Fin 64) (b : Bulletin) (block : Option Nat) (chars : List Byte) : State × Verdict :=
  match b.state with
  | .withdrawing => (s, .fail .state)
  | .composing => s.writeText n b.current .rewriting block chars fun map => { b with current := map }
  | .released => s.writeText n b.current .extending block chars fun map => { b with current := map }

/-- Target STAGED: always rewriting, and refused while a commit is pending (03: R44). -/
def State.stagedText (s : State) (n : Fin 64) (b : Bulletin) (block : Option Nat) (chars : List Byte) : State × Verdict :=
  match b.state, b.staged with
  | .released, some m =>
    if b.commitPending then (s, .fail .state)
    else s.writeText n m .rewriting block chars fun map => { b with staged := some map }
  | _, _ => (s, .fail .state)

/-- Target 0 is CURRENT and 1 is STAGED (10: R169). A WITHDRAWING bulletin is refused before the target is looked at
(02: R19, R35). -/
def bulletinText (number target : Nat) (block : Option Nat) (chars : List Byte) (s : State) : State × Verdict :=
  onBulletin number (fun s n b =>
    if b.state = .withdrawing then (s, .fail .state)
    else if target = 0 then s.currentText n b block chars
    else if target = 1 then s.stagedText n b block chars
    else (s, .range 1)) s

def execBulletinTextCurrent (r : ReplyTo) (number : Nat) (block : Option Nat) (chars : List Byte) (s : State) : Answer :=
  request r 0x31 (bulletinText number 0 block chars) s

def execBulletinTextStaged (r : ReplyTo) (number : Nat) (block : Option Nat) (chars : List Byte) (s : State) : Answer :=
  request r 0x31 (bulletinText number 1 block chars) s

/-! ## The schedule put in force (02: R30, R32) -/

/-- RELEASED with this group: NOW sets the limit to 1 and raises its occasion at once; EVERY starts its countdown. -/
def State.putInForce (s : State) (n : Fin 64) (b : Bulletin) (g : Schedule) : State :=
  let limit := if g.start = .now then some 1 else g.limit
  let s := s.setBulletin n (some { b with
    state := .released, schedule := { g with limit := limit }, countdown := g.start.countdown })
  if g.start = .now then s.occasion n else s

/-- The category test, and the group put in force where it passes (02: R30, R31). -/
def State.testAndForce (s : State) (n : Fin 64) (b : Bulletin) (g : Schedule) : State × Verdict :=
  match s.refusingChannel g.mask b.category with
  | some ch => (s, ⟨.category, encodeOctet ch.val⟩)
  | none => (s.putInForce n b g, .ok)

/-! ## AMEND BULLETIN (02: R29, R30) -/

def amendBulletin (number : Nat) (f : ScheduleFields) (s : State) : State × Verdict :=
  onBulletin number (fun s n b =>
    if b.state = .withdrawing then (s, .fail .state)
    else match acceptSchedule 1 f with
    | .error v => (s, v)
    | .ok g =>
      if b.state = .composing then
        (s.setBulletin n (some { b with schedule := g, countdown := g.start.countdown }), .ok)
      else s.testAndForce n b g) s

def execAmendBulletin (r : ReplyTo) (number : Nat) (f : ScheduleFields) (s : State) : Answer :=
  request r 0x32 (amendBulletin number f) s

/-! ## RELEASE BULLETIN (02: R31, R32) -/

def releaseBulletin (number : Nat) (s : State) : State × Verdict :=
  onBulletin number (fun s n b =>
    if b.state = .composing then s.testAndForce n b b.schedule else (s, .fail .state)) s

def execReleaseBulletin (r : ReplyTo) (number : Nat) (s : State) : Answer := request r 0x33 (releaseBulletin number) s

/-! ## WITHDRAW BULLETIN (02: R33, R34) -/

/-- The bulletin's entry leaves one channel's queue, counting as no miss. -/
def State.unqueue (n : Fin 64) (s : State) (ch : Fin 8) : State :=
  s.setChannel ch { s.channel ch with queue := (s.channel ch).queue.filter fun e => e.bulletin ≠ n }

/-- The WITHDRAW cut, where the channel carries a pass of the bulletin (02: R34, 09: R153). -/
def State.cutPass (n : Fin 64) (s : State) (ch : Fin 8) : State :=
  if (s.channel ch).carriesPass n then s.causeCut ch .withdraw else s

/-- The withdrawal with passes on air (02: R34). -/
def State.withdrawOnAir (s : State) (n : Fin 64) (b : Bulletin) : State :=
  let s := s.returnAndReport (b.staged.elim [] TextMap.blockNumbers)
  let s := s.setBulletin n (some { b with staged := none, commitPending := false, state := .withdrawing })
  allChannels.foldl (State.cutPass n) s

def withdrawBulletin (number : Nat) (s : State) : State × Verdict :=
  onBulletin number (fun s n b =>
    if b.state = .withdrawing then (s, .fail .state)
    else
      let s := allChannels.foldl (State.unqueue n) s
      (if b.onAir = 0 then s.emptyEntry n b else s.withdrawOnAir n b, .ok)) s

def execWithdrawBulletin (r : ReplyTo) (number : Nat) (s : State) : Answer := request r 0x34 (withdrawBulletin number) s

/-! ## CLEAR MARKS (02: R38) -/

def Bulletin.clearMarks (b : Bulletin) : Bulletin :=
  { b with sent := false, revised := false, completed := 0, interrupted := 0, abandoned := 0, missed := 0 }

def clearMarks (number : Nat) (s : State) : State × Verdict :=
  onBulletin number (fun s n b => (s.setBulletin n (some b.clearMarks), .ok)) s

def execClearMarks (r : ReplyTo) (number : Nat) (s : State) : Answer := request r 0x35 (clearMarks number) s

/-! ## READ BULLETIN (02: R39; log 9) -/

/-- Each block with its fill, and the write pointer as a position and an offset. -/
def mapFields (m : TextMap) : List Byte :=
  encodeList (fun b : MapBlock => encodeWord b.block.val ++ encodeOctet b.fill) m.blocks ++ encodeOctet m.pointer ++
  encodeOctet (m.fill m.pointer)

def startFields : Start → List Byte
  | .now => [0]
  | .atMinutes ms => 1 :: encodeList encodeWord ms
  | .every n => 2 :: encodeWord n

def scheduleFields (g : Schedule) : List Byte :=
  encodeChannels g.mask ++ startFields g.start ++ encodeOctet g.passes ++ encodeOptional g.limit

/-- The channels with a pass of the bulletin, then those with an entry (02: R39), and after that set the passes remaining of
each of its entries, in ascending channel number with no count before them (the model's choice, log 9). -/
def State.placementFields (s : State) (n : Fin 64) : List Byte :=
  let holders := allChannels.filter fun ch => (s.channel ch).holdsEntry n
  encodeChannels (allChannels.filter fun ch => (s.channel ch).carriesPass n) ++ encodeChannels holders ++
  holders.flatMap fun ch =>
    encodeOctet (((s.channel ch).queue.find? fun e => e.bulletin = n).elim 0 fun e => e.passes)

/-- The fields in the order of 02: R39; a staged map's own length stands before its blocks and its pointer, as the current
one's does (the model's choice, log 9). -/
def State.bulletinFields (s : State) (n : Fin 64) (b : Bulletin) : List Byte :=
  encodeOctet (bulletinStatePlace (some b.state)) ++ encodeWord b.serial ++ encodeOctet b.category.place ++
  encodeOctet b.category.rank.val ++ encodeWord b.current.length ++ mapFields b.current ++
  encodeOption (fun m => encodeWord m.length ++ mapFields m) b.staged ++ encodeFlag b.commitPending ++
  scheduleFields b.schedule ++ encodeWord b.countdown ++ encodeWord b.revision ++ encodeFlag b.sent ++
  encodeFlag b.revised ++ encodeWord b.completed ++ encodeWord b.interrupted ++ encodeWord b.abandoned ++
  encodeWord b.missed ++ encodeOctet b.onAir ++ s.placementFields n

def readBulletin (number : Nat) (s : State) : State × Verdict :=
  reads (fun s =>
    match entryNumber number with
    | .error v => v
    | .ok n =>
      match s.bulletin n with
      | none => ⟨.ok, encodeOctet (bulletinStatePlace none)⟩
      | some b => ⟨.ok, s.bulletinFields n b⟩) s

def execReadBulletin (r : ReplyTo) (number : Nat) (s : State) : Answer := request r 0x36 (readBulletin number) s

/-! ## READ TEXT (02: R40) -/

/-- The written characters from an offset on, at most `count` of them. -/
def TextMap.readFrom (m : TextMap) (cells : Memory) : Nat → Nat → List Byte
  | 0, _ => []
  | count + 1, o => if o < m.length && m.written o then m.charAt cells o :: m.readFrom cells count (o + 1) else []

/-- The map a target names: 0 is CURRENT and 1 is STAGED (10: R169). -/
def Bulletin.target (b : Bulletin) (target : Nat) : Except Verdict TextMap :=
  if target = 0 then .ok b.current
  else if target = 1 then
    match b.staged with
    | some m => .ok m
    | none => .error (.fail .state)
  else .error (.range 1)

/-- The reply holds one count octet: the number of characters returned is the count of the string that holds them (the
model's choice, log 9). -/
def State.textRead (s : State) (b : Bulletin) (target offset count : Nat) : Verdict :=
  match b.target target with
  | .error v => v
  | .ok m =>
    if m.length ≤ offset then .range 2
    else if !within 1 192 count then .range 3
    else ⟨.ok, encodeString (m.readFrom s.store.cells count offset)⟩

def readText (number target offset count : Nat) (s : State) : State × Verdict :=
  onBulletin number (fun s _ b => (s, s.textRead b target offset count)) s

def execReadText (r : ReplyTo) (number target offset count : Nat) (s : State) : Answer :=
  request r 0x37 (readText number target offset count) s

end Sys2Proof.Machine
end

