-- ==== Sys2Proof/Machine/RevisionRequests.lean ====
section
/-! DEFINITION. The requests on a revision: STAGE REVISION (03: R43), COMMIT REVISION (R45, R46) and DISCARD REVISION
(R51). -/

namespace Sys2Proof.Machine

/-! ## STAGE REVISION (03: R43) -/

def stageRevision (number length : Nat) (s : State) : State × Verdict :=
  onBulletin number (fun s n b =>
    if b.state ≠ .released then (s, .fail .state)
    else if b.staged.isSome then (s, .fail .state)
    else if !within 1 2048 length then (s, .range 1)
    else s.claim length n fun map => { b with staged := some map }) s

def execStageRevision (r : ReplyTo) (number length : Nat) (s : State) : Answer :=
  request r 0x38 (stageRevision number length) s

/-! ## COMMIT REVISION (03: R45, R46) -/

/-- The commit outcome and the revision number: TAKEN is place 0 and PENDING place 1. -/
def commitVerdict (outcome revision : Nat) : Verdict := ⟨.ok, encodeOctet outcome ++ encodeWord revision⟩

def commitRevision (number : Nat) (s : State) : State × Verdict :=
  onBulletin number (fun s n b =>
    match b.state, b.staged with
    | .released, some m =>
      if b.commitPending then (s, .fail .state)
      else if !m.allPresent then (s, .fail .incomplete)
      else if b.revision = 999 then (s, .fail .revisionLimit)
      else if b.onAir = 0 then (s.commit n b m, commitVerdict 0 (b.revision + 1))
      else (s.setBulletin n (some { b with commitPending := true }), commitVerdict 1 b.revision)
    | _, _ => (s, .fail .state)) s

def execCommitRevision (r : ReplyTo) (number : Nat) (s : State) : Answer := request r 0x39 (commitRevision number) s

/-! ## DISCARD REVISION (03: R51) -/

/-- The staged map goes back; the end of a pending time makes the queued entries eligible (03: R50). -/
def State.discardStaged (s : State) (n : Fin 64) (b : Bulletin) (m : TextMap) : State :=
  let s := s.setBulletin n (some { b with staged := none, commitPending := false })
  let s := s.returnAndReport m.blockNumbers
  if b.commitPending then s.tellHolders n else s

def discardRevision (number : Nat) (s : State) : State × Verdict :=
  onBulletin number (fun s n b =>
    match b.state, b.staged with
    | .released, some m => (s.discardStaged n b m, .ok)
    | _, _ => (s, .fail .state)) s

def execDiscardRevision (r : ReplyTo) (number : Nat) (s : State) : Answer := request r 0x3A (discardRevision number) s

end Sys2Proof.Machine
end

