-- ==== Sys2Proof/Machine/LinkEvents.lean ====
section
/-! DEFINITION. The events of the Link Interface and the Request Processor (10): octets, the inter-octet timer, the
take of a frame with batches, the batch timer, frame completions, and the reset that a RESTART leads to (11: R185). -/

namespace Sys2Proof.Machine

/-! ## The requests by kind (10: R173) -/

def runRequest : Request → State → State × Verdict
  | .setStation f => setStation f
  | .setClock m => setClock m
  | .readStation => readStation
  | .restart => restart
  | .setProfile ch f => setProfile ch f
  | .channelOn ch => channelOn ch
  | .channelOff ch mode => channelOff ch mode
  | .readChannel ch => readChannel ch
  | .openCircuit c ch t => openCircuit c ch t
  | .circuitText c t => circuitText c t
  | .holdCircuit c x => holdCircuit c x
  | .moveCircuit c ch => moveCircuit c ch
  | .closeCircuit c mode => closeCircuit c mode
  | .readCircuit c => readCircuit c
  | .declareBulletin n ser cat len f => declareBulletin n ser cat len f
  | .bulletinText n tgt b t => bulletinText n tgt b t
  | .amendBulletin n f => amendBulletin n f
  | .releaseBulletin n => releaseBulletin n
  | .withdrawBulletin n => withdrawBulletin n
  | .clearMarks n => clearMarks n
  | .readBulletin n => readBulletin n
  | .readText n tgt off cnt => readText n tgt off cnt
  | .stageRevision n len => stageRevision n len
  | .commitRevision n => commitRevision n
  | .discardRevision n => discardRevision n

/-- The payload check, and the request where it passes (10: R173). -/
def runPayload (payload : List Byte) (s : State) : State × Verdict :=
  match decodeRequest payload with
  | none => (s, .fail .badRequest)
  | some q => runRequest q s

/-- A frame executed as its own event: its request, its reply, and the arbiter (10: R173, log 3). -/
def State.executeFrame (s : State) (f : Frame) : State × Status :=
  let (t, v) := runPayload f.payload s
  ((t.placeReply ⟨f.tag, f.position⟩ f.kindOctet v).arbitrate, v.status)

/-! ## FRAME_TAKE (10: R173 to R176) -/

/-- At most n of the requests of a whole batch that are still to be executed, in position order, each as its own event;
after the first status that is not OK, or a RESTART, the rest are SKIPPED (10: R176, 11: R185). -/
def State.runBatch : Nat → State → State
  | 0, s => s
  | n + 1, s =>
    match s.link.executing with
    | [] => s
    | f :: fs =>
      let (s, st) := (s.setLink { s.link with executing := fs }).executeFrame f
      if st = .ok ∧ !s.link.restartPending then s.runBatch n else s.skipExecuting

/-- The batch is whole: none is open, and its requests are to be executed (10: R174, R176). -/
def State.startBatch (s : State) (fs : List Frame) : State :=
  s.setLink { s.link with batch := none, executing := fs }

/-- With no batch open (10: R174's first three rows). -/
def State.judgeFresh (s : State) (f : Frame) : State :=
  if f.position = 0 then
    if f.more then s.setLink { s.link with batch := some ⟨[f], s.startTimer Config.batchPeriod⟩ }
    else (s.executeFrame f).1
  else s.replyStatus f .batchDiscarded

/-- With a batch open, whose expected position is the number of frames it holds (10: R174's other rows). -/
def State.judgeOpen (s : State) (b : Batch) (f : Frame) : State :=
  if f.position.toNat = b.held.length then
    if f.more then
      if b.held.length = 15 then
        ((s.setLink { s.link with batch := some { b with held := b.held ++ [f] } }).discardBatch)
      else s.setLink { s.link with batch := some ⟨b.held ++ [f], s.startTimer Config.batchPeriod⟩ }
    else s.startBatch (b.held ++ [f])
  else if f.position = 0 then s.discardBatch.judgeFresh f
  else s.discardBatch.replyStatus f .batchDiscarded

def State.judgeFrame (s : State) (f : Frame) : State :=
  match s.link.batch with
  | none => s.judgeFresh f
  | some b => s.judgeOpen b f

/-- No reply that the Request Processor has formed waits in the reply list (10: R173). -/
def Link.mayTake (l : Link) : Bool := l.replies.all Reply.isBusy

/-- The execution of a whole batch begins or goes on: to its end, or, where a pause stands next, over n + 1 of its
requests, so that events of other blocks come before the others (10: R176; log 5). -/
def State.goOnWithBatch (s : State) : State :=
  match s.pauses with
  | [] => s.runBatch s.link.executing.length
  | n :: later => if s.link.executing = [] then s else { s with pauses := later }.runBatch (n + 1)

/-- The take of the head frame; without its condition the command does nothing (10: R173, log 29). A batch in execution
is gone on with first. While a restart is pending every frame is skipped (11: R185). -/
def State.takeFrame (s : State) : State :=
  if s.link.restartPending then s.skipQueued
  else match s.link.executing, s.link.receiveQueue with
    | [], [] => s
    | [], f :: q =>
      if s.link.mayTake then (((s.setReceiveQueue q).judgeFrame f).goOnWithBatch).skipQueued else s
    | _ :: _, _ => (s.goOnWithBatch).skipQueued

def execFrameTake (s : State) : Answer := event State.takeFrame s

/-! ## BATCH_TIMER_EXPIRY (10: R175) -/

def State.batchExpiry (s : State) : State :=
  match s.link.batch with
  | none => s
  | some b => (s.reach b.timer.due).discardBatch

def execBatchTimerExpiry (s : State) : Answer := event State.batchExpiry s

/-! ## LINK_OCTET_RECEIVED (10: R167, R170, R172) -/

/-- A request frame with a good CRC: queued, refused with BUSY, or a link error while a BUSY reply waits (10: R172).
While a restart is pending it is taken as it arrives (11: R185). -/
def State.offerFrame (s : State) (f : Frame) : State :=
  if s.link.receiveQueue.length < Config.receiveQueueSize then
    (s.setReceiveQueue (s.link.receiveQueue ++ [f])).skipQueued
  else if s.link.replies.any Reply.isBusy then s.linkError
  else s.placeReply ⟨f.tag, f.position⟩ 0 ⟨.busy, []⟩

/-- The fields of a whole frame; bit 4 of the control octet is not read (10: R168, R170). -/
def frameOf (control tag : Byte) (payload : List Byte) : Frame where
  tag := tag
  position := control.extractLsb' 0 4
  more := control.getLsbD 5
  payload := payload

/-- The check of a whole frame, given from its control octet on (10: R170). -/
def State.checkFrame (s : State) (inside : List Byte) (checksum : List Byte) : State :=
  match inside with
  | control :: tag :: _ :: payload =>
    if crcOctets inside ≠ checksum then s.linkError.discardBatch
    else if control.extractLsb' 6 2 = requestKind then s.offerFrame (frameOf control tag payload)
    else s.linkError
  | _ => s

def State.setAssembly (s : State) (a : Option Assembly) : State := s.setLink { s.link with assembly := a }

/-- An octet of a frame under way (10: R167). -/
def State.holdOctet (s : State) (octets : List Byte) : State :=
  let length := (octets[3]?.getD 0).toNat
  if octets.length < 4 then s.setAssembly (some ⟨octets, s.startTimer Config.interOctetPeriod⟩)
  else if Config.payloadLimit < length then (s.setAssembly none).linkError
  else if octets.length < length + 6 then s.setAssembly (some ⟨octets, s.startTimer Config.interOctetPeriod⟩)
  else (s.setAssembly none).checkFrame ((octets.drop 1).take (length + 3)) (octets.drop (length + 4))

def State.receiveOctet (s : State) (octet : Byte) : State :=
  match s.link.assembly with
  | none => if octet = sync then s.setAssembly (some ⟨[octet], s.startTimer Config.interOctetPeriod⟩) else s
  | some a => s.holdOctet (a.octets ++ [octet])

def execLinkOctetReceived (octet : Byte) (s : State) : Answer := event (fun s => s.receiveOctet octet) s

/-! ## INTER_OCTET_TIMER_EXPIRY (10: R167) -/

def State.interOctetExpiry (s : State) : State :=
  match s.link.assembly with
  | none => s
  | some a => ((s.reach a.timer.due).setAssembly none).linkError

def execInterOctetTimerExpiry (s : State) : Answer := event State.interOctetExpiry s

/-! ## FRAME_COMPLETION and RESTART_RESET (10: R177, R178; 11: R185) -/

/-- The reply list after a frame has completed: the head leaves it at its last frame (10: R178). -/
def repliesAfter (f : OutFrame) (replies : List Reply) : List Reply :=
  match f.kind with
  | .reply => if f.more then replies else replies.tail
  | .notice => replies

/-- The frame in progress is whole on the line. -/
def State.finishFrame (s : State) (f : OutFrame) : State :=
  (s.reach f.due).setLink { s.link with outgoing := none, replies := repliesAfter f s.link.replies }

/-- A frame completion; the one that leaves the reply list empty takes a pending restart (11: R185). -/
def State.completeFrame (s : State) : State :=
  match s.link.outgoing with
  | none => s
  | some f =>
    let t := s.finishFrame f
    if t.link.restartPending ∧ t.link.replies = [] then t.restart else t

def execFrameCompletion (s : State) : Answer := event State.completeFrame s

/-- The reset of a pending restart, at the frame completion that leaves the reply list empty and at no other time
(11: R185, log 6). -/
def State.restartReset (s : State) : State :=
  match s.link.outgoing with
  | none => s
  | some f => if s.link.restartPending ∧ repliesAfter f s.link.replies = [] then s.completeFrame else s

def execRestartReset (s : State) : Answer := event State.restartReset s

/-! ## RESET (11: R184) -/

/-- RESET taken low stops every activity; the commands that wait and the levels of the inputs stay (log 7, log 17). -/
def execResetAssert (s : State) : Answer := .next (State.atRest s.keyok s.silence s.pending s.pauses)

/-- The release starts the part; without RESET held there is none to release (log 28). -/
def execResetRelease (s : State) : Answer := .next (if s.resetHeld then s.start else s)

end Sys2Proof.Machine
end

