-- ==== Sys2Proof/Machine/ClockEvents.lean ====
section
/-! DEFINITION. The events of the Station Clock (04: R55 to R58), of SILENCE (06: R106, R107), and of the hold timers
(05: R78). -/

namespace Sys2Proof.Machine

/-! ## MARK (04: R56, R57) -/

/-- An edge is latched under the EXTERNAL source only. -/
def State.latchMark (s : State) : State :=
  match s.clock.source with
  | .external => s.setClock { s.clock with markLatched := true }
  | .internal => s

def execMarkFallingEdge (s : State) : Answer := event State.latchMark s

/-- The status becomes LOCKED, with CLOCK_LOCKED where it was DRIFTING. -/
def State.lockClock (s : State) : State :=
  let t := s.setClock { s.clock with status := .locked, advanceTimer := s.startTimer Config.advancePeriodLocked }
  match s.clock.status with
  | .drifting => t.raiseEvent .station .clockLocked
  | .locked => t

/-- The advance age (04: R53). -/
def State.advanceAge (s : State) : Nat := s.now - s.clock.lastAdvance

/-- The latched edge is taken: it advances the minute at an age of 30 s or more, and locks the clock. -/
def State.takeMark (s : State) : State :=
  if s.clock.markLatched && s.clock.source = .external then
    let s := s.setClock { s.clock with markLatched := false }
    (if Config.edgeAdvanceAge ≤ s.advanceAge then s.minuteAdvance else s).lockClock
  else s

def execMarkEdgeEvent (s : State) : Answer := event State.takeMark s

/-! ## ADVANCE_TIMER_EXPIRY (04: R55, R58) -/

/-- The status becomes DRIFTING, with CLOCK_DRIFTING where it was LOCKED; the timer restarts at 60 s. -/
def State.driftClock (s : State) : State :=
  let t := s.setClock { s.clock with status := .drifting, advanceTimer := s.startTimer Config.advancePeriodFree }
  match s.clock.status with
  | .locked => t.raiseEvent .station .clockDrifting
  | .drifting => t

def State.advanceExpiry (s : State) : State := (s.reach s.clock.advanceTimer.due).minuteAdvance.driftClock

def execAdvanceTimerExpiry (s : State) : Answer := event State.advanceExpiry s

/-! ## SILENCE (06: R106, R107) -/

/-- The current turn is a pass of class 0, which goes on under silence. -/
def Turn.isDistress (t : Turn) : Bool :=
  match t.kind with
  | .pass p => p.rank = 0
  | .telex _ => false

/-- An observing channel at the assertion (06: R106's table). -/
def State.silenceChannel (s : State) (ch : Fin 8) : State :=
  let x := s.channel ch
  if x.settings.observeSilence then
    match x.state with
    | .keyed | .stopping => if x.turn.any Turn.isDistress then s else s.setChannel ch { x with silenceStop := true }
    | .requesting =>
      if s.anythingEligible ch then s
      else s.setChannel ch { x with state := .idle, keyreq := false, permitTimer := none }
    | .unset | .off | .locking | .idle | .backoff => s
  else s

def State.assertSilence (s : State) : State :=
  allChannels.foldl State.silenceChannel ({ s with silence := true }.raiseEvent .station .silenceOn)

/-- The level is taken while RESET is held too, without an event (11: R184); an asserted level is no assertion
(log 28). -/
def execSilenceAssert (s : State) : Answer :=
  if s.resetHeld then .next { s with silence := true }
  else event (fun s => if s.silence then s else s.assertSilence) s

/-- An observing channel at the release: IDLE consults, and on a KEYED channel the entries of class 1 that have become
eligible cause URGENCY (06: R106, 07: R117). -/
def State.unsilenceChannel (s : State) (ch : Fin 8) : State :=
  let x := s.channel ch
  if x.settings.observeSilence then
    match x.state with
    | .idle => s.consult ch
    | .keyed => if (s.headEligible ch 1).isSome then s.tellEntry ch 1 else s
    | .unset | .off | .locking | .requesting | .backoff | .stopping => s
  else s

def State.releaseSilence (s : State) : State :=
  allChannels.foldl State.unsilenceChannel ({ s with silence := false }.raiseEvent .station .silenceOff)

def execSilenceRelease (s : State) : Answer :=
  if s.resetHeld then .next { s with silence := false }
  else event (fun s => if s.silence then s.releaseSilence else s) s

/-! ## HOLD_TIMER_EXPIRY (05: R78) -/

/-- The hold timer runs in a wait episode that has not been notified. -/
def State.holdExpiry (s : State) (c : Fin 32) : State :=
  match s.holdDue c with
  | none => s
  | some due => (s.reach due).holdExceeded c

def execHoldTimerExpiry (circuit : Fin 32) (s : State) : Answer := event (fun s => s.holdExpiry circuit) s

end Sys2Proof.Machine
end

