-- ==== Sys2Proof/Machine/KeyingEvents.lean ====
section
/-! DEFINITION. The events of a Channel Controller: KEYOK (06: R97, R98, R100), the lock, permit, retry and gap timers
(R95, R98, R99; 08: R145), and the symbol completion (08: R129). -/

namespace Sys2Proof.Machine

/-! ## KEYOK (06: R94, R97, R100) -/

def State.setKeyok (s : State) (ch : Fin 8) (level : Bool) : State := { s with keyok := s.keyok.set ch.val level }

/-- A rise of KEYOK: the grant of a REQUESTING channel, and no event of a channel in another state (06: R94, R97). -/
def State.riseKeyok (s : State) (ch : Fin 8) : State :=
  let s := s.setKeyok ch true
  if (s.channel ch).state = .requesting then s.grant ch else s

/-- The level is taken while RESET is held too, without an event (11: R184); a level present is no rise (log 28). -/
def execKeyokGrant (channel : Fin 8) (s : State) : Answer :=
  if s.resetHeld then .next (s.setKeyok channel true)
  else event (fun s => if s.keyokOf channel then s else s.riseKeyok channel) s

/-- A permit loss: emission stops, a silence stop is dropped, PERMIT_LOST is raised (06: R100, R106). -/
def State.permitLost (s : State) (ch : Fin 8) : State :=
  (s.setChannel ch { s.channel ch with silenceStop := false, output := none }).raiseEvent (.channel ch) .permitLost

/-- A fall of KEYOK (06: R100). -/
def State.fallKeyok (s : State) (ch : Fin 8) : State :=
  let s := s.setKeyok ch false
  match (s.channel ch).state with
  | .keyed =>
    let s := s.permitLost ch
    if (s.channel ch).turn.isSome then (s.stopTurn ch .permit).requestAgain ch
    else if s.anythingEligible ch then s.requestAgain ch
    else s.release ch
  | .stopping => ((s.permitLost ch).stopTurn ch .permit).enterOff ch
  | .unset | .off | .locking | .idle | .requesting | .backoff => s

def execPermitLoss (channel : Fin 8) (s : State) : Answer :=
  if s.resetHeld then .next (s.setKeyok channel false)
  else event (fun s => if s.keyokOf channel then s.fallKeyok channel else s) s

/-! ## LOCK_TIMER_EXPIRY (06: R95) -/

/-- IDLE, the CHANNEL holds lifted, LOCKED raised, and then the consultation (log 14). -/
def State.lockExpiry (s : State) (ch : Fin 8) : State :=
  match (s.channel ch).lockTimer with
  | none => s
  | some t =>
    let s := s.reach t.due
    let s := s.setChannel ch { s.channel ch with state := .idle, lockTimer := none }
    ((s.holdBound ch false).raiseEvent (.channel ch) .locked).consult ch

def execLockTimerExpiry (channel : Fin 8) (s : State) : Answer := event (fun s => s.lockExpiry channel) s

/-! ## PERMIT_TIMER_EXPIRY (06: R98) -/

def State.permitExpiry (s : State) (ch : Fin 8) : State :=
  match (s.channel ch).permitTimer with
  | none => s
  | some t =>
    let s := s.reach t.due
    let x := s.channel ch
    (s.setChannel ch { x with
      state := .backoff
      keyreq := false
      permitTimer := none
      retryTimer := some (s.startTimer (Config.seconds x.settings.retryInterval)) }).raiseEvent (.channel ch) .permitTimeout

def execPermitTimerExpiry (channel : Fin 8) (s : State) : Answer := event (fun s => s.permitExpiry channel) s

/-! ## RETRY_TIMER_EXPIRY (06: R99) -/

def State.retryExpiry (s : State) (ch : Fin 8) : State :=
  match (s.channel ch).retryTimer with
  | none => s
  | some t =>
    let s := s.reach t.due
    let s := s.setChannel ch { s.channel ch with retryTimer := none }
    if s.anythingEligible ch then s.requestKey ch else s.setChannel ch { s.channel ch with state := .idle }

def execRetryTimerExpiry (channel : Fin 8) (s : State) : Answer := event (fun s => s.retryExpiry channel) s

/-! ## GAP_TIMER_EXPIRY (08: R145) -/

/-- The running gap timer of a channel, with the pass that waits. -/
def Channel.gapTimer (x : Channel) : Option (PassTurn × Timer) :=
  match x.turn with
  | none => none
  | some t =>
    match t.kind with
    | .telex _ => none
    | .pass p => p.gapTimer.map fun timer => (p, timer)

/-- The pass is abandoned unless its next character is written, and then the expiry is set aside. -/
def State.gapExpiry (s : State) (ch : Fin 8) : State :=
  match (s.channel ch).gapTimer with
  | none => s
  | some (p, timer) =>
    let s := s.reach timer.due
    let p := { p with gapTimer := none, abandoned := !s.bodyWritten p }
    s.mapTurn ch fun t => { t with kind := .pass p }

def execGapTimerExpiry (channel : Fin 8) (s : State) : Answer := event (fun s => s.gapExpiry channel) s

/-! ## SYMBOL_COMPLETION (08: R129) -/

def execSymbolCompletion (channel : Fin 8) (s : State) : Answer := event (fun s => s.completeSymbol channel) s

end Sys2Proof.Machine
end

