-- ==== Sys2Proof/Machine/Dispatch.lean ====
section
/-! DEFINITION. exec: the effect of a command on everything but the queue of commands, one arm per row of
spec/opcode_table.json. -/

namespace Sys2Proof.Machine

def exec (i : Instr) (s : State) : Host.Outcome State Fault Refusal :=
  match i with
  | .setStation r f => Sys2Proof.Machine.execSetStation r f s
  | .setClock r minute => Sys2Proof.Machine.execSetClock r minute s
  | .readStation r => Sys2Proof.Machine.execReadStation r s
  | .restart r => Sys2Proof.Machine.execRestart r s
  | .setProfile r channel f => Sys2Proof.Machine.execSetProfile r channel f s
  | .channelOn r channel => Sys2Proof.Machine.execChannelOn r channel s
  | .channelOffGraceful r channel => Sys2Proof.Machine.execChannelOffGraceful r channel s
  | .channelOffAbort r channel => Sys2Proof.Machine.execChannelOffAbort r channel s
  | .readChannel r channel => Sys2Proof.Machine.execReadChannel r channel s
  | .openCircuit r circuit channel callUp => Sys2Proof.Machine.execOpenCircuit r circuit channel callUp s
  | .circuitText r circuit chars => Sys2Proof.Machine.execCircuitText r circuit chars s
  | .holdCircuitOn r circuit => Sys2Proof.Machine.execHoldCircuitOn r circuit s
  | .holdCircuitOff r circuit => Sys2Proof.Machine.execHoldCircuitOff r circuit s
  | .moveCircuit r circuit target => Sys2Proof.Machine.execMoveCircuit r circuit target s
  | .closeCircuitDrain r circuit => Sys2Proof.Machine.execCloseCircuitDrain r circuit s
  | .closeCircuitPurge r circuit => Sys2Proof.Machine.execCloseCircuitPurge r circuit s
  | .readCircuit r circuit => Sys2Proof.Machine.execReadCircuit r circuit s
  | .declareBulletin r number serial category length f => Sys2Proof.Machine.execDeclareBulletin r number serial category length f s
  | .bulletinTextCurrent r number block chars => Sys2Proof.Machine.execBulletinTextCurrent r number block chars s
  | .bulletinTextStaged r number block chars => Sys2Proof.Machine.execBulletinTextStaged r number block chars s
  | .amendBulletin r number f => Sys2Proof.Machine.execAmendBulletin r number f s
  | .releaseBulletin r number => Sys2Proof.Machine.execReleaseBulletin r number s
  | .withdrawBulletin r number => Sys2Proof.Machine.execWithdrawBulletin r number s
  | .clearMarks r number => Sys2Proof.Machine.execClearMarks r number s
  | .readBulletin r number => Sys2Proof.Machine.execReadBulletin r number s
  | .readText r number target offset count => Sys2Proof.Machine.execReadText r number target offset count s
  | .stageRevision r number length => Sys2Proof.Machine.execStageRevision r number length s
  | .commitRevision r number => Sys2Proof.Machine.execCommitRevision r number s
  | .discardRevision r number => Sys2Proof.Machine.execDiscardRevision r number s
  | .linkOctetReceived octet => Sys2Proof.Machine.execLinkOctetReceived octet s
  | .interOctetTimerExpiry => Sys2Proof.Machine.execInterOctetTimerExpiry s
  | .frameTake => Sys2Proof.Machine.execFrameTake s
  | .batchTimerExpiry => Sys2Proof.Machine.execBatchTimerExpiry s
  | .frameCompletion => Sys2Proof.Machine.execFrameCompletion s
  | .restartReset => Sys2Proof.Machine.execRestartReset s
  | .resetAssert => Sys2Proof.Machine.execResetAssert s
  | .resetRelease => Sys2Proof.Machine.execResetRelease s
  | .markFallingEdge => Sys2Proof.Machine.execMarkFallingEdge s
  | .markEdgeEvent => Sys2Proof.Machine.execMarkEdgeEvent s
  | .advanceTimerExpiry => Sys2Proof.Machine.execAdvanceTimerExpiry s
  | .silenceAssert => Sys2Proof.Machine.execSilenceAssert s
  | .silenceRelease => Sys2Proof.Machine.execSilenceRelease s
  | .keyokGrant channel => Sys2Proof.Machine.execKeyokGrant channel s
  | .permitLoss channel => Sys2Proof.Machine.execPermitLoss channel s
  | .lockTimerExpiry channel => Sys2Proof.Machine.execLockTimerExpiry channel s
  | .permitTimerExpiry channel => Sys2Proof.Machine.execPermitTimerExpiry channel s
  | .retryTimerExpiry channel => Sys2Proof.Machine.execRetryTimerExpiry channel s
  | .holdTimerExpiry circuit => Sys2Proof.Machine.execHoldTimerExpiry circuit s
  | .gapTimerExpiry channel => Sys2Proof.Machine.execGapTimerExpiry channel s
  | .symbolCompletion channel => Sys2Proof.Machine.execSymbolCompletion channel s

end Sys2Proof.Machine
end

