-- ==== Sys2Proof/Machine/Step.lean ====
section
/-! DEFINITION. One step: the command at the front of the queue is taken and executed, and an idle part lets one tick
of time pass (log 1). -/

namespace Sys2Proof.Machine

/-- The queue of commands without its front. -/
def State.withPending (s : State) (rest : List Instr) : State := { s with pending := rest }

/-- One tick of an idle part; time stands while RESET is held (log 1, log 17). -/
def State.tick (s : State) : State := if s.resetHeld then s else { s with now := s.now + 1 }

def step (s : State) : Host.Outcome State Fault Refusal :=
  match s.pending with
  | [] => .next s.tick
  | i :: rest => exec i (s.withPending rest)

/-- The command that a word of the table's bits spells, put at the front of the queue. No word spells one (log 22). -/
def State.withFetchWord (s : State) (nbits w : Nat) : State :=
  match decodeTableWord nbits w with
  | none => s
  | some i => s.withPending (i :: s.pending)

end Sys2Proof.Machine
end

