-- ==== Sys2Proof/Safety.lean ====
section
/-! DEFINITION. The laws that the spec names as holding in every reachable state, as predicates on a state: what a run
of the part may never leave. -/

namespace Sys2Proof.Machine

/-- The cells are in their canonical form. -/
def State.cellsLaw (s : State) : Prop := s.store.cells.wf = true

/-- The notice law (11: R179): no two waiting notices under one key, and none for the null entry. -/
def State.noticeLaw (s : State) : Prop := (s.notices.map fun e => e.key).Nodup

/-- LINK READY is asserted while at most 14 frames wait, and at most 16 wait (10: R172); while RESET is held it is low
and none waits (11: R184). -/
def State.linkLaw (s : State) : Prop :=
  if s.resetHeld then s.link.receiveQueue = [] ∧ s.link.linkReady = false ∧ s.link.restartPending = false
  else s.link.receiveQueue.length ≤ 16 ∧ s.link.linkReady = decide (s.link.receiveQueue.length ≤ 14)

/-- The channel emits: KEYED or STOPPING (06: R94). -/
def Channel.isKeyed (x : Channel) : Bool := x.state = .keyed || x.state = .stopping

/-- The keying law on one channel (06: R94): KEYREQ is raised in REQUESTING, KEYED and STOPPING alone, symbols are
emitted in KEYED and STOPPING alone and KEYOK is present there, and each timer runs in its own state alone. -/
def Channel.keyingLaw (x : Channel) (keyok : Bool) : Prop :=
  (x.keyreq = true ↔ x.state = .requesting ∨ x.isKeyed = true) ∧
  (x.output.isSome = true ↔ x.isKeyed = true) ∧
  (x.isKeyed = true → keyok = true) ∧
  (x.turn.isSome = true → x.isKeyed = true) ∧
  (x.lockTimer.isSome = true → x.state = .locking) ∧
  (x.permitTimer.isSome = true → x.state = .requesting) ∧
  (x.retryTimer.isSome = true → x.state = .backoff)

def State.keyingLaw (s : State) : Prop := ∀ ch : Fin 8, (s.channel ch).keyingLaw (s.keyokOf ch)

/-- While RESET is low the part stands at its reset values (11: R184); the levels of the inputs and the waiting commands
are whatever they are (log 7, log 21). -/
def State.restLaw (s : State) : Prop := s.resetHeld = true → s = State.atRest s.keyok s.silence s.pending s.pauses

/-- The number of channels whose current turn is a pass of the bulletin. -/
def State.passCount (s : State) (n : Fin 64) : Nat :=
  (allChannels.filter fun ch => (s.channel ch).carriesPass n).length

/-- The on-air law (02: R24): the on-air count of an entry is the number of channels whose current turn is a pass of
it, and an EMPTY entry is on no channel. -/
def State.onAirLaw (s : State) : Prop := ∀ n : Fin 64, s.passCount n = (s.bulletin n).elim 0 fun b => b.onAir

/-- The queue law on one channel (04: R64; 07: R114): no two entries for one bulletin, none for the bulletin of the
current pass, and the classes in order. -/
def Channel.queueLaw (x : Channel) : Prop :=
  (x.queue.map fun e => e.bulletin).Nodup ∧ (∀ e ∈ x.queue, x.carriesPass e.bulletin = false) ∧
  (x.queue.map fun e => e.rank).Pairwise (· ≤ ·)

def State.queueLaw (s : State) : Prop := ∀ ch : Fin 8, (s.channel ch).queueLaw

/-- A FREE record has no move pending (05: R70). -/
def State.freeLaw (s : State) : Prop := ∀ c : Fin 32, (s.circuit c).life = .free → (s.circuit c).movePending = none

/-- The binding law (05: R72): a circuit stands in the bound list of its own channel exactly once unless it is FREE, and
nowhere else, and it is the current turn of no other channel, and of none while it is FREE. -/
def State.bindingLaw (s : State) : Prop :=
  ∀ (c : Fin 32) (ch : Fin 8),
    (s.channel ch).bound.count c = (if (s.circuit c).life ≠ .free ∧ (s.circuit c).channel = ch then 1 else 0) ∧
    ((s.channel ch).carriesCircuit c = true → (s.circuit c).life ≠ .free ∧ (s.circuit c).channel = ch)

/-- Every block that the free list, a map or a chain holds, with its repetitions. -/
def State.allBlocks (s : State) : List BlockNo :=
  s.store.free ++ s.bulletins.toList.flatMap (fun b => b.elim [] Bulletin.allBlocks) ++
  s.circuits.toList.flatMap fun x => x.chain.blocks

/-- The block ownership law (01: R3): every block is in exactly one place. -/
def State.blockLaw (s : State) : Prop := ∀ b : BlockNo, s.allBlocks.count b = 1

/-- The queue limit law (05: R75). -/
def State.queueLimitLaw (s : State) : Prop := ∀ c : Fin 32, (s.circuit c).count ≤ 512

/-- A chain that holds blocks holds a character, and its offsets lie in its head and its tail block (01: R14); an empty
chain has both offsets 0. -/
def Chain.law (k : Chain) : Prop :=
  if k.blocks = [] then k.headOffset = 0 ∧ k.tailFill = 0
  else k.headOffset < 64 ∧ 1 ≤ k.tailFill ∧ k.tailFill ≤ 64 ∧ (k.blocks.length = 1 → k.headOffset < k.tailFill)

/-- Every chain is lawful, and a FREE circuit has none (05: R70). -/
def State.chainLaw (s : State) : Prop :=
  ∀ c : Fin 32, (s.circuit c).chain.law ∧ ((s.circuit c).life = .free → (s.circuit c).chain.blocks = [])

/-- A map has the blocks its length needs, no block twice, no fill above its block's size, and its pointer in one of
its blocks (01: R10 to R12). -/
def TextMap.law (m : TextMap) : Prop :=
  1 ≤ m.length ∧ m.blocks.length = blocksNeeded m.length ∧ m.blockNumbers.Nodup ∧ m.pointer < m.blocks.length ∧
  ∀ p < m.blocks.length, m.fill p ≤ m.size p

/-! ## Words of the statements -/

/-- The characters of a queue, head first (01: R14). -/
def Chain.text (k : Chain) (cells : Memory) : List Byte :=
  (List.range k.count).map fun i =>
    (k.blocks[(k.headOffset + i) / 64]?).elim blankByte fun b => cells.read (cellAddress b ((k.headOffset + i) % 64))

/-- RESET is released and no restart is pending: the part executes requests. -/
def State.serves (s : State) : Prop := s.resetHeld = false ∧ s.link.restartPending = false

/-- A request's reply is placed, and the arbiter acts. -/
def State.replied (u : State) (r : ReplyTo) (kind : Byte) (v : Verdict) : State := (u.placeReply r kind v).arbitrate

/-- A notice under the key waits and gathers the event. -/
def State.reports (s : State) (key : NoticeKey) (e : NoticeEvent) : Prop :=
  ∃ x ∈ s.notices, x.key = key ∧ e ∈ x.events

/-- The reply to a frame that carries a status alone. -/
def Frame.answer (f : Frame) (st : Status) : Reply := ⟨f.tag, f.position, f.kindOctet, st, [], 0⟩

/-- The part just started from its reset values, with the levels of its inputs and its waiting commands: LINK READY is
asserted and the STARTED notice has begun (11: R184, R181). -/
def State.started (keyok : Vector Bool 8) (silence : Bool) (pending : List Instr) (pauses : List Nat) : State :=
  { State.atRest keyok silence pending pauses with
    resetHeld := false
    link := { Link.reset with
      linkReady := true
      outgoing := some ⟨.notice, false, 0, 0, [3, 0, 1, 0, 0, 1, if silence then 0 else 1, 4, 0, 0, 0],
        17 * Config.ticksPerOctet⟩ } }

/-- How a character begins: its own symbol with none held, or the shift it needs with the character held
(06: R108, R109). -/
def Channel.opening (x : Channel) (c : Byte) : Symbol × Option Byte :=
  let v := convert x.settings.code c
  if v.need = none ∨ v.need = some x.shift then (.data v.sent c, none)
  else if v.need = some .letters then (.shiftLetters, some c) else (.shiftFigures, some c)

/-- The next symbol of the turn begins now: a character, or IDLE where there is none (06: R93, 08: R129). -/
def Channel.begins (x : Channel) (now : Nat) (c : Option Byte) (x' : Channel) : Prop :=
  let next := c.elim (Symbol.idle, none) x.opening
  x'.output = some ⟨next.1, now + x.settings.symbolTicks⟩ ∧ x'.turn.map (fun t => t.held) = some next.2

/-- The shift state once the symbol is complete (06: R108; that PHASE acts under either code is log 26). -/
def Channel.shiftAfter (x : Channel) : Symbol → Shift
  | .phase => .unknown
  | .shiftLetters => .letters
  | .shiftFigures => .figures
  | .idle | .data _ _ => x.shift

/-- The substitution count once the symbol is complete (06: R109). -/
def Channel.substitutionsAfter (x : Channel) : Symbol → Nat
  | .data _ source =>
    if (convert x.settings.code source).substituted then min 65535 (x.substitutions + 1) else x.substitutions
  | .idle | .phase | .shiftLetters | .shiftFigures => x.substitutions

/-- A decimal digit as a character, of the lowest place of n. -/
def digitOctet (n : Nat) : Byte := BitVec.ofNat 8 (0x30 + n % 10)

/-- A serial as three digits with leading zeros (08: R134, R149; 09: R157). -/
def serialOctets (n : Nat) : List Byte := [digitOctet (n / 100), digitOctet (n / 10), digitOctet n]

/-- A revision in decimal without leading zeros (08: R134). -/
def revisionOctets (n : Nat) : List Byte :=
  (if 100 ≤ n then [digitOctet (n / 100)] else []) ++ (if 10 ≤ n then [digitOctet (n / 10)] else []) ++ [digitOctet n]

/-- The two-letter codes DR, UR, NW, MW, WF, IR and RN (02: R21). -/
def categoryOctets : Category → List Byte
  | .dr => [0x44, 0x52]
  | .ur => [0x55, 0x52]
  | .nw => [0x4E, 0x57]
  | .mw => [0x4D, 0x57]
  | .wf => [0x57, 0x46]
  | .ir => [0x49, 0x52]
  | .rn => [0x52, 0x4E]

/-- The header. Of a telex turn: the call-up string, a space and CONT where the resume flag is yes, CR LF. Of a pass:
BLT, a space, the serial, a space, the code, a space, REV, a space, the revision, CR LF (08: R132, R134). -/
def State.headerOctets (s : State) : TurnKind → List Byte
  | .telex c => (s.circuit c.circuit).callUp ++
      (if (s.circuit c.circuit).resume then [0x20, 0x43, 0x4F, 0x4E, 0x54] else []) ++ [0x0D, 0x0A]
  | .pass p => [0x42, 0x4C, 0x54, 0x20] ++ serialOctets p.serial ++ [0x20] ++ categoryOctets p.category ++
      [0x20, 0x52, 0x45, 0x56, 0x20] ++ revisionOctets p.revision ++ [0x0D, 0x0A]

/-- The trailer. Of a telex turn: CR LF. Of a pass: CR, LF, END, a space, the serial, CR, LF (08: R140, R149). -/
def trailerOctets : TurnKind → List Byte
  | .telex _ => [0x0D, 0x0A]
  | .pass p => [0x0D, 0x0A, 0x45, 0x4E, 0x44, 0x20] ++ serialOctets p.serial ++ [0x0D, 0x0A]

/-- The break sequence: CR, LF, B, R, K, CR, LF (08: R147). -/
def breakOctets : List Byte := [0x0D, 0x0A, 0x42, 0x52, 0x4B, 0x0D, 0x0A]

/-- The sequence of a cut: for WITHDRAW, which only a pass meets, the cancel trailer CR, LF, CANCEL, a space, the serial,
CR, LF; for the other reasons the break sequence (09: R157). -/
def closingOctets : TurnKind → CutReason → List Byte
  | .pass p, .withdraw =>
    [0x0D, 0x0A, 0x43, 0x41, 0x4E, 0x43, 0x45, 0x4C, 0x20] ++ serialOctets p.serial ++ [0x0D, 0x0A]
  | _, _ => breakOctets

/-- The payload of a notice: key kind, key number, event set, state fields, counts (11: R181). A named value is the
octet of its place in the spec's list and a word is two octets, the high one first; the key number has a presence
octet (10: R169; log 9); a CLOSING circuit has its hold reasons after the state (log 30). -/
def State.noticeOctets (s : State) (e : NoticeEntry) : List Byte :=
  let octet (n : Nat) : List Byte := [BitVec.ofNat 8 n]
  let word (n : Nat) : List Byte := [BitVec.ofNat 8 (n / 256), BitVec.ofNat 8 n]
  let bit (k : Byte) (names : List NoticeEvent) : Byte := if e.events.any (fun v => decide (v ∈ names)) then k else 0
  let events : Byte := bit 1 [.pause, .completed, .locked, .started] |||
    bit 2 [.resume, .interrupted, .off, .clockDrifting] |||
    bit 4 [.holdExceeded, .abandoned, .permitTimeout, .clockLocked] |||
    bit 8 [.moved, .missed, .permitLost, .silenceOn] ||| bit 16 [.closed, .committed, .gapStart, .silenceOff] |||
    bit 32 [.retired, .gapEnd]
  match e.key with
  | .circuit c =>
    let x := s.circuit c
    [0, 1] ++ octet c.val ++ [events] ++
    (match x.life with
      | .free => [0]
      | .closing => [3, (if x.hostHold then 1 else 0) ||| (if x.channelHold then 2 else 0)]
      | .bound => if x.hostHold = true ∨ x.channelHold = true then [2] else [1]) ++
    (match x.flow with | .flowing => [0] | .pausedThreshold => [1] | .pausedStore => [2]) ++
    word x.count ++ octet x.channel.val
  | .bulletin n =>
    [1, 1] ++ octet n.val ++ [events] ++
    (match s.bulletin n with
      | none => [0, 0, 0, 0]
      | some b => (match b.state with | .composing => [1] | .released => [2] | .withdrawing => [3]) ++ word b.revision ++
          octet b.onAir) ++
    word e.counts.completed ++ word e.counts.interrupted ++ word e.counts.abandoned ++ word e.counts.missed
  | .channel ch =>
    [2, 1] ++ octet ch.val ++ [events] ++ (match (s.channel ch).state with
      | .unset => [0] | .off => [1] | .locking => [2] | .idle => [3]
      | .requesting => [4] | .keyed => [5] | .backoff => [6] | .stopping => [7])
  | .station =>
    [3, 0, events] ++ word s.clock.minute ++ (match s.clock.status with | .locked => [0] | .drifting => [1]) ++
    (if s.silence then [0] else [1]) ++ word s.store.free.length ++ word s.link.errors

/-- The record of a FREE circuit, which keeps the channel it was last bound to (05: R70). -/
def Circuit.freeOn (ch : Fin 8) : Circuit :=
  { life := .free, hostHold := false, channelHold := false, channel := ch, callUp := [], chain := ⟨[], 0, 0⟩
    flow := .flowing, resume := false, waitStart := none, holdNotified := false, movePending := none
    drainPending := false }

/-- The cut has fallen: its closing sequence begins, no cut is pending and this one is in progress (09: R155, R157). -/
def Turn.cutBy (t : Turn) (r : CutReason) (t' : Turn) : Prop :=
  t'.phase = .closing ∧ t'.text = closingOctets t.kind r ∧ t'.textPosition = 0 ∧ t'.pendingCut = none ∧
  t'.cutInProgress = some r

/-- The cut has fallen and the first character of its sequence, CR, begins (09: R155, R157). -/
def Channel.cutFallen (x : Channel) (now : Nat) (t : Turn) (r : CutReason) (x' : Channel) (t' : Turn) : Prop :=
  t.cutBy r t' ∧ x.begins now (some 0x0D) x'

/-- The pending cut after a cause: URGENCY gives way to the other reasons, and nothing else gives way; none is caused in
TRAILER and BREAK (09: R153, R156). -/
def Turn.caused (t : Turn) (r : CutReason) : Turn :=
  if t.phase = .trailer ∨ t.phase = .closing then t
  else if t.pendingCut.any fun p => decide (p.reason ≠ .urgency ∨ r = .urgency) then t
  else { t with pendingCut := some ⟨r, 0⟩ }

/-- The turn once an entry of class k has become eligible on its KEYED channel: a telex turn and a pass of a higher class
number are caused DISTRESS by class 0 and URGENCY by class 1, and any other turn goes on (07: R117; 09: R153). -/
def Turn.told (t : Turn) (k : Rank) : Turn :=
  let yields := match t.kind with | .telex _ => true | .pass p => decide (k < p.rank)
  if yields = true ∧ k = 0 then t.caused .distress else if yields = true ∧ k = 1 then t.caused .urgency else t

/-- The bulletin retires once this channel's queue is gone: RELEASED, its occasions used up, on no channel's air and in
no other channel's queue (02: R36). -/
def State.retiresWithout (s : State) (ch : Fin 8) (n : Fin 64) (b : Bulletin) : Bool :=
  decide (b.state = .released) && decide (b.schedule.limit = some 0) && decide (b.onAir = 0) &&
  allChannels.all fun j => decide (j = ch) || !(s.channel j).holdsEntry n

/-- The channel has been told that its entry of the bulletin is eligible, if silence does not hold it back: an IDLE
channel raises KEYREQ, and on a KEYED one a turn that yields to the entry's class is caused its cut (03: R50; 07: R117;
09: R153). -/
def State.entryTold (s : State) (n : Fin 64) (ch : Fin 8) (u : State) : Prop :=
  let x := s.channel ch
  ∀ e, x.queue.find? (fun e => e.bulletin = n) = some e → (s.silenced ch = false ∨ e.rank = 0) →
    (x.state = .idle → (u.channel ch).keyreq = true) ∧
    ∀ t, x.state = .keyed → x.turn = some t → (u.channel ch).turn = some (t.told e.rank)

/-- The outcome of a pass, as the event of its bulletin's notice: ABANDONED for an abandoned pass; INTERRUPTED at a cut in
progress, but none for WITHDRAW; and without a cut in progress the one given (02: R24, R25; 08: R148; 09: R158, R160). -/
def Turn.outcomeOf (t : Turn) (p : PassTurn) (without : NoticeEvent) : Option NoticeEvent :=
  if p.abandoned then some .abandoned
  else match t.cutInProgress with
    | none => some without
    | some .withdraw => none
    | some _ => some .interrupted

/-- The account of a bulletin once a pass of it has ended with the outcome (02: R23, R25). -/
def Bulletin.countedFor (b : Bulletin) (o : Option NoticeEvent) : Bulletin :=
  let up (e : NoticeEvent) (n : Nat) : Nat := if o = some e then min 65535 (n + 1) else n
  { b with
    sent := b.sent || decide (o = some .completed), completed := up .completed b.completed
    interrupted := up .interrupted b.interrupted, abandoned := up .abandoned b.abandoned, missed := up .missed b.missed }

/-- The broadcast queue once a pass has ended with the outcome. The entry of a RELEASED bulletin is put back: at the
tail of its class with one pass fewer, if one is left, after a completed pass, and at the head of its class with one
interruption more after an interrupted one. Any other entry is dropped (07: R114; 08: R148, R150; 09: R160). -/
def State.queueAfterPass (s : State) (p : PassTurn) (o : Option NoticeEvent) (q : List Entry) : List Entry :=
  if (s.bulletin p.bulletin).any (fun b => decide (b.state = .released)) = true then
    if o = some .completed ∧ 2 ≤ p.passes then
      insertAtTail q ⟨p.bulletin, p.rank, p.passes - 1, p.interrupted, p.minuteQueued⟩
    else if o = some .interrupted then
      insertAtHead q ⟨p.bulletin, p.rank, p.passes, min 255 (p.interrupted + 1), p.minuteQueued⟩
    else q
  else q

/-- The first phase of a turn that a grant starts (07: R112; 08: R130). -/
def Profile.openingPhase (p : Profile) : Phase := if p.lead = 0 then .preamble else .lead

/-- The turn that a selection at `v` names has started, and nothing else has changed. A pass takes its entry out of the
queue, loads its bulletin's values, and raises the on-air count; a telex turn ends the wait of its circuit and is the last
one served; each moves the run counters (07: R118, R121, R122; 08: R128, R130, R131; 06: R93). -/
def State.turnStarted (v : State) (ch : Fin 8) (phase : Phase) (choice : Choice) (u : State) : Prop :=
  let x := v.channel ch
  let opened (kind : TurnKind) : Turn :=
    { kind := kind, phase := phase, phaseCount := 0, text := [], textPosition := 0, held := none, pendingCut := none
      cutInProgress := none }
  let first : Emission := ⟨if phase = .lead then .idle else .phase, v.now + x.settings.symbolTicks⟩
  match choice with
  | .nothing => False
  | .entry e => ∃ b, v.bulletin e.bulletin = some b ∧
      u = (v.setChannel ch { x with
        queue := x.queue.eraseP fun y => decide (y.bulletin = e.bulletin)
        turn := some (opened (.pass {
          bulletin := e.bulletin, serial := b.serial, category := b.category, rank := b.category.rank
          revision := b.revision, length := b.current.length, passes := e.passes, interrupted := e.interrupted
          minuteQueued := e.minuteQueued, bodyOffset := 0, gapTimer := none, abandoned := false }))
        output := some first, holdCount := 0
        bulletinRun := min 255 (x.bulletinRun + 1), telexRun := 0 }).setBulletin e.bulletin
          (some { b with onAir := b.onAir + 1 })
  | .circuit c =>
      u = (v.setChannel ch { x with
        turn := some (opened (.telex { circuit := c, bodyCount := 0, graceCount := 0 }))
        output := some first, holdCount := 0, lastServed := some c
        telexRun := min 255 (x.telexRun + 1), bulletinRun := 0 }).setCircuit c { v.circuit c with waitStart := none }

/-- The selection at `v` has started the turn it names, or, with nothing eligible, the channel holds an IDLE symbol,
or is released where the key hold is 0 or it is under silence (07: R112, R123; 06: R101, R106). -/
def State.selected (v : State) (ch : Fin 8) (phase : Phase) (u : State) : Prop :=
  let x := v.channel ch
  if v.anythingEligible ch = true then v.turnStarted ch phase (v.choose ch) u
  else u = v.setChannel ch (
    if x.settings.keyHold = 0 ∨ v.silenced ch = true then
      { x with state := .idle, keyreq := false, output := none, turn := none, holdCount := 0 }
    else { x with turn := none, holdCount := 0, output := some ⟨.idle, v.now + x.settings.symbolTicks⟩ })

/-- The consultation of a channel at `v` (06: R96, R97; 07: R113). A channel that is not IDLE, and an IDLE one with
nothing eligible, is as it was. An IDLE one with anything eligible raises KEYREQ and is REQUESTING with its permit
timer running, which is a grant where KEYOK is present. -/
def State.consulted (v : State) (ch : Fin 8) (u : State) : Prop :=
  let x := v.channel ch
  let period := Config.milliseconds x.settings.permitTimeout
  if x.state ≠ .idle ∨ v.anythingEligible ch = false then u = v
  else if v.keyokOf ch = false then
    u = v.setChannel ch { x with
      state := .requesting, keyreq := true, permitTimer := some ⟨period, v.now + period⟩ }
  else (v.setChannel ch { x with state := .keyed, keyreq := true, permitTimer := none }).turnStarted ch
    x.settings.openingPhase (v.choose ch) u

/-- The accepted set of the Text Store (01: R2). -/
def isTextCharacter (x : Byte) : Prop := (0x20 ≤ x.toNat ∧ x.toNat ≤ 0x7E) ∨ x = 0x0D ∨ x = 0x0A

/-- The answer to a text that is refused for its count or for its characters, in this order; `field` is the place of the
characters among the request's fields (02: R27; 03: R44; 05: R75). -/
def textRefused (field : Byte) (chars : List Byte) (v : Verdict) : Prop :=
  ((chars.length = 0 ∨ 200 < chars.length) ∧ v = ⟨.range, [field]⟩) ∨
  (1 ≤ chars.length ∧ chars.length ≤ 200 ∧ (∃ x ∈ chars, ¬ isTextCharacter x) ∧ v = ⟨.badCharacter, []⟩)

/-- A text that passes both checks. -/
def isText (chars : List Byte) : Prop := 1 ≤ chars.length ∧ chars.length ≤ 200 ∧ ∀ x ∈ chars, isTextCharacter x

/-- The circuit waits, whether or not its record says so yet (05: R77). -/
def Circuit.waits (x : Circuit) (onAir : Bool) : Bool :=
  x.life ≠ .free && !x.hostHold && !x.channelHold && decide (1 ≤ x.count) && !onAir

/-- The record of a circuit once its wait is settled at `now`: an episode begins where it waits and none ran, goes on
where one ran, and there is none where it does not wait (05: R77). -/
def Circuit.settledAt (x : Circuit) (onAir : Bool) (now : Nat) : Circuit :=
  if x.waits onAir = false then { x with waitStart := none }
  else if x.waitStart = none then { x with waitStart := some now, holdNotified := false }
  else x

/-- The record of a circuit whose CHANNEL hold is removed at `now` (05: R74, R77). -/
def Circuit.releasedAt (x : Circuit) (onAir : Bool) (now : Nat) : Circuit :=
  { x with channelHold := false }.settledAt onAir now

/-- What an event that returned these blocks has done to the flow of a circuit: the block return report, made if there
was a block to return, has resumed one that was paused for STORE and holds 128 characters or fewer, with RESUME, and
left every other one as it was (01: R18; 05: R81). -/
def State.returnReported (s : State) (blocks : List BlockNo) (d : Fin 32) (u : State) : Prop :=
  if blocks ≠ [] ∧ (s.circuit d).flow = .pausedStore ∧ (s.circuit d).count ≤ 128 then
    (u.circuit d).flow = .flowing ∧ u.reports (.circuit d) .resume
  else (u.circuit d).flow = (s.circuit d).flow

/-- The head character of a circuit's queue has left it: the block that this empties is at the tail of the free list; the
circuit, if it was paused and now holds 128 characters or fewer, resumes with RESUME, from a pause for STORE only while a
block is free; a block returned resumes every other circuit that was paused for STORE and holds 128 or fewer. Nothing else
of a circuit or of the store has changed (01: R16, R18; 05: R80, R81). -/
def State.headLeft (s : State) (c : Fin 32) (w : State) : Prop :=
  let x := s.circuit c
  let left := (w.circuit c).chain
  left.text w.store.cells = (x.chain.text s.store.cells).tail ∧ left.count = x.count - 1 ∧
  w.store = { s.store with
    free := s.store.free ++ x.chain.blocks.take (x.chain.blocks.length - left.blocks.length) } ∧
  w.circuit c = { x with chain := left, flow := (w.circuit c).flow } ∧
  ∀ d, let y := s.circuit d
    (d ≠ c → w.circuit d = { y with flow := (w.circuit d).flow }) ∧
    let resumes := if d = c
      then x.count ≤ 129 ∧ (x.flow = .pausedThreshold ∨ x.flow = .pausedStore ∧ w.store.free ≠ [])
      else w.store.free.length ≠ s.store.free.length ∧ y.flow = .pausedStore ∧ y.count ≤ 128
    (resumes → (w.circuit d).flow = .flowing ∧ w.reports (.circuit d) .resume) ∧
    (¬ resumes → (w.circuit d).flow = y.flow)

/-- What the completion of a symbol has done to the circuit of the channel's telex turn before the turn is stopped,
and how many body characters the turn has emitted: a body character has left the queue, if the queue holds one; the
last character of a header that no cut is to break off has cleared the resume flag; any other symbol changes nothing
(08: R132, R133, R135; 09: R162; that a cut at the last character leaves the flag set is log 27). -/
def State.telexWorked (s : State) (t : Turn) (c : TelexTurn) (y : Symbol) (w : State) (emitted : Nat) : Prop :=
  let x := s.circuit c.circuit
  let leaves := t.phase = .body ∧ (∃ sent source, y = .data sent source) ∧ x.count ≠ 0
  let opens := t.phase = .header ∧ y ≠ .shiftLetters ∧ y ≠ .shiftFigures ∧ t.pendingCut = none ∧
    t.text.length ≤ t.textPosition + 1
  w = { s with store := w.store, circuits := w.circuits, notices := w.notices } ∧
  (leaves → emitted = c.bodyCount + 1 ∧ (x.chain.law → s.headLeft c.circuit w)) ∧
  (opens → emitted = 0 ∧ w = s.setCircuit c.circuit { x with resume := false }) ∧
  (¬ leaves → ¬ opens → emitted = c.bodyCount ∧ w = { s with notices := w.notices }) ∧
  ∀ key e, s.reports key e → w.reports key e

/-- The turn of a circuit on the channel, which is KEYED or STOPPING, has ended: `v` is the state then, before the
channel's selection or its next state. A circuit that is CLOSING and empty is FREE, with CLOSED. Otherwise its resume
flag is as given, and a pending move is applied: the circuit stands at the tail of the target's list, held for CHANNEL
unless the target is ON, with MOVED; a circuit that now waits begins its episode, and the channel it has moved to
consults. Nothing else of another channel, of another circuit or of another block has changed (05: R77, R83, R84,
R87). -/
def State.telexEnded (s : State) (ch : Fin 8) (c : Fin 32) (resume : Bool) (v : State) : Prop :=
  let x := s.circuit c
  let target := x.movePending.getD ch
  let kept : Circuit := { x with
    resume := resume, channel := target, movePending := none
    channelHold := if x.movePending = none then x.channelHold else !(s.channel target).isOn }
  let elsewhere := decide (target ≠ ch) && (s.channel target).carriesCircuit c
  let freed := decide (x.life = .closing) && decide (x.count = 0)
  let bound (j : Fin 8) : List (Fin 32) :=
    if freed = true then (if j = ch then (s.channel j).bound.erase c else (s.channel j).bound)
    else if x.movePending = none then (s.channel j).bound
    else (if j = ch then (s.channel j).bound.erase c else (s.channel j).bound) ++ if j = target then [c] else []
  (∀ key e, s.reports key e → v.reports key e) ∧
  (freed = true → v.reports (.circuit c) .closed) ∧
  (freed = false → x.movePending ≠ none → v.reports (.circuit c) .moved) ∧
  ∃ w : State, w = { s with circuits := w.circuits, channels := w.channels, notices := w.notices } ∧
    w.circuit c = (if freed = true then Circuit.freeOn x.channel else kept.settledAt elsewhere s.now) ∧
    (∀ d, d ≠ c → w.circuit d = s.circuit d) ∧
    (w.channel ch).bound = bound ch ∧ (w.channel ch).queue = (s.channel ch).queue ∧
    (w.channel ch).profile = (s.channel ch).profile ∧
    (∀ j, j ≠ ch → w.channel j = { s.channel j with bound := bound j }) ∧
    if freed = false ∧ target ≠ ch ∧ kept.waits elsewhere = true then w.consulted target v else v = w

/-- The pass that was the turn of the channel has ended with the outcome: `v` is the state then, before the channel's
selection or its next state. The entry is put back or dropped, the account is kept with its event, and the on-air
count is one lower. Where it is now 0, a WITHDRAWING bulletin leaves its entry EMPTY, with a notice; a RELEASED one
takes a pending commit, with COMMITTED, and every other channel that holds an entry of it is told; and then a RELEASED
one whose occasions are used up and of which no queue holds an entry retires: its entry is EMPTY, with RETIRED. The
blocks given up are at the tail of the free list, with their report. Nothing else has changed (02: R23 to R25, R35 to
R37; 03: R47, R50; 01: R6, R18). -/
def State.passEnded (s : State) (ch : Fin 8) (p : PassTurn) (o : Option NoticeEvent) (v : State) : Prop :=
  let n := p.bulletin
  let q := s.queueAfterPass p o (s.channel ch).queue
  (∀ key e, s.reports key e → v.reports key e) ∧
  v = { s with
    store := v.store, bulletins := v.bulletins, circuits := v.circuits, channels := v.channels, notices := v.notices } ∧
  (v.channel ch).queue = q ∧ (v.channel ch).bound = (s.channel ch).bound ∧
  (v.channel ch).profile = (s.channel ch).profile ∧
  match s.bulletin n with
  | none => v.store = s.store ∧ v.bulletins = s.bulletins ∧ v.circuits = s.circuits ∧
      ∀ j, j ≠ ch → v.channel j = s.channel j
  | some b =>
    let left : Bulletin := { b.countedFor o with onAir := b.onAir - 1 }
    let retires := s.retiresWithout ch n left && !q.any fun e => decide (e.bulletin = n)
    let staged := if left.onAir = 0 ∧ b.state = .released ∧ b.commitPending = true then b.staged else none
    (∀ e, o = some e → v.reports (.bulletin n) e) ∧ (retires = true → v.reports (.bulletin n) .retired) ∧
    match staged with
    | none =>
      let gone := retires || decide (left.onAir = 0 ∧ b.state = .withdrawing)
      let returned := if gone = true then left.allBlocks else []
      (gone = true → ∃ e ∈ v.notices, e.key = .bulletin n) ∧
      v.bulletin n = (if gone = true then none else some left) ∧ (∀ i, i ≠ n → v.bulletin i = s.bulletin i) ∧
      v.store = { s.store with free := s.store.free ++ returned } ∧
      (∀ d, v.circuit d = { s.circuit d with flow := (v.circuit d).flow } ∧ s.returnReported returned d v) ∧
      ∀ j, j ≠ ch → v.channel j = s.channel j
    | some m =>
      let returned := b.current.blockNumbers ++ if retires = true then m.blockNumbers else []
      v.reports (.bulletin n) .committed ∧ v.store = { s.store with free := s.store.free ++ returned } ∧
      (b.current.blockNumbers ≠ [] → ∀ d, s.returnReported returned d v) ∧
      (∀ i, i ≠ n → (v.bulletin i).isSome = (s.bulletin i).isSome) ∧
      (if retires = true then v.bulletin n = none else ∃ k, v.bulletin n = some { left with
        current := m, staged := none, commitPending := false, revision := b.revision + 1, revised := true, onAir := k }) ∧
      ∀ j, j ≠ ch → s.entryTold n j v ∧ ((s.channel j).holdsEntry n = false → v.channel j = s.channel j)

/-- The blocks of the bulletins that retire when the channel enters OFF, in the order of its queue (02: R36, R37; 06:
R105). -/
def State.offReturns (v : State) (ch : Fin 8) : List BlockNo :=
  (v.channel ch).queue.flatMap fun e => (v.bulletin e.bulletin).elim [] fun b =>
    if v.retiresWithout ch e.bulletin b = true then b.allBlocks else []

/-- The channel of `v`, whose turn has ended or which had none, has entered OFF (06: R105). It keeps its profile, its
bound list and its substitution count and is otherwise as after reset, with OFF. Each entry of its queue is a miss of
its bulletin, with MISSED, and a bulletin of which nothing is left then retires: its entry is EMPTY, with RETIRED, and
its blocks are at the tail of the free list, with their report. The bound circuits are held for CHANNEL and wait no
more. Nothing else has changed (01: R18; 02: R23, R36, R37; 05: R74, R81). -/
def State.wentOff (v : State) (ch : Fin 8) (u : State) : Prop :=
  let x := v.channel ch
  u = { v with
    store := u.store, bulletins := u.bulletins, circuits := u.circuits, channels := u.channels, notices := u.notices } ∧
  u.channel ch = { Channel.reset with
    profile := x.profile, state := .off, bound := x.bound, substitutions := x.substitutions } ∧
  (∀ j, j ≠ ch → u.channel j = v.channel j) ∧
  (∀ key e, v.reports key e → u.reports key e) ∧ u.reports (.channel ch) .off ∧
  (∀ e ∈ x.queue, u.reports (.bulletin e.bulletin) .missed) ∧
  (∀ d, { u.circuit d with flow := .flowing } =
    if d ∈ x.bound then { v.circuit d with channelHold := true, waitStart := none, flow := .flowing }
    else { v.circuit d with flow := .flowing }) ∧
  ((x.queue.map fun e => e.bulletin).Nodup →
    u.store = { v.store with free := v.store.free ++ v.offReturns ch } ∧
    (∀ d, v.returnReported (v.offReturns ch) d u) ∧
    ∀ n, match v.bulletin n with
      | none => u.bulletin n = none
      | some b =>
        if x.holdsEntry n = false then u.bulletin n = some b
        else if v.retiresWithout ch n b = true then u.bulletin n = none ∧ u.reports (.bulletin n) .retired
        else u.bulletin n = some { b with missed := min 65535 (b.missed + 1) })

/-- An occasion of the bulletin is due at the advance of this clock (04: R54, R63). -/
def Bulletin.dueAt (b : Bulletin) (k : Clock) : Bool :=
  b.state = .released && decide (b.schedule.limit ≠ some 0) && match b.schedule.start with
    | .now => false
    | .atMinutes ms => k.isSet && ms.contains ((k.minute + 1) % 1440)
    | .every _ => decide (b.countdown ≤ 1)

/-- The entries that the occasions of a minute advance place on the channel, in ascending bulletin number: class,
passes per occasion and minute of day are those of the occasion, and no interruption is counted (04: R54, R64, R66).
-/
def State.advanceEntries (s : State) (ch : Fin 8) : List Entry :=
  allEntries.filterMap fun n => (s.bulletin n).bind fun b =>
    if b.dueAt s.clock = true ∧ ch ∈ b.schedule.mask ∧ (s.channel ch).takesOccasion n b = true then
      some ⟨n, b.category.rank, b.schedule.passes, 0, (s.clock.minute + 1) % 1440⟩
    else none

/-- The entry is eligible on the channel in these two respects, its bulletin being RELEASED: no commit is pending, and
silence does not hold back its class (07: R115; 06: R107). -/
def State.entryFree (s : State) (ch : Fin 8) (e : Entry) : Bool :=
  (s.bulletin e.bulletin).any (fun b => !b.commitPending) && (!s.silenced ch || decide (e.rank = 0))

/-- The occasion that uses up the limit of the bulletin retires it: no channel of the mask takes the occasion, no queue
holds an entry of the bulletin, and it is on no channel's air (02: R36; 04: R65). -/
def State.retiresUnplaced (s : State) (n : Fin 64) (b : Bulletin) (mask : List (Fin 8)) : Bool :=
  decide (b.onAir = 0) && mask.all (fun ch => !(s.channel ch).takesOccasion n b) &&
  allChannels.all fun ch => !(s.channel ch).holdsEntry n

/-- The minute advance retires the bulletin: it brings an occasion that is the last one, and that retires it. -/
def State.advanceRetires (s : State) (n : Fin 64) (b : Bulletin) : Bool :=
  b.dueAt s.clock && decide (b.schedule.limit = some 1) && s.retiresUnplaced n b b.schedule.mask

/-- The blocks of the bulletins that a minute advance retires, in ascending bulletin number (02: R37; 04: R54). -/
def State.advanceReturns (s : State) : List BlockNo :=
  allEntries.flatMap fun n => (s.bulletin n).elim [] fun b => if s.advanceRetires n b = true then b.allBlocks else []

/-- The channel, once entries have been placed in its queue as given: where it was IDLE and has started a pass at
once, the entry of that pass has left the queue (04: R67; 07: R121). -/
def Channel.queuePlaced (x : Channel) (placed : List Entry) (x' : Channel) : Prop :=
  x'.queue =
    if x.state = .idle ∧ x'.state = .keyed then
      match x'.turn.map fun t => t.kind with
      | some (.pass p) => placed.eraseP fun e => decide (e.bulletin = p.bulletin)
      | _ => placed
    else placed

/-- The positions of a map at which a write in the extending manner may store that begins at block `start`: the ones not
written of the blocks not present that follow each other from there (01: R13). -/
def TextMap.room (m : TextMap) (start : Nat) : List Nat :=
  let blocks := ((List.range m.blocks.length).drop start).takeWhile fun p => !m.present p
  blocks.flatMap fun p => (List.range (m.size p)).drop (m.fill p) |>.map fun i => 64 * p + i

/-- A text has been written over a map from offset o on: k of the characters stand there, what comes before is as it
was, the rest of the last block written is not written, the blocks after it are as they were, and the pointer stands in
the block of the last character stored (01: R12). -/
def TextMap.rewrittenAs (m : TextMap) (cells : Memory) (m' : TextMap) (cells' : Memory) (o k : Nat) (chars : List Byte) :
    Prop :=
  m'.length = m.length ∧ m'.blockNumbers = m.blockNumbers ∧ m'.pointer = (o + k - 1) / 64 ∧
  (∀ i < k, m'.written (o + i) = true ∧ some (m'.charAt cells' (o + i)) = chars[i]?) ∧
  (∀ i < o, m'.written i = m.written i ∧ m'.charAt cells' i = m.charAt cells i) ∧
  ∀ i, o + k ≤ i →
    if i / 64 = (o + k - 1) / 64 then m'.written i = false
    else m'.written i = m.written i ∧ m'.charAt cells' i = m.charAt cells i

end Sys2Proof.Machine
end

