-- ==== Sys2Proof/Certificates/Slice0/Obligations.lean ====
section
/-! DEFINITION. The statements about the DL8, as propositions: the step, the requests of each family, the line, the
clock, keying, turns on air, and the laws that every step keeps. A statement that gives the state after a command gives
all of it: what it does not name is as it was before. -/

open Sys2Proof Sys2Proof.Machine

/-! ## The step, and what holds of every command -/

/-- A step takes the command at the front of the queue and executes it with the rest of the queue. -/
def Obligations.StepRunsFrontCommand : Prop :=
  ∀ (c : Instr) (s : State) (rest : List Instr), step { s with pending := c :: rest } = exec c { s with pending := rest }

/-- Every command completes. It leaves the waiting commands alone, and moves the level of an input only where it is the
event of that input. -/
def Obligations.EveryCommandCompletes : Prop :=
  ∀ (c : Instr) (s : State), ∃ t, exec c s = .next t ∧ t.pending = s.pending ∧
    t.silence = (match c with | .silenceAssert => true | .silenceRelease => false | _ => s.silence) ∧
    ∀ ch : Fin 8, t.keyokOf ch =
      (match c with
        | .keyokGrant i => s.keyokOf ch || decide (i = ch)
        | .permitLoss i => s.keyokOf ch && !decide (i = ch)
        | _ => s.keyokOf ch)

/-- A request is executed by its block and answered with one reply at the tail of the reply list, with its tag, its
position and its kind; its block does not touch the line. While a restart is pending it is answered SKIPPED and does
nothing (10: R173, R177; 11: R185). That a request row runs at once, past the receive queue and the take condition, and
what it meets while a restart is pending, is the model's (log 4); RestartSkipsWhatWaits has the RESTART row. -/
def Obligations.EveryRequestIsAnsweredOnce : Prop :=
  ∀ (i : Instr) (r : ReplyTo) (q : Request) (s : State), i.request = some (r, q) → q ≠ .restart → s.resetHeld = false →
    (s.link.restartPending = true → exec i s = .next (s.replied r q.kindCode ⟨.skipped, []⟩)) ∧
    (s.link.restartPending = false →
      exec i s = .next ((runRequest q s).1.replied r q.kindCode (runRequest q s).2) ∧
      (runRequest q s).1.link = s.link ∧ (runRequest q s).1.now = s.now ∧
      (runRequest q s).1.pending = s.pending ∧ (runRequest q s).1.resetHeld = s.resetHeld)

/-- A request that is answered with neither OK nor PARTIAL has changed nothing, but for the pause of a CIRCUIT TEXT that
found no block (02: R19; 05: R79). -/
def Obligations.FailedRequestChangesNothing : Prop :=
  ∀ (q : Request) (s : State), (runRequest q s).2.status ≠ .ok → (runRequest q s).2.status ≠ .partialText →
    (runRequest q s).1 = s ∨
    ∃ c chars, q = .circuitText c.val chars ∧ (runRequest q s).2.status = .storeFull ∧
      (runRequest q s).1 = s.setFlow c .pausedStore

/-- The checks of the number that a request names: a channel above 7 and a circuit above 31 fail with RANGE on field 0;
bulletin 0 fails with NULL_ENTRY, one above 63 with RANGE on field 0, and an EMPTY entry with NOT_PRESENT, but for
DECLARE BULLETIN and READ BULLETIN (06: R91; 05: R70; 02: R19). -/
def Obligations.NumbersAreCheckedFirst : Prop :=
  ∀ (s : State) (n : Nat),
    (8 ≤ n → ∀ f mode, ∀ q ∈ [Request.setProfile n f, .channelOn n, .channelOff n mode, .readChannel n],
        runRequest q s = (s, ⟨.range, [0]⟩)) ∧
    (32 ≤ n → ∀ k chars, ∀ q ∈ [Request.openCircuit n k chars, .circuitText n chars, .holdCircuit n k, .moveCircuit n k,
        .closeCircuit n k, .readCircuit n], runRequest q s = (s, ⟨.range, [0]⟩)) ∧
    (∀ ser cat len f tgt b chars off cnt,
      let others := [Request.bulletinText n tgt b chars, .amendBulletin n f, .releaseBulletin n, .withdrawBulletin n,
        .clearMarks n, .readText n tgt off cnt, .stageRevision n len, .commitRevision n, .discardRevision n]
      let either := [Request.declareBulletin n ser cat len f, .readBulletin n]
      (n = 0 → ∀ q ∈ others ++ either, runRequest q s = (s, ⟨.nullEntry, []⟩)) ∧
      (64 ≤ n → ∀ q ∈ others ++ either, runRequest q s = (s, ⟨.range, [0]⟩)) ∧
      (∀ i : Fin 64, i.val = n → n ≠ 0 → s.bulletin i = none →
        (∀ q ∈ others, runRequest q s = (s, ⟨.notPresent, []⟩)) ∧
        runRequest (.readBulletin n) s = (s, ⟨.ok, [0]⟩)))

/-- The states in which requests are refused with STATE: on a channel (06: R92, R95, R102), on a circuit (05: R73, R75,
R82 to R85) and on a bulletin (02: R26, R27, R29, R31, R33, R35; 03: R43 to R46, R51). -/
def Obligations.WrongStateIsRefused : Prop :=
  ∀ (s : State),
    (∀ (ch : Fin 8) f, (s.channel ch).state ∉ [.unset, .off] → runRequest (.setProfile ch f) s = (s, ⟨.state, []⟩)) ∧
    (∀ ch : Fin 8, (s.channel ch).state ≠ .off → runRequest (.channelOn ch) s = (s, ⟨.state, []⟩)) ∧
    (∀ ch : Fin 8, (s.channel ch).state ∈ [.unset, .off] →
      ∀ mode ≤ 1, runRequest (.channelOff ch mode) s = (s, ⟨.state, []⟩)) ∧
    (∀ ch : Fin 8, (s.channel ch).state = .stopping → runRequest (.channelOff ch 0) s = (s, ⟨.state, []⟩)) ∧
    (∀ (c : Fin 32) ch t, (s.circuit c).life ≠ .free → runRequest (.openCircuit c ch t) s = (s, ⟨.state, []⟩)) ∧
    (∀ (c : Fin 32) t, (s.circuit c).life ≠ .bound → runRequest (.circuitText c t) s = (s, ⟨.state, []⟩)) ∧
    (∀ (c : Fin 32) k, (s.circuit c).life = .free →
      ∀ q ∈ [Request.holdCircuit c k, .moveCircuit c k, .closeCircuit c k], runRequest q s = (s, ⟨.state, []⟩)) ∧
    (∀ c : Fin 32, (s.circuit c).life = .closing → runRequest (.closeCircuit c 0) s = (s, ⟨.state, []⟩)) ∧
    (∀ c : Fin 32, (s.circuit c).life = .closing → (s.circuit c).drainPending = false →
      runRequest (.closeCircuit c 1) s = (s, ⟨.state, []⟩) ∧
      ∀ k, runRequest (.moveCircuit c k) s = (s, ⟨.state, []⟩)) ∧
    (∀ (n : Fin 64) b, n ≠ 0 → s.bulletin n = some b →
      (∀ ser cat len f, runRequest (.declareBulletin n ser cat len f) s = (s, ⟨.state, []⟩)) ∧
      (b.state = .withdrawing → ∀ tgt f p t,
        ∀ q ∈ [Request.bulletinText n tgt p t, .amendBulletin n f, .withdrawBulletin n],
          runRequest q s = (s, ⟨.state, []⟩)) ∧
      (b.state ≠ .composing → runRequest (.releaseBulletin n) s = (s, ⟨.state, []⟩)) ∧
      ((b.state ≠ .released ∨ b.staged.isSome) → ∀ len, runRequest (.stageRevision n len) s = (s, ⟨.state, []⟩)) ∧
      ((b.state ≠ .released ∨ b.staged = none) → runRequest (.discardRevision n) s = (s, ⟨.state, []⟩)) ∧
      ((b.state ≠ .released ∨ b.staged = none ∨ b.commitPending) →
        runRequest (.commitRevision n) s = (s, ⟨.state, []⟩) ∧
        ∀ p t, runRequest (.bulletinText n 1 p t) s = (s, ⟨.state, []⟩)))

/-! ## Notices and the outgoing line -/

/-- A busy line is left alone. An idle one begins the head of the reply list, with at most 240 octets of what is left of
its payload and MORE set if octets remain; failing that the oldest notice, whose entry leaves the queue and which sets
the link error count back to 0 if it is the station's; failing that nothing. The payload of a notice is its key kind, key
number, event set, state fields and counts, octet by octet: the state fields are those of the state now (10: R169, R177,
R178; 11: R181; the octets of names and of an absent number are log 9, a CLOSING circuit's hold reasons log 30). -/
def Obligations.IdleLineBeginsReplyThenNotice : Prop :=
  ∀ s : State,
    (s.link.outgoing ≠ none → s.arbitrate = s) ∧
    (s.link.outgoing = none →
      (∀ r rest, s.link.replies = r :: rest →
        let part := (r.payload.drop r.sent).take 240
        s.arbitrate = { s with link := { s.link with
          replies := { r with sent := r.sent + part.length } :: rest
          outgoing := some ⟨.reply, decide (r.sent + part.length < r.payload.length), r.position, r.tag, part,
            s.now + (part.length + 6) * 25⟩ } }) ∧
      (∀ e rest, s.link.replies = [] → s.notices = e :: rest →
        s.arbitrate = { s with
          notices := rest
          link := { s.link with
            errors := if e.key = .station then 0 else s.link.errors
            outgoing := some ⟨.notice, false, 0, 0, s.noticeOctets e,
              s.now + ((s.noticeOctets e).length + 6) * 25⟩ } }) ∧
      (s.link.replies = [] → s.notices = [] → s.arbitrate = s))

/-- A raise appends an entry if none has its key; otherwise the entry of its key keeps its place, gathers the event once
and adds the counts, each stopping at 65535; every other entry is as it was (11: R180). -/
def Obligations.RaiseAppendsOrMerges : Prop :=
  ∀ (s : State) (key : NoticeKey) (event : Option NoticeEvent) (add : Counts),
    ((∀ e ∈ s.notices, e.key ≠ key) →
      s.raise key event add = { s with notices := s.notices ++ [⟨key, event.toList, add⟩] }) ∧
    (∀ before e after, s.notices = before ++ e :: after → (∀ x ∈ before, x.key ≠ key) → e.key = key →
      s.raise key event add = { s with notices := before ++
        ⟨key, e.events ++ event.toList.filter (fun v => !decide (v ∈ e.events)),
          ⟨min 65535 (e.counts.completed + add.completed), min 65535 (e.counts.interrupted + add.interrupted),
            min 65535 (e.counts.abandoned + add.abandoned), min 65535 (e.counts.missed + add.missed),
            min 65535 (e.counts.linkErrors + add.linkErrors)⟩⟩ :: after })

/-! ## The station -/

/-- SET STATION checks its fields in order and puts them in force: a new mark source restarts the advance timer and clears
the latch, and a new hold limit expires at once the wait episodes that have lasted it and are not notified, each with
HOLD_EXCEEDED (11: R182; 04: R60; 05: R78). -/
def Obligations.SetStationPutsSettingsInForce : Prop :=
  ∀ (r : ReplyTo) (f : StationFields) (s : State), s.serves →
    let ceiling := min 288 (1024 - s.bulletinHeld)
    (2 ≤ f.markSource → exec (.setStation r f) s = .next (s.replied r 0x01 ⟨.range, [0]⟩)) ∧
    (f.markSource < 2 → (f.holdLimit < 10 ∨ 600 < f.holdLimit) →
      exec (.setStation r f) s = .next (s.replied r 0x01 ⟨.range, [1]⟩)) ∧
    (f.markSource < 2 → 10 ≤ f.holdLimit → f.holdLimit ≤ 600 → (f.gapTimeout < 2 ∨ 120 < f.gapTimeout) →
      exec (.setStation r f) s = .next (s.replied r 0x01 ⟨.range, [2]⟩)) ∧
    (f.markSource < 2 → 10 ≤ f.holdLimit → f.holdLimit ≤ 600 → 2 ≤ f.gapTimeout → f.gapTimeout ≤ 120 →
      ceiling < f.storeReserve → exec (.setStation r f) s = .next (s.replied r 0x01 ⟨.range, [3]⟩)) ∧
    (f.markSource < 2 → 10 ≤ f.holdLimit → f.holdLimit ≤ 600 → 2 ≤ f.gapTimeout → f.gapTimeout ≤ 120 →
      f.storeReserve ≤ ceiling →
      let m : MarkSource := if f.markSource = 0 then .external else .internal
      ∃ u : State, exec (.setStation r f) s = .next (u.replied r 0x01 .ok) ∧
        u.holdLimit = f.holdLimit ∧ u.gapTimeout = f.gapTimeout ∧ u.store = { s.store with reserve := f.storeReserve } ∧
        u.clock = (if m = s.clock.source then s.clock else match m with
          | .internal => { s.clock with
              source := .internal, status := .drifting, markLatched := false
              advanceTimer := ⟨Config.seconds 60, s.now + Config.seconds 60⟩ }
          | .external => { s.clock with
              source := .external, markLatched := false
              advanceTimer := ⟨Config.seconds 61, s.now + Config.seconds 61⟩ }) ∧
        (m = .internal → s.clock.source = .external → s.clock.status = .locked → u.reports .station .clockDrifting) ∧
        (∀ c, u.circuit c = { s.circuit c with holdNotified := (s.circuit c).holdNotified ||
          (decide (f.holdLimit ≠ s.holdLimit) &&
            (s.circuit c).waitStart.any fun w => decide (w + Config.seconds f.holdLimit ≤ s.now)) }) ∧
        (∀ c, (s.circuit c).holdNotified = false → (u.circuit c).holdNotified = true →
          u.reports (.circuit c) .holdExceeded) ∧
        u.channels = s.channels ∧ u.bulletins = s.bulletins ∧ u.link = s.link ∧ u.now = s.now)

/-- SET CLOCK sets the minute of day and the clock set flag, and nothing else (04: R61). -/
def Obligations.SetClockSetsTheMinuteAlone : Prop :=
  ∀ (r : ReplyTo) (minute : Nat) (s : State), s.serves →
    (minute ≤ 1439 → exec (.setClock r minute) s =
      .next ({ s with clock := { s.clock with minute := minute, isSet := true } }.replied r 0x02 .ok)) ∧
    (1439 < minute → exec (.setClock r minute) s = .next (s.replied r 0x02 ⟨.range, [0]⟩))

/-- The reads answer OK with the fields of what they name, and change nothing (11: R183; 06: R110; 05: R89; 02: R39). The
layout of the fields is the model's (log 9). -/
def Obligations.ReadsChangeNothing : Prop :=
  ∀ (r : ReplyTo) (s : State), s.serves →
    exec (.readStation r) s = .next (s.replied r 0x03 ⟨.ok, stationFields s⟩) ∧
    (∀ ch : Fin 8, exec (.readChannel r ch) s =
      .next (s.replied r 0x13 ⟨.ok, channelFields (s.keyokOf ch) (s.channel ch)⟩)) ∧
    (∀ c : Fin 32, exec (.readCircuit r c) s = .next (s.replied r 0x25 ⟨.ok, s.circuitFields c⟩)) ∧
    (∀ n : Fin 64, n ≠ 0 → exec (.readBulletin r n) s =
      .next (s.replied r 0x36 ⟨.ok, match s.bulletin n with | none => [0] | some b => s.bulletinFields n b⟩))

/-- RESTART is answered OK and a restart is then pending; an open batch has been discarded before it, and the rest of a
batch in execution and the frames that wait are answered SKIPPED, so the receive queue is empty (11: R185; the open batch
is log 4, the one in execution log 5). -/
def Obligations.RestartSkipsWhatWaits : Prop :=
  ∀ (r : ReplyTo) (s : State), s.serves →
    exec (.restart r) s = .next ({ s with link := { s.link with
      replies := s.link.replies ++ (s.link.batch.elim ([] : List Reply) fun b => b.held.map fun f => Frame.answer f .batchDiscarded) ++
        [(⟨r.tag, r.position, 0x04, .ok, [], 0⟩ : Reply)] ++
        (s.link.executing ++ s.link.receiveQueue).map (fun f => Frame.answer f .skipped)
      batch := none, executing := [], receiveQueue := [], linkReady := true, restartPending := true } }).arbitrate

/-! ## Channels -/

/-- SET PROFILE on an UNSET or OFF channel checks the record in the order of its table and puts it in force whole; the
channel is OFF and keeps all else (06: R92). The field places are those of the request (10: R169). -/
def Obligations.SetProfilePutsTheRecordInForce : Prop :=
  ∀ (r : ReplyTo) (ch : Fin 8) (f : ProfileFields) (s : State), s.serves → (s.channel ch).state ∈ [.unset, .off] →
    let inRange : List Bool := [
      [50, 75, 100, 200].contains f.rate, decide (f.code ≤ 1), decide (f.lead ≤ 32), decide (4 ≤ f.phasing ∧ f.phasing ≤ 64),
      decide (f.keyHold ≤ 255), decide (100 ≤ f.permitTimeout ∧ f.permitTimeout ≤ 5000),
      decide (1 ≤ f.retryInterval ∧ f.retryInterval ≤ 60), decide (64 ≤ f.telexQuota ∧ f.telexQuota ≤ 2048),
      decide (2 ≤ f.turnGrace ∧ f.turnGrace ≤ 64), decide (1 ≤ f.telexBurst ∧ f.telexBurst ≤ 8),
      decide (1 ≤ f.bulletinBurst ∧ f.bulletinBurst ≤ 8), decide (f.categories ≤ 127), decide (f.observeSilence ≤ 1)]
    (∀ k, inRange.findIdx? (fun b => !b) = some k →
      exec (.setProfile r ch f) s = .next (s.replied r 0x10 ⟨.range, [BitVec.ofNat 8 (k + 1)]⟩)) ∧
    (inRange.all id = true →
      ∃ p : Profile, p.rate = f.rate ∧ p.code = (if f.code = 0 then .fiveUnit else .sevenUnit) ∧ p.lead = f.lead ∧
        p.phasing = f.phasing ∧ p.keyHold = f.keyHold ∧ p.permitTimeout = f.permitTimeout ∧
        p.retryInterval = f.retryInterval ∧ p.telexQuota = f.telexQuota ∧ p.turnGrace = f.turnGrace ∧
        p.telexBurst = f.telexBurst ∧ p.bulletinBurst = f.bulletinBurst ∧
        (∀ k : Category, k ∈ p.categories ↔ f.categories.testBit k.place) ∧ p.observeSilence = decide (f.observeSilence = 1) ∧
        exec (.setProfile r ch f) s =
          .next ((s.setChannel ch { s.channel ch with profile := some p, state := .off }).replied r 0x10 .ok))

/-- CHANNEL ON on an OFF channel starts the lock timer at 250 ms and makes it LOCKING (06: R95). -/
def Obligations.ChannelOnStartsTheLockTimer : Prop :=
  ∀ (r : ReplyTo) (ch : Fin 8) (s : State), s.serves → (s.channel ch).state = .off →
    exec (.channelOn r ch) s = .next ((s.setChannel ch { s.channel ch with
      state := .locking, lockTimer := some ⟨Config.milliseconds 250, s.now + Config.milliseconds 250⟩ }).replied r 0x11 .ok)

/-- CHANNEL OFF: without a current turn, either mode takes the channel to OFF; GRACEFUL lets a current turn end; ABORT
ends it where it stands. A channel that enters OFF keeps its profile, its substitution count and its bound list, and
is otherwise as after reset, its timers stopped, its queue empty and its counters at 0; its bound circuits are held
for CHANNEL and wait no more, and its notice has OFF. Each entry removed is one miss of its bulletin, with MISSED, and
the bulletin retires if nothing is left of it, with the report of its blocks. Before that, a pass that ABORT ends as
its own is one miss as well; one that was abandoned is ABANDONED; one in the break sequence of a cut is INTERRUPTED,
and its entry, put back, is removed and missed; one in the cancel trailer counts nothing; and its bulletin retires, or
takes its commit, or finishes its withdrawal, as at any pass end. A telex turn that has emitted marks its circuit to
resume, and its circuit, unless it is CLOSING and empty and so is freed, moves where a move was pending and begins its
wait there. The other channels keep their records but for two: where the pass was the last one of a bulletin with a
commit pending, the channels that hold its entries may begin to key; where the circuit had a move pending, it joins
the target's bound list, and the target may begin to key (01: R18; 02: R23 to R25, R35 to R37; 03: R47, R50; 05: R74,
R77, R81, R83, R84, R87; 06: R102, R104, R105; 08: R148; 09: R158 to R160). -/
def Obligations.ChannelOffEntersOff : Prop :=
  ∀ (r : ReplyTo) (ch : Fin 8) (s : State), s.serves →
    let x := s.channel ch
    (x.turn = none → x.state ∈ [.locking, .idle, .requesting, .backoff, .keyed] →
      ∀ i ∈ [Instr.channelOffGraceful r ch.val, .channelOffAbort r ch.val], ∃ u : State,
        exec i s = .next (u.replied r 0x12 .ok) ∧ s.wentOff ch u) ∧
    (∀ t, x.turn = some t → x.state = .keyed →
      exec (.channelOffGraceful r ch) s = .next ((s.setChannel ch { x with state := .stopping }).replied r 0x12 .ok)) ∧
    (∀ t, x.turn = some t → x.state ∈ [.keyed, .stopping] →
      ∃ v u : State, exec (.channelOffAbort r ch) s = .next (u.replied r 0x12 .ok) ∧ v.wentOff ch u ∧
        (u.channel ch).substitutions = x.substitutions ∧ u.now = s.now ∧ u.clock = s.clock ∧ u.link = s.link ∧
        u.store.cells = s.store.cells ∧
        (∀ p, t.kind = .pass p → s.passEnded ch p (t.outcomeOf p .missed) v) ∧
        (∀ c, t.kind = .telex c → (s.circuit c.circuit).channel = ch →
          s.telexEnded ch c.circuit ((s.circuit c.circuit).resume || decide (1 ≤ c.bodyCount)) v))

/-! ## Circuits -/

/-- OPEN CIRCUIT checks the channel, the call-up string and the profile in that order, and makes a bound record with an
empty queue at the tail of the channel's bound list, held for CHANNEL unless the channel is ON (05: R73). -/
def Obligations.OpenCircuitBindsTheCircuit : Prop :=
  ∀ (r : ReplyTo) (c : Fin 32) (n : Nat) (callUp : List Byte) (s : State), s.serves → (s.circuit c).life = .free →
    (8 ≤ n → exec (.openCircuit r c n callUp) s = .next (s.replied r 0x20 ⟨.range, [1]⟩)) ∧
    ∀ ch : Fin 8, ch.val = n →
      ((callUp.length = 0 ∨ 12 < callUp.length) →
        exec (.openCircuit r c n callUp) s = .next (s.replied r 0x20 ⟨.range, [2]⟩)) ∧
      (1 ≤ callUp.length → callUp.length ≤ 12 →
        ((∃ x ∈ callUp, x.toNat < 0x20 ∨ 0x7E < x.toNat) →
          exec (.openCircuit r c n callUp) s = .next (s.replied r 0x20 ⟨.badCharacter, []⟩)) ∧
        ((∀ x ∈ callUp, 0x20 ≤ x.toNat ∧ x.toNat ≤ 0x7E) →
          ((s.channel ch).profile = none → exec (.openCircuit r c n callUp) s = .next (s.replied r 0x20 ⟨.state, []⟩)) ∧
          ((s.channel ch).profile ≠ none →
            exec (.openCircuit r c n callUp) s =
              .next (((s.setChannel ch { s.channel ch with bound := (s.channel ch).bound ++ [c] }).setCircuit c {
                life := .bound, hostHold := false, channelHold := !(s.channel ch).isOn, channel := ch, callUp := callUp
                chain := ⟨[], 0, 0⟩, flow := .flowing, resume := false, waitStart := none, holdNotified := false
                movePending := none, drainPending := false }).replied r 0x20 .ok))))

/-- CIRCUIT TEXT to an ACTIVE or a HELD circuit: a count outside 1 to 200 fails with RANGE naming the characters, and
a character outside the accepted set with BAD_CHARACTER, and nothing changes. Otherwise as many characters as fit join
the tail of the queue, in order, and the reply counts them; it stops short at 512 characters queued or when no block
is free. The flow pauses for STORE where a block was wanting and for THRESHOLD at the 384th character, with PAUSE
where it was FLOWING. No cell outside the queue's blocks and the free list is written. The arrival is reported to the
circuit's channel: a turn of the circuit whose body emits IDLE has its grace count at 0 again; a circuit off air that
was not waiting and is not held begins to wait, and an IDLE channel that may serve it raises KEYREQ; otherwise nothing
changes there (01: R2, R15; 05: R75 to R77, R79; 08: R136). -/
def Obligations.CircuitTextJoinsTheQueue : Prop :=
  ∀ (r : ReplyTo) (c : Fin 32) (chars : List Byte) (s : State), s.serves → (s.circuit c).life = .bound →
    (∀ v, textRefused 1 chars v → exec (.circuitText r c chars) s = .next (s.replied r 0x21 v)) ∧
    (isText chars →
    (s.circuit c).chain.law → ((s.circuit c).chain.blocks ++ s.store.free).Nodup → s.cellsLaw →
    let x := s.circuit c
    ∃ (u : State) (k : Nat), k ≤ chars.length ∧
      exec (.circuitText r c chars) s = .next (u.replied r 0x21
        (if k = chars.length then ⟨.ok, [BitVec.ofNat 8 k]⟩
         else if 1 ≤ k then ⟨.partialText, [BitVec.ofNat 8 k]⟩
         else if 512 ≤ x.count then ⟨.limit, []⟩ else ⟨.storeFull, []⟩)) ∧
      (u.circuit c).chain.text u.store.cells = x.chain.text s.store.cells ++ chars.take k ∧
      (u.circuit c).count = x.count + k ∧
      (k < chars.length → 512 ≤ x.count + k ∨ u.store.free = []) ∧
      (u.circuit c).flow = (if k < chars.length ∧ x.count + k < 512 then .pausedStore
        else if x.flow = .flowing ∧ x.count < 384 ∧ 384 ≤ x.count + k then .pausedThreshold else x.flow) ∧
      (x.flow = .flowing → (u.circuit c).flow ≠ .flowing → u.reports (.circuit c) .pause) ∧
      (∀ b, b ∉ x.chain.blocks → b ∉ s.store.free →
        ∀ p < 64, u.store.cells.read (cellAddress b p) = s.store.cells.read (cellAddress b p)) ∧
      (∀ d, d ≠ c → (u.circuit d).chain = (s.circuit d).chain) ∧ u.clock = s.clock ∧ u.link = s.link ∧
      let ch := x.channel
      let y := s.channel ch
      let held := x.hostHold || x.channelHold
      (k = 0 → u.channels = s.channels) ∧
      (∀ t z, y.turn = some t → t.kind = .telex z → z.circuit = c → 1 ≤ k →
        (u.circuit c).waitStart = x.waitStart ∧ (∀ j, j ≠ ch → u.channel j = s.channel j) ∧
        u.channel ch =
          if t.phase = .body ∧ y.output.any (fun e => decide (e.symbol = .idle)) = true then
            { y with turn := some { t with kind := .telex { z with graceCount := 0 } } }
          else y) ∧
      (y.carriesCircuit c = false → 1 ≤ k →
        (held = true → (u.circuit c).waitStart = none ∧ u.channels = s.channels) ∧
        (held = false → x.waitStart ≠ none → (u.circuit c).waitStart = x.waitStart ∧ u.channels = s.channels) ∧
        (held = false → x.waitStart = none → (∀ j, j ≠ ch → u.channel j = s.channel j) ∧
          (y.state ≠ .idle → u.channel ch = y) ∧
          (y.state = .idle → c ∈ y.bound → s.silenced ch = false → (u.channel ch).keyreq = true ∧
            (s.keyokOf ch = false → (u.channel ch).state = .requesting)) ∧
          ((y.state ≠ .idle ∨ s.keyokOf ch = false) →
            (u.circuit c).waitStart = some s.now ∧ (u.circuit c).holdNotified = false))))

/-- HOLD CIRCUIT ON adds the HOST hold and ends the wait. OFF removes it, and where the circuit is then waiting and no
episode runs, one begins now, and the channel consults: an IDLE one with anything eligible raises KEYREQ, as it does for
this circuit where it may serve it, and with KEYOK present starts the turn that the selection names (05: R76, R77, R82;
06: R96, R97). -/
def Obligations.HoldCircuitSetsTheHostHold : Prop :=
  ∀ (r : ReplyTo) (c : Fin 32) (s : State), s.serves → (s.circuit c).life ≠ .free →
    exec (.holdCircuitOn r c) s =
      .next ((s.setCircuit c { s.circuit c with hostHold := true, waitStart := none }).replied r 0x22 .ok) ∧
    (let x := { s.circuit c with hostHold := false }
     let waits := !x.channelHold && decide (1 ≤ x.count) && !s.onAir c
     (waits = false → exec (.holdCircuitOff r c) s =
       .next ((s.setCircuit c { x with waitStart := none }).replied r 0x22 .ok)) ∧
     (waits = true → x.waitStart ≠ none →
       exec (.holdCircuitOff r c) s = .next ((s.setCircuit c x).replied r 0x22 .ok)) ∧
     (waits = true → x.waitStart = none → ∃ u : State, exec (.holdCircuitOff r c) s = .next (u.replied r 0x22 .ok) ∧
       (s.setCircuit c { x with waitStart := some s.now, holdNotified := false }).consulted x.channel u ∧
       ((s.channel x.channel).state = .idle → c ∈ (s.channel x.channel).bound → s.silenced x.channel = false →
         (u.channel x.channel).keyreq = true)))

/-- MOVE CIRCUIT: off air the circuit goes to the tail of the target's bound list at once, held for CHANNEL unless the
target is ON, with MOVED, and its queue, flow, call-up string, resume flag, HOST hold and DRAIN close go with it; a
wait that goes on keeps its start, one that the move begins starts now, one that it holds ends, and an IDLE target
that may serve the circuit raises KEYREQ; on air the move is pending; a channel above 7 and a target without a profile
are refused (05: R77, R83). -/
def Obligations.MoveCircuitRebinds : Prop :=
  ∀ (r : ReplyTo) (c : Fin 32) (n : Nat) (s : State), s.serves → (s.circuit c).life ≠ .free →
    ((s.circuit c).life = .closing → (s.circuit c).drainPending = true) →
    (8 ≤ n → exec (.moveCircuit r c n) s = .next (s.replied r 0x23 ⟨.range, [1]⟩)) ∧
    ∀ target : Fin 8, target.val = n →
      ((s.channel target).profile = none → exec (.moveCircuit r c n) s = .next (s.replied r 0x23 ⟨.state, []⟩)) ∧
      ((s.channel target).profile ≠ none → s.onAir c = true → exec (.moveCircuit r c n) s =
        .next ((s.setCircuit c { s.circuit c with movePending := some target }).replied r 0x23 .ok)) ∧
      ((s.channel target).profile ≠ none → s.onAir c = false →
        ∃ u : State, exec (.moveCircuit r c n) s = .next (u.replied r 0x23 .ok) ∧
          u.circuit c = { s.circuit c with
            channel := target, movePending := none, channelHold := !(s.channel target).isOn
            waitStart := (u.circuit c).waitStart, holdNotified := (u.circuit c).holdNotified } ∧
          (u.channel target).bound = (if (s.circuit c).channel = target then (s.channel target).bound.erase c
            else (s.channel target).bound) ++ [c] ∧
          ((s.circuit c).channel ≠ target →
            (u.channel (s.circuit c).channel).bound = (s.channel (s.circuit c).channel).bound.erase c) ∧
          u.reports (.circuit c) .moved ∧ u.store = s.store ∧ u.clock = s.clock ∧ u.link = s.link ∧
          let x := s.circuit c
          let waits := !x.hostHold && (s.channel target).isOn && decide (1 ≤ x.count)
          let begun := (u.circuit c).waitStart = some (x.waitStart.getD s.now) ∧
            (u.circuit c).holdNotified = (x.waitStart.isSome && x.holdNotified)
          let bindsOnly := ∀ j, { u.channel j with bound := [] } = { s.channel j with bound := [] }
          ((s.channel target).carriesCircuit c = false →
            (waits = false → (u.circuit c).waitStart = none ∧ bindsOnly) ∧
            (waits = true → (s.channel target).state ≠ .idle → begun ∧ bindsOnly) ∧
            (waits = true → (s.channel target).state = .idle →
              (s.silenced target = false → (u.channel target).keyreq = true) ∧
              (s.keyokOf target = false → begun) ∧
              ∀ j, j ≠ target → { u.channel j with bound := [] } = { s.channel j with bound := [] })))

/-- CLOSE CIRCUIT. A DRAIN of a circuit that is empty and off air frees it, and otherwise leaves it CLOSING. A PURGE,
which a DRAIN gives way to, empties the queue and returns its blocks at the tail of the free list; off air it frees the
circuit, and on air it causes a PURGE cut; where blocks are returned, every other circuit that paused for STORE and holds
128 characters or fewer resumes (05: R81, R84, R85; 01: R17, R18; 09: R156). -/
def Obligations.CloseCircuitFreesTheCircuit : Prop :=
  ∀ (r : ReplyTo) (c : Fin 32) (s : State), s.serves →
    let x := s.circuit c
    let freed := Circuit.freeOn x.channel
    let unbound := (s.channel x.channel).bound.erase c
    (x.life = .bound → (x.count = 0 ∧ s.onAir c = false) →
      exec (.closeCircuitDrain r c) s =
        .next ((((s.setChannel x.channel { s.channel x.channel with bound := unbound }).setCircuit c freed).raise
          (.circuit c) (some .closed) Counts.zero).replied r 0x24 .ok)) ∧
    (x.life = .bound → (x.count ≠ 0 ∨ s.onAir c = true) →
      exec (.closeCircuitDrain r c) s =
        .next ((s.setCircuit c { x with life := .closing, drainPending := true }).replied r 0x24 .ok)) ∧
    ((x.life = .bound ∨ (x.life = .closing ∧ x.drainPending = true)) →
      ∃ u : State, exec (.closeCircuitPurge r c) s = .next (u.replied r 0x24 .ok) ∧
        u.store = { s.store with free := s.store.free ++ x.chain.blocks } ∧
        u.clock = s.clock ∧ u.link = s.link ∧ u.bulletins = s.bulletins ∧
        (∀ d, d ≠ c → u.circuit d = { s.circuit d with flow := (u.circuit d).flow } ∧
          s.returnReported x.chain.blocks d u) ∧
        (s.onAir c = false → u.circuit c = freed ∧ u.reports (.circuit c) .closed ∧
          ∀ ch, u.channel ch = if ch = x.channel then { s.channel ch with bound := unbound } else s.channel ch) ∧
        (s.onAir c = true →
          u.circuit c = { x with chain := ⟨[], 0, 0⟩, flow := .flowing, life := .closing, drainPending := false } ∧
          ∀ ch, u.channel ch = if ch ≠ x.channel then s.channel ch else { s.channel ch with
            turn := (s.channel ch).turn.map fun t =>
              if t.phase = .trailer ∨ t.phase = .closing then t
              else if t.pendingCut.any fun p => decide (p.reason ≠ .urgency) then t
              else { t with pendingCut := some ⟨.purge, 0⟩ } }))

/-! ## Bulletins -/

/-- DECLARE BULLETIN on an EMPTY entry checks serial, category, length and schedule group in that order, claims the
blocks against the store reserve, and makes a COMPOSING entry with the first blocks of the free list; a refused claim
leaves all as it was. The group, here and in AMEND BULLETIN, is checked field by field in the order mask, start, passes,
limit, and the fields of an accepted one are what it says, with the channels of the mask ascending (02: R22, R26; 01: R5,
R8). The field places are those of the requests (10: R169; log 23). -/
def Obligations.DeclareBulletinAllocates : Prop :=
  ∀ (r : ReplyTo) (n : Fin 64) (serial category length : Nat) (f : ScheduleFields) (s : State), s.serves → n ≠ 0 →
    s.bulletin n = none →
    let run := exec (.declareBulletin r n serial category length f) s
    let need := (length + 63) / 64
    let inRange : List Bool := [
      decide (f.mask ≤ 255),
      match f.start with
      | .now => true
      | .atMinutes ms => decide (1 ≤ ms.length ∧ ms.length ≤ 8 ∧ (∀ m ∈ ms, m ≤ 1439) ∧ ms.Pairwise (· < ·))
      | .every i => decide (5 ≤ i ∧ i ≤ 1440),
      decide (1 ≤ f.passes ∧ f.passes ≤ 3), f.limit.all fun l => decide (1 ≤ l ∧ l ≤ 255)]
    (∀ first,
      (∀ k, inRange.findIdx? (fun b => !b) = some k →
        acceptSchedule first f = .error ⟨.range, [BitVec.ofNat 8 (first + k)]⟩) ∧
      (inRange.all id = true → ∃ g : Schedule, acceptSchedule first f = .ok g ∧
        (∀ ch : Fin 8, ch ∈ g.mask ↔ f.mask.testBit ch.val) ∧ g.mask.Pairwise (· < ·) ∧
        g.start = (match f.start with | .now => .now | .atMinutes ms => .atMinutes ms | .every i => .every i) ∧
        g.passes = f.passes ∧ g.limit = f.limit)) ∧
    (1000 ≤ serial → run = .next (s.replied r 0x30 ⟨.range, [1]⟩)) ∧
    (serial ≤ 999 → 7 ≤ category → run = .next (s.replied r 0x30 ⟨.range, [2]⟩)) ∧
    (serial ≤ 999 → category ≤ 6 → (length = 0 ∨ 2048 < length) → run = .next (s.replied r 0x30 ⟨.range, [3]⟩)) ∧
    (serial ≤ 999 → category ≤ 6 → 1 ≤ length → length ≤ 2048 → ∀ v, acceptSchedule 4 f = .error v →
      run = .next (s.replied r 0x30 v)) ∧
    (serial ≤ 999 → 1 ≤ length → length ≤ 2048 → ∀ k g, categoryAt category = some k → acceptSchedule 4 f = .ok g →
      (s.store.free.length < need + s.store.reserve → run = .next (s.replied r 0x30 ⟨.storeFull, []⟩)) ∧
      (need + s.store.reserve ≤ s.store.free.length →
        run = .next ((({ s with store := { s.store with free := s.store.free.drop need } }).setBulletin n (some {
          state := .composing, serial := serial, category := k
          current := ⟨length, (s.store.free.take need).map fun b => ⟨b, 0⟩, 0⟩
          staged := none, commitPending := false, schedule := g
          countdown := (match g.start with | .every i => i | _ => 0)
          revision := 1, sent := false, revised := false, completed := 0, interrupted := 0, abandoned := 0, missed := 0
          onAir := 0 })).replied r 0x30 .ok)))

/-- BULLETIN TEXT to the current map of a COMPOSING bulletin, and to the staged map of a RELEASED one without a commit
pending: a block position past the map fails with RANGE naming it, then a count outside 1 to 200 with RANGE naming
the characters, then a character outside the accepted set with BAD_CHARACTER, and nothing changes. Otherwise the request
writes the text over the map from the block named, or on from the pointer, as far as the map's length goes, and
the pointer then stands in the block of the last character stored; where that is not the whole text, the reply counts the
characters stored. No cell of another block is written (02: R27, R28; 03: R44; 01: R2, R12). -/
def Obligations.TextRewritesAMap : Prop :=
  ∀ (r : ReplyTo) (n : Fin 64) (b : Bulletin) (m : TextMap) (staged : Bool) (block : Option Nat) (chars : List Byte)
      (s : State), s.serves → n ≠ 0 → s.bulletin n = some b →
    (if staged then b.state = .released ∧ b.staged = some m ∧ b.commitPending = false
      else b.state = .composing ∧ b.current = m) →
    let o := block.elim (64 * m.pointer + m.fill m.pointer) fun p => 64 * p
    let k := min chars.length (m.length - o)
    let run := exec (if staged then .bulletinTextStaged r n block chars else .bulletinTextCurrent r n block chars) s
    (∀ p, block = some p → m.blocks.length ≤ p → run = .next (s.replied r 0x31 ⟨.range, [2]⟩)) ∧
    ((∀ p, block = some p → p < m.blocks.length) → ∀ v, textRefused 3 chars v → run = .next (s.replied r 0x31 v)) ∧
    (m.law → s.cellsLaw → isText chars → (∀ p, block = some p → p < m.blocks.length) →
    (m.length ≤ o → run = .next (s.replied r 0x31 ⟨.limit, []⟩)) ∧
    (o < m.length → ∃ (m' : TextMap) (cells' : Memory),
      run = .next (({ s with store := { s.store with cells := cells' } }.setBulletin n
        (some (if staged then { b with staged := some m' } else { b with current := m' }))).replied r 0x31
          (if k = chars.length then .ok else ⟨.partialText, [BitVec.ofNat 8 k]⟩)) ∧
      m.rewrittenAs s.store.cells m' cells' o k chars ∧
      ∀ d, d ∉ m.blockNumbers → ∀ p < 64, cells'.read (cellAddress d p) = s.store.cells.read (cellAddress d p)))

/-- BULLETIN TEXT to the current map of a RELEASED bulletin is refused for its block position, its count and its
characters as one to a COMPOSING bulletin is, and nothing changes. Otherwise it only extends the map: it stores from
the first position not written of the block named, or from the pointer, and every character that was written stays as
it was, so that a pass on air never reads a changed text. A block that is present is refused with READ_ONLY. The
characters take the free positions of the blocks from there on, in order, up to the end of the text or a block that is
present, whichever comes first; the write stops short where these are used up. The pointer is then in the block of the
last character, or, where it stopped short, at the block that stopped it (02: R27; 01: R2, R13). -/
def Obligations.ReleasedTextOnlyGrows : Prop :=
  ∀ (r : ReplyTo) (n : Fin 64) (b : Bulletin) (block : Option Nat) (chars : List Byte) (s : State), s.serves → n ≠ 0 →
    s.bulletin n = some b → b.state = .released →
    let m := b.current
    let run := exec (.bulletinTextCurrent r n block chars) s
    let start := block.elim (if m.present m.pointer then m.pointer + 1 else m.pointer) id
    (∀ p, block = some p → m.blocks.length ≤ p → run = .next (s.replied r 0x31 ⟨.range, [2]⟩)) ∧
    ((∀ p, block = some p → p < m.blocks.length) → ∀ v, textRefused 3 chars v → run = .next (s.replied r 0x31 v)) ∧
    (m.law → s.cellsLaw → isText chars → (∀ p, block = some p → p < m.blocks.length) →
    (block = none → m.pointer + 1 = m.blocks.length → m.present m.pointer = true →
      run = .next (s.replied r 0x31 ⟨.limit, []⟩)) ∧
    (start < m.blocks.length → m.present start = true → run = .next (s.replied r 0x31 ⟨.readOnly, []⟩)) ∧
    (start < m.blocks.length → m.present start = false → ∃ (m' : TextMap) (cells' : Memory) (k : Nat), 1 ≤ k ∧ k ≤ chars.length ∧
      run = .next (({ s with store := { s.store with cells := cells' } }.setBulletin n
        (some { b with current := m' })).replied r 0x31
          (if k = chars.length then .ok else ⟨.partialText, [BitVec.ofNat 8 k]⟩)) ∧
      m'.length = m.length ∧ m'.blockNumbers = m.blockNumbers ∧
      (∀ o, m.written o = true → m'.written o = true ∧ m'.charAt cells' o = m.charAt s.store.cells o) ∧
      (m'.written (64 * start + m.fill start) = true ∧
        some (m'.charAt cells' (64 * start + m.fill start)) = chars.head?) ∧
      (m'.blocks.map fun x => x.fill).sum = (m.blocks.map fun x => x.fill).sum + k ∧
      k = min chars.length (m.room start).length ∧
      (∀ i o, i < k → (m.room start)[i]? = some o → some (m'.charAt cells' o) = chars[i]?) ∧
      (∀ o, m'.written o = true ↔ m.written o = true ∨ o ∈ (m.room start).take k) ∧
      m'.pointer = (if k = chars.length then ((m.room start)[k - 1]?.getD 0) / 64
        else min (m.blocks.length - 1)
          (start + (((List.range m.blocks.length).drop start).takeWhile fun p => !m.present p).length)) ∧
      ∀ d, d ∉ m.blockNumbers → ∀ p < 64, cells'.read (cellAddress d p) = s.store.cells.read (cellAddress d p)))

/-- AMEND BULLETIN gives a COMPOSING bulletin its schedule group. RELEASE BULLETIN of a COMPOSING bulletin with its
own group, and AMEND BULLETIN of a RELEASED one with a new group, are refused with CATEGORY, naming the
lowest-numbered channel of the mask that does not accept the category; otherwise the group is in force, and a start of
NOW is an occasion at once: it is the last one, every channel of the mask that takes it has a new entry at the tail of
its class, with the bulletin's class and passes, no interruption and the minute of day, or has started a turn at once,
for which a pass's entry leaves the queue; every other one of the mask is a miss, with MISSED, and its record and
those of the channels outside the mask are as they were. Where no channel takes it, no queue holds an entry of the
bulletin and no pass of it is on air, the bulletin retires at once: its entry is EMPTY, with RETIRED, and its blocks,
current map first, are at the tail of the free list, with their report; otherwise it stands, and no block moves. An
IDLE channel that takes an eligible entry raises KEYREQ in the same event, and is REQUESTING where KEYOK is absent. On
a KEYED channel that takes an eligible entry of class 0 or 1, a telex turn and a pass of a higher class number are
caused a DISTRESS or an URGENCY cut, and any other turn goes on (01: R6, R18; 02: R23, R29 to R32, R36, R37; 04: R64
to R67; 05: R81; 06: R96; 07: R117, R121; 09: R153, R156). -/
def Obligations.AmendAndReleasePutTheGroupInForce : Prop :=
  ∀ (r : ReplyTo) (n : Fin 64) (b : Bulletin) (f : ScheduleFields) (s : State), s.serves → n ≠ 0 → s.bulletin n = some b →
    (∀ g, acceptSchedule 1 f = .ok g → b.state = .composing → exec (.amendBulletin r n f) s =
      .next ((s.setBulletin n (some { b with
        schedule := g, countdown := (match g.start with | .every i => i | _ => 0) })).replied r 0x32 .ok)) ∧
    (∀ v, acceptSchedule 1 f = .error v → b.state ≠ .withdrawing →
      exec (.amendBulletin r n f) s = .next (s.replied r 0x32 v)) ∧
    ∀ (i : Instr) (kind : Byte) (g : Schedule),
      (i = .releaseBulletin r n ∧ kind = 0x33 ∧ b.state = .composing ∧ g = b.schedule) ∨
      (i = .amendBulletin r n f ∧ kind = 0x32 ∧ b.state = .released ∧ acceptSchedule 1 f = .ok g) →
      (∀ before ch after, g.mask = before ++ ch :: after →
        (∀ x ∈ before, (s.channel x).accepts b.category = true) → (s.channel ch).accepts b.category = false →
        exec i s = .next (s.replied r kind ⟨.category, [BitVec.ofNat 8 ch.val]⟩)) ∧
      ((∀ x ∈ g.mask, (s.channel x).accepts b.category = true) →
        (g.start ≠ .now → exec i s = .next ((s.setBulletin n (some { b with
          state := .released, schedule := g
          countdown := (match g.start with | .every i => i | _ => 0) })).replied r kind .ok)) ∧
        (g.start = .now → ∃ u : State, exec i s = .next (u.replied r kind .ok) ∧
          (∀ b', u.bulletin n = some b' → b'.state = .released ∧ b'.schedule = { g with limit := some 0 } ∧
            b'.current = b.current ∧ b'.revision = b.revision) ∧
          (∀ ch ∈ g.mask, (s.channel ch).takesOccasion n b = true →
            (u.bulletin n).isSome = true ∧
            ((u.channel ch).holdsEntry n = true ∨ (u.channel ch).carriesPass n = true) ∧
            (s.channel ch).queuePlaced (insertAtTail (s.channel ch).queue
              ⟨n, b.category.rank, g.passes, 0, s.clock.minute⟩) (u.channel ch)) ∧
          (∀ ch, ch ∉ g.mask ∨ (s.channel ch).takesOccasion n b = false → u.channel ch = s.channel ch) ∧
          (∀ ch ∈ g.mask, (s.channel ch).takesOccasion n b = false → u.reports (.bulletin n) .missed) ∧
          (g.mask.Nodup → b.missed ≤ 65535 → ∀ b', u.bulletin n = some b' → b'.missed =
            min 65535 (b.missed + (g.mask.filter fun ch => !(s.channel ch).takesOccasion n b).length)) ∧
          (∀ ch ∈ g.mask, (s.channel ch).takesOccasion n b = true → (s.channel ch).state = .idle →
            b.commitPending = false → (s.silenced ch = false ∨ b.category.rank = 0) →
            (u.channel ch).keyreq = true ∧ (s.keyokOf ch = false → (u.channel ch).state = .requesting)) ∧
          (∀ ch ∈ g.mask, (s.channel ch).takesOccasion n b = true → ∀ t, (s.channel ch).state = .keyed →
            (s.channel ch).turn = some t → b.commitPending = false →
            (s.silenced ch = false ∨ b.category.rank = 0) →
            (u.channel ch).turn = some (t.told b.category.rank)) ∧
          (if s.retiresUnplaced n b g.mask = true then
            u.bulletin n = none ∧ u.reports (.bulletin n) .retired ∧ u.channels = s.channels ∧
            u.store = { s.store with free := s.store.free ++ b.allBlocks } ∧
            ∀ d, u.circuit d = { s.circuit d with flow := (u.circuit d).flow } ∧ s.returnReported b.allBlocks d u
           else (u.bulletin n).isSome = true ∧ u.store = s.store ∧ ∀ d, (u.circuit d).flow = (s.circuit d).flow) ∧
          u.clock = s.clock ∧ u.link = s.link))

/-- WITHDRAW BULLETIN takes the bulletin's entries out of every queue. With no pass on air the entry is EMPTY and its
blocks are at the tail of the free list, current map first; with passes on air the staged map goes back, no commit is
pending, the state is WITHDRAWING, and each such pass is caused a WITHDRAW cut. Where blocks are returned, the
circuits that paused for STORE and hold 128 characters or fewer resume (01: R18; 02: R33, R34; 05: R81; 09: R156). -/
def Obligations.WithdrawBulletinUnqueues : Prop :=
  ∀ (r : ReplyTo) (n : Fin 64) (b : Bulletin) (s : State), s.serves → n ≠ 0 → s.bulletin n = some b →
    b.state ≠ .withdrawing →
    let stagedBlocks := b.staged.elim [] TextMap.blockNumbers
    let returned := if b.onAir = 0 then b.current.blockNumbers ++ stagedBlocks else stagedBlocks
    ∃ u : State, exec (.withdrawBulletin r n) s = .next (u.replied r 0x34 .ok) ∧
      (∀ ch, u.channel ch = { s.channel ch with
        queue := (s.channel ch).queue.filter fun e => decide (e.bulletin ≠ n)
        turn := (s.channel ch).turn.map fun t =>
          if b.onAir = 0 ∨ (s.channel ch).carriesPass n = false ∨ t.phase = .trailer ∨ t.phase = .closing then t
          else if t.pendingCut.any fun p => decide (p.reason ≠ .urgency) then t
          else { t with pendingCut := some ⟨.withdraw, 0⟩ } }) ∧
      (∀ i, i ≠ n → u.bulletin i = s.bulletin i) ∧
      u.bulletin n = (if b.onAir = 0 then none
        else some { b with staged := none, commitPending := false, state := .withdrawing }) ∧
      u.store = { s.store with free := s.store.free ++ returned } ∧
      (∀ d, u.circuit d = { s.circuit d with flow := (u.circuit d).flow } ∧ s.returnReported returned d u) ∧
      u.clock = s.clock ∧ u.link = s.link

/-- CLEAR MARKS sets both marks to no and the four counters to 0, in every state but EMPTY, and touches nothing else
(02: R38). -/
def Obligations.ClearMarksClears : Prop :=
  ∀ (r : ReplyTo) (n : Fin 64) (s : State), s.serves → n ≠ 0 →
    (∀ b, s.bulletin n = some b → exec (.clearMarks r n) s = .next ((s.setBulletin n (some { b with
      sent := false, revised := false, completed := 0, interrupted := 0, abandoned := 0, missed := 0 })).replied
        r 0x35 .ok)) ∧
    (s.bulletin n = none → exec (.clearMarks r n) s = .next (s.replied r 0x35 ⟨.notPresent, []⟩))

/-- READ TEXT answers with the characters of the map from the offset on, as they are stored, up to the count, the end
of the text, or the first character that is not written, whichever comes first, preceded by their number in one count
octet (log 9); its checks come in their order, and it changes nothing, in every state but EMPTY (02: R40). -/
def Obligations.ReadTextReturnsWrittenCharacters : Prop :=
  ∀ (r : ReplyTo) (n : Fin 64) (b : Bulletin) (target offset count : Nat) (s : State), s.serves → n ≠ 0 →
    s.bulletin n = some b → target ≤ 1 →
    let run := exec (.readText r n target offset count) s
    (target = 1 → b.staged = none → run = .next (s.replied r 0x37 ⟨.state, []⟩)) ∧
    ∀ m, (if target = 0 then some b.current else b.staged) = some m →
      (m.length ≤ offset → run = .next (s.replied r 0x37 ⟨.range, [2]⟩)) ∧
      (offset < m.length → (count = 0 ∨ 192 < count) → run = .next (s.replied r 0x37 ⟨.range, [3]⟩)) ∧
      (offset < m.length → 1 ≤ count → count ≤ 192 → ∃ k chars, k ≤ count ∧ chars.length = k ∧
        run = .next (s.replied r 0x37 ⟨.ok, BitVec.ofNat 8 k :: chars⟩) ∧
        (∀ i < k, offset + i < m.length ∧ m.written (offset + i) = true ∧
          chars[i]? = some (m.charAt s.store.cells (offset + i))) ∧
        (k = count ∨ offset + k = m.length ∨ m.written (offset + k) = false))

/-- STAGE REVISION is refused with STATE unless the bulletin is RELEASED and has no staged map. It then claims the blocks
of a new text as its staged map, empty, in the order of the free list, or is refused with RANGE or STORE_FULL; all else
is as it was (03: R43). -/
def Obligations.StageRevisionClaimsAMap : Prop :=
  ∀ (r : ReplyTo) (n : Fin 64) (b : Bulletin) (length : Nat) (s : State), s.serves → n ≠ 0 → s.bulletin n = some b →
    let run := exec (.stageRevision r n length) s
    let need := (length + 63) / 64
    ((b.state ≠ .released ∨ b.staged.isSome = true) → run = .next (s.replied r 0x38 ⟨.state, []⟩)) ∧
    (b.state = .released → b.staged = none → ((length = 0 ∨ 2048 < length) → run = .next (s.replied r 0x38 ⟨.range, [1]⟩)) ∧
    (1 ≤ length → length ≤ 2048 → s.store.free.length < need + s.store.reserve →
      run = .next (s.replied r 0x38 ⟨.storeFull, []⟩)) ∧
    (1 ≤ length → length ≤ 2048 → need + s.store.reserve ≤ s.store.free.length →
      run = .next ((({ s with store := { s.store with free := s.store.free.drop need } }).setBulletin n (some { b with
        staged := some ⟨length, (s.store.free.take need).map fun x => ⟨x, 0⟩, 0⟩ })).replied r 0x38 .ok)))

/-- COMMIT REVISION of a staged map without a commit pending: INCOMPLETE unless every block is present, REVISION_LIMIT at
999; with passes on air the commit is pending and the answer names the revision in force; with none the staged map is the
current map, the old one's blocks are at the tail of the free list, the revision is one higher and the revised mark is
set, with COMMITTED, and the circuits that paused for STORE and hold 128 characters or fewer resume (01: R18; 03: R45 to
R47; 05: R81). The octets of the answer's fields are the model's (log 9). -/
def Obligations.CommitRevisionTakesOrPends : Prop :=
  ∀ (r : ReplyTo) (n : Fin 64) (b : Bulletin) (m : TextMap) (s : State), s.serves → n ≠ 0 → s.bulletin n = some b →
    b.state = .released → b.staged = some m → b.commitPending = false →
    let run := exec (.commitRevision r n) s
    let whole := ∀ p < m.blocks.length, m.present p = true
    let number (k : Nat) : List Byte := [BitVec.ofNat 8 (k / 256), BitVec.ofNat 8 k]
    (¬ whole → run = .next (s.replied r 0x39 ⟨.incomplete, []⟩)) ∧
    (whole → b.revision = 999 → run = .next (s.replied r 0x39 ⟨.revisionLimit, []⟩)) ∧
    (whole → b.revision ≠ 999 → b.onAir ≠ 0 →
      run = .next ((s.setBulletin n (some { b with commitPending := true })).replied r 0x39
        ⟨.ok, 1 :: number b.revision⟩)) ∧
    (whole → b.revision ≠ 999 → b.onAir = 0 →
      ∃ u : State, run = .next (u.replied r 0x39 ⟨.ok, 0 :: number (b.revision + 1)⟩) ∧
        u.bulletin n = some { b with current := m, staged := none, revision := b.revision + 1, revised := true } ∧
        (∀ i, i ≠ n → u.bulletin i = s.bulletin i) ∧
        u.store = { s.store with free := s.store.free ++ b.current.blockNumbers } ∧
        (∀ d, u.circuit d = { s.circuit d with flow := (u.circuit d).flow } ∧
          (b.current.blockNumbers ≠ [] → s.returnReported b.current.blockNumbers d u)) ∧
        u.reports (.bulletin n) .committed ∧ u.channels = s.channels ∧ u.clock = s.clock ∧ u.link = s.link)

/-- DISCARD REVISION gives up a staged map: its blocks are at the tail of the free list, no commit is pending, and the
current map, the revision, the marks and the counters are as they were; where a commit was pending, and only there, the
channels that hold an entry of the bulletin are told that it is eligible. The circuits that paused for STORE and hold 128
characters or fewer resume (01: R18; 03: R50, R51; 05: R81; 07: R117). -/
def Obligations.DiscardRevisionReturnsTheStagedMap : Prop :=
  ∀ (r : ReplyTo) (n : Fin 64) (b : Bulletin) (m : TextMap) (s : State), s.serves → n ≠ 0 → s.bulletin n = some b →
    b.state = .released → b.staged = some m →
    ∃ (u : State) (b' : Bulletin), exec (.discardRevision r n) s = .next (u.replied r 0x3A .ok) ∧
      u.bulletin n = some b' ∧
      { b' with onAir := b.onAir } = { b with staged := none, commitPending := false } ∧
      u.store = { s.store with free := s.store.free ++ m.blockNumbers } ∧
      (∀ d, s.returnReported m.blockNumbers d u) ∧
      (b.commitPending = false → b'.onAir = b.onAir ∧ u.channels = s.channels) ∧
      (b.commitPending = true → ∀ j, s.entryTold n j u ∧
        ((s.channel j).holdsEntry n = false → u.channel j = s.channel j)) ∧
      (∀ i, i ≠ n → (u.bulletin i).isSome = (s.bulletin i).isSome) ∧ u.clock = s.clock ∧ u.link = s.link

/-! ## The line -/

/-- The receive side (10: R167): HUNTING waits for the sync octet; ASSEMBLING holds every octet and restarts the 20 ms
timer, discards the frame with a link error at a payload length above 240 and at the timer's expiry, and gives a whole
frame to the check in the event of its last octet. The start is HUNTING. -/
def Obligations.OctetsAssembleFrames : Prop :=
  ∀ (o : Byte) (s : State), s.resetHeld = false →
    let waits : Timer := ⟨Config.milliseconds 20, s.now + Config.milliseconds 20⟩
    let hunting : State := { s with link := { s.link with assembly := none } }
    let lost : State := { hunting with link := { hunting.link with errors := min 65535 (s.link.errors + 1) } }.raise
      .station none ⟨0, 0, 0, 0, 1⟩
    (s.link.assembly = none → exec (.linkOctetReceived o) s = .next
      (if o = 0xA5 then { s with link := { s.link with assembly := some ⟨[o], waits⟩ } } else s).arbitrate) ∧
    (∀ a, s.link.assembly = some a →
      let octets := a.octets ++ [o]
      let length := (octets[3]?.getD 0).toNat
      ((octets.length < 4 ∨ (length ≤ 240 ∧ octets.length < 4 + length + 2)) → exec (.linkOctetReceived o) s =
        .next { s with link := { s.link with assembly := some ⟨octets, waits⟩ } }.arbitrate) ∧
      (4 ≤ octets.length → 240 < length → exec (.linkOctetReceived o) s = .next lost.arbitrate) ∧
      (4 ≤ octets.length → length ≤ 240 → 4 + length + 2 ≤ octets.length → exec (.linkOctetReceived o) s =
        .next (hunting.checkFrame ((octets.drop 1).take (length + 3)) (octets.drop (length + 4))).arbitrate) ∧
      (a.timer.due = s.now → exec .interOctetTimerExpiry s = .next lost.arbitrate)) ∧
    State.reset.link.assembly = none ∧ ∀ k b q p, (State.started k b q p).link.assembly = none

/-- The check of a whole frame, given from its control octet on: a bad CRC is a link error and discards an open batch;
a good frame that is no request is a link error; a good request joins the receive queue if it holds fewer than 16
frames, and is otherwise answered BUSY, or is a link error while a BUSY reply waits (10: R170, R172). While a restart is
pending a good request that reaches the queue is answered SKIPPED as it arrives, after whatever waits (11: R185). -/
def Obligations.WholeFramesAreChecked : Prop :=
  ∀ (s : State) (control tag length : Byte) (payload sum : List Byte),
    let inside := control :: tag :: length :: payload
    let f : Frame := ⟨tag, control.extractLsb' 0 4, control.getLsbD 5, payload⟩
    (crcOctets inside ≠ sum → s.checkFrame inside sum = { s.linkError with link := { s.linkError.link with
      batch := none
      replies := s.link.replies ++ s.link.batch.elim ([] : List Reply) fun b =>
        b.held.map fun h => h.answer .batchDiscarded } }) ∧
    (crcOctets inside = sum →
      (control.extractLsb' 6 2 ≠ 1#2 → s.checkFrame inside sum = s.linkError) ∧
      (control.extractLsb' 6 2 = 1#2 →
        (s.link.restartPending = false → s.link.receiveQueue.length < 16 →
          s.checkFrame inside sum = { s with link := { s.link with
            receiveQueue := s.link.receiveQueue ++ [f], linkReady := decide (s.link.receiveQueue.length < 14) } }) ∧
        (s.link.restartPending = true → s.link.receiveQueue.length < 16 →
          s.checkFrame inside sum = { s with link := { s.link with
            executing := [], receiveQueue := [], linkReady := true
            replies := s.link.replies ++
              (s.link.executing ++ s.link.receiveQueue ++ [f]).map fun h => h.answer .skipped } }) ∧
        (16 ≤ s.link.receiveQueue.length → (∀ x ∈ s.link.replies, x.status ≠ .busy) →
          s.checkFrame inside sum = { s with link := { s.link with
            replies := s.link.replies ++ [⟨f.tag, f.position, 0, .busy, [], 0⟩] } }) ∧
        (16 ≤ s.link.receiveQueue.length → (∃ x ∈ s.link.replies, x.status = .busy) →
          s.checkFrame inside sum = s.linkError)))

/-- The take of a lone request, when no batch is in execution and no reply of the Request Processor waits: the frame
leaves the queue, its request is executed by its block and answered with the frame's tag, position and kind, and a payload
that is no request is answered BAD_REQUEST (10: R173). A RESTART is answered OK, a restart is then pending, and the frames
that wait are answered SKIPPED after it (11: R185). While such a reply waits, no frame is taken (log 29). -/
def Obligations.LoneFrameIsExecuted : Prop :=
  ∀ (s : State) (f : Frame) (q : List Frame), s.serves → s.link.executing = [] → s.link.receiveQueue = f :: q →
    let p : State := { s with link := { s.link with receiveQueue := q, linkReady := decide (q.length ≤ 14) } }
    ((∃ x ∈ s.link.replies, x.status ≠ .busy) → exec .frameTake s = .next s.arbitrate) ∧
    ((∀ x ∈ s.link.replies, x.status = .busy) → s.link.batch = none → f.position = 0 → f.more = false →
      (∀ d, decodeRequest f.payload = some d → d ≠ .restart → exec .frameTake s =
        .next ((runRequest d p).1.replied ⟨f.tag, f.position⟩ d.kindCode (runRequest d p).2)) ∧
      (decodeRequest f.payload = none → exec .frameTake s =
        .next (p.replied ⟨f.tag, f.position⟩ (f.payload.head?.getD 0) ⟨.badRequest, []⟩)) ∧
      (decodeRequest f.payload = some .restart →
        let answered := { p with link := { p.link with restartPending := true } }.replied ⟨f.tag, f.position⟩ 0x04 .ok
        exec .frameTake s = .next { answered with link := { answered.link with
          receiveQueue := [], linkReady := true
          replies := answered.link.replies ++ q.map fun h : Frame => h.answer .skipped } }.arbitrate))

/-- The take of a frame that is no lone request, or that meets an open batch: it is held, it completes the batch, or the
batch is discarded, by its position and MORE (10: R174, R175); and the expiry of the batch timer, which brings the time to
its end (log 2). A batch that is whole is executed inside the one FRAME_TAKE, unless a pause stands next (log 5), as
BatchIsExecutedInOrder says. -/
def Obligations.BatchesAreHeldOrDiscarded : Prop :=
  ∀ (s : State), s.serves →
    let waits : Timer := ⟨Config.milliseconds 500, s.now + Config.milliseconds 500⟩
    let answers (fs : List Frame) : List Reply := fs.map fun h => h.answer .batchDiscarded
    (∀ b, s.link.batch = some b → exec .batchTimerExpiry s = .next { s with
      now := max s.now b.timer.due
      link := { s.link with batch := none, replies := s.link.replies ++ answers b.held } }.arbitrate) ∧
    (s.link.batch = none → exec .batchTimerExpiry s = .next s.arbitrate) ∧
    ∀ f q, s.link.receiveQueue = f :: q → s.link.executing = [] → (∀ x ∈ s.link.replies, x.status = .busy) →
      let l : Link := { s.link with receiveQueue := q, linkReady := decide (q.length ≤ 14) }
      (s.link.batch = none → f.position ≠ 0 → exec .frameTake s =
        .next { s with link := { l with replies := l.replies ++ answers [f] } }.arbitrate) ∧
      (s.link.batch = none → f.position = 0 → f.more = true → exec .frameTake s =
        .next { s with link := { l with batch := some ⟨[f], waits⟩ } }.arbitrate) ∧
      ∀ b, s.link.batch = some b →
        (f.position.toNat = b.held.length → f.more = true → b.held.length < 15 → exec .frameTake s =
          .next { s with link := { l with batch := some ⟨b.held ++ [f], waits⟩ } }.arbitrate) ∧
        (f.position.toNat = b.held.length → f.more = true → b.held.length = 15 → exec .frameTake s =
          .next { s with link := { l with batch := none, replies := l.replies ++ answers (b.held ++ [f]) } }.arbitrate) ∧
        (f.position.toNat = b.held.length → f.more = false → exec .frameTake s =
          .next ({ s with link := { l with
            batch := none, executing := b.held ++ [f] } }.goOnWithBatch.skipQueued).arbitrate) ∧
        (f.position.toNat ≠ b.held.length → f.position ≠ 0 → exec .frameTake s =
          .next { s with link := { l with batch := none, replies := l.replies ++ answers (b.held ++ [f]) } }.arbitrate) ∧
        (f.position.toNat ≠ b.held.length → f.position = 0 → f.more = true → exec .frameTake s =
          .next { s with link := { l with
            batch := some ⟨[f], waits⟩, replies := l.replies ++ answers b.held } }.arbitrate) ∧
        (f.position.toNat ≠ b.held.length → f.position = 0 → f.more = false → exec .frameTake s =
          .next (({ s with link := { l with
            batch := none, replies := l.replies ++ answers b.held } }.executeFrame f).1.skipQueued).arbitrate)

/-- The batch law (10: R176). The requests of a whole batch are executed in position order, each as its own event with its
reply, and only while every earlier one has answered OK and no restart is pending. After the first that does not, every
later one is answered SKIPPED and none of them is executed. Where nothing pauses the execution it runs to its end in the
one FRAME_TAKE; where a pause stands next it runs over so many requests, the rest wait, and the next FRAME_TAKE goes on
with them before it takes a frame: the model allows both, since the spec says both (log 5). -/
def Obligations.BatchIsExecutedInOrder : Prop :=
  ∀ (s : State) (f : Frame) (later : List Frame), s.serves → s.link.executing = f :: later →
    let fs := f :: later
    let most := s.pauses.head?.elim fs.length fun n => min fs.length (n + 1)
    exec .frameTake s = .next s.goOnWithBatch.skipQueued.arbitrate ∧
    ∃ (k : Nat) (run : Nat → State) (verdict : Nat → Verdict), 1 ≤ k ∧ k ≤ most ∧
      run 0 = { s with pauses := s.pauses.tail } ∧
      (∀ i g, i < k → fs[i]? = some g →
        let turn := runPayload g.payload { run i with link := { (run i).link with executing := fs.drop (i + 1) } }
        verdict i = turn.2 ∧
        run (i + 1) = turn.1.replied ⟨g.tag, g.position⟩ (g.payload.head?.getD 0) turn.2) ∧
      (∀ i, i + 1 < k → (verdict i).status = .ok ∧ (run (i + 1)).link.restartPending = false) ∧
      (((verdict (k - 1)).status = .ok ∧ (run k).link.restartPending = false ∧ k = most ∧ s.goOnWithBatch = run k) ∨
       (((verdict (k - 1)).status ≠ .ok ∨ (run k).link.restartPending = true) ∧
        s.goOnWithBatch = { run k with link := { (run k).link with
          executing := [], replies := (run k).link.replies ++ (fs.drop k).map fun g => g.answer .skipped } }))

/-- A frame completion brings the time to its end (log 2) and frees the line, and a reply leaves the list at its last
frame; the one that leaves the list empty while a restart is pending starts the part from its reset values instead, with
the levels of its inputs (10: R178; 11: R185). The row for that reset takes it at the same completion (log 6). -/
def Obligations.FrameCompletionFreesTheLine : Prop :=
  ∀ (s : State) (f : OutFrame), s.resetHeld = false → s.link.outgoing = some f →
    let left := if f.kind = .reply ∧ f.more = false then s.link.replies.tail else s.link.replies
    ((s.link.restartPending = false ∨ left ≠ []) →
      exec .frameCompletion s = .next { s with
        now := max s.now f.due, link := { s.link with outgoing := none, replies := left } }.arbitrate ∧
      exec .restartReset s = .next s) ∧
    (s.link.restartPending = true → left = [] → ∀ c ∈ [Instr.frameCompletion, .restartReset],
      exec c s = .next (State.started s.keyok s.silence s.pending s.pauses))

/-- RESET taken low puts every block at its reset values in one event, whatever the part was doing; while it is low
the part takes its release and the levels of SILENCE and KEYOK, and no other event; the release starts it: LINK READY
asserted, the line busy with the STARTED notice, and every other block at its reset values (11: R184). That the levels
of the inputs, the waiting commands and the pauses stay, and that a release without RESET held does nothing, is the
model's (log 7, log 5, log 21, log 28). -/
def Obligations.ResetStartsFromTheResetValues : Prop :=
  ∀ s : State,
    exec .resetAssert s = .next (State.atRest s.keyok s.silence s.pending s.pauses) ∧
    exec .resetRelease (State.atRest s.keyok s.silence s.pending s.pauses) =
      .next (State.started s.keyok s.silence s.pending s.pauses) ∧
    (s.resetHeld = false → exec .resetRelease s = .next s) ∧
    State.reset = State.started (Vector.replicate 8 false) false [] [] ∧
    (s.resetHeld = true → ∀ c : Instr, c ≠ .resetAssert → c ≠ .resetRelease → exec c s =
      (match c with
        | .silenceAssert => .next { s with silence := true }
        | .silenceRelease => .next { s with silence := false }
        | .keyokGrant ch => .next { s with keyok := s.keyok.set ch.val true }
        | .permitLoss ch => .next { s with keyok := s.keyok.set ch.val false }
        | _ => .next s))

/-! ## The clock -/

/-- MARK under the EXTERNAL source: a falling edge is latched, once however many arrive. A latched edge that is taken
clears the latch, restarts the advance timer at 61 s and makes the status LOCKED, with CLOCK_LOCKED only where it was
DRIFTING; it advances the minute if and only if 30 s or more have passed since the last advance, and otherwise changes
nothing else (04: R57). -/
def Obligations.MarkEdgesSteerTheClock : Prop :=
  ∀ s : State, s.resetHeld = false → s.clock.source = .external →
    exec .markFallingEdge s = .next { s with clock := { s.clock with markLatched := true } }.arbitrate ∧
    (s.clock.markLatched = false → exec .markEdgeEvent s = .next s.arbitrate) ∧
    (s.clock.markLatched = true →
      let advances := decide (Config.seconds 30 ≤ s.now - s.clock.lastAdvance)
      let taken : State := { s with clock := { s.clock with markLatched := false } }
      ∃ u : State, exec .markEdgeEvent s = .next u.arbitrate ∧
        u = { (if advances then taken.minuteAdvance else taken) with clock := u.clock, notices := u.notices } ∧
        u.clock = { s.clock with
          minute := if advances then (s.clock.minute + 1) % 1440 else s.clock.minute
          lastAdvance := if advances then s.now else s.clock.lastAdvance
          status := .locked, markLatched := false
          advanceTimer := ⟨Config.seconds 61, s.now + Config.seconds 61⟩ } ∧
        (s.clock.status = .drifting → u.reports .station .clockLocked) ∧
        (s.clock.status = .locked → u.notices.filter (fun e => e.key = .station) =
          s.notices.filter fun e => e.key = .station) ∧
        u.now = s.now ∧ u.link = s.link ∧ u.store.cells = s.store.cells)

/-- The advance timer's expiry, under either source: the minute advances, the timer is restarted at 60 s and the status is
DRIFTING, with CLOCK_DRIFTING only where it was LOCKED. Under the INTERNAL source a falling edge on MARK has no effect
(04: R55, R58). -/
def Obligations.AdvanceTimerAdvancesTheMinute : Prop :=
  ∀ s : State, s.resetHeld = false →
    (s.clock.source = .internal → exec .markFallingEdge s = .next s.arbitrate) ∧
    (s.clock.advanceTimer.due = s.now →
      ∃ u : State, exec .advanceTimerExpiry s = .next u.arbitrate ∧
        u = { s.minuteAdvance with clock := u.clock, notices := u.notices } ∧
        u.clock = { s.clock with
          minute := (s.clock.minute + 1) % 1440, lastAdvance := s.now, status := .drifting
          advanceTimer := ⟨Config.seconds 60, s.now + Config.seconds 60⟩ } ∧
        (s.clock.status = .locked → u.reports .station .clockDrifting) ∧
        (s.clock.status = .drifting → u.notices.filter (fun e => e.key = .station) =
          s.notices.filter fun e => e.key = .station) ∧
        u.now = s.now ∧ u.link = s.link ∧ u.store.cells = s.store.cells)

/-- A minute advance gives an occasion to every RELEASED bulletin whose limit is not used up and whose start is due:
EVERY when its countdown comes to 0, which is then the interval again, and AT when the clock is set and the new minute
is one of its list. A RELEASED bulletin whose EVERY is not due steps its countdown; a COMPOSING and a WITHDRAWING one,
and a RELEASED one whose limit is used up, are passed over with the countdown as it was; nothing else of a bulletin
that is not due changes but its on-air count, where a channel starts its pass. An occasion counts against the limit;
each channel of the mask that takes it has the entry in its queue or on air, and each other one is a miss, with
MISSED. A channel's queue gains the new entries at the tails of their classes, in ascending bulletin number, with
class, passes, no interruption and the new minute; where an IDLE channel has started a pass at once, the entry of that
pass has left it, in a queue that stands in the order of its classes as every step keeps it. An IDLE channel that
takes an eligible entry raises KEYREQ in the same event, and is REQUESTING where KEYOK is absent. On a KEYED one a
telex turn and a pass of a higher class number are caused a DISTRESS cut by each eligible new entry of class 0 and an
URGENCY cut by each of class 1, in the same order; nothing else of a channel that is not IDLE changes. A bulletin
whose occasion was the last one retires where no channel takes it, no queue holds an entry of it and no pass of it is
on air: its entry is EMPTY, with RETIRED, and its blocks are at the tail of the free list, in the same order, with
their report; any other bulletin stands. The keying law, which every step keeps, rules out an IDLE channel with a
current turn (01: R6, R18; 02: R23, R36, R37; 04: R54, R63 to R67; 05: R81; 06: R94, R96; 07: R117, R121; 09: R153,
R156). -/
def Obligations.MinuteAdvanceStepsCountdowns : Prop :=
  ∀ s : State, s.keyingLaw →
    (∀ ch, ((s.channel ch).queueLaw ∨ ¬ ((s.channel ch).state = .idle ∧ (s.minuteAdvance.channel ch).state = .keyed)) →
      (s.channel ch).queuePlaced ((s.advanceEntries ch).foldl insertAtTail (s.channel ch).queue)
        (s.minuteAdvance.channel ch)) ∧
    (∀ ch, let x := s.channel ch
      let placed := s.advanceEntries ch
      x.state ≠ .idle → s.minuteAdvance.channel ch = { x with
        queue := placed.foldl insertAtTail x.queue
        turn := if x.state = .keyed then x.turn.map fun t =>
            (placed.filter (s.entryFree ch)).foldl (fun t e => t.told e.rank) t
          else x.turn }) ∧
    s.minuteAdvance.store = { s.store with free := s.store.free ++ s.advanceReturns } ∧
    (∀ d, s.returnReported s.advanceReturns d s.minuteAdvance) ∧
    ∀ (n : Fin 64) (b : Bulletin), n ≠ 0 → s.bulletin n = some b →
    (if s.advanceRetires n b = true then
      s.minuteAdvance.bulletin n = none ∧ s.minuteAdvance.reports (.bulletin n) .retired
     else (s.minuteAdvance.bulletin n).isSome = true) ∧
    (b.dueAt s.clock = false → ∃ b', s.minuteAdvance.bulletin n = some b' ∧ b' = { b with
      onAir := b'.onAir
      countdown := if b.state ≠ .released ∨ b.schedule.limit = some 0 then b.countdown
        else match b.schedule.start with | .every _ => b.countdown - 1 | _ => b.countdown }) ∧
    (b.dueAt s.clock = true →
      (∀ b', s.minuteAdvance.bulletin n = some b' →
        b'.countdown = (match b.schedule.start with | .every interval => interval | _ => b.countdown) ∧
        b'.schedule.limit = b.schedule.limit.map (fun l => l - 1) ∧
        (b.schedule.mask.Nodup → b.missed ≤ 65535 → b'.missed =
          min 65535 (b.missed + (b.schedule.mask.filter fun ch => !(s.channel ch).takesOccasion n b).length))) ∧
      (∀ ch ∈ b.schedule.mask, (s.channel ch).takesOccasion n b = true →
        (s.minuteAdvance.channel ch).holdsEntry n = true ∨ (s.minuteAdvance.channel ch).carriesPass n = true) ∧
      (∀ ch ∈ b.schedule.mask, (s.channel ch).takesOccasion n b = false →
        s.minuteAdvance.reports (.bulletin n) .missed) ∧
      ∀ ch ∈ b.schedule.mask, (s.channel ch).takesOccasion n b = true → b.commitPending = false →
        (s.silenced ch = false ∨ b.category.rank = 0) → (s.channel ch).state = .idle →
        (s.minuteAdvance.channel ch).keyreq = true ∧
        (s.keyokOf ch = false → (s.minuteAdvance.channel ch).state = .requesting))

/-! ## SILENCE and the hold timers -/

/-- The assertion of SILENCE raises SILENCE_ON and acts on the channels that observe it: a turn that is no pass of
class 0, and HOLD, stop after the symbol in progress, and a REQUESTING channel with nothing eligible under silence is
IDLE. The release raises SILENCE_OFF, leaves the other channels alone, and an observing IDLE channel with anything
eligible raises KEYREQ, while one with nothing eligible stays as it is. On an observing KEYED channel with an eligible
entry of class 1 a turn that yields to it is caused an URGENCY cut; an observing channel in any other state stays as
it is. The binding law (05: R72), which every step keeps, rules out a circuit in two bound lists. A level that is
there already is no event (log 28). A turn that is to stop, at a completion that does not end it by its own ending, is
cut there: KEYREQ drops and the channel is IDLE, and in the same event, if anything is eligible under the silence of
the moment and only then, requests again, which is a grant where KEYOK is still present; from STOPPING it is OFF, with
all that entering OFF brings. An interrupted pass of a RELEASED bulletin stands at the head of its class again; an
abandoned pass is ABANDONED, and one whose cut was in progress ends with that cut's reason; its bulletin is accounted
as at any pass end. In a telex turn the symbol that completes does its work first: a body character leaves the queue,
and the last one of a header that no cut breaks off clears the resume flag. The turn then marks its circuit to resume
if it has emitted; a CLOSING circuit with an empty queue is FREE, with CLOSED; and otherwise a pending move is applied
and a wait begins as at any turn end (01: R16, R18; 02: R23 to R25, R35 to R37; 03: R47, R50; 05: R74, R77, R80, R81,
R83, R84, R87; 06: R105 to R107; 07: R117, R121, R122; 08: R132, R135, R148; 09: R153, R156, R158 to R160; the time is
log 2, that the stop takes the place of a pending cut log 15, a cut at the last character of a header log 27, and
which character completes log 31). -/
def Obligations.SilenceStopsObservingChannels : Prop :=
  ∀ s : State, s.resetHeld = false →
    let quiet : State := { s with silence := true }
    let free : State := { s with silence := false }
    let observes (ch : Fin 8) : Bool := (s.channel ch).settings.observeSilence
    (s.silence = true → exec .silenceAssert s = .next s.arbitrate) ∧
    (s.silence = false → exec .silenceRelease s = .next s.arbitrate) ∧
    (s.silence = false → ∃ u : State, exec .silenceAssert s = .next u.arbitrate ∧
      u = { quiet with channels := u.channels, notices := u.notices } ∧ u.reports .station .silenceOn ∧
      ∀ ch, u.channel ch =
        if observes ch = false then s.channel ch
        else match (s.channel ch).state with
          | .keyed | .stopping =>
            if (s.channel ch).turn.any Turn.isDistress then s.channel ch else { s.channel ch with silenceStop := true }
          | .requesting =>
            if quiet.anythingEligible ch then s.channel ch
            else { s.channel ch with state := .idle, keyreq := false, permitTimer := none }
          | _ => s.channel ch) ∧
    (s.silence = true → ∃ u : State, exec .silenceRelease s = .next u.arbitrate ∧ u.silence = false ∧
      u.reports .station .silenceOff ∧ u.clock = s.clock ∧ u.link = s.link ∧ u.store = s.store ∧
      ∀ ch, (observes ch = false → u.channel ch = s.channel ch) ∧
        (s.bindingLaw → observes ch = true → (s.channel ch).state = .idle → free.anythingEligible ch = true →
          (u.channel ch).keyreq = true) ∧
        (s.bindingLaw → observes ch = true → (s.channel ch).state = .idle → free.anythingEligible ch = false →
          u.channel ch = s.channel ch) ∧
        (observes ch = true → (s.channel ch).state = .keyed → u.channel ch =
          if ∃ e ∈ (s.channel ch).queue, e.rank = 1 ∧ free.entryEligible ch e = true then { s.channel ch with
            turn := (s.channel ch).turn.map fun t =>
              if (match t.kind with | .telex _ => true | .pass p => decide (1 < p.rank)) = true
              then t.caused .urgency else t }
          else s.channel ch) ∧
        ((s.channel ch).state ∉ [.idle, .keyed] → u.channel ch = s.channel ch)) ∧
    (∀ ch t e, (s.channel ch).silenceStop = true → (s.channel ch).turn = some t → (s.channel ch).output = some e →
      (s.channel ch).state ∈ [.keyed, .stopping] →
      ((t.phase = .trailer ∨ t.phase = .closing) → t.textPosition + 1 < t.text.length) →
      let later : State := { s with now := max s.now e.due }
      ∃ v u : State, exec (.symbolCompletion ch) s = .next u.arbitrate ∧ u.now = later.now ∧
        (u.channel ch).silenceStop = false ∧ u.clock = s.clock ∧ u.link = s.link ∧ u.store.cells = s.store.cells ∧
        ((s.channel ch).state = .stopping → v.wentOff ch u) ∧
        ((s.channel ch).state = .keyed →
          let y := v.channel ch
          v.silence = s.silence ∧ v.keyok = s.keyok ∧ y.state = .idle ∧ y.keyreq = false ∧ y.turn = none ∧ y.output = none ∧
          y.settings = (s.channel ch).settings ∧ v.consulted ch u) ∧
        (∀ p, t.kind = .pass p → later.passEnded ch p (t.outcomeOf p .interrupted) v) ∧
        (∀ c, t.kind = .telex c → (s.circuit c.circuit).channel = ch →
          ∃ w emitted, later.telexWorked t c e.symbol w emitted ∧
            w.telexEnded ch c.circuit ((w.circuit c.circuit).resume || decide (1 ≤ emitted)) v))

/-- The hold timer of a wait episode that has not been notified, and the gap timer of a pass, expire: HOLD_EXCEEDED is
raised once for the episode; the pass is abandoned unless its next character is written, and its gap timer runs no more.
An expiry brings the time to the timer's end, and a timer that does not run has none (05: R78; 08: R145; log 2). -/
def Obligations.HoldAndGapTimersExpire : Prop :=
  ∀ s : State, s.resetHeld = false →
    (∀ c : Fin 32,
      (((s.circuit c).waitStart = none ∨ (s.circuit c).holdNotified = true) →
        exec (.holdTimerExpiry c) s = .next s.arbitrate) ∧
      (∀ w, (s.circuit c).waitStart = some w → (s.circuit c).holdNotified = false →
        exec (.holdTimerExpiry c) s = .next ((({ s with now := max s.now (w + Config.seconds s.holdLimit) }).setCircuit c
          { s.circuit c with holdNotified := true }).raise (.circuit c) (some .holdExceeded) Counts.zero).arbitrate)) ∧
    (∀ (ch : Fin 8) (t : Turn) (p : PassTurn), (s.channel ch).turn = some t → t.kind = .pass p →
      (p.gapTimer = none → exec (.gapTimerExpiry ch) s = .next s.arbitrate) ∧
      (∀ timer, p.gapTimer = some timer →
        exec (.gapTimerExpiry ch) s = .next (({ s with now := max s.now timer.due }).setChannel ch { s.channel ch with
          turn := some { t with kind := .pass { p with
            gapTimer := none
            abandoned := !((s.bulletin p.bulletin).any fun b : Bulletin => b.current.written p.bodyOffset) } } }).arbitrate))

/-! ## Keying -/

/-- A rise of KEYOK on a REQUESTING channel is a grant: the permit timer stops, the channel is KEYED, and the turn
that the selection names starts in LEAD, or in PREAMBLE at a lead of 0. A pass leaves the queue, loads its bulletin's
values and is counted on air; a telex turn ends its circuit's wait and is the last one served; the run counters move.
With nothing eligible the channel holds an IDLE symbol, or with a key hold of 0, or under silence, drops KEYREQ and is
IDLE. In any other state only the level is taken (06: R94, R97, R101; 07: R112, R118, R121 to R123). -/
def Obligations.KeyokRiseIsAGrant : Prop :=
  ∀ (ch : Fin 8) (s : State), s.resetHeld = false → s.keyokOf ch = false →
    let x := s.channel ch
    (x.state ≠ .requesting →
      exec (.keyokGrant ch) s = .next { s with keyok := s.keyok.set ch.val true }.arbitrate) ∧
    (x.state = .requesting →
      let granted : State := ({ s with keyok := s.keyok.set ch.val true }).setChannel ch { x with
        state := .keyed, permitTimer := none }
      ∃ u : State, exec (.keyokGrant ch) s = .next u.arbitrate ∧ granted.selected ch x.settings.openingPhase u)

/-- A fall of KEYOK on a KEYED channel stops emission with PERMIT_LOST: a turn is cut where it stands, an interrupted
pass of a RELEASED bulletin standing at the head of its class again, a telex turn that has emitted marking its circuit
to resume, or leaving it FREE where it is CLOSING with nothing queued; otherwise a pending move is applied, and a
circuit left with characters and no hold begins a wait episode, of which the channel it has moved to is told. A pass
that was abandoned is ABANDONED, and one whose cut was in progress ends with that cut's reason: its entry is dropped
in the cancel trailer, and otherwise put back. Its bulletin is accounted as at any pass end, with its retirement, its
commit or the end of its withdrawal. The channel requests again with the permit timer restarted, or from HOLD with
nothing eligible is IDLE. A STOPPING channel enters OFF: each entry of its queue, one put back among them, is a miss,
with MISSED, a bulletin of which nothing is left retires, and the bound circuits are held for CHANNEL and wait no
more. In any other state only the level is taken (01: R18; 02: R23 to R25, R35 to R37; 03: R47, R50; 05: R74, R77,
R81, R83, R84, R87; 06: R94, R100, R105; 08: R148; 09: R158 to R160). -/
def Obligations.KeyokFallIsAPermitLoss : Prop :=
  ∀ (ch : Fin 8) (s : State), s.resetHeld = false → s.keyokOf ch = true →
    let x := s.channel ch
    let period := Config.milliseconds x.settings.permitTimeout
    let lost : State := { s with keyok := s.keyok.set ch.val false }
    (x.state ∉ [.keyed, .stopping] → exec (.permitLoss ch) s = .next lost.arbitrate) ∧
    (x.state ∈ [.keyed, .stopping] → ∃ v u : State, exec (.permitLoss ch) s = .next u.arbitrate ∧
      u.keyok = s.keyok.set ch.val false ∧ u.reports (.channel ch) .permitLost ∧ (u.channel ch).output = none ∧
      (u.channel ch).turn = none ∧ (u.channel ch).silenceStop = false ∧ u.now = s.now ∧ u.clock = s.clock ∧ u.link = s.link ∧
      u.store.cells = s.store.cells ∧ (u.channel ch).substitutions = x.substitutions ∧
      (x.state = .stopping → v.wentOff ch u) ∧ (x.state = .keyed → v = u) ∧
      (x.state = .keyed → (x.turn.isSome = true ∨ s.anythingEligible ch = true) →
        (u.channel ch).state = .requesting ∧ (u.channel ch).keyreq = true ∧
        (u.channel ch).permitTimer = some ⟨period, s.now + period⟩) ∧
      (x.state = .keyed → x.turn = none → s.anythingEligible ch = false →
        (u.channel ch).state = .idle ∧ (u.channel ch).keyreq = false) ∧
      (∀ t p, x.turn = some t → t.kind = .pass p → lost.passEnded ch p (t.outcomeOf p .interrupted) v) ∧
      (∀ t c, x.turn = some t → t.kind = .telex c → (s.circuit c.circuit).channel = ch →
        lost.telexEnded ch c.circuit ((s.circuit c.circuit).resume || decide (1 ≤ c.bodyCount)) v))

/-- The lock, permit and retry timers of a channel expire, each bringing the time to its end (log 2). LOCKING is over with
LOCKED: the bound circuits lose the CHANNEL hold, and those that this frees of all holds with characters queued begin to
wait; the channel is IDLE, and then consults, raising KEYREQ if and only if anything is eligible. A request without a
grant gives way to BACKOFF with PERMIT_TIMEOUT. BACKOFF ends in the same consultation of an IDLE channel. A request is a
grant at once where KEYOK is present. A timer that does not run has no expiry (05: R74, R77; 06: R95 to R99). -/
def Obligations.ChannelTimersExpire : Prop :=
  ∀ (ch : Fin 8) (s : State), s.resetHeld = false →
    let x := s.channel ch
    (x.lockTimer = none → exec (.lockTimerExpiry ch) s = .next s.arbitrate) ∧
    (x.permitTimer = none → exec (.permitTimerExpiry ch) s = .next s.arbitrate) ∧
    (x.retryTimer = none → exec (.retryTimerExpiry ch) s = .next s.arbitrate) ∧
    (∀ t, x.lockTimer = some t → ∃ v u : State, exec (.lockTimerExpiry ch) s = .next u.arbitrate ∧
      v = ({ s with now := max s.now t.due, circuits := v.circuits, notices := v.notices }).setChannel ch
        { x with state := .idle, lockTimer := none } ∧
      (∀ c, v.circuit c = if c ∈ x.bound then (s.circuit c).releasedAt (s.onAir c) v.now else s.circuit c) ∧
      v.reports (.channel ch) .locked ∧ v.consulted ch u ∧
      (x.keyreq = false → ((u.channel ch).keyreq = true ↔ v.anythingEligible ch = true))) ∧
    (∀ t, x.permitTimer = some t →
      let now := max s.now t.due
      let period := Config.seconds x.settings.retryInterval
      exec (.permitTimerExpiry ch) s = .next ((({ s with now := now }).setChannel ch { x with
        state := .backoff, keyreq := false, permitTimer := none, retryTimer := some ⟨period, now + period⟩ }).raise
          (.channel ch) (some .permitTimeout) Counts.zero).arbitrate) ∧
    (∀ t, x.retryTimer = some t → ∃ u : State, exec (.retryTimerExpiry ch) s = .next u.arbitrate ∧
      (({ s with now := max s.now t.due }).setChannel ch { x with state := .idle, retryTimer := none }).consulted ch u)

/-! ## Turns -/

/-- The selection takes the first choice that applies (07: R119): the head eligible entry of class 0; of class 1; of class
2 while the bulletin run is below the bulletin burst; of class 3 where the telex run has reached the telex burst and the
bulletin run is below the bulletin burst; the next eligible circuit, from the one after the last served in list order
(R120); the head eligible entry; nothing, where nothing is eligible. An entry is eligible while its bulletin, which is
RELEASED, has no commit pending and silence does not hold back its class, and a circuit while it waits and the channel is
not under silence (R115, R116; 05: R77). So no selection names an entry of a bulletin with a commit pending (03: R49), and
under silence none names a circuit or an entry of a class above 0 (06: R107). -/
def Obligations.SelectionTakesTheFirstChoice : Prop :=
  ∀ (s : State) (ch : Fin 8),
    let x := s.channel ch
    let first (k : Rank) : Option Entry := x.queue.find? fun e => decide (e.rank = k) && s.entryEligible ch e
    let early := decide (x.bulletinRun < x.settings.bulletinBurst)
    let second := early && (first 2).isSome
    let third := early && decide (x.settings.telexBurst ≤ x.telexRun) && (first 3).isSome
    let plain := (first 0).isNone && (first 1).isNone
    (∀ e, first 0 = some e → s.choose ch = .entry e) ∧
    (∀ e, first 0 = none → first 1 = some e → s.choose ch = .entry e) ∧
    (∀ e, plain = true → second = true → first 2 = some e → s.choose ch = .entry e) ∧
    (∀ e, plain = true → second = false → third = true → first 3 = some e → s.choose ch = .entry e) ∧
    (plain = true → second = false → third = false →
      (∀ c, x.rotation.find? (s.circuitEligible ch) = some c → s.choose ch = .circuit c) ∧
      (x.rotation.find? (s.circuitEligible ch) = none →
        (∀ e, x.queue.find? (s.entryEligible ch) = some e → s.choose ch = .entry e) ∧
        (x.queue.find? (s.entryEligible ch) = none → s.choose ch = .nothing))) ∧
    let silenced := s.silence && x.profile.any fun p => p.observeSilence
    (∀ e, s.entryEligible ch e = true ↔ ∃ b, s.bulletin e.bulletin = some b ∧ b.state = .released ∧
      b.commitPending = false ∧ (silenced = true → e.rank = 0)) ∧
    (∀ c, s.circuitEligible ch c = true ↔ silenced = false ∧
      let y := s.circuit c
      y.life ≠ .free ∧ y.hostHold = false ∧ y.channelHold = false ∧ 1 ≤ y.count ∧
      ∀ t z, (s.channel y.channel).turn = some t → t.kind = .telex z → z.circuit ≠ c) ∧
    (x.lastServed = none → x.rotation = x.bound) ∧
    (∀ c, x.lastServed = some c → c ∉ x.bound → x.rotation = x.bound) ∧
    (∀ c before after, x.lastServed = some c → x.bound = before ++ c :: after → c ∉ before →
      x.rotation = after ++ before ++ [c]) ∧
    (∀ e, s.choose ch = .entry e → e ∈ x.queue ∧ s.entryEligible ch e = true) ∧
    (∀ c, s.choose ch = .circuit c → c ∈ x.bound ∧ s.circuitEligible ch c = true) ∧
    (s.choose ch = .nothing ↔ s.anythingEligible ch = false) ∧
    (s.anythingEligible ch = true ↔
      (∃ e ∈ x.queue, s.entryEligible ch e = true) ∨ ∃ c ∈ x.bound, s.circuitEligible ch c = true)

/-- The two places of a broadcast queue whose classes are in order (07: R114): at the tail of its class an entry stands
after every entry of its class or a lower one and before every entry of a higher one, at the head of its class before
every entry of its class as well; the other entries keep their order. -/
def Obligations.EntriesStandByClass : Prop :=
  ∀ (q : List Entry) (e : Entry), (q.map fun x => x.rank).Pairwise (· ≤ ·) →
    (∃ before after, q = before ++ after ∧ insertAtTail q e = before ++ e :: after ∧
      (∀ x ∈ before, x.rank ≤ e.rank) ∧ ∀ x ∈ after, e.rank < x.rank) ∧
    (∃ before after, q = before ++ after ∧ insertAtHead q e = before ++ e :: after ∧
      (∀ x ∈ before, x.rank < e.rank) ∧ ∀ x ∈ after, e.rank ≤ x.rank)

/-- The opening of a turn on a channel that nothing stops or cuts: LEAD emits IDLE and PREAMBLE emits PHASE, each as
many symbols as the profile says; the header, in the text its rule gives it, follows character by character, its first
one in the unknown shift that PHASE leaves, with a shift before a character that needs another one than stands, and so
do a trailer and a closing sequence. After the header's last character the body begins: a telex turn clears its
circuit's resume flag and begins the character at the head of the queue, or IDLE where it is empty; a pass begins the
first character of its map if it is written, and otherwise enters its gap with GAP_START and IDLE. In any phase, a
shift that completes is the shift state, and the character held for it begins; a data character that completes counts
as a substitution if it was sent as "?" in place of another. A completion brings the time to the end of its symbol
(06: R93, R108, R109; 08: R129 to R134, R140, R149; 09: R157; the time is log 2, and that the position of a text names
the character in progress log 31). -/
def Obligations.TurnOpensWithPhasingAndHeader : Prop :=
  ∀ (ch : Fin 8) (t : Turn) (due : Nat) (s : State), s.resetHeld = false → (s.channel ch).turn = some t →
    (s.channel ch).silenceStop = false → t.pendingCut = none →
    let x := s.channel ch
    let later : State := { s with now := max s.now due }
    let ends := max s.now due + x.settings.symbolTicks
    let run := exec (.symbolCompletion ch) s
    (∀ y, x.output = some ⟨y, due⟩ → ∃ u : State, run = .next u.arbitrate ∧
      (u.channel ch).substitutions = x.substitutionsAfter y) ∧
    (∀ c y, t.held = some c → y ∈ [Symbol.shiftLetters, .shiftFigures] → x.output = some ⟨y, due⟩ →
      run = .next (later.setChannel ch { x with
        shift := if y = .shiftLetters then .letters else .figures
        output := some ⟨.data (convert x.settings.code c).sent c, ends⟩
        turn := some { t with held := none } }).arbitrate) ∧
    (t.held = none →
      (t.phase = .lead → x.output = some ⟨.idle, due⟩ →
        run = .next (later.setChannel ch (if t.phaseCount + 1 < x.settings.lead
          then { x with output := some ⟨.idle, ends⟩, turn := some { t with phaseCount := t.phaseCount + 1 } }
          else { x with
            output := some ⟨.phase, ends⟩, turn := some { t with phase := .preamble, phaseCount := 0 } })).arbitrate) ∧
      (t.phase = .preamble → x.output = some ⟨.phase, due⟩ →
        (t.phaseCount + 1 < x.settings.phasing →
          run = .next (later.setChannel ch { x with
            shift := .unknown, output := some ⟨.phase, ends⟩
            turn := some { t with phaseCount := t.phaseCount + 1 } }).arbitrate) ∧
        (x.settings.phasing ≤ t.phaseCount + 1 → ∃ (u : State) (t' : Turn), run = .next u.arbitrate ∧
          u = later.setChannel ch (u.channel ch) ∧ (u.channel ch).turn = some t' ∧ t'.phase = .header ∧
          t'.text = s.headerOctets t.kind ∧ t'.textPosition = 0 ∧ t'.kind = t.kind ∧ (u.channel ch).shift = .unknown ∧
          { x with shift := .unknown }.begins (max s.now due) (s.headerOctets t.kind).head? (u.channel ch))) ∧
      (t.phase ∈ [.header, .trailer, .closing] → ∀ sent source, x.output = some ⟨.data sent source, due⟩ →
        ∀ c, t.text[t.textPosition + 1]? = some c →
          let v := convert x.settings.code c
          let plain := v.need = none ∨ v.need = some x.shift
          ∃ u : State, run = .next u.arbitrate ∧ u = later.setChannel ch (u.channel ch) ∧
            (u.channel ch).turn = some { t with
              textPosition := t.textPosition + 1, held := if plain then none else some c } ∧
            (u.channel ch).output = some ⟨if plain then .data v.sent c
              else if v.need = some .letters then .shiftLetters else .shiftFigures, ends⟩) ∧
      (t.phase = .header → ∀ sent source, x.output = some ⟨.data sent source, due⟩ →
        (t.text.length ≤ t.textPosition + 1 → ∃ (u : State) (t' : Turn), run = .next u.arbitrate ∧
          (u.channel ch).turn = some t' ∧ u.store = s.store ∧
          (∀ c, t.kind = .telex c → t'.phase = .body ∧ t'.kind = .telex { c with bodyCount := 0, graceCount := 0 } ∧
            (u.circuit c.circuit).resume = false ∧ u.notices = s.notices ∧
            let chain := (s.circuit c.circuit).chain
            (chain.law → x.begins (max s.now due) (chain.text s.store.cells).head? (u.channel ch))) ∧
          (∀ p, t.kind = .pass p →
            if (s.bulletin p.bulletin).any fun b : Bulletin => b.current.written 0
            then t'.phase = .body ∧ t'.kind = .pass { p with bodyOffset := 0 } ∧ u.notices = s.notices ∧
              x.begins (max s.now due) ((s.bulletin p.bulletin).map fun b => b.current.charAt s.store.cells 0)
                (u.channel ch)
            else t'.phase = .gap ∧ u.reports (.channel ch) .gapStart ∧ x.begins (max s.now due) none (u.channel ch) ∧
              t'.kind = .pass { p with
              bodyOffset := 0
              gapTimer := some ⟨Config.seconds s.gapTimeout, max s.now due + Config.seconds s.gapTimeout⟩ }))))

/-- A body symbol of a telex turn that nothing stops or cuts. A character leaves the head of its queue, the block this
empties is at the tail of the free list, the body count goes up and the grace count is 0. A paused circuit that this
leaves with 128 characters or fewer resumes, with RESUME, one that paused for STORE only while a block is free; a
block returned resumes every other circuit that paused for STORE and holds 128 or fewer. An IDLE symbol of an empty
queue counts against the turn grace, and one of a queue with characters sets the grace count to 0 and tests no end.
The turn goes to its trailer, CR LF, at the quota and a word boundary, at the quota and 32 more, at a boundary under
HOST, at the grace, and when a CLOSING circuit's queue is empty; otherwise the body goes on with the character at the
head of the queue, or an IDLE symbol where it is empty (01: R16, R18; 05: R80, R81; 08: R135 to R140; the time is log
2). -/
def Obligations.TelexBodyTakesFromTheQueue : Prop :=
  ∀ (ch : Fin 8) (t : Turn) (c : TelexTurn) (due : Nat) (s : State), s.resetHeld = false →
    (s.channel ch).turn = some t → (s.channel ch).silenceStop = false → t.pendingCut = none → t.phase = .body →
    t.kind = .telex c → (s.circuit c.circuit).chain.law → 1 ≤ (s.channel ch).settings.turnGrace →
    let x := s.circuit c.circuit
    let p := (s.channel ch).settings
    let ends (left body grace : Nat) (boundary : Bool) : Bool :=
      (decide (x.life = .closing) && decide (left = 0)) || decide (p.telexQuota + 32 ≤ body) ||
      (decide (p.telexQuota ≤ body) && boundary) || (x.hostHold && boundary) || decide (p.turnGrace ≤ grace)
    (∀ sent source, (s.channel ch).output = some ⟨.data sent source, due⟩ → x.count ≠ 0 →
      let boundary := source = 0x20 || source = 0x0D || source = 0x0A || decide (x.count = 1)
      ∃ (u : State) (t' : Turn), exec (.symbolCompletion ch) s = .next u.arbitrate ∧
        s.headLeft c.circuit u ∧ u.bulletins = s.bulletins ∧ (∀ j, j ≠ ch → u.channel j = s.channel j) ∧
        (u.channel ch).turn = some t' ∧
        t'.kind = .telex { c with bodyCount := c.bodyCount + 1, graceCount := 0 } ∧
        t'.phase = (if ends (x.count - 1) (c.bodyCount + 1) 0 boundary then .trailer else .body) ∧
        (t'.phase = .trailer → t'.text = [0x0D, 0x0A] ∧ t'.textPosition = 0) ∧
        u.now = max s.now due ∧ u.clock = s.clock ∧ u.link = s.link ∧
        (t.held = none → (s.channel ch).begins u.now (if t'.phase = .trailer then some 0x0D
          else ((u.circuit c.circuit).chain.text u.store.cells).head?) (u.channel ch))) ∧
    ((s.channel ch).output = some ⟨.idle, due⟩ → x.count = 0 → ∃ (u : State) (t' : Turn),
      exec (.symbolCompletion ch) s = .next u.arbitrate ∧ u = { s with now := u.now, channels := u.channels } ∧
      u.now = max s.now due ∧ (u.channel ch).turn = some t' ∧
      t'.kind = .telex { c with graceCount := c.graceCount + 1 } ∧
      t'.phase = (if ends 0 c.bodyCount (c.graceCount + 1) true then .trailer else .body) ∧
      (t'.phase = .trailer → t'.text = [0x0D, 0x0A] ∧ t'.textPosition = 0) ∧
      (t.held = none → (s.channel ch).begins u.now (if t'.phase = .trailer then some 0x0D else none) (u.channel ch))) ∧
    ((s.channel ch).output = some ⟨.idle, due⟩ → x.count ≠ 0 → t.held = none → ∃ u : State,
      exec (.symbolCompletion ch) s = .next u.arbitrate ∧
      u = { s with now := max s.now due, channels := s.channels.set ch.val (u.channel ch) } ∧
      (s.channel ch).begins u.now (x.chain.text s.store.cells).head? (u.channel ch) ∧
      (u.channel ch).turn.map (fun t' => { t' with held := none }) =
        some { t with kind := .telex { c with graceCount := 0 } })

/-- A body symbol of a pass that nothing stops or cuts: the offset goes up by one, and the trailer follows at the end of
the text, the next character of the current map if it is written, and otherwise the gap with its timer and GAP_START and
an IDLE symbol. An IDLE symbol of the gap is followed by that character of the map once it is written, with GAP_END and
the timer stopped, by the break sequence once the pass is abandoned, and by another IDLE symbol otherwise (01: R10, R11;
08: R141 to R147; the time is log 2). -/
def Obligations.PassBodyReadsTheMap : Prop :=
  ∀ (ch : Fin 8) (t : Turn) (p : PassTurn) (due : Nat) (s : State), s.resetHeld = false →
    (s.channel ch).turn = some t → (s.channel ch).silenceStop = false → t.pendingCut = none → t.held = none →
    t.kind = .pass p →
    let written (o : Nat) : Bool := (s.bulletin p.bulletin).any fun b : Bulletin => b.current.written o
    let character (o : Nat) : Option Byte := (s.bulletin p.bulletin).map fun b => b.current.charAt s.store.cells o
    let next := p.bodyOffset + 1
    (∀ sent source, t.phase = .body → (s.channel ch).output = some ⟨.data sent source, due⟩ →
      ∃ (u : State) (t' : Turn), exec (.symbolCompletion ch) s = .next u.arbitrate ∧
        u = { s with now := max s.now due, channels := u.channels, notices := u.notices } ∧
        (∀ j, j ≠ ch → u.channel j = s.channel j) ∧ (u.channel ch).turn = some t' ∧
        (s.channel ch).begins u.now
          (if p.length ≤ next then some 0x0D else if written next then character next else none) (u.channel ch) ∧
        if p.length ≤ next then
          t'.phase = .trailer ∧ t'.text = trailerOctets t.kind ∧ t'.textPosition = 0 ∧
          t'.kind = .pass { p with bodyOffset := next } ∧ u.notices = s.notices
        else if written next then
          t'.phase = .body ∧ t'.kind = .pass { p with bodyOffset := next } ∧ u.notices = s.notices
        else t'.phase = .gap ∧ u.reports (.channel ch) .gapStart ∧ t'.kind = .pass { p with
          bodyOffset := next
          gapTimer := some ⟨Config.seconds s.gapTimeout, max s.now due + Config.seconds s.gapTimeout⟩ }) ∧
    (t.phase = .gap → (s.channel ch).output = some ⟨.idle, due⟩ →
      ∃ (u : State) (t' : Turn), exec (.symbolCompletion ch) s = .next u.arbitrate ∧
        u = { s with now := max s.now due, channels := u.channels, notices := u.notices } ∧
        (∀ j, j ≠ ch → u.channel j = s.channel j) ∧ (u.channel ch).turn = some t' ∧
        (s.channel ch).begins u.now (if p.abandoned then some 0x0D
          else if written p.bodyOffset then character p.bodyOffset else none) (u.channel ch) ∧
        if p.abandoned then t'.phase = .closing ∧ t'.text = breakOctets ∧ t'.textPosition = 0 ∧
          t'.cutInProgress = t.cutInProgress ∧ t'.kind = .pass { p with gapTimer := none }
        else if written p.bodyOffset then
          t'.phase = .body ∧ t'.kind = .pass { p with gapTimer := none } ∧ u.reports (.channel ch) .gapEnd
        else t' = t)

/-- The last character of a trailer or of a closing sequence ends the turn, also where a SILENCE stop is pending (09:
R158, log 15). The end is handled in full first. A pass that ends by its own trailer is COMPLETED, sets the sent mark,
and of a RELEASED bulletin has its entry put back at the tail of its class with one pass fewer, if one is left; an
abandoned one is ABANDONED and its entry dropped; one that a cut had ended is INTERRUPTED, its entry back at the head
of its class with one interruption more, but a WITHDRAW cut counts nothing and drops it. Where the pass was the last
one on air, a WITHDRAWING bulletin leaves the entry EMPTY; a commit pending is taken, with COMMITTED, and every other
channel that holds an entry of the bulletin which silence does not hold back is told; a RELEASED bulletin whose limit
is used up and of which no queue holds an entry then retires, with RETIRED; the blocks given up are at the tail of the
free list, with their report; any other bulletin stands with its on-air count one lower. A telex turn that a cut had
ended sets its circuit's resume flag if it emitted a body character; a CLOSING circuit with an empty queue is FREE,
with CLOSED; otherwise a pending move is applied, and a circuit left with characters and no hold begins a wait, of
which the channel it has moved to is told. Then a KEYED channel, its run counters and its last served circuit as they
were, selects: the turn named, which may be of the entry put back, starts in PREAMBLE, and with nothing eligible the
channel is in HOLD, or IDLE. A STOPPING channel is OFF: each entry of its queue is a miss, with MISSED and the
retirement test, and its bound circuits are held for CHANNEL and wait no more (01: R18; 02: R23 to R25, R35 to R37;
03: R47, R50; 05: R74, R77, R81, R83, R84, R87; 06: R101, R103, R105; 07: R112, R117, R118, R121 to R124; 08: R140,
R148, R150; 09: R153, R156, R159, R160; the time is log 2, and which character completes log 31). -/
def Obligations.LastSymbolEndsTheTurn : Prop :=
  ∀ (ch : Fin 8) (t : Turn) (sent source : Byte) (due : Nat) (s : State), s.resetHeld = false →
    (s.channel ch).turn = some t → t.phase ∈ [.trailer, .closing] → t.text.length ≤ t.textPosition + 1 →
    (s.channel ch).output = some ⟨.data sent source, due⟩ → (s.channel ch).state ∈ [.keyed, .stopping] →
    let later : State := { s with now := max s.now due }
    ∃ v u : State, exec (.symbolCompletion ch) s = .next u.arbitrate ∧ u.now = later.now ∧
      u.clock = s.clock ∧ u.link = s.link ∧ u.store.cells = s.store.cells ∧
      (let y := v.channel ch
       v.silence = s.silence ∧ v.keyok = s.keyok ∧ y = { s.channel ch with
        turn := none, output := none, silenceStop := false, queue := y.queue, bound := y.bound
        substitutions := (s.channel ch).substitutionsAfter (.data sent source) }) ∧
      ((s.channel ch).state = .keyed → v.selected ch .preamble u) ∧
      ((s.channel ch).state = .stopping → v.wentOff ch u) ∧
      (∀ p, t.kind = .pass p → later.passEnded ch p (t.outcomeOf p .completed) v) ∧
      (∀ c, t.kind = .telex c → (s.circuit c.circuit).channel = ch →
        later.telexEnded ch c.circuit
          ((s.circuit c.circuit).resume || (t.cutInProgress.isSome && decide (1 ≤ c.bodyCount))) v)

/-- A pending cut falls at its point: the closing sequence of its reason begins with its CR, no cut is pending and the
cut is in progress. Every completion in LEAD, PREAMBLE, HEADER and GAP is a point. In BODY a DISTRESS, WITHDRAW or
PURGE cut falls at every completion, a shift among them; an URGENCY cut falls after a body character at a word
boundary, which for a telex turn the last one queued is too, or once 16 have been emitted since its cause, and at an
IDLE symbol of an empty queue. Where a purge has emptied the queue under a body character, any cut falls, nothing
leaves the queue, and the turn's counts stay. A gap whose pass is abandoned ends in the break sequence, and drops the
cut. Where a pending URGENCY cut does not fall it stays, with each body character counted, and the next symbol of the
body or the gap begins, but that a pass whose text ends, and a telex turn at the quota and 32 more, go to their
trailer and drop it. In HOLD a completion counts the symbol and selects: the turn named starts in PREAMBLE if anything
is eligible; otherwise another IDLE symbol below the key hold, and KEYREQ dropped at the key hold and at a SILENCE
stop. Any completion, a stop among them, leaves the shift state and the substitution count that its symbol gives, the
former unless the channel enters OFF (09: R153 to R155, R157, R162; 06: R101, R106, R108, R109; 07: R118, R121, R122;
08: R129, R140, R147, R149; the time is log 2; that a cut at the last character of a header leaves the resume flag set
is log 27, and the position of a text log 31; that an end test drops an URGENCY cut whose point has not come is log
33, PHASE under either code log 26). -/
def Obligations.CutsFallAndHoldEnds : Prop :=
  ∀ (ch : Fin 8) (e : Emission) (s : State), s.resetHeld = false → (s.channel ch).output = some e →
    let x := s.channel ch
    let later : State := { s with now := max s.now e.due }
    let run := exec (.symbolCompletion ch) s
    (∃ u : State, run = .next u.arbitrate ∧ (u.channel ch).substitutions = x.substitutionsAfter e.symbol ∧
      ((u.channel ch).state ≠ .off → (u.channel ch).shift = x.shiftAfter e.symbol)) ∧
    (∀ t p, x.turn = some t → t.phase ∈ [.lead, .preamble, .header] → t.pendingCut = some p → x.silenceStop = false →
      ∃ (u : State) (t' : Turn), run = .next u.arbitrate ∧
        u = later.setChannel ch (u.channel ch) ∧ (u.channel ch).state = x.state ∧ (u.channel ch).turn = some t' ∧
        x.cutFallen later.now t p.reason (u.channel ch) t') ∧
    (∀ t p pass, x.turn = some t → t.phase = .gap → t.kind = .pass pass → pass.abandoned = false →
      t.pendingCut = some p → x.silenceStop = false →
      ∃ (u : State) (t' : Turn), run = .next u.arbitrate ∧ u = later.setChannel ch (u.channel ch) ∧
        (u.channel ch).state = x.state ∧ (u.channel ch).turn = some t' ∧
        x.cutFallen later.now t p.reason (u.channel ch) t' ∧ t'.kind = .pass { pass with gapTimer := none }) ∧
    (∀ t p pass, x.turn = some t → t.phase = .gap → t.kind = .pass pass → pass.abandoned = true →
      t.pendingCut = some p → x.silenceStop = false → e.symbol = .idle →
      ∃ (u : State) (t' : Turn), run = .next u.arbitrate ∧ u = later.setChannel ch (u.channel ch) ∧
        (u.channel ch).state = x.state ∧ (u.channel ch).turn = some t' ∧ x.begins later.now (some 0x0D) (u.channel ch) ∧
        t'.phase = .closing ∧ t'.text = breakOctets ∧ t'.textPosition = 0 ∧ t'.pendingCut = none ∧
        t'.cutInProgress = t.cutInProgress ∧ t'.kind = .pass { pass with gapTimer := none }) ∧
    (∀ t p, x.turn = some t → t.phase = .body → t.pendingCut = some p → x.silenceStop = false →
      let counted := min 16 (p.urgencyCount + 1)
      (e.symbol ∈ [.shiftLetters, .shiftFigures] → ∃ (u : State) (t' : Turn), run = .next u.arbitrate ∧
        u = later.setChannel ch (u.channel ch) ∧ (u.channel ch).turn = some t' ∧
        if p.reason = .urgency then t'.phase = .body ∧ t'.pendingCut = some p ∧ t'.kind = t.kind ∧
          ∀ c, t.held = some c → t'.held = none ∧ (u.channel ch).output =
            some ⟨.data (convert x.settings.code c).sent c, later.now + x.settings.symbolTicks⟩
        else x.cutFallen later.now t p.reason (u.channel ch) t') ∧
      (∀ pass sent source, t.kind = .pass pass → e.symbol = .data sent source →
        ∃ (u : State) (t' : Turn), run = .next u.arbitrate ∧ u.store = s.store ∧ u.bulletins = s.bulletins ∧
          u.clock = s.clock ∧ u.link = s.link ∧ u.now = max s.now e.due ∧ (∀ j, j ≠ ch → u.channel j = s.channel j) ∧
          (u.channel ch).turn = some t' ∧
          let next := pass.bodyOffset + 1
          let written := (s.bulletin pass.bulletin).any fun b : Bulletin => b.current.written next
          if pass.length ≤ next then
            t'.phase = .trailer ∧ t'.text = trailerOctets t.kind ∧ t'.textPosition = 0 ∧ t'.pendingCut = none ∧
              t'.cutInProgress = t.cutInProgress ∧
              x.begins later.now (some 0x0D) (u.channel ch)
          else if p.reason ≠ .urgency ∨ source ∈ [0x20, 0x0D, 0x0A] ∨ 16 ≤ counted then
            x.cutFallen later.now t p.reason (u.channel ch) t'
          else t'.phase = (if written then .body else .gap) ∧ t'.pendingCut = some ⟨.urgency, counted⟩ ∧
            (t.held = none → x.begins later.now (if written
              then (s.bulletin pass.bulletin).map fun b => b.current.charAt s.store.cells next else none)
              (u.channel ch))) ∧
      (∀ c, t.kind = .telex c → (s.circuit c.circuit).chain.law →
        let y := s.circuit c.circuit
        (∀ sent source, e.symbol = .data sent source → y.count ≠ 0 → 1 ≤ x.settings.turnGrace →
          ∃ (u : State) (t' : Turn), run = .next u.arbitrate ∧ s.headLeft c.circuit u ∧
            u.bulletins = s.bulletins ∧ u.clock = s.clock ∧ u.link = s.link ∧ u.now = max s.now e.due ∧
            (∀ j, j ≠ ch → u.channel j = s.channel j) ∧
            (u.channel ch).turn = some t' ∧ t'.kind = .telex { c with bodyCount := c.bodyCount + 1, graceCount := 0 } ∧
            if p.reason ≠ .urgency ∨ source ∈ [0x20, 0x0D, 0x0A] ∨ y.count = 1 ∨ 16 ≤ counted then
              x.cutFallen later.now t p.reason (u.channel ch) t'
            else if x.settings.telexQuota + 32 ≤ c.bodyCount + 1 then t'.phase = .trailer ∧ t'.text = [0x0D, 0x0A] ∧
              t'.textPosition = 0 ∧ t'.pendingCut = none ∧ x.begins later.now (some 0x0D) (u.channel ch)
            else t'.phase = .body ∧ t'.pendingCut = some ⟨.urgency, counted⟩ ∧ (t.held = none →
                x.begins later.now (y.chain.text s.store.cells).tail.head? (u.channel ch))) ∧
        (∀ sent source, e.symbol = .data sent source → y.count = 0 →
          ∃ (u : State) (t' : Turn), run = .next u.arbitrate ∧ u = later.setChannel ch (u.channel ch) ∧
            (u.channel ch).state = x.state ∧ (u.channel ch).turn = some t' ∧
            x.cutFallen later.now t p.reason (u.channel ch) t' ∧ t'.kind = t.kind) ∧
        (e.symbol = .idle → ∃ (u : State) (t' : Turn), run = .next u.arbitrate ∧
          u = later.setChannel ch (u.channel ch) ∧ (u.channel ch).turn = some t' ∧
          if p.reason ≠ .urgency ∨ y.count = 0 ∨ 16 ≤ p.urgencyCount then
            x.cutFallen later.now t p.reason (u.channel ch) t'
          else t'.phase = .body ∧ t'.pendingCut = some p ∧
            (t.held = none → x.begins later.now (y.chain.text s.store.cells).head? (u.channel ch))))) ∧
    (x.turn = none → e.symbol = .idle →
      (s.anythingEligible ch = false →
        run = .next (later.setChannel ch
          (if x.silenceStop = true ∨ x.settings.keyHold ≤ x.holdCount + 1
            then { x with state := .idle, keyreq := false, output := none, holdCount := 0, silenceStop := false }
            else { x with
              output := some ⟨.idle, max s.now e.due + x.settings.symbolTicks⟩
              holdCount := x.holdCount + 1 })).arbitrate) ∧
      (s.anythingEligible ch = true → ∃ u : State, run = .next u.arbitrate ∧
        (later.setChannel ch { x with silenceStop := false }).turnStarted ch .preamble (s.choose ch) u))

/-! ## What every step keeps -/

/-- The cells of the Text Store stay in their canonical form (the form is the model's; the cells are 01: R1). -/
def Obligations.CellsStayCanonical : Prop := ∀ s t : State, s.cellsLaw → step s = .next t → t.cellsLaw

/-- No two waiting notices come under one key, and LINK READY is asserted while at most 14 of at most 16 frames wait
(11: R179; 10: R172; 11: R184). -/
def Obligations.NoticeAndLinkLawsStay : Prop :=
  ∀ s t : State, s.noticeLaw → s.linkLaw → step s = .next t → t.noticeLaw ∧ t.linkLaw

/-- The keying law and the on-air law, which need each other, and the rest of a part whose RESET is held; and, beside
them, the queue law: the classes of every broadcast queue in order, one entry for a bulletin, and none for the
bulletin of the current pass (02: R24; 04: R64; 06: R94; 07: R114; 11: R184). -/
def Obligations.KeyingAndOnAirLawsStay : Prop :=
  ∀ s t : State, s.restLaw → s.keyingLaw → s.onAirLaw → step s = .next t →
    t.restLaw ∧ t.keyingLaw ∧ t.onAirLaw ∧ (s.queueLaw → t.queueLaw)

/-- The block ownership law (01: R3): every block of the Text Store is in exactly one place, once; it rests on the form
of the chains. -/
def Obligations.BlockOwnershipStays : Prop :=
  ∀ s t : State, s.chainLaw → s.blockLaw → step s = .next t → t.chainLaw ∧ t.blockLaw

/-- No circuit ever holds more than 512 characters, a FREE one has no move pending, and the binding law: every circuit
that is not FREE stands once in the bound list of its own channel and nowhere else, and a circuit is the current turn
of no channel but its own, and of none while it is FREE (05: R70, R72, R75). -/
def Obligations.CircuitLawsStay : Prop :=
  ∀ s t : State, s.queueLimitLaw → s.freeLaw → s.bindingLaw → step s = .next t →
    t.queueLimitLaw ∧ t.freeLaw ∧ t.bindingLaw

/-- Every law that has a step lemma here holds right after power-on reset. -/
def Obligations.ResetMeetsTheLaws : Prop :=
  State.reset.cellsLaw ∧ State.reset.noticeLaw ∧ State.reset.linkLaw ∧ State.reset.restLaw ∧ State.reset.keyingLaw ∧
  State.reset.onAirLaw ∧ State.reset.queueLimitLaw ∧ State.reset.chainLaw ∧ State.reset.blockLaw ∧
  State.reset.freeLaw ∧ State.reset.bindingLaw ∧ State.reset.queueLaw

/-! ## What the line carries -/

/-- The payload of every request that a frame can carry is read back as that request, and fits a frame (10: R168, R169,
section 10.8). -/
def Obligations.PayloadsAreReadBack : Prop :=
  ∀ q : Request, q.wellFormed = true → decodeRequest (encodeRequest q) = some q ∧ (encodeRequest q).length ≤ 240

/-- The octets of a request frame, received one after another from HUNTING, are checked and offered to the receive queue
as that frame (10: R167, R168, R170). What the queue does with a frame offered to it, WholeFramesAreChecked says. -/
def Obligations.FramesCrossTheLine : Prop :=
  ∀ (s : State) (f : Frame), s.link.assembly = none → f.payload.length ≤ 240 →
    f.octets.foldl State.receiveOctet s = s.offerFrame f
end

