-- ==== Sys2Proof/Laws/State.lean ====
section
/-! SUPPORT. What each update of the state leaves as it was, one lemma per update and field, and what it reads back. -/

namespace Sys2Proof.Machine

/-! ## What an update leaves alone -/

/-! ### setChannel -/

@[simp] theorem State.setChannel_store (s : State) (ch : Fin 8) (x : Channel) : (s.setChannel ch x).store = s.store := rfl
@[simp] theorem State.setChannel_bulletins (s : State) (ch : Fin 8) (x : Channel) : (s.setChannel ch x).bulletins = s.bulletins := rfl
@[simp] theorem State.setChannel_clock (s : State) (ch : Fin 8) (x : Channel) : (s.setChannel ch x).clock = s.clock := rfl
@[simp] theorem State.setChannel_holdLimit (s : State) (ch : Fin 8) (x : Channel) : (s.setChannel ch x).holdLimit = s.holdLimit := rfl
@[simp] theorem State.setChannel_gapTimeout (s : State) (ch : Fin 8) (x : Channel) : (s.setChannel ch x).gapTimeout = s.gapTimeout := rfl
@[simp] theorem State.setChannel_circuits (s : State) (ch : Fin 8) (x : Channel) : (s.setChannel ch x).circuits = s.circuits := rfl
@[simp] theorem State.setChannel_keyok (s : State) (ch : Fin 8) (x : Channel) : (s.setChannel ch x).keyok = s.keyok := rfl
@[simp] theorem State.setChannel_silence (s : State) (ch : Fin 8) (x : Channel) : (s.setChannel ch x).silence = s.silence := rfl
@[simp] theorem State.setChannel_link (s : State) (ch : Fin 8) (x : Channel) : (s.setChannel ch x).link = s.link := rfl
@[simp] theorem State.setChannel_notices (s : State) (ch : Fin 8) (x : Channel) : (s.setChannel ch x).notices = s.notices := rfl
@[simp] theorem State.setChannel_resetHeld (s : State) (ch : Fin 8) (x : Channel) : (s.setChannel ch x).resetHeld = s.resetHeld := rfl
@[simp] theorem State.setChannel_now (s : State) (ch : Fin 8) (x : Channel) : (s.setChannel ch x).now = s.now := rfl
@[simp] theorem State.setChannel_pending (s : State) (ch : Fin 8) (x : Channel) : (s.setChannel ch x).pending = s.pending := rfl
@[simp] theorem State.setChannel_pauses (s : State) (ch : Fin 8) (x : Channel) : (s.setChannel ch x).pauses = s.pauses := rfl
@[simp] theorem State.setChannel_circuit (s : State) (ch : Fin 8) (x : Channel) (i : Fin 32) : (s.setChannel ch x).circuit i = s.circuit i := rfl
@[simp] theorem State.setChannel_bulletin (s : State) (ch : Fin 8) (x : Channel) (i : Fin 64) : (s.setChannel ch x).bulletin i = s.bulletin i := rfl
@[simp] theorem State.setChannel_keyokOf (s : State) (ch : Fin 8) (x : Channel) (i : Fin 8) : (s.setChannel ch x).keyokOf i = s.keyokOf i := rfl

/-! ### setCircuit -/

@[simp] theorem State.setCircuit_store (s : State) (c : Fin 32) (x : Circuit) : (s.setCircuit c x).store = s.store := rfl
@[simp] theorem State.setCircuit_bulletins (s : State) (c : Fin 32) (x : Circuit) : (s.setCircuit c x).bulletins = s.bulletins := rfl
@[simp] theorem State.setCircuit_clock (s : State) (c : Fin 32) (x : Circuit) : (s.setCircuit c x).clock = s.clock := rfl
@[simp] theorem State.setCircuit_holdLimit (s : State) (c : Fin 32) (x : Circuit) : (s.setCircuit c x).holdLimit = s.holdLimit := rfl
@[simp] theorem State.setCircuit_gapTimeout (s : State) (c : Fin 32) (x : Circuit) : (s.setCircuit c x).gapTimeout = s.gapTimeout := rfl
@[simp] theorem State.setCircuit_channels (s : State) (c : Fin 32) (x : Circuit) : (s.setCircuit c x).channels = s.channels := rfl
@[simp] theorem State.setCircuit_keyok (s : State) (c : Fin 32) (x : Circuit) : (s.setCircuit c x).keyok = s.keyok := rfl
@[simp] theorem State.setCircuit_silence (s : State) (c : Fin 32) (x : Circuit) : (s.setCircuit c x).silence = s.silence := rfl
@[simp] theorem State.setCircuit_link (s : State) (c : Fin 32) (x : Circuit) : (s.setCircuit c x).link = s.link := rfl
@[simp] theorem State.setCircuit_notices (s : State) (c : Fin 32) (x : Circuit) : (s.setCircuit c x).notices = s.notices := rfl
@[simp] theorem State.setCircuit_resetHeld (s : State) (c : Fin 32) (x : Circuit) : (s.setCircuit c x).resetHeld = s.resetHeld := rfl
@[simp] theorem State.setCircuit_now (s : State) (c : Fin 32) (x : Circuit) : (s.setCircuit c x).now = s.now := rfl
@[simp] theorem State.setCircuit_pending (s : State) (c : Fin 32) (x : Circuit) : (s.setCircuit c x).pending = s.pending := rfl
@[simp] theorem State.setCircuit_pauses (s : State) (c : Fin 32) (x : Circuit) : (s.setCircuit c x).pauses = s.pauses := rfl
@[simp] theorem State.setCircuit_channel (s : State) (c : Fin 32) (x : Circuit) (i : Fin 8) : (s.setCircuit c x).channel i = s.channel i := rfl
@[simp] theorem State.setCircuit_bulletin (s : State) (c : Fin 32) (x : Circuit) (i : Fin 64) : (s.setCircuit c x).bulletin i = s.bulletin i := rfl
@[simp] theorem State.setCircuit_keyokOf (s : State) (c : Fin 32) (x : Circuit) (i : Fin 8) : (s.setCircuit c x).keyokOf i = s.keyokOf i := rfl

/-! ### setBulletin -/

@[simp] theorem State.setBulletin_store (s : State) (n : Fin 64) (x : Option Bulletin) : (s.setBulletin n x).store = s.store := rfl
@[simp] theorem State.setBulletin_clock (s : State) (n : Fin 64) (x : Option Bulletin) : (s.setBulletin n x).clock = s.clock := rfl
@[simp] theorem State.setBulletin_holdLimit (s : State) (n : Fin 64) (x : Option Bulletin) : (s.setBulletin n x).holdLimit = s.holdLimit := rfl
@[simp] theorem State.setBulletin_gapTimeout (s : State) (n : Fin 64) (x : Option Bulletin) : (s.setBulletin n x).gapTimeout = s.gapTimeout := rfl
@[simp] theorem State.setBulletin_circuits (s : State) (n : Fin 64) (x : Option Bulletin) : (s.setBulletin n x).circuits = s.circuits := rfl
@[simp] theorem State.setBulletin_channels (s : State) (n : Fin 64) (x : Option Bulletin) : (s.setBulletin n x).channels = s.channels := rfl
@[simp] theorem State.setBulletin_keyok (s : State) (n : Fin 64) (x : Option Bulletin) : (s.setBulletin n x).keyok = s.keyok := rfl
@[simp] theorem State.setBulletin_silence (s : State) (n : Fin 64) (x : Option Bulletin) : (s.setBulletin n x).silence = s.silence := rfl
@[simp] theorem State.setBulletin_link (s : State) (n : Fin 64) (x : Option Bulletin) : (s.setBulletin n x).link = s.link := rfl
@[simp] theorem State.setBulletin_notices (s : State) (n : Fin 64) (x : Option Bulletin) : (s.setBulletin n x).notices = s.notices := rfl
@[simp] theorem State.setBulletin_resetHeld (s : State) (n : Fin 64) (x : Option Bulletin) : (s.setBulletin n x).resetHeld = s.resetHeld := rfl
@[simp] theorem State.setBulletin_now (s : State) (n : Fin 64) (x : Option Bulletin) : (s.setBulletin n x).now = s.now := rfl
@[simp] theorem State.setBulletin_pending (s : State) (n : Fin 64) (x : Option Bulletin) : (s.setBulletin n x).pending = s.pending := rfl
@[simp] theorem State.setBulletin_pauses (s : State) (n : Fin 64) (x : Option Bulletin) : (s.setBulletin n x).pauses = s.pauses := rfl
@[simp] theorem State.setBulletin_channel (s : State) (n : Fin 64) (x : Option Bulletin) (i : Fin 8) : (s.setBulletin n x).channel i = s.channel i := rfl
@[simp] theorem State.setBulletin_circuit (s : State) (n : Fin 64) (x : Option Bulletin) (i : Fin 32) : (s.setBulletin n x).circuit i = s.circuit i := rfl
@[simp] theorem State.setBulletin_keyokOf (s : State) (n : Fin 64) (x : Option Bulletin) (i : Fin 8) : (s.setBulletin n x).keyokOf i = s.keyokOf i := rfl

/-! ### mapBulletin -/

@[simp] theorem State.mapBulletin_store (s : State) (n : Fin 64) (f : Bulletin → Bulletin) : (s.mapBulletin n f).store = s.store := rfl
@[simp] theorem State.mapBulletin_clock (s : State) (n : Fin 64) (f : Bulletin → Bulletin) : (s.mapBulletin n f).clock = s.clock := rfl
@[simp] theorem State.mapBulletin_holdLimit (s : State) (n : Fin 64) (f : Bulletin → Bulletin) : (s.mapBulletin n f).holdLimit = s.holdLimit := rfl
@[simp] theorem State.mapBulletin_gapTimeout (s : State) (n : Fin 64) (f : Bulletin → Bulletin) : (s.mapBulletin n f).gapTimeout = s.gapTimeout := rfl
@[simp] theorem State.mapBulletin_circuits (s : State) (n : Fin 64) (f : Bulletin → Bulletin) : (s.mapBulletin n f).circuits = s.circuits := rfl
@[simp] theorem State.mapBulletin_channels (s : State) (n : Fin 64) (f : Bulletin → Bulletin) : (s.mapBulletin n f).channels = s.channels := rfl
@[simp] theorem State.mapBulletin_keyok (s : State) (n : Fin 64) (f : Bulletin → Bulletin) : (s.mapBulletin n f).keyok = s.keyok := rfl
@[simp] theorem State.mapBulletin_silence (s : State) (n : Fin 64) (f : Bulletin → Bulletin) : (s.mapBulletin n f).silence = s.silence := rfl
@[simp] theorem State.mapBulletin_link (s : State) (n : Fin 64) (f : Bulletin → Bulletin) : (s.mapBulletin n f).link = s.link := rfl
@[simp] theorem State.mapBulletin_notices (s : State) (n : Fin 64) (f : Bulletin → Bulletin) : (s.mapBulletin n f).notices = s.notices := rfl
@[simp] theorem State.mapBulletin_resetHeld (s : State) (n : Fin 64) (f : Bulletin → Bulletin) : (s.mapBulletin n f).resetHeld = s.resetHeld := rfl
@[simp] theorem State.mapBulletin_now (s : State) (n : Fin 64) (f : Bulletin → Bulletin) : (s.mapBulletin n f).now = s.now := rfl
@[simp] theorem State.mapBulletin_pending (s : State) (n : Fin 64) (f : Bulletin → Bulletin) : (s.mapBulletin n f).pending = s.pending := rfl
@[simp] theorem State.mapBulletin_pauses (s : State) (n : Fin 64) (f : Bulletin → Bulletin) : (s.mapBulletin n f).pauses = s.pauses := rfl
@[simp] theorem State.mapBulletin_channel (s : State) (n : Fin 64) (f : Bulletin → Bulletin) (i : Fin 8) : (s.mapBulletin n f).channel i = s.channel i := rfl
@[simp] theorem State.mapBulletin_circuit (s : State) (n : Fin 64) (f : Bulletin → Bulletin) (i : Fin 32) : (s.mapBulletin n f).circuit i = s.circuit i := rfl
@[simp] theorem State.mapBulletin_keyokOf (s : State) (n : Fin 64) (f : Bulletin → Bulletin) (i : Fin 8) : (s.mapBulletin n f).keyokOf i = s.keyokOf i := rfl

/-! ### setLink -/

@[simp] theorem State.setLink_store (s : State) (l : Link) : (s.setLink l).store = s.store := rfl
@[simp] theorem State.setLink_bulletins (s : State) (l : Link) : (s.setLink l).bulletins = s.bulletins := rfl
@[simp] theorem State.setLink_clock (s : State) (l : Link) : (s.setLink l).clock = s.clock := rfl
@[simp] theorem State.setLink_holdLimit (s : State) (l : Link) : (s.setLink l).holdLimit = s.holdLimit := rfl
@[simp] theorem State.setLink_gapTimeout (s : State) (l : Link) : (s.setLink l).gapTimeout = s.gapTimeout := rfl
@[simp] theorem State.setLink_circuits (s : State) (l : Link) : (s.setLink l).circuits = s.circuits := rfl
@[simp] theorem State.setLink_channels (s : State) (l : Link) : (s.setLink l).channels = s.channels := rfl
@[simp] theorem State.setLink_keyok (s : State) (l : Link) : (s.setLink l).keyok = s.keyok := rfl
@[simp] theorem State.setLink_silence (s : State) (l : Link) : (s.setLink l).silence = s.silence := rfl
@[simp] theorem State.setLink_notices (s : State) (l : Link) : (s.setLink l).notices = s.notices := rfl
@[simp] theorem State.setLink_resetHeld (s : State) (l : Link) : (s.setLink l).resetHeld = s.resetHeld := rfl
@[simp] theorem State.setLink_now (s : State) (l : Link) : (s.setLink l).now = s.now := rfl
@[simp] theorem State.setLink_pending (s : State) (l : Link) : (s.setLink l).pending = s.pending := rfl
@[simp] theorem State.setLink_pauses (s : State) (l : Link) : (s.setLink l).pauses = s.pauses := rfl
@[simp] theorem State.setLink_channel (s : State) (l : Link) (i : Fin 8) : (s.setLink l).channel i = s.channel i := rfl
@[simp] theorem State.setLink_circuit (s : State) (l : Link) (i : Fin 32) : (s.setLink l).circuit i = s.circuit i := rfl
@[simp] theorem State.setLink_bulletin (s : State) (l : Link) (i : Fin 64) : (s.setLink l).bulletin i = s.bulletin i := rfl
@[simp] theorem State.setLink_keyokOf (s : State) (l : Link) (i : Fin 8) : (s.setLink l).keyokOf i = s.keyokOf i := rfl

/-! ### setStore -/

@[simp] theorem State.setStore_bulletins (s : State) (x : TextStore) : (s.setStore x).bulletins = s.bulletins := rfl
@[simp] theorem State.setStore_clock (s : State) (x : TextStore) : (s.setStore x).clock = s.clock := rfl
@[simp] theorem State.setStore_holdLimit (s : State) (x : TextStore) : (s.setStore x).holdLimit = s.holdLimit := rfl
@[simp] theorem State.setStore_gapTimeout (s : State) (x : TextStore) : (s.setStore x).gapTimeout = s.gapTimeout := rfl
@[simp] theorem State.setStore_circuits (s : State) (x : TextStore) : (s.setStore x).circuits = s.circuits := rfl
@[simp] theorem State.setStore_channels (s : State) (x : TextStore) : (s.setStore x).channels = s.channels := rfl
@[simp] theorem State.setStore_keyok (s : State) (x : TextStore) : (s.setStore x).keyok = s.keyok := rfl
@[simp] theorem State.setStore_silence (s : State) (x : TextStore) : (s.setStore x).silence = s.silence := rfl
@[simp] theorem State.setStore_link (s : State) (x : TextStore) : (s.setStore x).link = s.link := rfl
@[simp] theorem State.setStore_notices (s : State) (x : TextStore) : (s.setStore x).notices = s.notices := rfl
@[simp] theorem State.setStore_resetHeld (s : State) (x : TextStore) : (s.setStore x).resetHeld = s.resetHeld := rfl
@[simp] theorem State.setStore_now (s : State) (x : TextStore) : (s.setStore x).now = s.now := rfl
@[simp] theorem State.setStore_pending (s : State) (x : TextStore) : (s.setStore x).pending = s.pending := rfl
@[simp] theorem State.setStore_pauses (s : State) (x : TextStore) : (s.setStore x).pauses = s.pauses := rfl
@[simp] theorem State.setStore_channel (s : State) (x : TextStore) (i : Fin 8) : (s.setStore x).channel i = s.channel i := rfl
@[simp] theorem State.setStore_circuit (s : State) (x : TextStore) (i : Fin 32) : (s.setStore x).circuit i = s.circuit i := rfl
@[simp] theorem State.setStore_bulletin (s : State) (x : TextStore) (i : Fin 64) : (s.setStore x).bulletin i = s.bulletin i := rfl
@[simp] theorem State.setStore_keyokOf (s : State) (x : TextStore) (i : Fin 8) : (s.setStore x).keyokOf i = s.keyokOf i := rfl

/-! ### setClock -/

@[simp] theorem State.setClock_store (s : State) (x : Clock) : (s.setClock x).store = s.store := rfl
@[simp] theorem State.setClock_bulletins (s : State) (x : Clock) : (s.setClock x).bulletins = s.bulletins := rfl
@[simp] theorem State.setClock_holdLimit (s : State) (x : Clock) : (s.setClock x).holdLimit = s.holdLimit := rfl
@[simp] theorem State.setClock_gapTimeout (s : State) (x : Clock) : (s.setClock x).gapTimeout = s.gapTimeout := rfl
@[simp] theorem State.setClock_circuits (s : State) (x : Clock) : (s.setClock x).circuits = s.circuits := rfl
@[simp] theorem State.setClock_channels (s : State) (x : Clock) : (s.setClock x).channels = s.channels := rfl
@[simp] theorem State.setClock_keyok (s : State) (x : Clock) : (s.setClock x).keyok = s.keyok := rfl
@[simp] theorem State.setClock_silence (s : State) (x : Clock) : (s.setClock x).silence = s.silence := rfl
@[simp] theorem State.setClock_link (s : State) (x : Clock) : (s.setClock x).link = s.link := rfl
@[simp] theorem State.setClock_notices (s : State) (x : Clock) : (s.setClock x).notices = s.notices := rfl
@[simp] theorem State.setClock_resetHeld (s : State) (x : Clock) : (s.setClock x).resetHeld = s.resetHeld := rfl
@[simp] theorem State.setClock_now (s : State) (x : Clock) : (s.setClock x).now = s.now := rfl
@[simp] theorem State.setClock_pending (s : State) (x : Clock) : (s.setClock x).pending = s.pending := rfl
@[simp] theorem State.setClock_pauses (s : State) (x : Clock) : (s.setClock x).pauses = s.pauses := rfl
@[simp] theorem State.setClock_channel (s : State) (x : Clock) (i : Fin 8) : (s.setClock x).channel i = s.channel i := rfl
@[simp] theorem State.setClock_circuit (s : State) (x : Clock) (i : Fin 32) : (s.setClock x).circuit i = s.circuit i := rfl
@[simp] theorem State.setClock_bulletin (s : State) (x : Clock) (i : Fin 64) : (s.setClock x).bulletin i = s.bulletin i := rfl
@[simp] theorem State.setClock_keyokOf (s : State) (x : Clock) (i : Fin 8) : (s.setClock x).keyokOf i = s.keyokOf i := rfl

/-! ### setKeyok -/

@[simp] theorem State.setKeyok_store (s : State) (ch : Fin 8) (v : Bool) : (s.setKeyok ch v).store = s.store := rfl
@[simp] theorem State.setKeyok_bulletins (s : State) (ch : Fin 8) (v : Bool) : (s.setKeyok ch v).bulletins = s.bulletins := rfl
@[simp] theorem State.setKeyok_clock (s : State) (ch : Fin 8) (v : Bool) : (s.setKeyok ch v).clock = s.clock := rfl
@[simp] theorem State.setKeyok_holdLimit (s : State) (ch : Fin 8) (v : Bool) : (s.setKeyok ch v).holdLimit = s.holdLimit := rfl
@[simp] theorem State.setKeyok_gapTimeout (s : State) (ch : Fin 8) (v : Bool) : (s.setKeyok ch v).gapTimeout = s.gapTimeout := rfl
@[simp] theorem State.setKeyok_circuits (s : State) (ch : Fin 8) (v : Bool) : (s.setKeyok ch v).circuits = s.circuits := rfl
@[simp] theorem State.setKeyok_channels (s : State) (ch : Fin 8) (v : Bool) : (s.setKeyok ch v).channels = s.channels := rfl
@[simp] theorem State.setKeyok_silence (s : State) (ch : Fin 8) (v : Bool) : (s.setKeyok ch v).silence = s.silence := rfl
@[simp] theorem State.setKeyok_link (s : State) (ch : Fin 8) (v : Bool) : (s.setKeyok ch v).link = s.link := rfl
@[simp] theorem State.setKeyok_notices (s : State) (ch : Fin 8) (v : Bool) : (s.setKeyok ch v).notices = s.notices := rfl
@[simp] theorem State.setKeyok_resetHeld (s : State) (ch : Fin 8) (v : Bool) : (s.setKeyok ch v).resetHeld = s.resetHeld := rfl
@[simp] theorem State.setKeyok_now (s : State) (ch : Fin 8) (v : Bool) : (s.setKeyok ch v).now = s.now := rfl
@[simp] theorem State.setKeyok_pending (s : State) (ch : Fin 8) (v : Bool) : (s.setKeyok ch v).pending = s.pending := rfl
@[simp] theorem State.setKeyok_pauses (s : State) (ch : Fin 8) (v : Bool) : (s.setKeyok ch v).pauses = s.pauses := rfl
@[simp] theorem State.setKeyok_channel (s : State) (ch : Fin 8) (v : Bool) (i : Fin 8) : (s.setKeyok ch v).channel i = s.channel i := rfl
@[simp] theorem State.setKeyok_circuit (s : State) (ch : Fin 8) (v : Bool) (i : Fin 32) : (s.setKeyok ch v).circuit i = s.circuit i := rfl
@[simp] theorem State.setKeyok_bulletin (s : State) (ch : Fin 8) (v : Bool) (i : Fin 64) : (s.setKeyok ch v).bulletin i = s.bulletin i := rfl

/-! ### reach -/

@[simp] theorem State.reach_store (s : State) (x : Nat) : (s.reach x).store = s.store := rfl
@[simp] theorem State.reach_bulletins (s : State) (x : Nat) : (s.reach x).bulletins = s.bulletins := rfl
@[simp] theorem State.reach_clock (s : State) (x : Nat) : (s.reach x).clock = s.clock := rfl
@[simp] theorem State.reach_holdLimit (s : State) (x : Nat) : (s.reach x).holdLimit = s.holdLimit := rfl
@[simp] theorem State.reach_gapTimeout (s : State) (x : Nat) : (s.reach x).gapTimeout = s.gapTimeout := rfl
@[simp] theorem State.reach_circuits (s : State) (x : Nat) : (s.reach x).circuits = s.circuits := rfl
@[simp] theorem State.reach_channels (s : State) (x : Nat) : (s.reach x).channels = s.channels := rfl
@[simp] theorem State.reach_keyok (s : State) (x : Nat) : (s.reach x).keyok = s.keyok := rfl
@[simp] theorem State.reach_silence (s : State) (x : Nat) : (s.reach x).silence = s.silence := rfl
@[simp] theorem State.reach_link (s : State) (x : Nat) : (s.reach x).link = s.link := rfl
@[simp] theorem State.reach_notices (s : State) (x : Nat) : (s.reach x).notices = s.notices := rfl
@[simp] theorem State.reach_resetHeld (s : State) (x : Nat) : (s.reach x).resetHeld = s.resetHeld := rfl
@[simp] theorem State.reach_pending (s : State) (x : Nat) : (s.reach x).pending = s.pending := rfl
@[simp] theorem State.reach_pauses (s : State) (x : Nat) : (s.reach x).pauses = s.pauses := rfl
@[simp] theorem State.reach_channel (s : State) (x : Nat) (i : Fin 8) : (s.reach x).channel i = s.channel i := rfl
@[simp] theorem State.reach_circuit (s : State) (x : Nat) (i : Fin 32) : (s.reach x).circuit i = s.circuit i := rfl
@[simp] theorem State.reach_bulletin (s : State) (x : Nat) (i : Fin 64) : (s.reach x).bulletin i = s.bulletin i := rfl
@[simp] theorem State.reach_keyokOf (s : State) (x : Nat) (i : Fin 8) : (s.reach x).keyokOf i = s.keyokOf i := rfl

/-! ### raise -/

@[simp] theorem State.raise_store (s : State) (k : NoticeKey) (e : Option NoticeEvent) (a : Counts) : (s.raise k e a).store = s.store := rfl
@[simp] theorem State.raise_bulletins (s : State) (k : NoticeKey) (e : Option NoticeEvent) (a : Counts) : (s.raise k e a).bulletins = s.bulletins := rfl
@[simp] theorem State.raise_clock (s : State) (k : NoticeKey) (e : Option NoticeEvent) (a : Counts) : (s.raise k e a).clock = s.clock := rfl
@[simp] theorem State.raise_holdLimit (s : State) (k : NoticeKey) (e : Option NoticeEvent) (a : Counts) : (s.raise k e a).holdLimit = s.holdLimit := rfl
@[simp] theorem State.raise_gapTimeout (s : State) (k : NoticeKey) (e : Option NoticeEvent) (a : Counts) : (s.raise k e a).gapTimeout = s.gapTimeout := rfl
@[simp] theorem State.raise_circuits (s : State) (k : NoticeKey) (e : Option NoticeEvent) (a : Counts) : (s.raise k e a).circuits = s.circuits := rfl
@[simp] theorem State.raise_channels (s : State) (k : NoticeKey) (e : Option NoticeEvent) (a : Counts) : (s.raise k e a).channels = s.channels := rfl
@[simp] theorem State.raise_keyok (s : State) (k : NoticeKey) (e : Option NoticeEvent) (a : Counts) : (s.raise k e a).keyok = s.keyok := rfl
@[simp] theorem State.raise_silence (s : State) (k : NoticeKey) (e : Option NoticeEvent) (a : Counts) : (s.raise k e a).silence = s.silence := rfl
@[simp] theorem State.raise_link (s : State) (k : NoticeKey) (e : Option NoticeEvent) (a : Counts) : (s.raise k e a).link = s.link := rfl
@[simp] theorem State.raise_resetHeld (s : State) (k : NoticeKey) (e : Option NoticeEvent) (a : Counts) : (s.raise k e a).resetHeld = s.resetHeld := rfl
@[simp] theorem State.raise_now (s : State) (k : NoticeKey) (e : Option NoticeEvent) (a : Counts) : (s.raise k e a).now = s.now := rfl
@[simp] theorem State.raise_pending (s : State) (k : NoticeKey) (e : Option NoticeEvent) (a : Counts) : (s.raise k e a).pending = s.pending := rfl
@[simp] theorem State.raise_pauses (s : State) (k : NoticeKey) (e : Option NoticeEvent) (a : Counts) : (s.raise k e a).pauses = s.pauses := rfl
@[simp] theorem State.raise_channel (s : State) (k : NoticeKey) (e : Option NoticeEvent) (a : Counts) (i : Fin 8) : (s.raise k e a).channel i = s.channel i := rfl
@[simp] theorem State.raise_circuit (s : State) (k : NoticeKey) (e : Option NoticeEvent) (a : Counts) (i : Fin 32) : (s.raise k e a).circuit i = s.circuit i := rfl
@[simp] theorem State.raise_bulletin (s : State) (k : NoticeKey) (e : Option NoticeEvent) (a : Counts) (i : Fin 64) : (s.raise k e a).bulletin i = s.bulletin i := rfl
@[simp] theorem State.raise_keyokOf (s : State) (k : NoticeKey) (e : Option NoticeEvent) (a : Counts) (i : Fin 8) : (s.raise k e a).keyokOf i = s.keyokOf i := rfl

/-! ### raiseEvent -/

@[simp] theorem State.raiseEvent_store (s : State) (k : NoticeKey) (e : NoticeEvent) : (s.raiseEvent k e).store = s.store := rfl
@[simp] theorem State.raiseEvent_bulletins (s : State) (k : NoticeKey) (e : NoticeEvent) : (s.raiseEvent k e).bulletins = s.bulletins := rfl
@[simp] theorem State.raiseEvent_clock (s : State) (k : NoticeKey) (e : NoticeEvent) : (s.raiseEvent k e).clock = s.clock := rfl
@[simp] theorem State.raiseEvent_holdLimit (s : State) (k : NoticeKey) (e : NoticeEvent) : (s.raiseEvent k e).holdLimit = s.holdLimit := rfl
@[simp] theorem State.raiseEvent_gapTimeout (s : State) (k : NoticeKey) (e : NoticeEvent) : (s.raiseEvent k e).gapTimeout = s.gapTimeout := rfl
@[simp] theorem State.raiseEvent_circuits (s : State) (k : NoticeKey) (e : NoticeEvent) : (s.raiseEvent k e).circuits = s.circuits := rfl
@[simp] theorem State.raiseEvent_channels (s : State) (k : NoticeKey) (e : NoticeEvent) : (s.raiseEvent k e).channels = s.channels := rfl
@[simp] theorem State.raiseEvent_keyok (s : State) (k : NoticeKey) (e : NoticeEvent) : (s.raiseEvent k e).keyok = s.keyok := rfl
@[simp] theorem State.raiseEvent_silence (s : State) (k : NoticeKey) (e : NoticeEvent) : (s.raiseEvent k e).silence = s.silence := rfl
@[simp] theorem State.raiseEvent_link (s : State) (k : NoticeKey) (e : NoticeEvent) : (s.raiseEvent k e).link = s.link := rfl
@[simp] theorem State.raiseEvent_resetHeld (s : State) (k : NoticeKey) (e : NoticeEvent) : (s.raiseEvent k e).resetHeld = s.resetHeld := rfl
@[simp] theorem State.raiseEvent_now (s : State) (k : NoticeKey) (e : NoticeEvent) : (s.raiseEvent k e).now = s.now := rfl
@[simp] theorem State.raiseEvent_pending (s : State) (k : NoticeKey) (e : NoticeEvent) : (s.raiseEvent k e).pending = s.pending := rfl
@[simp] theorem State.raiseEvent_pauses (s : State) (k : NoticeKey) (e : NoticeEvent) : (s.raiseEvent k e).pauses = s.pauses := rfl
@[simp] theorem State.raiseEvent_channel (s : State) (k : NoticeKey) (e : NoticeEvent) (i : Fin 8) : (s.raiseEvent k e).channel i = s.channel i := rfl
@[simp] theorem State.raiseEvent_circuit (s : State) (k : NoticeKey) (e : NoticeEvent) (i : Fin 32) : (s.raiseEvent k e).circuit i = s.circuit i := rfl
@[simp] theorem State.raiseEvent_bulletin (s : State) (k : NoticeKey) (e : NoticeEvent) (i : Fin 64) : (s.raiseEvent k e).bulletin i = s.bulletin i := rfl
@[simp] theorem State.raiseEvent_keyokOf (s : State) (k : NoticeKey) (e : NoticeEvent) (i : Fin 8) : (s.raiseEvent k e).keyokOf i = s.keyokOf i := rfl

/-! ### placeReply -/

@[simp] theorem State.placeReply_store (s : State) (r : ReplyTo) (k : Byte) (v : Verdict) : (s.placeReply r k v).store = s.store := rfl
@[simp] theorem State.placeReply_bulletins (s : State) (r : ReplyTo) (k : Byte) (v : Verdict) : (s.placeReply r k v).bulletins = s.bulletins := rfl
@[simp] theorem State.placeReply_clock (s : State) (r : ReplyTo) (k : Byte) (v : Verdict) : (s.placeReply r k v).clock = s.clock := rfl
@[simp] theorem State.placeReply_holdLimit (s : State) (r : ReplyTo) (k : Byte) (v : Verdict) : (s.placeReply r k v).holdLimit = s.holdLimit := rfl
@[simp] theorem State.placeReply_gapTimeout (s : State) (r : ReplyTo) (k : Byte) (v : Verdict) : (s.placeReply r k v).gapTimeout = s.gapTimeout := rfl
@[simp] theorem State.placeReply_circuits (s : State) (r : ReplyTo) (k : Byte) (v : Verdict) : (s.placeReply r k v).circuits = s.circuits := rfl
@[simp] theorem State.placeReply_channels (s : State) (r : ReplyTo) (k : Byte) (v : Verdict) : (s.placeReply r k v).channels = s.channels := rfl
@[simp] theorem State.placeReply_keyok (s : State) (r : ReplyTo) (k : Byte) (v : Verdict) : (s.placeReply r k v).keyok = s.keyok := rfl
@[simp] theorem State.placeReply_silence (s : State) (r : ReplyTo) (k : Byte) (v : Verdict) : (s.placeReply r k v).silence = s.silence := rfl
@[simp] theorem State.placeReply_notices (s : State) (r : ReplyTo) (k : Byte) (v : Verdict) : (s.placeReply r k v).notices = s.notices := rfl
@[simp] theorem State.placeReply_resetHeld (s : State) (r : ReplyTo) (k : Byte) (v : Verdict) : (s.placeReply r k v).resetHeld = s.resetHeld := rfl
@[simp] theorem State.placeReply_now (s : State) (r : ReplyTo) (k : Byte) (v : Verdict) : (s.placeReply r k v).now = s.now := rfl
@[simp] theorem State.placeReply_pending (s : State) (r : ReplyTo) (k : Byte) (v : Verdict) : (s.placeReply r k v).pending = s.pending := rfl
@[simp] theorem State.placeReply_pauses (s : State) (r : ReplyTo) (k : Byte) (v : Verdict) : (s.placeReply r k v).pauses = s.pauses := rfl
@[simp] theorem State.placeReply_channel (s : State) (r : ReplyTo) (k : Byte) (v : Verdict) (i : Fin 8) : (s.placeReply r k v).channel i = s.channel i := rfl
@[simp] theorem State.placeReply_circuit (s : State) (r : ReplyTo) (k : Byte) (v : Verdict) (i : Fin 32) : (s.placeReply r k v).circuit i = s.circuit i := rfl
@[simp] theorem State.placeReply_bulletin (s : State) (r : ReplyTo) (k : Byte) (v : Verdict) (i : Fin 64) : (s.placeReply r k v).bulletin i = s.bulletin i := rfl
@[simp] theorem State.placeReply_keyokOf (s : State) (r : ReplyTo) (k : Byte) (v : Verdict) (i : Fin 8) : (s.placeReply r k v).keyokOf i = s.keyokOf i := rfl

/-! ### withPending -/

@[simp] theorem State.withPending_store (s : State) (l : List Instr) : (s.withPending l).store = s.store := rfl
@[simp] theorem State.withPending_bulletins (s : State) (l : List Instr) : (s.withPending l).bulletins = s.bulletins := rfl
@[simp] theorem State.withPending_clock (s : State) (l : List Instr) : (s.withPending l).clock = s.clock := rfl
@[simp] theorem State.withPending_holdLimit (s : State) (l : List Instr) : (s.withPending l).holdLimit = s.holdLimit := rfl
@[simp] theorem State.withPending_gapTimeout (s : State) (l : List Instr) : (s.withPending l).gapTimeout = s.gapTimeout := rfl
@[simp] theorem State.withPending_circuits (s : State) (l : List Instr) : (s.withPending l).circuits = s.circuits := rfl
@[simp] theorem State.withPending_channels (s : State) (l : List Instr) : (s.withPending l).channels = s.channels := rfl
@[simp] theorem State.withPending_keyok (s : State) (l : List Instr) : (s.withPending l).keyok = s.keyok := rfl
@[simp] theorem State.withPending_silence (s : State) (l : List Instr) : (s.withPending l).silence = s.silence := rfl
@[simp] theorem State.withPending_link (s : State) (l : List Instr) : (s.withPending l).link = s.link := rfl
@[simp] theorem State.withPending_notices (s : State) (l : List Instr) : (s.withPending l).notices = s.notices := rfl
@[simp] theorem State.withPending_resetHeld (s : State) (l : List Instr) : (s.withPending l).resetHeld = s.resetHeld := rfl
@[simp] theorem State.withPending_now (s : State) (l : List Instr) : (s.withPending l).now = s.now := rfl
@[simp] theorem State.withPending_channel (s : State) (l : List Instr) (i : Fin 8) : (s.withPending l).channel i = s.channel i := rfl
@[simp] theorem State.withPending_pauses (s : State) (l : List Instr) : (s.withPending l).pauses = s.pauses := rfl
@[simp] theorem State.withPending_circuit (s : State) (l : List Instr) (i : Fin 32) : (s.withPending l).circuit i = s.circuit i := rfl
@[simp] theorem State.withPending_bulletin (s : State) (l : List Instr) (i : Fin 64) : (s.withPending l).bulletin i = s.bulletin i := rfl
@[simp] theorem State.withPending_keyokOf (s : State) (l : List Instr) (i : Fin 8) : (s.withPending l).keyokOf i = s.keyokOf i := rfl

/-! ## What an update reads back -/

@[simp] theorem State.setLink_link (s : State) (l : Link) : (s.setLink l).link = l := rfl
@[simp] theorem State.setStore_store (s : State) (x : TextStore) : (s.setStore x).store = x := rfl
@[simp] theorem State.setClock_clock (s : State) (x : Clock) : (s.setClock x).clock = x := rfl
@[simp] theorem State.withPending_pending (s : State) (l : List Instr) : (s.withPending l).pending = l := rfl
@[simp] theorem State.reach_now (s : State) (x : Nat) : (s.reach x).now = max s.now x := rfl

@[simp] theorem State.raise_notices (s : State) (k : NoticeKey) (e : Option NoticeEvent) (a : Counts) :
    (s.raise k e a).notices = raiseInto s.notices k e a := rfl

@[simp] theorem State.raiseEvent_notices (s : State) (k : NoticeKey) (e : NoticeEvent) :
    (s.raiseEvent k e).notices = raiseInto s.notices k (some e) Counts.zero := rfl

@[simp] theorem State.placeReply_replies (s : State) (r : ReplyTo) (k : Byte) (v : Verdict) :
    (s.placeReply r k v).link.replies = s.link.replies ++ [⟨r.tag, r.position, k, v.status, v.fields, 0⟩] := rfl

@[simp] theorem State.channel_setChannel (s : State) (ch i : Fin 8) (x : Channel) :
    (s.setChannel ch x).channel i = if ch = i then x else s.channel i := by
  simp only [State.channel, State.setChannel, Vector.getElem_set, Fin.ext_iff]

@[simp] theorem State.setChannel_setChannel (s : State) (ch : Fin 8) (x y : Channel) :
    (s.setChannel ch x).setChannel ch y = s.setChannel ch y := by
  simp only [State.setChannel, Vector.set_set]

@[simp] theorem State.setCircuit_setCircuit (s : State) (c : Fin 32) (x y : Circuit) :
    (s.setCircuit c x).setCircuit c y = s.setCircuit c y := by
  simp only [State.setCircuit, Vector.set_set]

@[simp] theorem State.setBulletin_setBulletin (s : State) (n : Fin 64) (x y : Option Bulletin) :
    (s.setBulletin n x).setBulletin n y = s.setBulletin n y := by
  simp only [State.setBulletin, Vector.set_set]

@[simp] theorem State.circuit_setCircuit (s : State) (c i : Fin 32) (x : Circuit) :
    (s.setCircuit c x).circuit i = if c = i then x else s.circuit i := by
  simp only [State.circuit, State.setCircuit, Vector.getElem_set, Fin.ext_iff]

@[simp] theorem State.bulletin_setBulletin (s : State) (n i : Fin 64) (x : Option Bulletin) :
    (s.setBulletin n x).bulletin i = if n = i then x else s.bulletin i := by
  simp only [State.bulletin, State.setBulletin, Vector.getElem_set, Fin.ext_iff]

@[simp] theorem State.bulletin_mapBulletin (s : State) (n i : Fin 64) (f : Bulletin → Bulletin) :
    (s.mapBulletin n f).bulletin i = if n = i then (s.bulletin n).map f else s.bulletin i := by
  simp only [State.mapBulletin, State.bulletin_setBulletin]

@[simp] theorem State.keyokOf_setKeyok (s : State) (ch i : Fin 8) (v : Bool) :
    (s.setKeyok ch v).keyokOf i = if ch = i then v else s.keyokOf i := by
  simp only [State.keyokOf, State.setKeyok, Vector.getElem_set, Fin.ext_iff]

end Sys2Proof.Machine
end

