-- ==== Sys2Proof/Laws/Circuits.lean ====
section
/-! SUPPORT. What a raise keeps and adds (11: R180), what the block return report does to every circuit (01: R18;
05: R81), and what settling a wait does (05: R77). -/

namespace Sys2Proof.Machine

/-! ## Raises -/

theorem mem_addEvent {es : List NoticeEvent} {x : NoticeEvent} {e : Option NoticeEvent} (h : x ∈ es) :
    x ∈ addEvent es e := by
  unfold addEvent
  split
  · exact h
  · split
    · exact h
    · exact List.mem_append_left _ h

theorem mem_addEvent_self (es : List NoticeEvent) (e : NoticeEvent) : e ∈ addEvent es (some e) := by
  simp only [addEvent]
  split
  · assumption
  · exact List.mem_append_right _ (List.mem_singleton.mpr rfl)

/-- A raise takes no event out of a notice. -/
theorem raiseInto_keeps {es : List NoticeEntry} {x : NoticeEntry} (h : x ∈ es) (key : NoticeKey)
    (ev : Option NoticeEvent) (add : Counts) :
    ∃ y ∈ raiseInto es key ev add, y.key = x.key ∧ ∀ e ∈ x.events, e ∈ y.events := by
  induction es with
  | nil => cases h
  | cons z zs ih =>
    simp only [raiseInto]
    split
    · rcases List.mem_cons.mp h with rfl | h
      · exact ⟨_, List.mem_cons_self .., rfl, fun _ he => mem_addEvent he⟩
      · exact ⟨x, List.mem_cons_of_mem _ h, rfl, fun _ he => he⟩
    · rcases List.mem_cons.mp h with rfl | h
      · exact ⟨_, List.mem_cons_self .., rfl, fun _ he => he⟩
      · obtain ⟨y, hy, hk⟩ := ih h
        exact ⟨y, List.mem_cons_of_mem _ hy, hk⟩

theorem raiseInto_has (es : List NoticeEntry) (key : NoticeKey) (e : NoticeEvent) (add : Counts) :
    ∃ y ∈ raiseInto es key (some e) add, y.key = key ∧ e ∈ y.events := by
  induction es with
  | nil => exact ⟨⟨key, addEvent [] (some e), add⟩, List.mem_cons_self .., rfl, mem_addEvent_self [] e⟩
  | cons z zs ih =>
    simp only [raiseInto]
    split
    · next h => exact ⟨_, List.mem_cons_self .., h, mem_addEvent_self _ _⟩
    · obtain ⟨y, hy, hk⟩ := ih
      exact ⟨y, List.mem_cons_of_mem _ hy, hk⟩

theorem State.reports_raise {s : State} {key : NoticeKey} {e : NoticeEvent} (h : s.reports key e) (k : NoticeKey)
    (ev : Option NoticeEvent) (add : Counts) : (s.raise k ev add).reports key e := by
  obtain ⟨x, hx, hk, he⟩ := h
  obtain ⟨y, hy, hyk, hye⟩ := raiseInto_keeps hx k ev add
  exact ⟨y, hy, hyk.trans hk, hye e he⟩

theorem State.reports_raiseEvent (s : State) (key : NoticeKey) (e : NoticeEvent) : (s.raiseEvent key e).reports key e := by
  obtain ⟨y, hy, hk, he⟩ := raiseInto_has s.notices key e Counts.zero
  exact ⟨y, hy, hk, he⟩

/-! ## The block return report -/

/-- The circuit resumes on a report (05: R81). -/
def Circuit.resumesOnReport (x : Circuit) : Prop := x.flow = .pausedStore ∧ x.count ≤ 128

theorem State.reportTo_keeps {s : State} {key : NoticeKey} {e : NoticeEvent} (h : s.reports key e) (c : Fin 32) :
    (s.reportTo c).reports key e := by
  unfold State.reportTo
  dsimp only
  split
  · exact reports_raise h _ _ _
  · exact h

theorem State.reportTo_other (s : State) {c d : Fin 32} (h : c ≠ d) : (s.reportTo c).circuit d = s.circuit d := by
  unfold State.reportTo
  dsimp only
  split
  · exact (State.circuit_setCircuit ..).trans (if_neg h)
  · rfl

theorem State.reportTo_self (s : State) (c : Fin 32) :
    ((s.circuit c).resumesOnReport → (s.reportTo c).circuit c = { s.circuit c with flow := .flowing } ∧
      (s.reportTo c).reports (.circuit c) .resume) ∧
    (¬ (s.circuit c).resumesOnReport → (s.reportTo c).circuit c = s.circuit c) := by
  unfold State.reportTo Circuit.resumesOnReport
  dsimp only
  refine ⟨fun h => ?_, fun h => ?_⟩
  · rw [if_pos (show _ ∧ _ ≤ Config.resumeThreshold from h)]
    exact ⟨(State.circuit_setCircuit ..).trans (if_pos rfl), reports_raiseEvent ..⟩
  · rw [if_neg (show ¬ (_ ∧ _ ≤ Config.resumeThreshold) from h)]

/-- A report to some circuits, each once: every one of them that resumes on it has resumed, with RESUME, and nothing else
of any circuit has changed. -/
theorem State.reportAll_spec {l : List (Fin 32)} (hl : l.Nodup) (s : State) :
    (∀ key e, s.reports key e → (l.foldl State.reportTo s).reports key e) ∧
    ∀ d, (d ∈ l → (s.circuit d).resumesOnReport →
        (l.foldl State.reportTo s).circuit d = { s.circuit d with flow := .flowing } ∧
        (l.foldl State.reportTo s).reports (.circuit d) .resume) ∧
      (d ∉ l ∨ ¬ (s.circuit d).resumesOnReport → (l.foldl State.reportTo s).circuit d = s.circuit d) := by
  induction l generalizing s with
  | nil => exact ⟨fun _ _ h => h, fun d => ⟨fun h => (List.not_mem_nil h).elim, fun _ => rfl⟩⟩
  | cons c cs ih =>
    obtain ⟨hc, hcs⟩ := List.nodup_cons.mp hl
    obtain ⟨keeps, each⟩ := ih hcs (s.reportTo c)
    rw [List.foldl_cons]
    refine ⟨fun key e h => keeps key e (reportTo_keeps h c), fun d => ?_⟩
    by_cases hd : c = d
    · subst hd
      have same := (each c).2 (.inl hc)
      refine ⟨fun _ h => ?_, fun h => ?_⟩
      · obtain ⟨h1, h2⟩ := (reportTo_self s c).1 h
        exact ⟨same.trans h1, keeps _ _ h2⟩
      · exact same.trans ((reportTo_self s c).2 (h.resolve_left fun h => h (List.mem_cons_self ..)))
    · have same := reportTo_other s hd
      obtain ⟨h1, h2⟩ := each d
      rw [same] at h1 h2
      refine ⟨fun hm => h1 ((List.mem_cons.mp hm).resolve_left fun h => hd h.symm), fun h => h2 ?_⟩
      exact h.imp_left fun h hm => h (List.mem_cons_of_mem _ hm)

/-- Everything that a block return report does (01: R18; 05: R81). -/
theorem State.returnReport_spec (s : State) (blocks : List BlockNo) (h : blocks ≠ []) (d : Fin 32) :
    s.returnReported blocks d s.returnReport ∧
      s.returnReport.circuit d = { s.circuit d with flow := (s.returnReport.circuit d).flow } := by
  obtain ⟨h1, h2⟩ := (reportAll_spec (List.nodup_finRange 32) s).2 d
  unfold State.returnReported
  by_cases hr : (s.circuit d).resumesOnReport
  · obtain ⟨h3, h4⟩ := h1 (List.mem_finRange d) hr
    rw [if_pos ⟨h, hr⟩]
    have flow : (s.returnReport.circuit d).flow = .flowing := congrArg Circuit.flow h3
    exact ⟨⟨flow, h4⟩, by rw [flow]; exact h3⟩
  · have h3 := h2 (.inr hr)
    rw [if_neg fun h => hr h.2]
    have flow : (s.returnReport.circuit d).flow = (s.circuit d).flow := congrArg Circuit.flow h3
    exact ⟨flow, by rw [flow]; exact h3⟩

/-! ## Waits -/

theorem State.setCircuit_circuit (s : State) (c : Fin 32) : s.setCircuit c (s.circuit c) = s := by
  simp [State.setCircuit, State.circuit]

/-- A wait is settled on the record of the circuit alone (05: R77). -/
theorem State.updateWait_eq (s : State) (c : Fin 32) :
    s.updateWait c = s.setCircuit c ((s.circuit c).settledAt (s.onAir c) s.now) := by
  have waits : s.waiting c = (s.circuit c).waits (s.onAir c) := rfl
  unfold State.updateWait Circuit.settledAt
  dsimp only
  rw [waits]
  cases h : (s.circuit c).waits (s.onAir c)
  · simp
  · cases hw : (s.circuit c).waitStart
    · simp
    · simp [setCircuit_circuit]

end Sys2Proof.Machine
end

