-- ==== Sys2Proof/Laws/Moves.lean ====
section
/-! SUPPORT. What the operations inside an event can do, said once: they write channel records, circuit records,
descriptors and the free list and they raise notices, and nothing else. One lemma per operation; the frame of an
operation (time, the line, the clock, the cells, the queue of commands) and every law that such writes keep follow
from it. -/

namespace Sys2Proof.Machine

/-- t comes from s by writes to channels, circuits, descriptors and the free list, and by raises. -/
inductive State.Moves (s : State) : State → Prop
  | refl : Moves s s
  | channel {t : State} (ch : Fin 8) (x : Channel) : Moves s t → Moves s (t.setChannel ch x)
  | circuit {t : State} (c : Fin 32) (x : Circuit) : Moves s t → Moves s (t.setCircuit c x)
  | bulletin {t : State} (n : Fin 64) (x : Option Bulletin) : Moves s t → Moves s (t.setBulletin n x)
  | free {t : State} (l : List BlockNo) : Moves s t → Moves s (t.setStore { t.store with free := l })
  | raise {t : State} (k : NoticeKey) (e : Option NoticeEvent) (a : Counts) : Moves s t → Moves s (t.raise k e a)

namespace State.Moves

variable {s t u : State}

theorem trans (h : s.Moves t) (h' : t.Moves u) : s.Moves u := by
  induction h' with
  | refl => exact h
  | channel ch x _ ih => exact ih.channel ch x
  | circuit c x _ ih => exact ih.circuit c x
  | bulletin n x _ ih => exact ih.bulletin n x
  | free l _ ih => exact ih.free l
  | raise k e a _ ih => exact ih.raise k e a

theorem foldl {α : Type} {f : State → α → State} (hf : ∀ (r : State) (a : α), r.Moves (f r a)) (h : s.Moves t) (l : List α) :
    s.Moves (l.foldl f t) := by
  induction l generalizing t with
  | nil => exact h
  | cons a l ih => exact ih (h.trans (hf t a))

theorem mapBulletin (h : s.Moves t) (n : Fin 64) (f : Bulletin → Bulletin) : s.Moves (t.mapBulletin n f) :=
  h.bulletin n _

theorem raiseEvent (h : s.Moves t) (k : NoticeKey) (e : NoticeEvent) : s.Moves (t.raiseEvent k e) := h.raise k _ _

theorem returnBlocks (h : s.Moves t) (bs : List BlockNo) : s.Moves (t.returnBlocks bs) := h.free _

theorem takeBlocks (h : s.Moves t) (n : Nat) : s.Moves (t.takeBlocks n) := h.free _

/-! ## Selection and keying -/

theorem emit (h : s.Moves t) (ch : Fin 8) (y : Symbol) : s.Moves (t.emit ch y) := h.channel ch _

theorem startPass (h : s.Moves t) (g : Bool) (ch : Fin 8) (e : Entry) : s.Moves (t.startPass g ch e) := by
  unfold State.startPass
  split
  · exact h
  · exact ((h.channel _ _).bulletin _ _).emit _ _

theorem startTelex (h : s.Moves t) (g : Bool) (ch : Fin 8) (c : Fin 32) : s.Moves (t.startTelex g ch c) :=
  ((h.channel _ _).circuit _ _).emit _ _

theorem selectTurn (h : s.Moves t) {g : Bool} {ch : Fin 8} (hu : t.selectTurn g ch = some u) : s.Moves u := by
  unfold State.selectTurn at hu
  split at hu
  · cases hu; exact h.startPass _ _ _
  · cases hu; exact h.startTelex _ _ _
  · cases hu

theorem release (h : s.Moves t) (ch : Fin 8) : s.Moves (t.release ch) := h.channel _ _

theorem enterHold (h : s.Moves t) (ch : Fin 8) : s.Moves (t.enterHold ch) := by
  unfold State.enterHold
  split
  · exact h.release _
  · exact (h.channel _ _).emit _ _

theorem selectOrHold (h : s.Moves t) (g : Bool) (ch : Fin 8) :
    s.Moves ((t.selectTurn g ch).getD (t.enterHold ch)) := by
  cases hu : t.selectTurn g ch with
  | none => exact h.enterHold ch
  | some u => exact h.selectTurn hu

theorem grant (h : s.Moves t) (ch : Fin 8) : s.Moves (t.grant ch) := (h.channel _ _).selectOrHold _ _

theorem requestKey (h : s.Moves t) (ch : Fin 8) : s.Moves (t.requestKey ch) := by
  unfold State.requestKey
  dsimp only
  split
  · exact (h.channel _ _).grant _
  · exact h.channel _ _

theorem consult (h : s.Moves t) (ch : Fin 8) : s.Moves (t.consult ch) := by
  unfold State.consult
  split
  · exact h.requestKey _
  · exact h

theorem tellIdle (h : s.Moves t) (ch : Fin 8) : s.Moves (t.tellIdle ch) := by
  unfold State.tellIdle
  split
  · exact h.consult _
  · exact h

theorem causeCut (h : s.Moves t) (ch : Fin 8) (r : CutReason) : s.Moves (t.causeCut ch r) := h.channel _ _

theorem tellEntry (h : s.Moves t) (ch : Fin 8) (k : Rank) : s.Moves (t.tellEntry ch k) := by
  unfold State.tellEntry
  dsimp only
  split
  · exact h.consult _
  · split
    · split
      · exact h.causeCut _ _
      · split
        · exact h.causeCut _ _
        · exact h
    · exact h
  all_goals exact h

theorem tellEntryOf (h : s.Moves t) (n : Fin 64) (ch : Fin 8) : s.Moves (t.tellEntryOf n ch) := by
  unfold State.tellEntryOf
  split
  · exact h
  · split
    · exact h.tellEntry _ _
    · exact h

/-! ## Circuits -/

theorem updateWait (h : s.Moves t) (c : Fin 32) : s.Moves (t.updateWait c) := by
  unfold State.updateWait
  dsimp only
  split
  · split
    · exact h
    · exact h.circuit _ _
  · exact h.circuit _ _

theorem settleWait (h : s.Moves t) (c : Fin 32) : s.Moves (t.settleWait c) := by
  unfold State.settleWait
  split
  · exact (h.updateWait _).tellIdle _
  · exact h.updateWait _

theorem resumeFlow (h : s.Moves t) (c : Fin 32) : s.Moves (t.resumeFlow c) := (h.circuit _ _).raiseEvent _ _

theorem emissionTest (h : s.Moves t) (c : Fin 32) : s.Moves (t.emissionTest c) := by
  unfold State.emissionTest
  dsimp only
  split
  · split
    · exact h
    · exact h.resumeFlow _
    · split
      · exact h.resumeFlow _
      · exact h
  · exact h

theorem reportTo (h : s.Moves t) (c : Fin 32) : s.Moves (t.reportTo c) := by
  unfold State.reportTo
  dsimp only
  split
  · exact h.resumeFlow _
  · exact h

theorem returnReport (h : s.Moves t) : s.Moves t.returnReport := h.foldl (fun _ c => refl.reportTo c) _

theorem returnAndReport (h : s.Moves t) (bs : List BlockNo) : s.Moves (t.returnAndReport bs) := by
  unfold State.returnAndReport
  split
  · exact h
  · exact (h.returnBlocks _).returnReport

theorem unbind (h : s.Moves t) (c : Fin 32) : s.Moves (t.unbind c) := h.channel _ _

theorem bindTail (h : s.Moves t) (ch : Fin 8) (c : Fin 32) : s.Moves (t.bindTail ch c) := h.channel _ _

theorem applyMove (h : s.Moves t) (c : Fin 32) (ch : Fin 8) : s.Moves (t.applyMove c ch) := by
  unfold State.applyMove
  dsimp only
  split
  · exact (((((h.unbind _).bindTail _ _).circuit _ _).raiseEvent _ _).updateWait _).tellIdle _
  · exact ((((h.unbind _).bindTail _ _).circuit _ _).raiseEvent _ _).updateWait _

theorem finishClose (h : s.Moves t) (c : Fin 32) : s.Moves (t.finishClose c) :=
  ((h.unbind _).circuit _ _).raiseEvent _ _

theorem circuitTurnEnd (h : s.Moves t) (c : Fin 32) : s.Moves (t.circuitTurnEnd c) := by
  unfold State.circuitTurnEnd
  dsimp only
  split
  · exact h.finishClose _
  · split
    · exact h.applyMove _ _
    · exact h.settleWait _

theorem setChannelHold (h : s.Moves t) (on : Bool) (c : Fin 32) : s.Moves (t.setChannelHold on c) :=
  (h.circuit _ _).updateWait _

end State.Moves

/-- The same, in the order of arguments in which holdBound folds it. -/
theorem State.moves_setChannelHold (on : Bool) (s : State) (c : Fin 32) : s.Moves (State.setChannelHold on s c) :=
  State.Moves.refl.setChannelHold on c

namespace State.Moves

variable {s t u : State}

theorem holdBound (h : s.Moves t) (ch : Fin 8) (on : Bool) : s.Moves (t.holdBound ch on) :=
  h.foldl (State.moves_setChannelHold on) _

/-! ## Bulletins -/

theorem missed (h : s.Moves t) (n : Fin 64) : s.Moves (t.missed n) := (h.mapBulletin _ _).raise _ _ _

theorem emptyEntry (h : s.Moves t) (n : Fin 64) (b : Bulletin) : s.Moves (t.emptyEntry n b) :=
  (h.bulletin _ _).returnAndReport _

theorem retirementTest (h : s.Moves t) (n : Fin 64) : s.Moves (t.retirementTest n) := by
  unfold State.retirementTest
  split
  · exact h
  · split
    · exact (h.emptyEntry _ _).raiseEvent _ _
    · exact h

theorem tellHolders (h : s.Moves t) (n : Fin 64) : s.Moves (t.tellHolders n) :=
  h.foldl (fun _ ch => refl.tellEntryOf n ch) _

theorem commit (h : s.Moves t) (n : Fin 64) (b : Bulletin) (m : TextMap) : s.Moves (t.commit n b m) := by
  unfold State.commit
  dsimp only
  split
  · exact ((((h.returnBlocks _).bulletin _ _).raiseEvent _ _).returnReport).tellHolders _
  · exact (((h.returnBlocks _).bulletin _ _).raiseEvent _ _).returnReport

theorem raiseOutcome (h : s.Moves t) (n : Fin 64) (o : PassOutcome) : s.Moves (t.raiseOutcome n o) := by
  cases o
  case withdrawn => exact h
  all_goals exact h.raise _ _ _

theorem lastPassEnded (h : s.Moves t) (n : Fin 64) : s.Moves (t.lastPassEnded n) := by
  unfold State.lastPassEnded
  split
  · exact h
  · split
    · exact (h.emptyEntry _ _).raise _ _ _
    · exact h
    · split
      · exact (h.commit _ _ _).retirementTest _
      · exact h.retirementTest _

theorem passEndReport (h : s.Moves t) (n : Fin 64) (o : PassOutcome) : s.Moves (t.passEndReport n o) := by
  unfold State.passEndReport
  split
  · exact h
  · dsimp only
    split
    · exact (((h.bulletin _ _).raiseOutcome _ _).mapBulletin _ _).lastPassEnded _
    · exact ((h.bulletin _ _).raiseOutcome _ _).mapBulletin _ _

theorem visitChannel (h : s.Moves t) (n : Fin 64) (b : Bulletin) (l : List (Fin 8)) (ch : Fin 8) :
    s.Moves (State.visitChannel n b (t, l) ch).1 := by
  unfold State.visitChannel
  dsimp only
  split
  · exact h.channel _ _
  · exact h.missed _

theorem visitChannels (h : s.Moves t) (n : Fin 64) (b : Bulletin) (l chs : List (Fin 8)) :
    s.Moves (chs.foldl (State.visitChannel n b) (t, l)).1 := by
  induction chs generalizing t l with
  | nil => exact h
  | cons ch chs ih => exact ih (h.visitChannel n b l ch) _

theorem countOccasion (h : s.Moves t) (n : Fin 64) (l : Option Nat) : s.Moves (t.countOccasion n l) := by
  unfold State.countOccasion
  split
  · exact h
  · dsimp only
    split
    · exact (h.mapBulletin _ _).retirementTest _
    · exact h.mapBulletin _ _

theorem occasion (h : s.Moves t) (n : Fin 64) : s.Moves (t.occasion n) := by
  unfold State.occasion
  split
  · exact h
  · exact ((h.visitChannels _ _ _ _).countOccasion _ _).foldl (fun _ ch => refl.tellEntryOf n ch) _

theorem advanceBulletin (h : s.Moves t) (n : Fin 64) : s.Moves (t.advanceBulletin n) := by
  unfold State.advanceBulletin
  split
  · exact h
  · split
    · split
      · exact h
      · split
        · exact h.occasion _
        · exact h
      · split
        · exact (h.mapBulletin _ _).occasion _
        · exact h.mapBulletin _ _
    · exact h

/-! ## Turn ends -/

theorem clearTurn (h : s.Moves t) (ch : Fin 8) : s.Moves (t.clearTurn ch) := h.channel _ _

theorem endTelex (h : s.Moves t) (ch : Fin 8) (x : TelexTurn) (e : Ending) : s.Moves (t.endTelex ch x e) :=
  ((h.circuit _ _).clearTurn _).circuitTurnEnd _

theorem endPass (h : s.Moves t) (ch : Fin 8) (p : PassTurn) (e : Ending) : s.Moves (t.endPass ch p e) :=
  ((h.channel _ _).clearTurn _).passEndReport _ _

theorem endTurn (h : s.Moves t) (ch : Fin 8) (e : Ending) : s.Moves (t.endTurn ch e) := by
  unfold State.endTurn
  split
  · exact h
  · split
    · exact h.endTelex _ _ _
    · exact h.endPass _ _ _

theorem stopTurn (h : s.Moves t) (ch : Fin 8) (r : StopReason) : s.Moves (t.stopTurn ch r) := by
  unfold State.stopTurn
  split
  · exact h
  · exact h.endTurn _ _

theorem dropQueue (h : s.Moves t) (ch : Fin 8) : s.Moves (t.dropQueue ch) :=
  ((h.channel _ _).foldl (fun _ (e : Entry) => refl.missed e.bulletin) _).foldl (fun _ (e : Entry) => refl.retirementTest e.bulletin) _

theorem enterOff (h : s.Moves t) (ch : Fin 8) : s.Moves (t.enterOff ch) :=
  ((((h.channel _ _).dropQueue _).holdBound _ _).channel _ _).raiseEvent _ _

theorem afterTurnEnd (h : s.Moves t) (ch : Fin 8) : s.Moves (t.afterTurnEnd ch) := by
  unfold State.afterTurnEnd
  split
  · exact h.enterOff _
  · exact h.selectOrHold _ _
  all_goals exact h

theorem afterSilence (h : s.Moves t) (ch : Fin 8) : s.Moves (t.afterSilence ch) := by
  unfold State.afterSilence
  split
  · exact h.enterOff _
  all_goals exact (h.release _).tellIdle _

theorem requestAgain (h : s.Moves t) (ch : Fin 8) : s.Moves (t.requestAgain ch) := h.channel _ _

/-! ## Symbols -/

theorem mapTurn (h : s.Moves t) (ch : Fin 8) (f : Turn → Turn) : s.Moves (t.mapTurn ch f) := h.channel _ _

theorem sendChar (h : s.Moves t) (ch : Fin 8) (c : Byte) : s.Moves (t.sendChar ch c) := by
  unfold State.sendChar
  dsimp only
  split
  · split
    · exact h.emit _ _
    · exact (h.mapTurn _ _).emit _ _
  · split
    · exact h.emit _ _
    · exact (h.mapTurn _ _).emit _ _
  all_goals exact h.emit _ _

theorem phaseSymbol (h : s.Moves t) (ch : Fin 8) (x : Turn) : s.Moves (t.phaseSymbol ch x) := by
  unfold State.phaseSymbol
  split
  · exact h.emit _ _
  · exact h.emit _ _
  · exact h.sendChar _ _
  · exact h.sendChar _ _
  · exact h.sendChar _ _
  · exact h.emit _ _
  · split
    · split
      · exact h.sendChar _ _
      · exact h.emit _ _
    · exact h.sendChar _ _

theorem beginSymbol (h : s.Moves t) (ch : Fin 8) : s.Moves (t.beginSymbol ch) := by
  unfold State.beginSymbol
  split
  · exact h
  · split
    · exact (h.mapTurn _ _).emit _ _
    · exact h.phaseSymbol _ _

theorem enterGap (h : s.Moves t) (ch : Fin 8) (p : PassTurn) : s.Moves (t.enterGap ch p) :=
  (h.mapTurn _ _).raiseEvent _ _

theorem enterBody (h : s.Moves t) (ch : Fin 8) (x : Turn) : s.Moves (t.enterBody ch x) := by
  unfold State.enterBody
  split
  · exact (h.circuit _ _).mapTurn _ _
  · dsimp only
    split
    · exact h.mapTurn _ _
    · exact (h.mapTurn _ _).enterGap _ _

theorem completeLead (h : s.Moves t) (ch : Fin 8) (x : Turn) : s.Moves (t.completeLead ch x).1 := by
  unfold State.completeLead
  dsimp only
  split
  · exact h.mapTurn _ _
  · split
    · exact (h.mapTurn _ _).mapTurn _ _
    · exact h.mapTurn _ _

theorem completePreamble (h : s.Moves t) (ch : Fin 8) (x : Turn) : s.Moves (t.completePreamble ch x).1 := by
  unfold State.completePreamble
  dsimp only
  split
  · exact h.mapTurn _ _
  · split
    · exact (h.mapTurn _ _).mapTurn _ _
    · exact h.mapTurn _ _

theorem completeHeader (h : s.Moves t) (ch : Fin 8) (x : Turn) : s.Moves (t.completeHeader ch x).1 := by
  unfold State.completeHeader
  dsimp only
  split
  · exact h.mapTurn _ _
  · split
    · exact (h.mapTurn _ _).enterBody _ _
    · exact h.mapTurn _ _

theorem testTelexBody (h : s.Moves t) (ch : Fin 8) (w : Bool) : s.Moves (t.testTelexBody ch w).1 := by
  unfold State.testTelexBody
  split
  · exact h
  · split
    · exact h
    · split
      · exact h
      · split
        · exact h.mapTurn _ _
        · exact h

theorem leaveQueue (h : s.Moves t) (c : Fin 32) : s.Moves (t.leaveQueue c) := by
  unfold State.leaveQueue
  dsimp only
  split
  · exact ((h.circuit _ _).returnBlocks _).emissionTest _
  · exact (((h.circuit _ _).returnBlocks _).emissionTest _).returnReport

theorem completeTelexChar (h : s.Moves t) (ch : Fin 8) (x : TelexTurn) (c : Byte) :
    s.Moves (t.completeTelexChar ch x c).1 := by
  unfold State.completeTelexChar
  dsimp only
  split
  · exact h.testTelexBody _ _
  · exact ((h.mapTurn _ _).leaveQueue _).testTelexBody _ _

theorem completeTelexIdle (h : s.Moves t) (ch : Fin 8) (x : Turn) (y : TelexTurn) :
    s.Moves (t.completeTelexIdle ch x y).1 := by
  unfold State.completeTelexIdle
  split
  · exact (h.mapTurn _ _).testTelexBody _ _
  · exact h.mapTurn _ _

theorem completePassChar (h : s.Moves t) (ch : Fin 8) (x : Turn) (p : PassTurn) (c : Byte) :
    s.Moves (t.completePassChar ch x p c).1 := by
  unfold State.completePassChar
  dsimp only
  split
  · exact (h.mapTurn _ _).mapTurn _ _
  · split
    · exact h.mapTurn _ _
    · split
      · exact h.mapTurn _ _
      · exact (h.mapTurn _ _).enterGap _ _

theorem completeGap (h : s.Moves t) (ch : Fin 8) (x : Turn) (p : PassTurn) : s.Moves (t.completeGap ch x p).1 := by
  unfold State.completeGap
  split
  · exact h.mapTurn _ _
  · split
    · exact h
    · split
      · exact (h.mapTurn _ _).raiseEvent _ _
      · exact h

theorem completeBody (h : s.Moves t) (ch : Fin 8) (x : Turn) (y : Symbol) : s.Moves (t.completeBody ch x y).1 := by
  unfold State.completeBody
  split
  · exact h.completeTelexChar _ _ _
  · exact h.completeTelexIdle _ _ _
  · exact h.completePassChar _ _ _ _
  all_goals exact h

theorem completePhase (h : s.Moves t) (ch : Fin 8) (x : Turn) (y : Symbol) : s.Moves (t.completePhase ch x y).1 := by
  unfold State.completePhase
  split
  · exact h.completeLead _ _
  · exact h.completePreamble _ _
  · exact h.completeHeader _ _
  · exact h.completeBody _ _ _
  · split
    · exact h.completeGap _ _ _
    · exact h
  · exact h.mapTurn _ _
  · exact h.mapTurn _ _

theorem completeTurn (h : s.Moves t) (ch : Fin 8) (x : Turn) (y : Symbol) : s.Moves (t.completeTurn ch x y).1 := by
  unfold State.completeTurn
  split
  · exact h
  · exact h
  all_goals exact h.completePhase _ _ _

theorem fallCut (h : s.Moves t) (ch : Fin 8) : s.Moves (t.fallCut ch) := (h.mapTurn _ _).beginSymbol _

theorem completeHold (h : s.Moves t) (ch : Fin 8) (stop : Bool) : s.Moves (t.completeHold ch stop) := by
  unfold State.completeHold
  dsimp only
  split
  · rename_i hu
    exact (h.channel _ _).selectTurn hu
  · split
    · exact (h.channel _ _).release _
    · exact (h.channel _ _).emit _ _

theorem goOn (h : s.Moves t) (ch : Fin 8) (stop : Bool) (p : Progress) : s.Moves (t.goOn ch stop p) := by
  unfold State.goOn
  split
  · split
    · exact (h.stopTurn _ _).afterSilence _
    · exact h.beginSymbol _
  · split
    · exact (h.stopTurn _ _).afterSilence _
    · exact h.fallCut _
  · split
    · exact h
    · exact (h.endTurn _ _).afterTurnEnd _

/-! ## What follows from it -/

/-- What moves leave as it was: the line, the clock, time, the settings, the inputs, the cells, the queue of
commands. -/
theorem frame (h : s.Moves t) :
    t.link = s.link ∧ t.clock = s.clock ∧ t.now = s.now ∧ t.holdLimit = s.holdLimit ∧ t.gapTimeout = s.gapTimeout ∧
    t.keyok = s.keyok ∧ t.silence = s.silence ∧ t.resetHeld = s.resetHeld ∧ t.pending = s.pending ∧
    t.store.cells = s.store.cells ∧ t.store.reserve = s.store.reserve := by
  induction h with
  | refl => simp only [and_self]
  | channel ch x _ ih => exact ih
  | circuit c x _ ih => exact ih
  | bulletin n x _ ih => exact ih
  | free l _ ih => exact ih
  | raise k e a _ ih => exact ih

end State.Moves

end Sys2Proof.Machine
end

