-- ==== Sys2Proof/Laws/Settles.lean ====
section
/-! SUPPORT. What an event brings about on channels other than its own: their keying state and their current turns stay,
but that an IDLE channel may consult. One lemma per operation; the keying law (06: R94) and the on-air law (02: R24)
go through it. -/

namespace Sys2Proof.Machine

/-! ## The views that the two laws read -/

/-- What the keying law reads of a channel. -/
def Channel.keys (x : Channel) : ChannelState × Bool × Bool × Bool × Bool × Bool × Bool :=
  (x.state, x.keyreq, x.output.isSome, x.turn.isSome, x.lockTimer.isSome, x.permitTimer.isSome, x.retryTimer.isSome)

/-- The on-air count of an entry, 0 while it is EMPTY. -/
def State.onAirOf (s : State) (n : Fin 64) : Nat := (s.bulletin n).elim 0 fun b => b.onAir

/-- Keying, current passes and on-air counts are the same. -/
structure State.SameAir (s t : State) : Prop where
  keyok : t.keyok = s.keyok
  keys : ∀ i, (t.channel i).keys = (s.channel i).keys
  passes : ∀ i n, (t.channel i).carriesPass n = (s.channel i).carriesPass n
  counts : ∀ n, t.onAirOf n = s.onAirOf n

/-- t comes from s by steps that keep keying, passes and counts, and by consultations of IDLE channels. -/
inductive State.Settles (s : State) : State → Prop
  | refl : Settles s s
  | same {t u : State} : Settles s t → t.SameAir u → Settles s u
  | consult {t : State} (ch : Fin 8) : Settles s t → (t.channel ch).state = .idle → Settles s (t.consult ch)

theorem Channel.keyingLaw_iff_keys {x y : Channel} (h : y.keys = x.keys) (k : Bool) :
    y.keyingLaw k ↔ x.keyingLaw k := by
  simp only [Channel.keys, Prod.mk.injEq] at h
  obtain ⟨h1, h2, h3, h4, h5, h6, h7⟩ := h
  simp only [Channel.keyingLaw, Channel.isKeyed, h1, h2, h3, h4, h5, h6, h7]

/-! ## Single writes -/

namespace State.SameAir

variable {s t u : State}

theorem rfl' : s.SameAir s := ⟨rfl, fun _ => rfl, fun _ _ => rfl, fun _ => rfl⟩

/-- A write that leaves the inputs, the channels and the descriptors alone. -/
theorem of_eq (hk : t.keyok = s.keyok) (hc : t.channels = s.channels) (hb : t.bulletins = s.bulletins) : s.SameAir t := by
  refine ⟨hk, fun i => ?_, fun i n => ?_, fun n => ?_⟩
  · simp only [State.channel, hc]
  · simp only [State.channel, hc]
  · simp only [State.onAirOf, State.bulletin, hb]

theorem setCircuit (c : Fin 32) (x : Circuit) : s.SameAir (s.setCircuit c x) := of_eq rfl rfl rfl

theorem raise (k : NoticeKey) (e : Option NoticeEvent) (a : Counts) : s.SameAir (s.raise k e a) := of_eq rfl rfl rfl

theorem setStore (x : TextStore) : s.SameAir (s.setStore x) := of_eq rfl rfl rfl

/-- A channel write that keeps its keying and its pass. -/
theorem setChannel (ch : Fin 8) (x : Channel) (hk : x.keys = (s.channel ch).keys)
    (hp : ∀ n, x.carriesPass n = (s.channel ch).carriesPass n) : s.SameAir (s.setChannel ch x) := by
  refine ⟨rfl, fun i => ?_, fun i n => ?_, fun _ => rfl⟩
  · rw [State.channel_setChannel]
    split
    · next h => subst h; exact hk
    · rfl
  · rw [State.channel_setChannel]
    split
    · next h => subst h; exact hp n
    · rfl

/-- A descriptor write that keeps the on-air count. -/
theorem setBulletin (n : Fin 64) (x : Option Bulletin) (hx : (x.elim 0 fun b => b.onAir) = s.onAirOf n) :
    s.SameAir (s.setBulletin n x) := by
  refine ⟨rfl, fun _ => rfl, fun _ _ => rfl, fun i => ?_⟩
  simp only [State.onAirOf, State.bulletin_setBulletin]
  split
  · next h => subst h; exact hx
  · rfl

theorem mapBulletin (n : Fin 64) (f : Bulletin → Bulletin) (hf : ∀ b, (f b).onAir = b.onAir) :
    s.SameAir (s.mapBulletin n f) := by
  refine setBulletin n _ ?_
  simp only [State.onAirOf]
  cases s.bulletin n with
  | none => rfl
  | some b => exact hf b

end State.SameAir

namespace State.Settles

variable {s t u : State}

theorem trans (h : s.Settles t) (h' : t.Settles u) : s.Settles u := by
  induction h' with
  | refl => exact h
  | same _ hs ih => exact ih.same hs
  | consult ch _ hi ih => exact ih.consult ch hi

theorem foldl {α : Type} {f : State → α → State} (hf : ∀ (r : State) (a : α), r.Settles (f r a)) (h : s.Settles t)
    (l : List α) : s.Settles (l.foldl f t) := by
  induction l generalizing t with
  | nil => exact h
  | cons a l ih => exact ih (h.trans (hf t a))

theorem setCircuit (h : s.Settles t) (c : Fin 32) (x : Circuit) : s.Settles (t.setCircuit c x) :=
  h.same (.setCircuit c x)

theorem raise (h : s.Settles t) (k : NoticeKey) (e : Option NoticeEvent) (a : Counts) : s.Settles (t.raise k e a) :=
  h.same (.raise k e a)

theorem raiseEvent (h : s.Settles t) (k : NoticeKey) (e : NoticeEvent) : s.Settles (t.raiseEvent k e) := h.raise k _ _

theorem returnBlocks (h : s.Settles t) (bs : List BlockNo) : s.Settles (t.returnBlocks bs) := h.same (.setStore _)

theorem mapBulletin (h : s.Settles t) (n : Fin 64) (f : Bulletin → Bulletin) (hf : ∀ b, (f b).onAir = b.onAir) :
    s.Settles (t.mapBulletin n f) := h.same (.mapBulletin n f hf)

/-! ## Telling channels -/

theorem tellIdle (h : s.Settles t) (ch : Fin 8) : s.Settles (t.tellIdle ch) := by
  unfold State.tellIdle
  split
  · next hi => exact h.consult ch hi
  · exact h

theorem carriesPass_map {x : Channel} {f : Turn → Turn} (hf : ∀ t, (f t).kind = t.kind) (n : Fin 64) :
    ({ x with turn := x.turn.map f } : Channel).carriesPass n = x.carriesPass n := by
  simp only [Channel.carriesPass, Option.any_map, hf]

theorem kind_causeCut (t : Turn) (r : CutReason) : (t.causeCut r).kind = t.kind := by
  unfold Turn.causeCut
  split <;> rfl

theorem causeCut (h : s.Settles t) (ch : Fin 8) (r : CutReason) : s.Settles (t.causeCut ch r) := by
  refine h.same (.setChannel ch _ ?_ ?_)
  · simp only [Channel.keys, Option.isSome_map]
  · exact fun n => carriesPass_map (fun x => kind_causeCut x r) n

theorem tellEntry (h : s.Settles t) (ch : Fin 8) (k : Rank) : s.Settles (t.tellEntry ch k) := by
  unfold State.tellEntry
  dsimp only
  split
  · next hi => exact h.consult _ hi
  · split
    · split
      · exact h.causeCut _ _
      · split
        · exact h.causeCut _ _
        · exact h
    · exact h
  all_goals exact h

theorem tellEntryOf (h : s.Settles t) (n : Fin 64) (ch : Fin 8) : s.Settles (t.tellEntryOf n ch) := by
  unfold State.tellEntryOf
  split
  · exact h
  · split
    · exact h.tellEntry _ _
    · exact h

/-! ## Circuits -/

theorem updateWait (h : s.Settles t) (c : Fin 32) : s.Settles (t.updateWait c) := by
  unfold State.updateWait
  dsimp only
  split
  · split
    · exact h
    · exact h.setCircuit _ _
  · exact h.setCircuit _ _

theorem settleWait (h : s.Settles t) (c : Fin 32) : s.Settles (t.settleWait c) := by
  unfold State.settleWait
  split
  · exact (h.updateWait _).tellIdle _
  · exact h.updateWait _

theorem resumeFlow (h : s.Settles t) (c : Fin 32) : s.Settles (t.resumeFlow c) := (h.setCircuit _ _).raiseEvent _ _

theorem emissionTest (h : s.Settles t) (c : Fin 32) : s.Settles (t.emissionTest c) := by
  unfold State.emissionTest
  dsimp only
  split
  · split
    · exact h
    · exact h.resumeFlow _
    · split
      · exact h.resumeFlow _
      · exact h
  · exact h

theorem reportTo (h : s.Settles t) (c : Fin 32) : s.Settles (t.reportTo c) := by
  unfold State.reportTo
  dsimp only
  split
  · exact h.resumeFlow _
  · exact h

theorem returnReport (h : s.Settles t) : s.Settles t.returnReport := h.foldl (fun _ c => refl.reportTo c) _

theorem returnAndReport (h : s.Settles t) (bs : List BlockNo) : s.Settles (t.returnAndReport bs) := by
  unfold State.returnAndReport
  split
  · exact h
  · exact (h.returnBlocks _).returnReport

theorem setBound (h : s.Settles t) (ch : Fin 8) (l : List (Fin 32)) :
    s.Settles (t.setChannel ch { t.channel ch with bound := l }) := h.same (.setChannel ch _ rfl fun _ => rfl)

theorem setQueue (h : s.Settles t) (ch : Fin 8) (q : List Entry) :
    s.Settles (t.setChannel ch { t.channel ch with queue := q }) := h.same (.setChannel ch _ rfl fun _ => rfl)

theorem unbind (h : s.Settles t) (c : Fin 32) : s.Settles (t.unbind c) := h.setBound _ _

theorem bindTail (h : s.Settles t) (ch : Fin 8) (c : Fin 32) : s.Settles (t.bindTail ch c) := h.setBound _ _

theorem applyMove (h : s.Settles t) (c : Fin 32) (ch : Fin 8) : s.Settles (t.applyMove c ch) := by
  unfold State.applyMove
  dsimp only
  split
  · exact (((((h.unbind _).bindTail _ _).setCircuit _ _).raiseEvent _ _).updateWait _).tellIdle _
  · exact ((((h.unbind _).bindTail _ _).setCircuit _ _).raiseEvent _ _).updateWait _

theorem finishClose (h : s.Settles t) (c : Fin 32) : s.Settles (t.finishClose c) :=
  ((h.unbind _).setCircuit _ _).raiseEvent _ _

theorem circuitTurnEnd (h : s.Settles t) (c : Fin 32) : s.Settles (t.circuitTurnEnd c) := by
  unfold State.circuitTurnEnd
  dsimp only
  split
  · exact h.finishClose _
  · split
    · exact h.applyMove _ _
    · exact h.settleWait _

theorem holdBound (h : s.Settles t) (ch : Fin 8) (on : Bool) : s.Settles (t.holdBound ch on) :=
  h.foldl (fun r c => ((refl (s := r)).setCircuit c _).updateWait c) _

/-! ## Bulletins -/

theorem missed (h : s.Settles t) (n : Fin 64) : s.Settles (t.missed n) :=
  (h.mapBulletin n _ (by exact fun _ => rfl)).raise _ _ _

/-- An entry whose on-air count is 0 becomes EMPTY. -/
theorem emptyEntry (h : s.Settles t) (n : Fin 64) (b : Bulletin) (h0 : t.onAirOf n = 0) :
    s.Settles (t.emptyEntry n b) := (h.same (.setBulletin n none h0.symm)).returnAndReport _

theorem retirementTest (h : s.Settles t) (n : Fin 64) : s.Settles (t.retirementTest n) := by
  unfold State.retirementTest
  split
  · exact h
  · next b hb =>
    split
    · next hr =>
      simp only [State.retires, Bool.and_eq_true, decide_eq_true_eq] at hr
      refine (h.emptyEntry n b ?_).raiseEvent _ _
      simp only [State.onAirOf, hb, Option.elim_some, hr.1.2]
    · exact h

theorem tellHolders (h : s.Settles t) (n : Fin 64) : s.Settles (t.tellHolders n) :=
  h.foldl (fun _ ch => refl.tellEntryOf n ch) _

theorem commit (h : s.Settles t) (n : Fin 64) (b : Bulletin) (m : TextMap) (hb : t.bulletin n = some b) :
    s.Settles (t.commit n b m) := by
  have h1 : s.Settles ((t.returnBlocks b.current.blockNumbers).setBulletin n (some { b with
      current := m, staged := none, revision := b.revision + 1, revised := true, commitPending := false })) := by
    refine (h.returnBlocks _).same (.setBulletin n _ ?_)
    show b.onAir = (t.bulletin n).elim 0 fun b => b.onAir
    rw [hb]
    rfl
  unfold State.commit
  dsimp only
  split
  · exact ((h1.raiseEvent _ _).returnReport).tellHolders _
  · exact (h1.raiseEvent _ _).returnReport

theorem raiseOutcome (h : s.Settles t) (n : Fin 64) (o : PassOutcome) : s.Settles (t.raiseOutcome n o) := by
  cases o
  case withdrawn => exact h
  all_goals exact h.raise _ _ _

theorem lastPassEnded (h : s.Settles t) (n : Fin 64) (h0 : t.onAirOf n = 0) : s.Settles (t.lastPassEnded n) := by
  unfold State.lastPassEnded
  split
  · exact h
  · next b hb =>
    split
    · exact (h.emptyEntry _ _ h0).raise _ _ _
    · exact h
    · split
      · exact (h.commit _ _ _ hb).retirementTest _
      · exact h.retirementTest _

theorem countOccasion (h : s.Settles t) (n : Fin 64) (l : Option Nat) : s.Settles (t.countOccasion n l) := by
  unfold State.countOccasion
  split
  · exact h
  · dsimp only
    split
    · exact (h.mapBulletin n _ (by exact fun _ => rfl)).retirementTest _
    · exact h.mapBulletin n _ (by exact fun _ => rfl)

theorem visitChannels (h : s.Settles t) (n : Fin 64) (b : Bulletin) (l chs : List (Fin 8)) :
    s.Settles (chs.foldl (State.visitChannel n b) (t, l)).1 := by
  induction chs generalizing t l with
  | nil => exact h
  | cons ch chs ih =>
    rw [List.foldl_cons]
    unfold State.visitChannel
    dsimp only
    split
    · exact ih (h.setQueue _ _) _
    · exact ih (h.missed _) _

theorem occasion (h : s.Settles t) (n : Fin 64) : s.Settles (t.occasion n) := by
  unfold State.occasion
  split
  · exact h
  · exact ((h.visitChannels _ _ _ _).countOccasion _ _).foldl (fun _ ch => refl.tellEntryOf n ch) _

theorem advanceBulletin (h : s.Settles t) (n : Fin 64) : s.Settles (t.advanceBulletin n) := by
  unfold State.advanceBulletin
  split
  · exact h
  · split
    · split
      · exact h
      · split
        · exact h.occasion _
        · exact h
      · split
        · exact (h.mapBulletin n _ (by exact fun _ => rfl)).occasion _
        · exact h.mapBulletin n _ (by exact fun _ => rfl)
    · exact h

theorem setClock (h : s.Settles t) (c : Clock) : s.Settles (t.setClock c) := h.same (.of_eq rfl rfl rfl)

theorem minuteAdvance (h : s.Settles t) : s.Settles t.minuteAdvance := by
  unfold State.minuteAdvance
  exact (h.setClock _).foldl (fun _ n => refl.advanceBulletin n) allEntries

theorem dropQueue (h : s.Settles t) (ch : Fin 8) : s.Settles (t.dropQueue ch) :=
  ((h.setQueue _ _).foldl (fun _ (e : Entry) => refl.missed e.bulletin) _).foldl
    (fun _ (e : Entry) => refl.retirementTest e.bulletin) _

end State.Settles

end Sys2Proof.Machine
end

