-- ==== Sys2Proof/Laws/Selection.lean ====
section
/-! SUPPORT. What a selection and a consultation do: the choice is eligible (07: R119), a selection starts a turn on its
own channel alone (R121, R122), and so a settling step keeps the keying law (06: R94) and the on-air law (02: R24). -/

namespace Sys2Proof.Machine

/-! ## The choice -/

theorem State.headEligible_spec {s : State} {ch : Fin 8} {k : Rank} {e : Entry} (h : s.headEligible ch k = some e) :
    e ∈ (s.channel ch).queue ∧ e.rank = k ∧ s.entryEligible ch e = true := by
  have h1 := List.find?_some h
  simp only [Bool.and_eq_true, decide_eq_true_eq] at h1
  exact ⟨List.mem_of_find?_eq_some h, h1.1, h1.2⟩

theorem State.headEligibleAny_spec {s : State} {ch : Fin 8} {e : Entry} (h : s.headEligibleAny ch = some e) :
    e ∈ (s.channel ch).queue ∧ s.entryEligible ch e = true := ⟨List.mem_of_find?_eq_some h, List.find?_some h⟩

theorem ite_some_eq {α : Type} {p : Prop} [Decidable p] {x : Option α} {a : α} (h : (if p then x else none) = some a) :
    x = some a := by
  by_cases hp : p
  · rwa [if_pos hp] at h
  · rw [if_neg hp] at h; cases h

/-- A chosen entry stands in the queue and is eligible. -/
theorem State.choose_entry {s : State} {ch : Fin 8} {e : Entry} (h : s.choose ch = .entry e) :
    e ∈ (s.channel ch).queue ∧ s.entryEligible ch e = true := by
  unfold State.choose at h
  dsimp only at h
  split at h
  · next h1 => cases h; exact ⟨(headEligible_spec h1).1, (headEligible_spec h1).2.2⟩
  · next h1 => cases h; exact ⟨(headEligible_spec h1).1, (headEligible_spec h1).2.2⟩
  · split at h
    · next h1 =>
      cases h
      have h1 := headEligible_spec (ite_some_eq h1)
      exact ⟨h1.1, h1.2.2⟩
    · split at h
      · next h1 =>
        cases h
        have h1 := headEligible_spec (ite_some_eq h1)
        exact ⟨h1.1, h1.2.2⟩
      · split at h
        · cases h
        · split at h
          · next h1 => cases h; exact headEligibleAny_spec h1
          · cases h

/-- A chosen circuit is eligible. -/
theorem State.choose_circuit {s : State} {ch : Fin 8} {c : Fin 32} (h : s.choose ch = .circuit c) :
    s.circuitEligible ch c = true := by
  unfold State.choose at h
  dsimp only at h
  split at h
  · cases h
  · cases h
  · split at h
    · cases h
    · split at h
      · cases h
      · split at h
        · next h1 => cases h; exact List.find?_some h1
        · split at h
          · cases h
          · cases h

/-- The bulletin of an eligible entry is RELEASED with no commit pending, and silence does not hold it back. -/
theorem State.entryEligible_spec {s : State} {ch : Fin 8} {e : Entry} (h : s.entryEligible ch e = true) :
    ∃ b, s.bulletin e.bulletin = some b ∧ b.state = .released ∧ b.commitPending = false ∧
      (s.silenced ch = true → e.rank = 0) := by
  unfold State.entryEligible at h
  split at h
  · cases h
  · next b hb =>
    simp only [Bool.and_eq_true, decide_eq_true_eq, Bool.not_eq_true', Bool.and_eq_false_iff, decide_eq_false_iff_not,
      not_not] at h
    refine ⟨b, hb, h.1.1, h.1.2, fun hs => ?_⟩
    rcases h.2 with h | h
    · rw [hs] at h; cases h
    · exact h

/-! ## Starting a turn -/

@[simp] theorem State.emit_bulletins (s : State) (ch : Fin 8) (y : Symbol) : (s.emit ch y).bulletins = s.bulletins := rfl
@[simp] theorem State.emit_keyok (s : State) (ch : Fin 8) (y : Symbol) : (s.emit ch y).keyok = s.keyok := rfl
@[simp] theorem State.emit_bulletin (s : State) (ch : Fin 8) (y : Symbol) (n : Fin 64) :
    (s.emit ch y).bulletin n = s.bulletin n := rfl
@[simp] theorem State.emit_circuit (s : State) (ch : Fin 8) (y : Symbol) (c : Fin 32) :
    (s.emit ch y).circuit c = s.circuit c := rfl

@[simp] theorem State.emit_channel (s : State) (ch : Fin 8) (y : Symbol) (i : Fin 8) :
    (s.emit ch y).channel i = if ch = i then
      { s.channel ch with output := some ⟨y, s.now + (s.channel ch).settings.symbolTicks⟩ } else s.channel i := by
  simp only [State.emit, State.channel_setChannel]

/-- What a step may do on its own channel, seen from the two laws: other channels keep everything, and the on-air count
of each entry moves as the channel's own pass does. -/
structure State.OwnAir (s t : State) (ch : Fin 8) : Prop where
  keyok : t.keyok = s.keyok
  others : ∀ i, i ≠ ch → t.channel i = s.channel i
  counts : ∀ n, t.onAirOf n + (if (s.channel ch).carriesPass n then 1 else 0) =
    s.onAirOf n + (if (t.channel ch).carriesPass n then 1 else 0)

theorem State.OwnAir.trans {s t u : State} {ch : Fin 8} (h : s.OwnAir t ch) (h' : t.OwnAir u ch) : s.OwnAir u ch := by
  refine ⟨h'.keyok.trans h.keyok, fun i hi => (h'.others i hi).trans (h.others i hi), fun n => ?_⟩
  have h1 := h.counts n
  have h2 := h'.counts n
  omega

/-- A write to the channel itself that keeps its pass. -/
theorem State.OwnAir.setChannel {s : State} {ch : Fin 8} {x : Channel}
    (hp : ∀ n, x.carriesPass n = (s.channel ch).carriesPass n) : s.OwnAir (s.setChannel ch x) ch := by
  refine ⟨rfl, fun i hi => ?_, fun n => ?_⟩
  · rw [State.channel_setChannel, if_neg (Ne.symm hi)]
  · rw [State.channel_setChannel, if_pos rfl, hp]
    rfl

/-- What a selection on a channel without a turn leaves: the state, KEYREQ and the timers as they were, and a turn with
its first symbol. -/
structure Channel.Started (x y : Channel) : Prop where
  state : y.state = x.state
  keyreq : y.keyreq = x.keyreq
  output : y.output.isSome = true
  turn : y.turn.isSome = true
  lock : y.lockTimer = x.lockTimer
  permit : y.permitTimer = x.permitTimer
  retry : y.retryTimer = x.retryTimer

theorem State.startPass_spec {s : State} (g : Bool) {ch : Fin 8} {e : Entry} {b : Bulletin}
    (hb : s.bulletin e.bulletin = some b) (ht : (s.channel ch).turn = none) :
    s.OwnAir (s.startPass g ch e) ch ∧ (s.channel ch).Started ((s.startPass g ch e).channel ch) := by
  simp only [State.startPass, hb]
  refine ⟨⟨rfl, fun i hi => ?_, fun n => ?_⟩, ?_⟩
  · simp only [emit_channel, if_neg (Ne.symm hi), setBulletin_channel, channel_setChannel]
  · simp only [emit_channel, if_pos, setBulletin_channel, channel_setChannel, Channel.carriesPass, ht, Option.any_none,
      onAirOf, emit_bulletin, bulletin_setBulletin, Turn.fresh, Option.any_some, TurnKind.isPassOf, loadPass]
    by_cases hn : e.bulletin = n
    · subst hn
      simp only [if_true, Option.elim_some, hb, decide_true, Bool.false_eq_true, if_false, Nat.add_zero]
    · simp only [hn, decide_false, Bool.false_eq_true, if_false, Nat.add_zero]
      rfl
  · simp only [emit_channel, if_pos, setBulletin_channel, channel_setChannel]
    exact ⟨rfl, rfl, rfl, rfl, rfl, rfl, rfl⟩

theorem State.startTelex_spec {s : State} (g : Bool) {ch : Fin 8} (c : Fin 32) (ht : (s.channel ch).turn = none) :
    s.OwnAir (s.startTelex g ch c) ch ∧ (s.channel ch).Started ((s.startTelex g ch c).channel ch) := by
  simp only [State.startTelex]
  refine ⟨⟨rfl, fun i hi => ?_, fun n => ?_⟩, ?_⟩
  · simp only [emit_channel, if_neg (Ne.symm hi), setCircuit_channel, channel_setChannel]
  · simp only [emit_channel, if_pos, setCircuit_channel, channel_setChannel, Channel.carriesPass, ht, Option.any_none,
      Turn.fresh, Option.any_some, TurnKind.isPassOf]
    rfl
  · simp only [emit_channel, if_pos, setCircuit_channel, channel_setChannel]
    exact ⟨rfl, rfl, rfl, rfl, rfl, rfl, rfl⟩

theorem State.selectTurn_spec {s t : State} {g : Bool} {ch : Fin 8} (h : s.selectTurn g ch = some t)
    (ht : (s.channel ch).turn = none) : s.OwnAir t ch ∧ (s.channel ch).Started (t.channel ch) := by
  unfold State.selectTurn at h
  split at h
  · next e he =>
    cases h
    obtain ⟨b, hb, -⟩ := entryEligible_spec (choose_entry he).2
    exact startPass_spec g hb ht
  · cases h
    exact startTelex_spec g _ ht
  · cases h

/-! ## Keying around a selection -/

/-- A channel that has just been given its turn or its HOLD, or has been released: the keying law holds of it. -/
theorem State.selectOrHold_spec {s : State} {g : Bool} {ch : Fin 8} (ht : (s.channel ch).turn = none)
    (hs : (s.channel ch).isKeyed = true) (hq : (s.channel ch).keyreq = true)
    (hl : (s.channel ch).lockTimer = none) (hp : (s.channel ch).permitTimer = none)
    (hr : (s.channel ch).retryTimer = none) :
    s.OwnAir ((s.selectTurn g ch).getD (s.enterHold ch)) ch ∧
    (((s.selectTurn g ch).getD (s.enterHold ch)).channel ch).keyingLaw true := by
  cases hu : s.selectTurn g ch with
  | some t =>
    obtain ⟨h1, h2⟩ := selectTurn_spec hu ht
    refine ⟨h1, ?_⟩
    have hs' : (t.channel ch).isKeyed = true := by
      simp only [Channel.isKeyed, h2.state]
      exact hs
    simp only [Option.getD_some, Channel.keyingLaw, h2.keyreq, hq, h2.output, h2.turn, hs', h2.lock, h2.permit, h2.retry,
      hl, hp, hr, Option.isSome_none, or_true, imp_self, true_and, Bool.false_eq_true, false_imp_iff]
  | none =>
    simp only [Option.getD_none, State.enterHold]
    split
    · refine ⟨OwnAir.setChannel fun n => ?_, ?_⟩
      · simp only [Channel.carriesPass, ht]
      · simp only [release, channel_setChannel, if_pos, Channel.keyingLaw, Channel.isKeyed, hl, hp, hr,
          Option.isSome_none, Bool.false_eq_true, false_imp_iff, reduceCtorEq, decide_false, Bool.or_self, or_self,
          iff_self, and_self]
    · refine ⟨(OwnAir.setChannel fun n => ?_).trans (OwnAir.setChannel fun n => rfl), ?_⟩
      · simp only [Channel.carriesPass, ht]
      · have hs' : (s.channel ch).isKeyed = true := hs
        simp only [Channel.isKeyed] at hs'
        simp only [emit_channel, if_pos, channel_setChannel, Channel.keyingLaw, Channel.isKeyed, hs', hq, hl, hp, hr,
          Option.isSome_none, Option.isSome_some, Bool.false_eq_true, false_imp_iff, or_true, imp_self, and_self]

theorem State.release_spec {s : State} {ch : Fin 8} (hl : (s.channel ch).lockTimer = none)
    (hp : (s.channel ch).permitTimer = none) (hr : (s.channel ch).retryTimer = none) (k : Bool) :
    ((s.release ch).channel ch).keyingLaw k := by
  simp only [release, channel_setChannel, if_pos, Channel.keyingLaw, Channel.isKeyed, hl, hp, hr, Option.isSome_none,
    Bool.false_eq_true, false_imp_iff, reduceCtorEq, decide_false, Bool.or_self, or_self, iff_self, and_self]

theorem State.grant_spec {s : State} {ch : Fin 8} (ht : (s.channel ch).turn = none)
    (hq : (s.channel ch).keyreq = true) (hl : (s.channel ch).lockTimer = none)
    (hr : (s.channel ch).retryTimer = none) :
    s.OwnAir (s.grant ch) ch ∧ ((s.grant ch).channel ch).keyingLaw true := by
  have h := selectOrHold_spec (g := true) (ch := ch)
    (s := s.setChannel ch { s.channel ch with state := .keyed, permitTimer := none })
  rw [channel_setChannel, if_pos rfl] at h
  obtain ⟨h1, h2⟩ := h ht rfl hq hl rfl hr
  refine ⟨State.OwnAir.trans (OwnAir.setChannel ?_) h1, h2⟩
  exact fun n => rfl

/-- A request for the transmitter, on a channel without a turn and without a running timer. -/
theorem State.requestKey_spec {s : State} {ch : Fin 8} (ht : (s.channel ch).turn = none)
    (ho : (s.channel ch).output = none) (hl : (s.channel ch).lockTimer = none) (hr : (s.channel ch).retryTimer = none) :
    s.OwnAir (s.requestKey ch) ch ∧ ((s.requestKey ch).channel ch).keyingLaw (s.keyokOf ch) := by
  unfold State.requestKey
  dsimp only
  split
  · next hk =>
    have hk : s.keyokOf ch = true := hk
    rw [hk]
    have h := grant_spec (ch := ch) (s := s.setChannel ch { s.channel ch with
      state := .requesting, keyreq := true,
      permitTimer := some (s.startTimer (Config.milliseconds (s.channel ch).settings.permitTimeout)) })
    rw [channel_setChannel, if_pos rfl] at h
    obtain ⟨h1, h2⟩ := h ht rfl hl hr
    refine ⟨State.OwnAir.trans (OwnAir.setChannel ?_) h1, h2⟩
    exact fun n => rfl
  · refine ⟨OwnAir.setChannel fun n => rfl, ?_⟩
    simp only [channel_setChannel, if_pos, Channel.keyingLaw, Channel.isKeyed, ht, ho, hl, hr, Option.isSome_none,
      Option.isSome_some, Bool.false_eq_true, false_imp_iff, reduceCtorEq, decide_false, Bool.or_self, true_or, imp_self,
      and_self, iff_self]

/-- A consultation of an IDLE channel of which the keying law holds. -/
theorem State.consult_spec {s : State} {ch : Fin 8} (h : (s.channel ch).keyingLaw (s.keyokOf ch))
    (hi : (s.channel ch).state = .idle) :
    s.OwnAir (s.consult ch) ch ∧ ((s.consult ch).channel ch).keyingLaw (s.keyokOf ch) := by
  unfold State.consult
  split
  · simp only [Channel.keyingLaw, Channel.isKeyed, hi, reduceCtorEq, decide_false, Bool.or_self, Bool.false_eq_true,
      or_self, iff_false, Bool.not_eq_true, Option.isSome_eq_false_iff, Option.isNone_iff_eq_none, imp_false] at h
    obtain ⟨-, h2, -, h4, h5, -, h7⟩ := h
    exact requestKey_spec h4 h2 h5 h7
  · exact ⟨⟨rfl, fun _ _ => rfl, fun _ => rfl⟩, h⟩

/-! ## Settling keeps the two laws -/

theorem State.keyokOf_eq {s t : State} (h : t.keyok = s.keyok) (i : Fin 8) : t.keyokOf i = s.keyokOf i := by
  simp only [State.keyokOf, h]

/-- Every IDLE channel obeys the keying law: all that a consultation needs. -/
def State.Quiet (s : State) : Prop := ∀ i, (s.channel i).state = .idle → (s.channel i).keyingLaw (s.keyokOf i)

theorem State.keyingLaw.quiet {s : State} (h : s.keyingLaw) : s.Quiet := fun i _ => h i

theorem countP_update {α : Type} {p q : α → Bool} {a : α} {l : List α} (hn : l.Nodup) (ha : a ∈ l)
    (h : ∀ x, x ≠ a → p x = q x) :
    l.countP p + (if q a then 1 else 0) = l.countP q + (if p a then 1 else 0) := by
  induction l with
  | nil => cases ha
  | cons x l ih =>
    simp only [List.nodup_cons] at hn
    simp only [List.countP_cons]
    by_cases hx : x = a
    · subst hx
      have : l.countP p = l.countP q := List.countP_congr fun y hy => by
        rw [h y (fun e => hn.1 (e ▸ hy))]
      omega
    · have := ih hn.2 ((List.mem_cons.1 ha).resolve_left (Ne.symm hx))
      rw [h x hx]
      omega

theorem State.passCount_eq (s : State) (n : Fin 64) :
    s.passCount n = allChannels.countP fun ch => (s.channel ch).carriesPass n := by
  rw [State.passCount, List.countP_eq_length_filter]

theorem State.OwnAir.balance {s t : State} {ch : Fin 8} (h : s.OwnAir t ch) (n : Fin 64) :
    t.onAirOf n + s.passCount n = s.onAirOf n + t.passCount n := by
  have h1 := h.counts n
  have h2 := countP_update (p := fun i => (t.channel i).carriesPass n) (q := fun i => (s.channel i).carriesPass n)
    (List.nodup_finRange 8) (List.mem_finRange ch) (fun i hi => by rw [h.others i hi])
  rw [State.passCount_eq, State.passCount_eq]
  simp only [allChannels]
  omega

/-- All that settling does to the two laws. -/
structure State.Settled (s t : State) : Prop where
  keyok : t.keyok = s.keyok
  quiet : t.Quiet
  law : ∀ i, (s.channel i).keyingLaw (s.keyokOf i) → (t.channel i).keyingLaw (t.keyokOf i)
  busy : ∀ i, (s.channel i).state ≠ .idle →
    (t.channel i).keys = (s.channel i).keys ∧ ∀ n, (t.channel i).carriesPass n = (s.channel i).carriesPass n
  balance : ∀ n, t.onAirOf n + s.passCount n = s.onAirOf n + t.passCount n

theorem State.SameAir.passCount {s t : State} (h : s.SameAir t) (n : Fin 64) : t.passCount n = s.passCount n := by
  simp only [State.passCount, h.passes]

theorem Channel.state_of_keys {x y : Channel} (h : y.keys = x.keys) : y.state = x.state := congrArg (fun k => k.1) h

theorem State.Settles.settled {s t : State} (h : s.Settles t) (hq : s.Quiet) : s.Settled t := by
  induction h with
  | refl => exact ⟨rfl, hq, fun _ h => h, fun _ _ => ⟨rfl, fun _ => rfl⟩, fun _ => rfl⟩
  | same _ hs ih =>
    refine ⟨hs.keyok.trans ih.keyok, fun i hi => ?_, fun i hi => ?_, fun i hi => ?_, fun n => ?_⟩
    · rw [Channel.keyingLaw_iff_keys (hs.keys i), State.keyokOf_eq hs.keyok]
      exact ih.quiet i ((Channel.state_of_keys (hs.keys i)).symm.trans hi)
    · rw [Channel.keyingLaw_iff_keys (hs.keys i), State.keyokOf_eq hs.keyok]
      exact ih.law i hi
    · exact ⟨(hs.keys i).trans (ih.busy i hi).1, fun n => (hs.passes i n).trans ((ih.busy i hi).2 n)⟩
    · rw [hs.counts, hs.passCount]
      exact ih.balance n
  | @consult u ch _ hi ih =>
    obtain ⟨h1, h2⟩ := State.consult_spec (ih.quiet ch hi) hi
    have hlaw : ∀ i, i = ch → ((u.consult ch).channel i).keyingLaw ((u.consult ch).keyokOf i) := fun i h => by
      subst h
      rw [State.keyokOf_eq h1.keyok]
      exact h2
    refine ⟨h1.keyok.trans ih.keyok, fun i hi' => ?_, fun i hi' => ?_, fun i hi' => ?_, fun n => ?_⟩
    · by_cases h : i = ch
      · exact hlaw i h
      · rw [State.keyokOf_eq h1.keyok, h1.others i h]
        rw [h1.others i h] at hi'
        exact ih.quiet i hi'
    · by_cases h : i = ch
      · exact hlaw i h
      · rw [State.keyokOf_eq h1.keyok, h1.others i h]
        exact ih.law i hi'
    · have h : i ≠ ch := fun h => by
        subst h
        exact hi' ((Channel.state_of_keys (ih.busy i hi').1).symm.trans hi)
      rw [h1.others i h]
      exact ih.busy i hi'
    · have := h1.balance n
      have := ih.balance n
      omega

end Sys2Proof.Machine
end

