-- ==== Sys2Proof/Laws/TurnEnds.lean ====
section
/-! SUPPORT. The keying law (06: R94) and the on-air law (02: R24) through the end of a turn: what an ended turn leaves on
its channel, and what entering OFF, a release, a new request and a selection make of it. -/

namespace Sys2Proof.Machine

/-- Both laws. -/
structure State.Good (s : State) : Prop where
  keying : s.keyingLaw
  onAir : s.onAirLaw

/-- Both laws but for the keying of one channel, which is KEYED or STOPPING with no timer running. -/
structure State.Loose (s : State) (ch : Fin 8) : Prop where
  quiet : s.Quiet
  others : ∀ i, i ≠ ch → (s.channel i).keyingLaw (s.keyokOf i)
  keyed : (s.channel ch).isKeyed = true
  keyreq : (s.channel ch).keyreq = true
  lock : (s.channel ch).lockTimer = none
  permit : (s.channel ch).permitTimer = none
  retry : (s.channel ch).retryTimer = none
  onAir : s.onAirLaw

theorem Channel.keyed_ne_idle {x : Channel} (h : x.isKeyed = true) : x.state ≠ .idle := by
  intro hi
  simp only [Channel.isKeyed, hi, reduceCtorEq, decide_false, Bool.or_self, Bool.false_eq_true] at h

theorem Channel.isKeyed_cases {x : Channel} (h : x.isKeyed = true) : x.state = .keyed ∨ x.state = .stopping := by
  simpa only [Channel.isKeyed, Bool.or_eq_true, decide_eq_true_eq] using h

/-- A KEYED or STOPPING channel of which the law holds has KEYREQ raised and no timer running. -/
theorem Channel.keyingLaw.keyed {x : Channel} {k : Bool} (h : x.keyingLaw k) (hk : x.isKeyed = true) :
    x.keyreq = true ∧ x.output.isSome = true ∧ k = true ∧ x.lockTimer = none ∧ x.permitTimer = none ∧
      x.retryTimer = none := by
  obtain ⟨h1, h2, h3, -, h5, h6, h7⟩ := h
  refine ⟨h1.2 (.inr hk), h2.2 hk, h3 hk, ?_, ?_, ?_⟩ <;>
    rw [← Option.isNone_iff_eq_none, ← Option.isSome_eq_false_iff, Bool.eq_false_iff] <;> intro h0 <;>
    rcases Channel.isKeyed_cases hk with hs | hs <;> simp_all only [reduceCtorEq]

theorem State.Good.loose {s : State} (h : s.Good) {ch : Fin 8} (hk : (s.channel ch).isKeyed = true) : s.Loose ch := by
  obtain ⟨h1, -, -, h4, h5, h6⟩ := (h.keying ch).keyed hk
  exact ⟨h.keying.quiet, fun i _ => h.keying i, hk, h1, h4, h5, h6, h.onAir⟩

/-- The on-air law as a balance. -/
theorem State.onAirLaw_iff (s : State) : s.onAirLaw ↔ ∀ n, s.passCount n = s.onAirOf n := Iff.rfl

theorem State.Settled.onAirLaw {s t : State} (h : s.Settled t) (hs : s.onAirLaw) : t.onAirLaw := fun n => by
  have h1 := h.balance n
  have h2 : s.passCount n = s.onAirOf n := hs n
  have : t.passCount n = t.onAirOf n := by omega
  exact this

theorem State.Good.settles {s t : State} (h : s.Good) (hs : s.Settles t) : t.Good :=
  have h1 := hs.settled h.keying.quiet
  ⟨fun i => h1.law i (h.keying i), h1.onAirLaw h.onAir⟩

theorem Channel.keys_iff {x y : Channel} (h : y.keys = x.keys) :
    y.state = x.state ∧ y.keyreq = x.keyreq ∧ y.isKeyed = x.isKeyed ∧ y.output.isSome = x.output.isSome ∧
    y.turn.isSome = x.turn.isSome ∧ (x.lockTimer = none → y.lockTimer = none) ∧
    (x.permitTimer = none → y.permitTimer = none) ∧ (x.retryTimer = none → y.retryTimer = none) := by
  simp only [Channel.keys, Prod.mk.injEq] at h
  obtain ⟨h1, h2, h3, h4, h5, h6, h7⟩ := h
  refine ⟨h1, h2, by simp only [Channel.isKeyed, h1], h3, h4, fun h => ?_, fun h => ?_, fun h => ?_⟩ <;>
    simp_all only [Option.isSome_none, Option.isSome_eq_false_iff, Option.isNone_iff_eq_none]

theorem State.Loose.settles {s t : State} {ch : Fin 8} (h : s.Loose ch) (hs : s.Settles t) :
    t.Loose ch ∧ t.keyok = s.keyok ∧ (t.channel ch).keys = (s.channel ch).keys := by
  have h1 := hs.settled h.quiet
  have h2 := h1.busy ch (Channel.keyed_ne_idle h.keyed)
  obtain ⟨-, e2, e3, -, -, e6, e7, e8⟩ := Channel.keys_iff h2.1
  exact ⟨⟨h1.quiet, fun i hi => h1.law i (h.others i hi), e3.trans h.keyed, e2.trans h.keyreq, e6 h.lock, e7 h.permit,
    e8 h.retry, h1.onAirLaw h.onAir⟩, h1.keyok, h2.1⟩

/-! ## The pass end report (02: R25) -/

/-- The report lowers the on-air count by one, and the rest of it settles. -/
theorem State.passEndReport_spec (s : State) (n : Fin 64) (o : PassOutcome) :
    ∃ u : State, u.keyok = s.keyok ∧ u.channels = s.channels ∧
      (∀ i, u.onAirOf i = if i = n then s.onAirOf i - 1 else s.onAirOf i) ∧ u.Settles (s.passEndReport n o) := by
  unfold State.passEndReport
  split
  · next hb =>
    refine ⟨s, rfl, rfl, fun i => ?_, .refl⟩
    split
    · next h => subst h; simp only [State.onAirOf, hb, Option.elim_none]
    · rfl
  · next b hb =>
    dsimp only
    refine ⟨((s.setBulletin n (some (b.account o))).raiseOutcome n o).mapBulletin n fun b =>
      { b with onAir := b.onAir - 1 }, ?_, ?_, fun i => ?_, ?_⟩
    · cases o <;> rfl
    · cases o <;> rfl
    · have : ∀ i, ((s.setBulletin n (some (b.account o))).raiseOutcome n o).bulletin i =
          if n = i then some (b.account o) else s.bulletin i := fun i => by
        cases o <;> simp only [State.raiseOutcome, State.raise_bulletin, State.bulletin_setBulletin]
      simp only [State.onAirOf, State.bulletin_mapBulletin, this]
      by_cases h : n = i
      · subst h
        simp only [if_pos, Option.map_some, Option.elim_some, hb]
        cases o <;> rfl
      · simp only [if_neg h, if_neg (Ne.symm h)]
    · split
      · next h1 =>
        refine State.Settles.lastPassEnded .refl n ?_
        have : ∀ i, ((s.setBulletin n (some (b.account o))).raiseOutcome n o).bulletin i =
            if n = i then some (b.account o) else s.bulletin i := fun i => by
          cases o <;> simp only [State.raiseOutcome, State.raise_bulletin, State.bulletin_setBulletin]
        simp only [State.onAirOf, State.bulletin_mapBulletin, this, if_pos, Option.map_some, Option.elim_some]
        have : (b.account o).onAir = b.onAir := by cases o <;> rfl
        omega
      · exact .refl

/-! ## The end of a turn -/

theorem State.passCount_of_channels {s t : State} (h : t.channels = s.channels) (n : Fin 64) :
    t.passCount n = s.passCount n := by simp only [State.passCount, State.channel, h]

/-- Clearing a channel's turn takes its pass out of the count. -/
theorem State.passCount_setChannel (s : State) (ch : Fin 8) (x : Channel) (n : Fin 64) :
    (s.setChannel ch x).passCount n + (if (s.channel ch).carriesPass n then 1 else 0) =
    s.passCount n + (if x.carriesPass n then 1 else 0) := by
  have h := countP_update (p := fun i => ((s.setChannel ch x).channel i).carriesPass n)
    (q := fun i => (s.channel i).carriesPass n) (List.nodup_finRange 8) (List.mem_finRange ch)
    (fun i hi => by rw [State.channel_setChannel, if_neg (Ne.symm hi)])
  simp only [State.channel_setChannel, if_true] at h
  rw [State.passCount_eq, State.passCount_eq]
  simp only [allChannels, State.channel_setChannel]
  exact h

/-- The end of a turn: the channel has none, and is as KEYED or STOPPING as it was. -/
theorem State.endTurn_spec {s : State} {ch : Fin 8} (h : s.Loose ch) (e : Ending) :
    (s.endTurn ch e).Loose ch ∧ (s.endTurn ch e).keyok = s.keyok ∧
      ((s.endTurn ch e).channel ch).state = (s.channel ch).state ∧ ((s.endTurn ch e).channel ch).turn = none := by
  unfold State.endTurn
  split
  · next ht => exact ⟨h, rfl, rfl, ht⟩
  · next t ht =>
    split
    · next y hy =>
      have hp : ∀ n, (s.channel ch).carriesPass n = false := fun n => by
        simp only [Channel.carriesPass, ht, Option.any_some, hy, TurnKind.isPassOf]
      have h1 : ((s.setCircuit y.circuit { s.circuit y.circuit with
          resume := resumeAfter (s.circuit y.circuit).resume y.bodyCount e }).clearTurn ch).Loose ch := by
        refine ⟨fun i hi => ?_, fun i hi => ?_, ?_, ?_, ?_, ?_, ?_, fun n => ?_⟩
        all_goals simp only [State.clearTurn, State.channel_setChannel, State.setCircuit_channel, if_pos] at *
        · by_cases hc : ch = i
          · subst hc
            rw [if_pos rfl] at hi
            exact absurd hi (Channel.keyed_ne_idle h.keyed)
          · rw [if_neg hc] at hi ⊢
            exact h.quiet i hi
        · rw [if_neg (Ne.symm hi)]
          exact h.others i hi
        · exact h.keyed
        · exact h.keyreq
        · exact h.lock
        · exact h.permit
        · exact h.retry
        · have h2 := State.passCount_setChannel s ch { s.channel ch with turn := none, output := none } n
          have h3 : s.passCount n = s.onAirOf n := h.onAir n
          have h4 : ({ s.channel ch with turn := none, output := none } : Channel).carriesPass n = false := rfl
          rw [hp, h4] at h2
          exact h2.trans h3
      have h2 := h1.settles (State.Settles.refl.circuitTurnEnd y.circuit)
      refine ⟨h2.1, h2.2.1, ?_, ?_⟩
      · refine (Channel.state_of_keys h2.2.2).trans ?_
        simp only [State.clearTurn, State.channel_setChannel, State.setCircuit_channel, if_pos]
      · have := (Channel.keys_iff h2.2.2).2.2.2.2.1
        simp only [State.clearTurn, State.channel_setChannel, if_pos, Option.isSome_none, Option.isSome_eq_false_iff,
          Option.isNone_iff_eq_none] at this
        exact this
    · next p hp =>
      unfold State.endPass
      dsimp only
      obtain ⟨u, hu1, hu2, hu3, hu4⟩ := State.passEndReport_spec
        ((s.setChannel ch { s.channel ch with
          queue := p.requeue (s.isReleased p.bulletin) (p.outcome e) (s.channel ch).queue }).clearTurn ch)
        p.bulletin (p.outcome e)
      have hc : ∀ i, u.channel i = if ch = i then
          { s.channel ch with
            queue := p.requeue (s.isReleased p.bulletin) (p.outcome e) (s.channel ch).queue,
            turn := none, output := none } else s.channel i := fun i => by
        simp only [State.channel, hu2]
        simp only [State.clearTurn, State.channel_setChannel, State.setChannel_setChannel, if_pos]
        exact State.channel_setChannel _ _ _ _
      have hk : ∀ i, u.keyokOf i = s.keyokOf i := State.keyokOf_eq (hu1.trans rfl)
      have h1 : u.Loose ch := by
        refine ⟨fun i hi => ?_, fun i hi => ?_, ?_, ?_, ?_, ?_, ?_, fun n => ?_⟩
        · rw [hc] at hi ⊢
          by_cases hci : ch = i
          · subst hci
            rw [if_pos rfl] at hi
            exact absurd hi (Channel.keyed_ne_idle h.keyed)
          · rw [if_neg hci] at hi ⊢
            rw [hk]
            exact h.quiet i hi
        · rw [hc, if_neg (Ne.symm hi), hk]
          exact h.others i hi
        · rw [hc, if_pos rfl]
          exact h.keyed
        · rw [hc, if_pos rfl]
          exact h.keyreq
        · rw [hc, if_pos rfl]
          exact h.lock
        · rw [hc, if_pos rfl]
          exact h.permit
        · rw [hc, if_pos rfl]
          exact h.retry
        · have h2 := State.passCount_setChannel s ch { s.channel ch with
            queue := p.requeue (s.isReleased p.bulletin) (p.outcome e) (s.channel ch).queue,
            turn := none, output := none } n
          have h3 : s.passCount n = s.onAirOf n := h.onAir n
          have h4 := hu3 n
          have h5 : u.passCount n = (s.setChannel ch { s.channel ch with
              queue := p.requeue (s.isReleased p.bulletin) (p.outcome e) (s.channel ch).queue,
              turn := none, output := none }).passCount n := by
            simp only [State.passCount, hc, State.channel_setChannel]
          have h6 : ((s.setChannel ch { s.channel ch with
              queue := p.requeue (s.isReleased p.bulletin) (p.outcome e) (s.channel ch).queue }).clearTurn ch).onAirOf n =
              s.onAirOf n := rfl
          have h7 : (s.channel ch).carriesPass n = decide (p.bulletin = n) := by
            simp only [Channel.carriesPass, ht, Option.any_some, hp, TurnKind.isPassOf]
          rw [h7] at h2
          rw [h6] at h4
          have h8 : ({ s.channel ch with
            queue := p.requeue (s.isReleased p.bulletin) (p.outcome e) (s.channel ch).queue,
            turn := none, output := none } : Channel).carriesPass n = false := rfl
          rw [h8] at h2
          have : u.passCount n = u.onAirOf n := by
            rw [h5, h4]
            by_cases hn : p.bulletin = n
            · subst hn
              simp only [decide_true, if_true, Bool.false_eq_true, if_false] at h2 ⊢
              omega
            · simp only [hn, Ne.symm hn, decide_false, Bool.false_eq_true, if_false] at h2 ⊢
              omega
          exact this
      have h2 := h1.settles hu4
      refine ⟨h2.1, h2.2.1.trans (hu1.trans rfl), ?_, ?_⟩
      · refine (Channel.state_of_keys h2.2.2).trans ?_
        rw [hc, if_pos rfl]
      · have := (Channel.keys_iff h2.2.2).2.2.2.2.1
        rw [hc, if_pos rfl] at this
        simpa only [Option.isSome_none, Option.isSome_eq_false_iff, Option.isNone_iff_eq_none] using this

theorem State.stopTurn_spec {s : State} {ch : Fin 8} (h : s.Loose ch) (r : StopReason) :
    (s.stopTurn ch r).Loose ch ∧ (s.stopTurn ch r).keyok = s.keyok ∧
      ((s.stopTurn ch r).channel ch).state = (s.channel ch).state ∧ ((s.stopTurn ch r).channel ch).turn = none := by
  unfold State.stopTurn
  split
  · next ht => exact ⟨h, rfl, rfl, ht⟩
  · exact State.endTurn_spec h _

/-! ## What follows the end -/

theorem State.onAirLaw_setChannel {s : State} {ch : Fin 8} {x : Channel} (h : s.onAirLaw)
    (hp : ∀ n, x.carriesPass n = (s.channel ch).carriesPass n) : (s.setChannel ch x).onAirLaw := fun n => by
  have h1 := State.passCount_setChannel s ch x n
  have h2 : s.passCount n = s.onAirOf n := h n
  rw [hp] at h1
  have : (s.setChannel ch x).passCount n = s.onAirOf n := by omega
  exact this

/-- A write to one channel that keeps its pass and makes the keying law hold of it. -/
theorem State.Good.ofChannel {s : State} {ch : Fin 8} {x : Channel}
    (others : ∀ i, i ≠ ch → (s.channel i).keyingLaw (s.keyokOf i)) (onAir : s.onAirLaw)
    (hx : x.keyingLaw (s.keyokOf ch)) (hp : ∀ n, x.carriesPass n = (s.channel ch).carriesPass n) :
    (s.setChannel ch x).Good := by
  refine ⟨fun i => ?_, State.onAirLaw_setChannel onAir hp⟩
  rw [State.channel_setChannel]
  split
  · next h => subst h; exact hx
  · next h => exact others i (Ne.symm h)

theorem Channel.carriesPass_none {x : Channel} (h : x.turn = none) (n : Fin 64) : x.carriesPass n = false := by
  simp only [Channel.carriesPass, h, Option.any_none]

theorem State.release_good {s : State} {ch : Fin 8} (others : ∀ i, i ≠ ch → (s.channel i).keyingLaw (s.keyokOf i))
    (onAir : s.onAirLaw) (ht : (s.channel ch).turn = none) (hl : (s.channel ch).lockTimer = none)
    (hp : (s.channel ch).permitTimer = none) (hr : (s.channel ch).retryTimer = none) : (s.release ch).Good := by
  refine State.Good.ofChannel others onAir ?_ fun n => ?_
  · have := State.release_spec (s := s) hl hp hr (s.keyokOf ch)
    rw [State.release, State.channel_setChannel, if_pos rfl] at this
    exact this
  · rw [Channel.carriesPass_none ht]
    rfl

theorem State.requestAgain_good {s : State} {ch : Fin 8} (h : s.Loose ch) (ht : (s.channel ch).turn = none) :
    (s.requestAgain ch).Good := by
  refine State.Good.ofChannel h.others h.onAir ?_ fun n => ?_
  · simp only [Channel.keyingLaw, Channel.isKeyed, h.lock, h.retry, Option.isSome_none, Option.isSome_some,
      Bool.false_eq_true, false_imp_iff, reduceCtorEq, decide_false, Bool.or_self, true_or, imp_self, and_self, iff_self]
  · rw [Channel.carriesPass_none ht]
    rfl

theorem Channel.off_keyingLaw {x : Channel} (k : Bool) (hs : x.state = .off) (hq : x.keyreq = false)
    (ho : x.output.isSome = false) (ht : x.turn.isSome = false) (hl : x.lockTimer.isSome = false)
    (hp : x.permitTimer.isSome = false) (hr : x.retryTimer.isSome = false) : x.keyingLaw k := by
  simp only [Channel.keyingLaw, Channel.isKeyed, hs, hq, ho, ht, hl, hp, hr, Bool.false_eq_true, false_imp_iff,
    reduceCtorEq, decide_false, Bool.or_self, or_self, iff_self, and_self]

/-- Forgetting the rotation of a channel keeps its keying and its pass. -/
theorem State.forgetRotation_good {s : State} (h : s.Good) (ch : Fin 8) :
    (s.setChannel ch (s.channel ch).forgetRotation).Good :=
  State.Good.ofChannel (fun i _ => h.keying i) h.onAir (h.keying ch) fun _ => rfl

/-- Entering OFF, from a channel without a turn. -/
theorem State.enterOff_good {s : State} {ch : Fin 8} (others : ∀ i, i ≠ ch → (s.channel i).keyingLaw (s.keyokOf i))
    (onAir : s.onAirLaw) (ht : (s.channel ch).turn = none) : (s.enterOff ch).Good := by
  unfold State.enterOff
  dsimp only
  have h1 : (s.setChannel ch (s.channel ch).switchOff).Good := by
    refine State.Good.ofChannel others onAir (Channel.off_keyingLaw _ rfl rfl rfl rfl rfl rfl rfl) fun n => ?_
    rw [Channel.carriesPass_none ht]
    rfl
  have h2 := h1.settles ((State.Settles.refl.dropQueue ch).holdBound ch true)
  refine State.Good.settles ?_ (State.Settles.refl.raiseEvent _ _)
  exact State.forgetRotation_good h2 ch

/-- The selection after a turn end, or at a grant, or HOLD where it finds nothing. -/
theorem State.selectOrHold_good {s : State} {ch : Fin 8} (g : Bool) (h : s.Loose ch)
    (ht : (s.channel ch).turn = none) (hk : s.keyokOf ch = true) :
    ((s.selectTurn g ch).getD (s.enterHold ch)).Good := by
  obtain ⟨h1, h2⟩ := State.selectOrHold_spec (g := g) ht h.keyed h.keyreq h.lock h.permit h.retry
  refine ⟨fun i => ?_, fun n => ?_⟩
  · rw [State.keyokOf_eq h1.keyok]
    by_cases hi : i = ch
    · subst hi; rw [hk]; exact h2
    · rw [h1.others i hi]; exact h.others i hi
  · have h3 := h1.balance n
    have h4 : s.passCount n = s.onAirOf n := h.onAir n
    have : ((s.selectTurn g ch).getD (s.enterHold ch)).passCount n =
      ((s.selectTurn g ch).getD (s.enterHold ch)).onAirOf n := by omega
    exact this

theorem State.afterTurnEnd_good {s : State} {ch : Fin 8} (h : s.Loose ch) (ht : (s.channel ch).turn = none)
    (hk : s.keyokOf ch = true) : (s.afterTurnEnd ch).Good := by
  unfold State.afterTurnEnd
  rcases Channel.isKeyed_cases h.keyed with hs | hs <;> rw [hs] <;> dsimp only
  · exact State.selectOrHold_good _ h ht hk
  · exact State.enterOff_good h.others h.onAir ht

theorem State.afterSilence_good {s : State} {ch : Fin 8} (h : s.Loose ch) (ht : (s.channel ch).turn = none) :
    (s.afterSilence ch).Good := by
  unfold State.afterSilence
  rcases Channel.isKeyed_cases h.keyed with hs | hs <;> rw [hs] <;> dsimp only
  · exact (State.release_good h.others h.onAir ht h.lock h.permit h.retry).settles (State.Settles.refl.tellIdle ch)
  · exact State.enterOff_good h.others h.onAir ht

end Sys2Proof.Machine
end

