-- ==== Sys2Proof/Laws/Symbols.lean ====
section
/-! SUPPORT. The work of a symbol completion keeps the channel's keying and its pass (08: R129), so the keying law and
the on-air law go through a symbol completion (06: R93). -/

namespace Sys2Proof.Machine

namespace State.Settles

variable {s t u : State}

/-- A change of the turn record that keeps which bulletin it carries. -/
theorem mapTurn (h : s.Settles t) (ch : Fin 8) (f : Turn → Turn)
    (hf : ∀ x, (t.channel ch).turn = some x → ∀ n, (f x).kind.isPassOf n = x.kind.isPassOf n) :
    s.Settles (t.mapTurn ch f) := by
  refine h.same (.setChannel ch _ ?_ fun n => ?_)
  · simp only [Channel.keys, Option.isSome_map]
  · simp only [Channel.carriesPass]
    cases hx : (t.channel ch).turn with
    | none => rfl
    | some x => exact hf x hx n

/-- A change of the turn record that keeps its kind. -/
theorem mapTurn' (h : s.Settles t) (ch : Fin 8) (f : Turn → Turn) (hf : ∀ x, (f x).kind = x.kind) :
    s.Settles (t.mapTurn ch f) := h.mapTurn ch f fun x _ n => by rw [hf]

/-- A symbol begins on a channel that emits already. -/
theorem emit (h : s.Settles t) (ch : Fin 8) (y : Symbol) (ho : (t.channel ch).output.isSome = true) :
    s.Settles (t.emit ch y) := by
  refine h.same (.setChannel ch _ ?_ fun _ => rfl)
  simp only [Channel.keys, ho, Option.isSome_some]

end State.Settles

@[simp] theorem State.mapTurn_channel (s : State) (ch : Fin 8) (f : Turn → Turn) (i : Fin 8) :
    (s.mapTurn ch f).channel i =
      if ch = i then { s.channel ch with turn := (s.channel ch).turn.map f } else s.channel i := by
  simp only [State.mapTurn, State.channel_setChannel]

namespace State.Settles

variable {s t u : State}

theorem sendChar (h : s.Settles t) (ch : Fin 8) (c : Byte) (ho : (t.channel ch).output.isSome = true) :
    s.Settles (t.sendChar ch c) := by
  unfold State.sendChar
  dsimp only
  have ho' : ∀ f, ((t.mapTurn ch f).channel ch).output.isSome = true := fun f => by
    simp only [State.mapTurn_channel, if_true, ho]
  split
  · split
    · exact h.emit _ _ ho
    · exact (h.mapTurn' ch _ (by exact fun _ => rfl)).emit _ _ (ho' _)
  · split
    · exact h.emit _ _ ho
    · exact (h.mapTurn' ch _ (by exact fun _ => rfl)).emit _ _ (ho' _)
  all_goals exact h.emit _ _ ho

theorem phaseSymbol (h : s.Settles t) (ch : Fin 8) (x : Turn) (ho : (t.channel ch).output.isSome = true) :
    s.Settles (t.phaseSymbol ch x) := by
  unfold State.phaseSymbol
  split
  · exact h.emit _ _ ho
  · exact h.emit _ _ ho
  · exact h.sendChar _ _ ho
  · exact h.sendChar _ _ ho
  · exact h.sendChar _ _ ho
  · exact h.emit _ _ ho
  · split
    · split
      · exact h.sendChar _ _ ho
      · exact h.emit _ _ ho
    · exact h.sendChar _ _ ho

theorem beginSymbol (h : s.Settles t) (ch : Fin 8) (ho : (t.channel ch).output.isSome = true) :
    s.Settles (t.beginSymbol ch) := by
  unfold State.beginSymbol
  split
  · exact h
  · split
    · refine (h.mapTurn' ch _ (by exact fun _ => rfl)).emit _ _ ?_
      simp only [State.mapTurn_channel, if_true, ho]
    · exact h.phaseSymbol _ _ ho

theorem kind_fall (x : Turn) (r : CutReason) (n : Fin 64) : (x.fall r).kind.isPassOf n = x.kind.isPassOf n := by
  simp only [Turn.fall]
  cases x.kind <;> rfl

theorem fallCut (h : s.Settles t) (ch : Fin 8) (ho : (t.channel ch).output.isSome = true) :
    s.Settles (t.fallCut ch) := by
  unfold State.fallCut
  refine (h.mapTurn ch _ fun x _ n => ?_).beginSymbol ch ?_
  · cases x.pendingCut with
    | none => rfl
    | some p => exact kind_fall x p.reason n
  · simp only [State.mapTurn_channel, if_true, ho]

end State.Settles

/-! ## The work of a completion -/

/-- The turn of the channel carries what this kind carries; what the phase rules may assume of their argument. -/
def State.HasKind (t : State) (ch : Fin 8) (k : TurnKind) : Prop :=
  ∀ x, (t.channel ch).turn = some x → ∀ n, x.kind.isPassOf n = k.isPassOf n

theorem State.HasKind.of_turn {t : State} {ch : Fin 8} {x : Turn} (h : (t.channel ch).turn = some x) :
    t.HasKind ch x.kind := fun y hy n => by
  rw [h] at hy
  cases hy
  rfl

theorem State.HasKind.mapTurn {t : State} {ch : Fin 8} {k : TurnKind} {f : Turn → Turn}
    (hf : ∀ x, (t.channel ch).turn = some x → ∀ n, (f x).kind.isPassOf n = k.isPassOf n) :
    (t.mapTurn ch f).HasKind ch k := fun y hy n => by
  rw [State.mapTurn_channel, if_pos rfl] at hy
  cases hx : (t.channel ch).turn with
  | none => rw [hx] at hy; cases hy
  | some x =>
    rw [hx, Option.map_some, Option.some.injEq] at hy
    subst hy
    exact hf x hx n

theorem State.HasKind.mapTurn' {t : State} {ch : Fin 8} {k : TurnKind} {f : Turn → Turn} (h : t.HasKind ch k)
    (hf : ∀ x, (f x).kind = x.kind) : (t.mapTurn ch f).HasKind ch k :=
  State.HasKind.mapTurn fun x hx n => by rw [hf]; exact h x hx n

namespace State.Settles

variable {s t u : State}

/-- A change of the turn record to one that carries the same. -/
theorem mapKind (h : s.Settles t) {ch : Fin 8} {k : TurnKind} (hk : t.HasKind ch k) (f : Turn → Turn)
    (hf : ∀ x n, (f x).kind.isPassOf n = k.isPassOf n) : s.Settles (t.mapTurn ch f) :=
  h.mapTurn ch f fun x hx n => (hf x n).trans (hk x hx n).symm

theorem enterGap (h : s.Settles t) (ch : Fin 8) (p : PassTurn) (hk : t.HasKind ch (.pass p)) :
    s.Settles (t.enterGap ch p) := (h.mapKind hk _ (by exact fun _ _ => rfl)).raiseEvent _ _

theorem enterBody (h : s.Settles t) (ch : Fin 8) (x : Turn) (hk : t.HasKind ch x.kind) :
    s.Settles (t.enterBody ch x) := by
  unfold State.enterBody
  split
  · next y hy =>
    rw [hy] at hk
    exact (h.setCircuit _ _).mapKind (k := .telex y) hk _ (by exact fun _ _ => rfl)
  · next p hp =>
    rw [hp] at hk
    dsimp only
    have h1 : s.Settles (t.mapTurn ch fun x => { x with phase := .body, kind := .pass { p with bodyOffset := 0 } }) :=
      h.mapKind hk _ (by exact fun _ _ => rfl)
    split
    · exact h1
    · refine h1.enterGap ch _ ?_
      exact State.HasKind.mapTurn (k := .pass { p with bodyOffset := 0 }) fun _ _ _ => rfl

theorem completeLead (h : s.Settles t) (ch : Fin 8) (x : Turn) : s.Settles (t.completeLead ch x).1 := by
  unfold State.completeLead
  dsimp only
  split
  · exact h.mapTurn' ch _ (by exact fun _ => rfl)
  · split
    · exact (h.mapTurn' ch _ (by exact fun _ => rfl)).mapTurn' ch _ (by exact fun _ => rfl)
    · exact h.mapTurn' ch _ (by exact fun _ => rfl)

theorem completePreamble (h : s.Settles t) (ch : Fin 8) (x : Turn) : s.Settles (t.completePreamble ch x).1 := by
  unfold State.completePreamble
  dsimp only
  split
  · exact h.mapTurn' ch _ (by exact fun _ => rfl)
  · split
    · exact (h.mapTurn' ch _ (by exact fun _ => rfl)).mapTurn' ch _ (by exact fun _ => rfl)
    · exact h.mapTurn' ch _ (by exact fun _ => rfl)

theorem completeHeader (h : s.Settles t) (ch : Fin 8) (x : Turn) (hk : t.HasKind ch x.kind) :
    s.Settles (t.completeHeader ch x).1 := by
  unfold State.completeHeader
  dsimp only
  split
  · exact h.mapTurn' ch _ (by exact fun _ => rfl)
  · split
    · exact (h.mapTurn' ch _ (by exact fun _ => rfl)).enterBody _ _ (hk.mapTurn' (by exact fun _ => rfl))
    · exact h.mapTurn' ch _ (by exact fun _ => rfl)

theorem completeClosing (h : s.Settles t) (ch : Fin 8) (x : Turn) : s.Settles (t.completeClosing ch x).1 :=
  h.mapTurn' ch _ (by exact fun _ => rfl)

theorem testTelexBody (h : s.Settles t) (ch : Fin 8) (w : Bool) : s.Settles (t.testTelexBody ch w).1 := by
  unfold State.testTelexBody
  split
  · exact h
  · split
    · exact h
    · split
      · exact h
      · split
        · exact h.mapTurn' ch _ (by exact fun _ => rfl)
        · exact h

theorem leaveQueue (h : s.Settles t) (c : Fin 32) : s.Settles (t.leaveQueue c) := by
  unfold State.leaveQueue
  dsimp only
  split
  · exact ((h.setCircuit _ _).returnBlocks _).emissionTest _
  · exact (((h.setCircuit _ _).returnBlocks _).emissionTest _).returnReport

theorem completeTelexChar (h : s.Settles t) (ch : Fin 8) (x : TelexTurn) (c : Byte) (hk : t.HasKind ch (.telex x)) :
    s.Settles (t.completeTelexChar ch x c).1 := by
  unfold State.completeTelexChar
  dsimp only
  split
  · exact h.testTelexBody _ _
  · exact ((h.mapKind hk _ (by exact fun _ _ => rfl)).leaveQueue _).testTelexBody _ _

theorem completeTelexIdle (h : s.Settles t) (ch : Fin 8) (x : Turn) (y : TelexTurn) (hk : t.HasKind ch (.telex y)) :
    s.Settles (t.completeTelexIdle ch x y).1 := by
  unfold State.completeTelexIdle
  split
  · exact (h.mapKind hk _ (by exact fun _ _ => rfl)).testTelexBody _ _
  · exact h.mapKind hk _ (by exact fun _ _ => rfl)

theorem completePassChar (h : s.Settles t) (ch : Fin 8) (x : Turn) (p : PassTurn) (c : Byte)
    (hk : t.HasKind ch (.pass p)) : s.Settles (t.completePassChar ch x p c).1 := by
  unfold State.completePassChar
  dsimp only
  have h1 : s.Settles (t.mapTurn ch fun _ => { x.countUrgency with kind := .pass { p with bodyOffset := p.bodyOffset + 1 } }) :=
    h.mapKind hk _ (by exact fun _ _ => rfl)
  split
  · exact h1.mapTurn' ch _ (by exact fun _ => rfl)
  · split
    · exact h1
    · split
      · exact h1
      · refine h1.enterGap ch _ ?_
        exact State.HasKind.mapTurn (k := .pass { p with bodyOffset := p.bodyOffset + 1 }) fun _ _ _ => rfl

theorem isPassOf_stopGapTimer (k : TurnKind) (n : Fin 64) : k.stopGapTimer.isPassOf n = k.isPassOf n := by
  cases k <;> rfl

theorem completeGap (h : s.Settles t) (ch : Fin 8) (x : Turn) (p : PassTurn) :
    s.Settles (t.completeGap ch x p).1 := by
  unfold State.completeGap
  split
  · exact h.mapTurn ch _ fun x _ n => isPassOf_stopGapTimer x.kind n
  · split
    · exact h
    · split
      · exact (h.mapTurn ch _ (by exact fun x _ n => isPassOf_stopGapTimer x.kind n)).raiseEvent _ _
      · exact h

theorem completeTurn (h : s.Settles t) (ch : Fin 8) (x : Turn) (y : Symbol) (hk : t.HasKind ch x.kind) :
    s.Settles (t.completeTurn ch x y).1 := by
  unfold State.completeTurn
  split
  · exact h
  · exact h
  all_goals
    unfold State.completePhase
    split
    · exact h.completeLead _ _
    · exact h.completePreamble _ _
    · exact h.completeHeader _ _ hk
    · unfold State.completeBody
      split
      · next hy _ => rw [hy] at hk; exact h.completeTelexChar _ _ _ hk
      · next hy _ => rw [hy] at hk; exact h.completeTelexIdle _ _ _ hk
      · next hy _ => rw [hy] at hk; exact h.completePassChar _ _ _ _ hk
      all_goals exact h
    · split
      · exact h.completeGap _ _ _
      · exact h
    · exact h.completeClosing _ _
    · exact h.completeClosing _ _

end State.Settles

/-! ## The symbol completion -/

theorem Channel.keys_finishSymbol (x : Channel) (y : Symbol) :
    (x.finishSymbol y).keys = x.keys ∧ ∀ n, (x.finishSymbol y).carriesPass n = x.carriesPass n := by
  cases y with
  | data a c =>
    unfold Channel.finishSymbol
    dsimp only
    split
    · exact ⟨rfl, fun _ => rfl⟩
    · exact ⟨rfl, fun _ => rfl⟩
  | _ => exact ⟨rfl, fun _ => rfl⟩

theorem State.completeHold_good {s : State} {ch : Fin 8} (h : s.Good) (hk : (s.channel ch).isKeyed = true)
    (ht : (s.channel ch).turn = none) (stop : Bool) : (s.completeHold ch stop).Good := by
  have hl := h.loose hk
  have hq := (h.keying ch).keyed hk
  unfold State.completeHold
  dsimp only
  have hs : (s.channel ch).state ≠ .idle := Channel.keyed_ne_idle hk
  have h1 : (s.setChannel ch { s.channel ch with holdCount := (s.channel ch).holdCount + 1, output := none }).Loose ch := by
    refine ⟨fun i hi => ?_, fun i hi => ?_, ?_, ?_, ?_, ?_, ?_, State.onAirLaw_setChannel hl.onAir fun _ => rfl⟩
    all_goals simp only [State.channel_setChannel, if_true] at *
    · by_cases hc : ch = i
      · subst hc
        rw [if_pos rfl] at hi
        exact absurd hi hs
      · rw [if_neg hc] at hi ⊢
        exact hl.quiet i hi
    · rw [if_neg (Ne.symm hi)]
      exact hl.others i hi
    · exact hk
    · exact hl.keyreq
    · exact hl.lock
    · exact hl.permit
    · exact hl.retry
  have ht1 : ((s.setChannel ch { s.channel ch with
      holdCount := (s.channel ch).holdCount + 1, output := none }).channel ch).turn = none := by
    simp only [State.channel_setChannel, if_true, ht]
  split
  · next u hu =>
    have := State.selectOrHold_good (g := false) h1 ht1 hq.2.2.1
    rwa [hu, Option.getD_some] at this
  · split
    · exact State.release_good h1.others h1.onAir ht1 h1.lock h1.permit h1.retry
    · refine State.Good.ofChannel h1.others h1.onAir ?_ fun n => ?_
      · simp only [State.channel_setChannel, if_true, Channel.keyingLaw, Channel.isKeyed, Option.isSome_some,
          Option.isSome_none, ht, hl.lock, hl.permit, hl.retry, hl.keyreq, Bool.false_eq_true, false_imp_iff, true_iff,
          and_true]
        simp only [Channel.isKeyed] at hk
        simp only [hk, or_true, true_and, true_imp_iff]
        exact hq.2.2.1
      · rfl

theorem State.goOn_good {s : State} {ch : Fin 8} (h : s.Good) (hk : (s.channel ch).isKeyed = true) (stop : Bool)
    (p : Progress) : (s.goOn ch stop p).Good := by
  have hq := (h.keying ch).keyed hk
  have hstop := State.stopTurn_spec (h.loose hk) .silence
  unfold State.goOn
  split
  · split
    · exact State.afterSilence_good hstop.1 hstop.2.2.2
    · exact h.settles (State.Settles.refl.beginSymbol ch hq.2.1)
  · split
    · exact State.afterSilence_good hstop.1 hstop.2.2.2
    · exact h.settles (State.Settles.refl.fallCut ch hq.2.1)
  · split
    · exact h
    · next x hx =>
      have h1 := State.endTurn_spec (h.loose hk) x.naturalEnding
      exact State.afterTurnEnd_good h1.1 h1.2.2.2 ((State.keyokOf_eq h1.2.1 ch).trans hq.2.2.1)

/-- Time does not matter to the two laws. -/
theorem State.Settles.reach {s t : State} (h : s.Settles t) (x : Nat) : s.Settles (t.reach x) := h.same (.of_eq rfl rfl rfl)

theorem State.completeSymbol_good {s : State} {ch : Fin 8} (h : s.Good) : (s.completeSymbol ch).Good := by
  unfold State.completeSymbol
  split
  · exact h
  · next e he =>
    dsimp only
    have hk : (s.channel ch).isKeyed = true := (h.keying ch).2.1.1 (by rw [he]; rfl)
    have h1 : s.Settles ((s.reach e.due).setChannel ch
        { ((s.reach e.due).channel ch).finishSymbol e.symbol with silenceStop := false }) :=
      (State.Settles.refl.reach e.due).same (.setChannel ch _ (Channel.keys_finishSymbol _ _).1
        (Channel.keys_finishSymbol _ _).2)
    have h2 := h.settles h1
    have hk2 : (((s.reach e.due).setChannel ch
        { ((s.reach e.due).channel ch).finishSymbol e.symbol with silenceStop := false }).channel ch).isKeyed = true := by
      have := h1.settled h.keying.quiet
      exact (Channel.keys_iff (this.busy ch (Channel.keyed_ne_idle hk)).1).2.2.1.trans hk
    split
    · next ht => exact State.completeHold_good h2 hk2 ht _
    · next x hx =>
      have h3 : State.Settles _ _ := State.Settles.refl.completeTurn ch x e.symbol (State.HasKind.of_turn hx)
      refine State.goOn_good (h2.settles h3) ?_ _ _
      have := h3.settled h2.keying.quiet
      exact (Channel.keys_iff (this.busy ch (Channel.keyed_ne_idle hk2)).1).2.2.1.trans hk2

end Sys2Proof.Machine
end

