-- ==== Sys2Proof/Laws/Commands.lean ====
section
/-! SUPPORT. The keying law and the on-air law, kept by the work of every command: one lemma for each request and each
event, over the operations it is made of. -/

namespace Sys2Proof.Machine
open State

theorem settles_arbitrate (s : State) : s.Settles s.arbitrate := by
  refine Settles.refl.same (SameAir.of_eq ?_ ?_ ?_) <;> unfold arbitrate chooseNext <;> split <;> (try rfl) <;> split <;> rfl

theorem event_good {f : State → State} {s : State} (h : s.Good) (hf : s.resetHeld = false → (f s).Good) :
    ∃ t, event f s = .next t ∧ t.Good := by
  unfold event; split
  · exact ⟨_, rfl, h⟩
  · next hr => exact ⟨_, rfl, (hf (by simpa using hr)).settles (settles_arbitrate _)⟩

theorem good_of_same {s t : State} (h : s.Good) (a : t.keyok = s.keyok) (b : t.channels = s.channels) (c : t.bulletins = s.bulletins) : t.Good :=
  h.settles (Settles.refl.same (.of_eq a b c))

theorem request_good {s : State} (h : s.Good) (r k) {run : State → State × Verdict} (hf : (run s).1.Good) : ∃ t, request r k run s = .next t ∧ t.Good := by
  refine event_good h fun _ => ?_
  unfold answerRequest; split
  · exact good_of_same h rfl rfl rfl
  · exact good_of_same hf rfl rfl rfl

theorem setStation_good {s : State} (h : s.Good) (f) : (setStation f s).1.Good := by
  unfold setStation; split
  · exact h
  · split; exact h; split; exact h; split; exact h
    have h1 : ∀ m, s.Settles (s.setMarkSource m) := fun m => by
      unfold setMarkSource; split; exact .refl; split
      · dsimp only; split
        · exact (Settles.refl.setClock _).raiseEvent _ _
        · exact (Settles.refl.setClock _)
      · exact (Settles.refl.setClock _)
    have h2 : ∀ (t : State) l, s.Settles t → s.Settles (t.setHoldLimit l) := fun t l ht => by
      unfold setHoldLimit; split; exact ht
      have h3 : s.Settles { t with holdLimit := l } := ht.same (.of_eq rfl rfl rfl)
      refine State.Settles.foldl (f := State.expireHold) (fun r c => ?_) h3 _
      unfold expireHold; split
      · exact (Settles.refl.setCircuit _ _).raiseEvent _ _
      · exact .refl
    exact good_of_same (h.settles (h2 _ _ (h1 _))) rfl rfl rfl

theorem requestKey_good {s : State} {ch : Fin 8} (others : ∀ i, i ≠ ch → (s.channel i).keyingLaw (s.keyokOf i))
    (ha : s.onAirLaw) (ht : (s.channel ch).turn = none) (ho : (s.channel ch).output = none)
    (hl : (s.channel ch).lockTimer = none) (hr : (s.channel ch).retryTimer = none) : (s.requestKey ch).Good := by
  obtain ⟨k1, k2⟩ := requestKey_spec ht ho hl hr
  refine ⟨fun i => ?_, fun n => ?_⟩
  · rw [keyokOf_eq k1.keyok]
    by_cases hi : i = ch
    · subst hi; exact k2
    · rw [k1.others i hi]; exact others i hi
  · have h1 := k1.balance n
    have h2 : s.passCount n = s.onAirOf n := ha n
    show State.passCount _ n = State.onAirOf _ n
    omega

theorem enterOff_good_of_none {s : State} (h : s.Good) (ch) (ht : (s.channel ch).turn = none) : (s.enterOff ch).Good :=
  enterOff_good (fun i _ => h.keying i) h.onAir ht

theorem good_turn_none {s : State} (h : s.Good) {ch} (hk : (s.channel ch).isKeyed = false) : (s.channel ch).turn = none := by
  have := (h.keying ch).2.2.2.1
  rw [hk] at this
  cases ht : (s.channel ch).turn with
  | none => rfl
  | some x => rw [ht] at this; exact absurd (this rfl) (by simp)

theorem setProfile_good {s : State} (h : s.Good) (c f) : (setProfile c f s).1.Good := by
  unfold setProfile; split
  · exact h
  · next ch _ =>
    split
    · exact h
    · next hw =>
      split
      · exact h
      · have hk : (s.channel ch).isKeyed = false := by
          simp [Channel.profileWritable] at hw
          unfold Channel.isKeyed
          by_cases hu : (s.channel ch).state = .unset
          · simp [hu]
          · simp [hw hu]
        refine State.Good.ofChannel (fun i _ => h.keying i) h.onAir ?_ fun _ => rfl
        have := h.keying ch
        obtain ⟨h1,h2,h3,h4,h5,h6,h7⟩ := this
        have hst : (s.channel ch).state = .unset ∨ (s.channel ch).state = .off := by
          simp [Channel.profileWritable] at hw
          by_cases hu : (s.channel ch).state = .unset
          · exact .inl hu
          · exact .inr (hw hu)
        rcases hst with hst | hst <;> simp_all [Channel.keyingLaw, Channel.isKeyed]

theorem channelOn_good {s : State} (h : s.Good) (c) : (channelOn c s).1.Good := by
  unfold channelOn; split
  · exact h
  · next ch _ =>
    dsimp only; split
    · next hs =>
      refine State.Good.ofChannel (fun i _ => h.keying i) h.onAir ?_ fun _ => rfl
      have := h.keying ch
      obtain ⟨h1,h2,h3,h4,h5,h6,h7⟩ := this
      simp_all [Channel.keyingLaw, Channel.isKeyed]
    · exact h

theorem channelOff_good {s : State} (h : s.Good) (c m) : (channelOff c m s).1.Good := by
  unfold channelOff onChannel; split
  · exact h
  · next ch _ =>
    have nk : ∀ x, (s.channel ch).state = x → x ≠ .keyed → x ≠ .stopping → (s.channel ch).turn = none := fun x hx h1 h2 =>
      good_turn_none h (by simp [Channel.isKeyed, hx, h1, h2])
    dsimp only
    split
    · unfold offGraceful; dsimp only; split
      · exact h
      · exact h
      · exact h
      · next hs => exact enterOff_good_of_none h ch (nk _ hs (by decide) (by decide))
      · next hs => exact enterOff_good_of_none h ch (nk _ hs (by decide) (by decide))
      · next hs => exact enterOff_good_of_none h ch (nk _ hs (by decide) (by decide))
      · next hs => exact enterOff_good_of_none h ch (nk _ hs (by decide) (by decide))
      · next hs =>
        split
        · refine State.Good.ofChannel (fun i _ => h.keying i) h.onAir ?_ fun _ => rfl
          have := h.keying ch
          obtain ⟨h1,h2,h3,h4,h5,h6,h7⟩ := this
          simp_all [Channel.keyingLaw, Channel.isKeyed]
        · next hn => exact enterOff_good_of_none h ch (by simpa using hn)
    · split
      · unfold offAbort; split
        · exact h
        · exact h
        · next hs => exact enterOff_good_of_none h ch (nk _ hs (by decide) (by decide))
        · next hs => exact enterOff_good_of_none h ch (nk _ hs (by decide) (by decide))
        · next hs => exact enterOff_good_of_none h ch (nk _ hs (by decide) (by decide))
        · next hs => exact enterOff_good_of_none h ch (nk _ hs (by decide) (by decide))
        all_goals
          next hs =>
          have := stopTurn_spec (h.loose (ch := ch) (by simp [Channel.isKeyed, hs])) .abort
          exact enterOff_good this.1.others this.1.onAir this.2.2.2
      · exact h

theorem openCircuit_good {s : State} (h : s.Good) (c ch t) : (openCircuit c ch t s).1.Good := by
  unfold openCircuit onCircuit; split
  · exact h
  · dsimp only; split; exact h; split; exact h; split; exact h; split; exact h; split; exact h
    exact h.settles ((Settles.refl.bindTail _ _).setCircuit _ _)

theorem isPassOf_clearGrace (t : Turn) (n) : t.clearGrace.kind.isPassOf n = t.kind.isPassOf n := by
  unfold Turn.clearGrace; cases hk : t.kind <;> simp [TurnKind.isPassOf, hk]

theorem circuitText_good {s : State} (h : s.Good) (c t) : (circuitText c t s).1.Good := by
  unfold circuitText onCircuit; split
  · exact h
  · dsimp only; split; exact h; split; exact h; split; exact h
    unfold arrive; dsimp only
    have h1 : ∀ c k st fl, s.Settles (((s.setStore st).setCircuit c k).setFlow c fl) := fun c k st fl => by
      unfold setFlow; dsimp only; split
      · exact (((Settles.refl.same (.setStore _)).setCircuit _ _).setCircuit _ _).raiseEvent _ _
      · exact ((Settles.refl.same (.setStore _)).setCircuit _ _).setCircuit _ _
    split
    · unfold arrivalReport; dsimp only; split
      · split
        · exact h.settles ((h1 _ _ _ _).mapTurn _ _ fun x _ n => isPassOf_clearGrace x n)
        · exact h.settles (h1 _ _ _ _)
      · exact h.settles ((h1 _ _ _ _).settleWait _)
    · exact h.settles (h1 _ _ _ _)

theorem holdCircuit_good {s : State} (h : s.Good) (c x) : (holdCircuit c x s).1.Good := by
  unfold holdCircuit onCircuit; split
  · exact h
  · dsimp only; split; exact h; split
    · exact h.settles ((Settles.refl.setCircuit _ _).settleWait _)
    · split
      · exact h.settles ((Settles.refl.setCircuit _ _).settleWait _)
      · exact h

theorem moveCircuit_good {s : State} (h : s.Good) (c x) : (moveCircuit c x s).1.Good := by
  unfold moveCircuit onCircuit; split
  · exact h
  · dsimp only; split; exact h; split; exact h; split; exact h; split
    · exact h.settles (Settles.refl.setCircuit _ _)
    · exact h.settles (Settles.refl.applyMove _ _)

theorem closeCircuit_good {s : State} (h : s.Good) (c x) : (closeCircuit c x s).1.Good := by
  unfold closeCircuit onCircuit; split
  · exact h
  · dsimp only; split; exact h; split; exact h; split
    · unfold closeDrain; dsimp only; split
      · exact h.settles ((Settles.refl.setCircuit _ _).finishClose _)
      · exact h.settles (Settles.refl.setCircuit _ _)
    · split
      · unfold closePurge; dsimp only; split
        · exact h.settles (((Settles.refl.setCircuit _ _).returnAndReport _).causeCut _ _)
        · exact h.settles (((Settles.refl.setCircuit _ _).returnAndReport _).finishClose _)
      · exact h

theorem presentEntry_bulletin {s : State} {n i b} (h : s.presentEntry n = .ok (i, b)) : s.bulletin i = some b := by
  unfold presentEntry at h; split at h
  · cases h
  · split at h
    · cases h
    · next hb => cases h; exact hb

theorem onBulletin_good {s : State} (h : s.Good) (n) {f : State → Fin 64 → Bulletin → State × Verdict}
   (hf : ∀ i b, s.bulletin i = some b → (f s i b).1.Good) : (onBulletin n f s).1.Good := by
  unfold onBulletin; split
  · exact h
  · next p hp => exact hf _ _ (presentEntry_bulletin hp)

theorem onAirOf_some {s : State} {n b} (h : s.bulletin n = some b) : s.onAirOf n = b.onAir := by simp [onAirOf, h]

theorem claim_good {s : State} (h : s.Good) {len n f} (hf : ∀ m, (f m).onAir = s.onAirOf n) : (s.claim len n f).1.Good := by
  unfold claim; split
  · exact h.settles ((Settles.refl.same (.setStore _)).same (.setBulletin n _ (by exact hf _)))
  · exact h

theorem declareBulletin_good {s : State} (h : s.Good) (n a b c f) : (declareBulletin n a b c f s).1.Good := by
  unfold declareBulletin; split; exact h; split; exact h
  next hn =>
  split; exact h; split; exact h; split; exact h; split; exact h
  refine claim_good h fun m => ?_
  simp at hn
  simp [declared, onAirOf, hn]

theorem writeText_good {s : State} (h : s.Good) {n b} (hb : s.bulletin n = some b) {m how bl ch put} (hp : ∀ m, (put m).onAir = b.onAir) :
   (s.writeText n m how bl ch put).1.Good := by
  unfold writeText; split; exact h; split; exact h
  exact h.settles ((Settles.refl.same (.setStore _)).same (.setBulletin n _ (by exact (hp _).trans (onAirOf_some hb).symm)))

theorem bulletinText_good {s : State} (h : s.Good) (n t b c) : (bulletinText n t b c s).1.Good := by
  unfold bulletinText; refine onBulletin_good h n fun i b hb => ?_
  split
  · exact h
  split
  · unfold currentText; split
    · exact h
    · exact writeText_good h hb fun _ => rfl
    · exact writeText_good h hb fun _ => rfl
  · split
    · unfold stagedText; split
      · split
        · exact h
        · exact writeText_good h hb fun _ => rfl
      · exact h
    · exact h

theorem testAndForce_good {s : State} (h : s.Good) {n b} (hb : s.bulletin n = some b) (g) : (s.testAndForce n b g).1.Good := by
  unfold testAndForce; split; exact h
  unfold putInForce; dsimp only
  have h1 : ∀ b' : Bulletin, b'.onAir = b.onAir → s.Settles (s.setBulletin n (some b')) := fun b' e => Settles.refl.same (.setBulletin n _ (e.trans (onAirOf_some hb).symm))
  split
  · refine h.settles (Settles.occasion (h1 _ ?_) _); rfl
  · exact h.settles (h1 _ rfl)

theorem amendBulletin_good {s : State} (h : s.Good) (n f) : (amendBulletin n f s).1.Good := by
  unfold amendBulletin; refine onBulletin_good h n fun i b hb => ?_
  split; exact h; split; exact h; split
  · exact h.settles (Settles.refl.same (.setBulletin _ _ (onAirOf_some hb).symm))
  · exact testAndForce_good h hb _

theorem releaseBulletin_good {s : State} (h : s.Good) (n) : (releaseBulletin n s).1.Good := by
  unfold releaseBulletin; refine onBulletin_good h n fun i b hb => ?_
  split
  · exact testAndForce_good h hb _
  · exact h

theorem settles_unqueue (s : State) (n) : s.Settles (allChannels.foldl (unqueue n) s) := Settles.refl.foldl (fun _ ch => Settles.refl.setQueue ch _) _

theorem bulletin_unqueue (s : State) (n i) (l : List (Fin 8)) : (l.foldl (unqueue n) s).bulletin i = s.bulletin i := by
  induction l generalizing s with
  | nil => rfl
  | cons a l ih => exact (ih _).trans rfl

theorem bulletin_returnAndReport (s : State) (bs i) : (s.returnAndReport bs).bulletin i = s.bulletin i := by
  have : ∀ (l : List (Fin 32)) (s : State), (l.foldl reportTo s).bulletins = s.bulletins := fun l => by
    induction l with
    | nil => intro s; rfl
    | cons a l ih => intro s; refine (ih _).trans ?_; unfold reportTo; dsimp only; split <;> rfl
  unfold returnAndReport; split; rfl
  unfold returnReport
  simp only [State.bulletin, this]; rfl

theorem withdrawBulletin_good {s : State} (h : s.Good) (n) : (withdrawBulletin n s).1.Good := by
  unfold withdrawBulletin; refine onBulletin_good h n fun i b hb => ?_
  dsimp only; split; exact h; dsimp only; split
  · next h0 =>
    refine h.settles ((settles_unqueue s i).emptyEntry _ _ ?_)
    rw [onAirOf, bulletin_unqueue, hb]; exact h0
  · unfold withdrawOnAir; dsimp only
    refine h.settles (Settles.foldl (fun r ch => ?_) (((settles_unqueue s i).returnAndReport _).same (.setBulletin _ _ ?_)) _)
    · unfold cutPass; split
      · exact Settles.refl.causeCut _ _
      · exact .refl
    · rw [onAirOf, bulletin_returnAndReport, bulletin_unqueue, hb]; rfl

theorem clearMarks_good {s : State} (h : s.Good) (n) : (clearMarks n s).1.Good := by
  unfold clearMarks; refine onBulletin_good h n fun i b hb => ?_
  exact h.settles (Settles.refl.same (.setBulletin _ _ (onAirOf_some hb).symm))

theorem stageRevision_good {s : State} (h : s.Good) (n l) : (stageRevision n l s).1.Good := by
  unfold stageRevision; refine onBulletin_good h n fun i b hb => ?_
  split; exact h; split; exact h; split; exact h
  exact claim_good h fun m => (onAirOf_some hb).symm

theorem commitRevision_good {s : State} (h : s.Good) (n) : (commitRevision n s).1.Good := by
  unfold commitRevision; refine onBulletin_good h n fun i b hb => ?_
  split
  · split; exact h; split; exact h; split; exact h; split
    · exact h.settles (Settles.refl.commit _ _ _ hb)
    · exact h.settles (Settles.refl.same (.setBulletin i (some { b with commitPending := true }) (onAirOf_some hb).symm))
  · exact h

theorem discardRevision_good {s : State} (h : s.Good) (n) : (discardRevision n s).1.Good := by
  unfold discardRevision; refine onBulletin_good h n fun i b hb => ?_
  split
  · unfold discardStaged; dsimp only
    have h1 : ∀ bs, s.Settles ((s.setBulletin i (some { b with staged := none, commitPending := false })).returnAndReport bs) := fun bs =>
      (Settles.refl.same (.setBulletin i (some { b with staged := none, commitPending := false }) (onAirOf_some hb).symm)).returnAndReport _
    split
    · exact h.settles ((h1 _).tellHolders _)
    · exact h.settles (h1 _)
  · exact h

theorem readText_good {s : State} (h : s.Good) (n a b c) : (readText n a b c s).1.Good := by
  unfold readText; exact onBulletin_good h n fun _ _ _ => h
-- good_of_same

theorem restart_good {s : State} (h : s.Good) : (restart s).1.Good := good_of_same h rfl rfl rfl

theorem runRequest_good {s : State} (h : s.Good) (q) : (runRequest q s).1.Good := by
  cases q with
  | setStation f => exact setStation_good h f
  | setClock m => unfold runRequest setClock; dsimp only; split; exact good_of_same h rfl rfl rfl; exact h
  | readStation => exact h
  | restart => exact restart_good h
  | setProfile a b => exact setProfile_good h a b
  | channelOn a => exact channelOn_good h a
  | channelOff a b => exact channelOff_good h a b
  | readChannel a => exact h
  | openCircuit a b c => exact openCircuit_good h a b c
  | circuitText a b => exact circuitText_good h a b
  | holdCircuit a b => exact holdCircuit_good h a b
  | moveCircuit a b => exact moveCircuit_good h a b
  | closeCircuit a b => exact closeCircuit_good h a b
  | readCircuit a => exact h
  | declareBulletin a b c d e => exact declareBulletin_good h a b c d e
  | bulletinText a b c d => exact bulletinText_good h a b c d
  | amendBulletin a b => exact amendBulletin_good h a b
  | releaseBulletin a => exact releaseBulletin_good h a
  | withdrawBulletin a => exact withdrawBulletin_good h a
  | clearMarks a => exact clearMarks_good h a
  | readBulletin a => exact h
  | readText a b c d => exact readText_good h a b c d
  | stageRevision a b => exact stageRevision_good h a b
  | commitRevision a => exact commitRevision_good h a
  | discardRevision a => exact discardRevision_good h a

theorem replyStatus_good {s : State} (h : s.Good) (f st) : (s.replyStatus f st).Good := good_of_same h rfl rfl rfl

theorem foldl_good {α} {f : State → α → State} (hf : ∀ s a, State.Good s → (f s a).Good) (l : List α) {s : State} (h : s.Good) : (l.foldl f s).Good := by
  induction l generalizing s with
  | nil => exact h
  | cons a l ih => exact ih (hf _ _ h)

theorem skipExecuting_good {s : State} (h : s.Good) : s.skipExecuting.Good :=
  good_of_same (foldl_good (fun _ a h => replyStatus_good h a _) _ h) rfl rfl rfl

theorem skipQueued_good {s : State} (h : s.Good) : s.skipQueued.Good := by
  unfold skipQueued; split
  · exact good_of_same (foldl_good (fun s a h => replyStatus_good h a _) _ (skipExecuting_good h)) rfl rfl rfl
  · exact h

theorem discardBatch_good {s : State} (h : s.Good) : s.discardBatch.Good := by
  unfold discardBatch; split; exact h
  exact good_of_same (foldl_good (fun s a h => replyStatus_good h a _) _ h) rfl rfl rfl

theorem executeFrame_good {s : State} (h : s.Good) (f) : (s.executeFrame f).1.Good := by
  unfold executeFrame; dsimp only
  refine State.Good.settles (s := (runPayload f.payload s).1.placeReply _ _ _) (good_of_same (s := (runPayload f.payload s).1) ?_ rfl rfl rfl) (settles_arbitrate _)
  unfold runPayload; split; exact h; exact runRequest_good h _

theorem runBatch_good {s : State} (h : s.Good) (n) : (s.runBatch n).Good := by
  induction n generalizing s with
  | zero => exact h
  | succ n ih =>
    unfold runBatch; split; exact h
    have h1 : ∀ fs, (s.setLink { s.link with executing := fs }).Good := fun fs => good_of_same h rfl rfl rfl
    dsimp only; split
    · exact ih (executeFrame_good (h1 _) _)
    · exact skipExecuting_good (executeFrame_good (h1 _) _)

theorem judgeFresh_good {s : State} (h : s.Good) (f) : (s.judgeFresh f).Good := by
  unfold judgeFresh; split; split; exact good_of_same h rfl rfl rfl; exact executeFrame_good h f; exact replyStatus_good h _ _

theorem judgeOpen_good {s : State} (h : s.Good) (b f) : (s.judgeOpen b f).Good := by
  have hb : ∀ x, (s.setLink { s.link with batch := x }).Good := fun x => good_of_same h rfl rfl rfl
  have hs : ∀ fs, (s.startBatch fs).Good := fun fs => good_of_same h rfl rfl rfl
  unfold judgeOpen; split; split; split
  · exact discardBatch_good (hb _)
  · exact hb _
  · exact hs _
  · split
    · exact judgeFresh_good (discardBatch_good h) _
    · exact replyStatus_good (discardBatch_good h) _ _

theorem goOnWithBatch_good {s : State} (h : s.Good) : s.goOnWithBatch.Good := by
  unfold goOnWithBatch; split
  · exact runBatch_good h _
  · next l _ =>
    split; exact h
    have h1 : ({ s with pauses := l } : State).Good := good_of_same h rfl rfl rfl
    exact runBatch_good h1 _

theorem judgeFrame_good {s : State} (h : s.Good) (f) : (s.judgeFrame f).Good := by
  unfold judgeFrame; split
  · exact judgeFresh_good h _
  · exact judgeOpen_good h _ _

theorem takeFrame_good {s : State} (h : s.Good) : s.takeFrame.Good := by
  unfold takeFrame; split; exact skipQueued_good h; split
  · exact h
  · split
    · have hq : ∀ q, (s.setReceiveQueue q).Good := fun q => good_of_same h rfl rfl rfl
      exact skipQueued_good (goOnWithBatch_good (judgeFrame_good (hq _) _))
    · exact h
  · exact skipQueued_good (goOnWithBatch_good h)

theorem linkError_good {s : State} (h : s.Good) : s.linkError.Good := good_of_same h rfl rfl rfl

theorem receiveOctet_good {s : State} (h : s.Good) (o) : (s.receiveOctet o).Good := by
  unfold receiveOctet; split
  · split; exact good_of_same h rfl rfl rfl; exact h
  · unfold holdOctet; dsimp only; split; exact good_of_same h rfl rfl rfl; split; exact linkError_good (good_of_same h rfl rfl rfl); split; exact good_of_same h rfl rfl rfl
    have h1 : (s.setAssembly none).Good := good_of_same h rfl rfl rfl
    unfold checkFrame; split
    · split
      · exact discardBatch_good (linkError_good h1)
      · split
        · unfold offerFrame; split
          · exact skipQueued_good (good_of_same h1 rfl rfl rfl)
          · split; exact linkError_good h1; exact good_of_same h1 rfl rfl rfl
        · exact linkError_good h1
    · exact h1

theorem atRest_good (k : Vector Bool 8) (a b c) : (State.atRest k a b c).Good := by
  refine ⟨fun i => ?_, fun n => ?_⟩
  · have : ((State.atRest k a b c).channel i) = Channel.reset := by
      simp [State.atRest, State.channel]
    rw [this]; simp [Channel.keyingLaw, Channel.reset, Channel.isKeyed]
  · have h1 : ∀ i, ((State.atRest k a b c).channel i) = Channel.reset := fun i => by
      simp [State.atRest, State.channel]
    have h2 : (State.atRest k a b c).bulletin n = none := by simp [State.atRest, State.bulletin]
    simp [passCount, h1, h2, Channel.carriesPass, Channel.reset]

theorem start_good {s : State} (h : s.Good) : s.start.Good := by
  unfold start
  have h1 : ({ s with resetHeld := false, link := { s.link with linkReady := true } }.raiseEvent .station .started).Good := good_of_same h rfl rfl rfl
  exact h1.settles (settles_arbitrate _)

theorem completeFrame_good {s : State} (h : s.Good) : s.completeFrame.Good := by
  unfold completeFrame; split; exact h; dsimp only; split
  · exact start_good (atRest_good _ _ _ _)
  · exact good_of_same h rfl rfl rfl

theorem silenceChannel_good {s : State} (h : s.Good) (ch) : (s.silenceChannel ch).Good := by
  unfold silenceChannel; dsimp only; split
  · split
    · split; exact h; exact State.Good.ofChannel (fun i _ => h.keying i) h.onAir (h.keying ch) fun _ => rfl
    · split; exact h; exact State.Good.ofChannel (fun i _ => h.keying i) h.onAir (h.keying ch) fun _ => rfl
    · next hs =>
      split; exact h
      refine State.Good.ofChannel (fun i _ => h.keying i) h.onAir ?_ fun _ => rfl
      have := h.keying ch
      obtain ⟨h1,h2,h3,h4,h5,h6,h7⟩ := this
      simp_all [Channel.keyingLaw, Channel.isKeyed]
    all_goals exact h
  · exact h

theorem settles_unsilenceChannel (s : State) (ch) : s.Settles (s.unsilenceChannel ch) := by
  unfold unsilenceChannel; dsimp only; split
  · split
    · next hs => exact Settles.refl.consult ch hs
    · split
      · exact Settles.refl.tellEntry _ _
      · exact .refl
    all_goals exact .refl
  · exact .refl

theorem setKeyok_good {s : State} (h : s.Good) (ch v) (hv : v = false → (s.channel ch).isKeyed = false) : (s.setKeyok ch v).Good := by
  refine ⟨fun i => ?_, h.onAir⟩
  rw [keyokOf_setKeyok, setKeyok_channel]
  split
  · next e =>
    subst e
    have := h.keying ch
    obtain ⟨h1,h2,h3,h4,h5,h6,h7⟩ := this
    refine ⟨h1,h2,?_,h4,h5,h6,h7⟩
    intro hk; cases v with
    | true => rfl
    | false => rw [hv rfl] at hk; cases hk
  · exact h.keying i

theorem riseKeyok_good {s : State} (h : s.Good) (ch) : (s.riseKeyok ch).Good := by
  unfold riseKeyok; dsimp only
  have h0 := setKeyok_good h ch true (by simp)
  split
  · next hs =>
    have hl := h0.keying ch
    obtain ⟨h1,h2,h3,h4,h5,h6,h7⟩ := hl
    have ht := good_turn_none h0 (ch := ch) (by unfold Channel.isKeyed; rw [hs]; rfl)
    unfold grant
    refine selectOrHold_good (ch := ch) true ?_ ?_ ?_
    · refine ⟨fun i hi => ?_, fun i hi => ?_, ?_, ?_, ?_, ?_, ?_, onAirLaw_setChannel h0.onAir fun _ => rfl⟩
      all_goals simp only [channel_setChannel, if_true] at *
      · split at hi
        · cases hi
        · next e => rw [if_neg e]; exact h0.keying i
      · rw [if_neg (Ne.symm hi)]; exact h0.keying i
      · rfl
      · exact h1.2 (.inl hs)
      · simp_all
      · simp_all
    · rw [channel_setChannel, if_pos rfl]; exact ht
    · simp
  · exact h0

theorem fallKeyok_good {s : State} (h : s.Good) (ch) : (s.fallKeyok ch).Good := by
  unfold fallKeyok; dsimp only
  have loose : (s.channel ch).isKeyed = true → ((s.setKeyok ch false).permitLost ch).Loose ch := fun hk => by
    have hl := h.loose hk
    unfold permitLost
    refine ⟨fun i hi => ?_, fun i hi => ?_, ?_, ?_, ?_, ?_, ?_, ?_⟩
    all_goals simp only [raiseEvent_channel, raiseEvent_keyokOf, channel_setChannel, setChannel_keyokOf, keyokOf_setKeyok, setKeyok_channel, if_true] at *
    · by_cases hc : ch = i
      · subst hc; rw [if_pos rfl] at hi; exact absurd hi (Channel.keyed_ne_idle hk)
      · rw [if_neg hc] at hi ⊢; rw [if_neg hc]; exact h.keying i
    · rw [if_neg (Ne.symm hi), if_neg (Ne.symm hi)]; exact h.keying i
    · exact hk
    · exact hl.keyreq
    · exact hl.lock
    · exact hl.permit
    · exact hl.retry
    · exact onAirLaw_setChannel (s := s.setKeyok ch false) (x := { (s.setKeyok ch false).channel ch with silenceStop := false, output := none }) h.onAir fun _ => rfl
  simp only [setKeyok_channel]
  split
  · next hs =>
    have hl := loose (by simp [Channel.isKeyed, hs])
    split
    · have := stopTurn_spec hl .permit
      exact requestAgain_good this.1 this.2.2.2
    · next ht =>
      have ht : (((s.setKeyok ch false).permitLost ch).channel ch).turn = none := by simpa using ht
      split
      · exact requestAgain_good hl ht
      · exact release_good hl.others hl.onAir ht hl.lock hl.permit hl.retry
  · next hs =>
    have hl := loose (by simp [Channel.isKeyed, hs])
    have := stopTurn_spec hl .permit
    exact enterOff_good this.1.others this.1.onAir this.2.2.2
  all_goals next hs => exact setKeyok_good h ch false (fun _ => by simp [Channel.isKeyed, hs])

theorem lockExpiry_good {s : State} (h : s.Good) (ch) : (s.lockExpiry ch).Good := by
  unfold lockExpiry; split; exact h
  next t ht =>
  dsimp only
  have hs : (s.channel ch).state = .locking := (h.keying ch).2.2.2.2.1 (by simp [ht])
  have h1 : ((s.reach t.due).setChannel ch { (s.reach t.due).channel ch with state := .idle, lockTimer := none }).Good := by
    have h0 : (s.reach t.due).Good := good_of_same h rfl rfl rfl
    refine State.Good.ofChannel (fun i _ => h0.keying i) h0.onAir ?_ fun _ => rfl
    have := h.keying ch
    obtain ⟨h1,h2,h3,h4,h5,h6,h7⟩ := this
    simp_all [Channel.keyingLaw, Channel.isKeyed]
  have h2 := Settles.refl (s := (s.reach t.due).setChannel ch { (s.reach t.due).channel ch with state := .idle, lockTimer := none })
  have h3 := ((h2.holdBound ch false).raiseEvent (.channel ch) .locked)
  refine h1.settles (h3.consult ch ?_)
  have hb : ∀ (l : List (Fin 32)) (u : State), (l.foldl (setChannelHold false) u).channels = u.channels := fun l => by
    induction l with
    | nil => intro u; rfl
    | cons a l ih => intro u; refine (ih _).trans ?_; unfold setChannelHold updateWait; dsimp only; split; split <;> rfl; rfl
  simp only [raiseEvent_channel]
  unfold holdBound
  simp only [State.channel, hb]
  simp [setChannel]

theorem permitExpiry_good {s : State} (h : s.Good) (ch) : (s.permitExpiry ch).Good := by
  unfold permitExpiry; split; exact h
  next t ht =>
  dsimp only
  have hs : (s.channel ch).state = .requesting := (h.keying ch).2.2.2.2.2.1 (by simp [ht])
  refine State.Good.settles ?_ (Settles.refl.raiseEvent _ _)
  have h0 : (s.reach t.due).Good := good_of_same h rfl rfl rfl
  refine State.Good.ofChannel (fun i _ => h0.keying i) h0.onAir ?_ fun _ => rfl
  have := h.keying ch
  obtain ⟨h1,h2,h3,h4,h5,h6,h7⟩ := this
  simp_all [Channel.keyingLaw, Channel.isKeyed]

theorem retryExpiry_good {s : State} (h : s.Good) (ch) : (s.retryExpiry ch).Good := by
  unfold retryExpiry; split; exact h
  next t ht =>
  dsimp only
  have hs : (s.channel ch).state = .backoff := (h.keying ch).2.2.2.2.2.2 (by simp [ht])
  obtain ⟨h1,h2,h3,h4,h5,h6,h7⟩ := h.keying ch
  have h0 : (s.reach t.due).Good := good_of_same h rfl rfl rfl
  have a : (s.channel ch).turn = none := good_turn_none h (by simp [Channel.isKeyed, hs])
  have ho : (s.channel ch).output = none := by simp_all [Channel.isKeyed]
  have hl : (s.channel ch).lockTimer = none := by simp_all
  split
  · refine requestKey_good (fun i hi => ?_) (onAirLaw_setChannel h0.onAir fun _ => rfl) (by simp [a]) (by simp [ho]) (by simp [hl]) (by simp)
    rw [channel_setChannel, if_neg (Ne.symm hi)]; exact h0.keying i
  · rw [channel_setChannel, if_pos rfl, setChannel_setChannel]
    refine State.Good.ofChannel (fun i _ => h0.keying i) h0.onAir ?_ fun _ => rfl
    simp_all [Channel.keyingLaw, Channel.isKeyed]

theorem gapExpiry_good {s : State} (h : s.Good) (ch) : (s.gapExpiry ch).Good := by
  unfold gapExpiry; split; exact h
  next p tm hp =>
  dsimp only
  have hk : s.HasKind ch (.pass p) := by
    unfold Channel.gapTimer at hp
    split at hp; cases hp
    next t ht =>
    split at hp; cases hp
    next q hq =>
    simp at hp
    obtain ⟨x, hx, rfl, rfl⟩ := hp
    have := HasKind.of_turn ht
    rw [hq] at this; exact this
  exact h.settles ((Settles.refl.reach _).mapKind (k := .pass p) hk _ (fun _ _ => rfl))
end Sys2Proof.Machine
end

