-- ==== Sys2Proof/Laws/Consult.lean ====
section
/-! SUPPORT. The whole state after a selection that finds a turn and after a consultation, in the words of the statements
(06: R96, R97; 07: R113, R121, R122), and the accepted set of the Text Store (01: R2). -/

namespace Sys2Proof.Machine

/-! ## The choice -/

theorem State.headEligibleAny_none {s : State} {ch : Fin 8} (h : s.headEligibleAny ch = none) :
    (s.channel ch).queue.any (s.entryEligible ch) = false := by
  rw [List.any_eq_false]
  exact List.find?_eq_none.mp h

/-- Every circuit of the bound list comes in the rotation. -/
theorem Channel.mem_rotation {x : Channel} {c : Fin 32} (h : c ∈ x.bound) : c ∈ x.rotation := by
  unfold Channel.rotation
  split
  · exact h
  · next d _ =>
    split
    · have := List.take_append_drop (x.bound.idxOf d + 1) x.bound
      rw [← this] at h
      simp only [List.mem_append] at h ⊢
      exact h.symm
    · exact h

theorem State.nextCircuit_none {s : State} {ch : Fin 8} (h : s.nextCircuit ch = none) :
    (s.channel ch).bound.any (s.circuitEligible ch) = false := by
  rw [List.any_eq_false]
  exact fun c hc => List.find?_eq_none.mp h c (Channel.mem_rotation hc)

/-- A choice of nothing is made where nothing is eligible alone (07: R119). -/
theorem State.choose_nothing {s : State} {ch : Fin 8} (h : s.choose ch = .nothing) : s.anythingEligible ch = false := by
  unfold State.choose at h
  dsimp only at h
  split at h
  · cases h
  · cases h
  · split at h
    · cases h
    · split at h
      · cases h
      · split at h
        · cases h
        · next hc =>
          split at h
          · cases h
          · next he => simp [State.anythingEligible, headEligibleAny_none he, nextCircuit_none hc]

/-! ## Starting a turn -/

theorem State.setBulletin_setChannel (s : State) (ch : Fin 8) (x : Channel) (n : Fin 64) (b : Option Bulletin) :
    (s.setBulletin n b).setChannel ch x = (s.setChannel ch x).setBulletin n b := rfl

theorem State.setCircuit_setChannel (s : State) (ch : Fin 8) (x : Channel) (c : Fin 32) (y : Circuit) :
    (s.setCircuit c y).setChannel ch x = (s.setChannel ch x).setCircuit c y := rfl

/-- The phase and the symbol that open a turn. -/
theorem firstPhase_eq (p : Profile) : firstPhase true p = p.openingPhase ∧ firstPhase false p = .preamble := by
  unfold firstPhase Profile.openingPhase
  by_cases h : p.lead = 0 <;> simp [h]

theorem firstSymbol_firstPhase (g : Bool) (p : Profile) :
    firstSymbol (firstPhase g p) = if firstPhase g p = .lead then .idle else .phase := by
  unfold firstPhase
  split <;> simp [firstSymbol]

theorem State.startPass_eq {s : State} (g : Bool) {ch : Fin 8} {e : Entry} {b : Bulletin}
    (hb : s.bulletin e.bulletin = some b) :
    s.turnStarted ch (firstPhase g (s.channel ch).settings) (.entry e) (s.startPass g ch e) := by
  refine ⟨b, hb, ?_⟩
  simp only [State.startPass, hb, State.emit, setBulletin_setChannel, setChannel_setChannel, State.setBulletin_channel,
    State.channel_setChannel, if_true, firstSymbol_firstPhase]
  rfl

theorem State.startTelex_eq (s : State) (g : Bool) (ch : Fin 8) (c : Fin 32) :
    s.turnStarted ch (firstPhase g (s.channel ch).settings) (.circuit c) (s.startTelex g ch c) := by
  simp only [State.turnStarted, State.startTelex, State.emit, setCircuit_setChannel, setChannel_setChannel,
    State.setCircuit_channel, State.channel_setChannel, if_true, firstSymbol_firstPhase]
  rfl

/-- A selection with anything eligible starts the turn that the choice names (07: R112, R121, R122). -/
theorem State.selectTurn_started {s : State} (g : Bool) {ch : Fin 8} (h : s.anythingEligible ch = true) :
    ∃ u, s.selectTurn g ch = some u ∧ s.turnStarted ch (firstPhase g (s.channel ch).settings) (s.choose ch) u := by
  unfold State.selectTurn
  match hc : s.choose ch with
  | .entry e =>
    obtain ⟨b, hb, _⟩ := entryEligible_spec (choose_entry hc).2
    exact ⟨_, rfl, startPass_eq g hb⟩
  | .circuit c => exact ⟨_, rfl, startTelex_eq s g ch c⟩
  | .nothing => rw [choose_nothing hc] at h; cases h

/-! ## The consultation -/

/-- What is chosen and what is eligible do not read the keying record of the channel. -/
theorem State.choose_keying (s : State) (ch : Fin 8) (x : Channel) (hp : x.profile = (s.channel ch).profile)
    (hq : x.queue = (s.channel ch).queue) (hb : x.bound = (s.channel ch).bound) (ht : x.turn = (s.channel ch).turn)
    (h1 : x.bulletinRun = (s.channel ch).bulletinRun) (h2 : x.telexRun = (s.channel ch).telexRun)
    (h3 : x.lastServed = (s.channel ch).lastServed) :
    (s.setChannel ch x).choose ch = s.choose ch ∧ (s.setChannel ch x).anythingEligible ch = s.anythingEligible ch := by
  have silenced : (s.setChannel ch x).silenced ch = s.silenced ch := by
    simp [State.silenced, State.channel_setChannel, hp]
  have entries : (s.setChannel ch x).entryEligible ch = s.entryEligible ch := by
    funext e
    simp only [State.entryEligible, State.setChannel_bulletin, silenced]
  have air (c : Fin 32) : (s.setChannel ch x).onAir c = s.onAir c := by
    simp only [State.onAir, State.setChannel_circuit, State.channel_setChannel]
    split
    · next h => rw [← h]; simp [Channel.carriesCircuit, ht]
    · rfl
  have circuits : (s.setChannel ch x).circuitEligible ch = s.circuitEligible ch := by
    funext c
    have waiting : (s.setChannel ch x).waiting c = s.waiting c := by unfold State.waiting; rw [air]; rfl
    simp only [State.circuitEligible, waiting, silenced]
  have here : (s.setChannel ch x).channel ch = x := by simp [State.channel_setChannel]
  have settings : x.settings = (s.channel ch).settings := by simp only [Channel.settings, hp]
  have head (k : Rank) : (s.setChannel ch x).headEligible ch k = s.headEligible ch k := by
    simp only [State.headEligible, here, hq, entries]
  have headAny : (s.setChannel ch x).headEligibleAny ch = s.headEligibleAny ch := by
    simp only [State.headEligibleAny, here, hq, entries]
  have next : (s.setChannel ch x).nextCircuit ch = s.nextCircuit ch := by
    simp only [State.nextCircuit, Channel.rotation, here, hb, h3, circuits]
  constructor
  · simp only [State.choose, head, headAny, next, here, settings, h1, h2]
  · simp only [State.anythingEligible, here, hq, hb, entries, circuits]

/-- The one thing a consultation can do (06: R96, R97). -/
theorem State.tellIdle_consulted (s : State) (ch : Fin 8) : s.consulted ch (s.tellIdle ch) := by
  unfold State.consulted State.tellIdle State.consult
  by_cases hi : (s.channel ch).state = .idle
  · by_cases ha : s.anythingEligible ch = true
    · have hn : ¬ ((s.channel ch).state ≠ .idle ∨ s.anythingEligible ch = false) := by simp [hi, ha]
      simp only [if_pos hi, if_pos ha, if_neg hn]
      by_cases hk : s.keyokOf ch = true
      · let keyed : Channel := { s.channel ch with state := .keyed, keyreq := true, permitTimer := none }
        have same := choose_keying s ch keyed rfl rfl rfl rfl rfl rfl rfl
        obtain ⟨u, hu, started⟩ := selectTurn_started (s := s.setChannel ch keyed) true (ch := ch) (same.2.trans ha)
        have : s.requestKey ch = u := by
          simp only [State.requestKey, State.setChannel_keyokOf, if_pos hk, State.grant, setChannel_setChannel,
            State.channel_setChannel, if_true]
          exact (congrArg (fun r => r.getD ((s.setChannel ch keyed).enterHold ch)) hu :)
        rw [this, if_neg (by simp [hk]), ← same.1]
        have settings : keyed.settings = (s.channel ch).settings := rfl
        simpa only [(firstPhase_eq _).1, State.channel_setChannel, if_true, settings] using started
      · have hk : s.keyokOf ch = false := by simpa using hk
        rw [if_pos hk]
        simp only [State.requestKey, State.setChannel_keyokOf, hk]
        rfl
    · have ha : s.anythingEligible ch = false := by simpa using ha
      simp [hi, ha]
  · simp [hi]

/-! ## The accepted set -/

theorem acceptedChar_iff (x : Byte) : acceptedChar x = true ↔ isTextCharacter x := by
  simp [acceptedChar, isTextCharacter, BitVec.le_def, or_assoc]

theorem isText_iff (chars : List Byte) :
    isText chars ↔ within 1 200 chars.length = true ∧ chars.all acceptedChar = true := by
  simp [isText, within, acceptedChar_iff, and_assoc]

end Sys2Proof.Machine
end

