-- ==== Sys2Proof/Laws/Line.lean ====
section
/-! SUPPORT. What the ends of an event can do: a raise (11: R180), a reply placed, a link error, and the arbiter of the
outgoing line (10: R178). -/

namespace Sys2Proof.Machine

/-! ## Raises -/

theorem raiseInto_keys (es : List NoticeEntry) (key : NoticeKey) (ev : Option NoticeEvent) (add : Counts) :
    (raiseInto es key ev add).map (fun e => e.key) =
      if key ∈ es.map (fun e => e.key) then es.map (fun e => e.key) else es.map (fun e => e.key) ++ [key] := by
  induction es with
  | nil => rfl
  | cons e es ih =>
    simp only [raiseInto]
    by_cases h : e.key = key
    · simp [h]
    · have h' : ¬ key = e.key := fun he => h he.symm
      simp only [if_neg h, List.map_cons, List.mem_cons, ih, h', false_or]
      split <;> simp [*]

/-- No two entries come under one key. -/
theorem raiseInto_nodup {es : List NoticeEntry} (h : (es.map fun e => e.key).Nodup) (key : NoticeKey)
    (ev : Option NoticeEvent) (add : Counts) : ((raiseInto es key ev add).map fun e => e.key).Nodup := by
  rw [raiseInto_keys]
  split
  · exact h
  · next hk => exact List.nodup_append.mpr ⟨h, List.nodup_singleton _, fun a ha b hb => by
      rw [List.mem_singleton] at hb; subst hb; exact fun e => hk (e ▸ ha)⟩

/-! ## The arbiter -/

/-- A line that is busy is left alone. -/
theorem State.arbitrate_busy {s : State} {f : OutFrame} (h : s.link.outgoing = some f) : s.arbitrate = s := by
  simp [State.arbitrate, h]

/-- With nothing to send, nothing begins. -/
theorem State.arbitrate_nothing {s : State} (hr : s.link.replies = []) (hn : s.notices = []) : s.arbitrate = s := by
  simp only [State.arbitrate, State.chooseNext, hr, hn, ite_self]

/-- A reply goes before any notice. -/
theorem State.arbitrate_reply {s : State} {r : Reply} {rest : List Reply} (h : s.link.outgoing = none)
    (hr : s.link.replies = r :: rest) : s.arbitrate = s.beginReply r rest := by
  simp [State.arbitrate, State.chooseNext, h, hr]

theorem State.arbitrate_notice {s : State} {e : NoticeEntry} {rest : List NoticeEntry} (h : s.link.outgoing = none)
    (hr : s.link.replies = []) (hn : s.notices = e :: rest) : s.arbitrate = s.beginNotice e rest := by
  simp [State.arbitrate, State.chooseNext, h, hr, hn]

/-- The arbiter writes the line and the Notice Queue, and nothing else. -/
theorem State.arbitrate_frame (s : State) :
    s.arbitrate = { s with notices := s.arbitrate.notices, link := s.arbitrate.link } := by
  unfold State.arbitrate State.chooseNext
  split
  · rfl
  · split <;> rfl

/-- Of the link the arbiter writes the reply list, the outgoing frame and the link error count. -/
theorem State.arbitrate_link (s : State) :
    s.arbitrate.link = { s.link with
      replies := s.arbitrate.link.replies, outgoing := s.arbitrate.link.outgoing, errors := s.arbitrate.link.errors } := by
  unfold State.arbitrate State.chooseNext
  split
  · rfl
  · split <;> rfl

/-- What the arbiter leaves of the Notice Queue has still its keys once each. -/
theorem State.arbitrate_noticeLaw {s : State} (h : (s.notices.map fun e => e.key).Nodup) :
    (s.arbitrate.notices.map fun e => e.key).Nodup := by
  unfold State.arbitrate State.chooseNext
  split
  · exact h
  · split
    · exact h
    · next hn =>
      rw [hn] at h
      exact (List.nodup_cons.mp h).2
    · exact h

/-! ## Replies -/

theorem State.placeReply_frame (s : State) (r : ReplyTo) (k : Byte) (v : Verdict) :
    s.placeReply r k v = { s with link := { s.link with replies := (s.placeReply r k v).link.replies } } := rfl

/-- Replies to frames change nothing but the reply list. -/
theorem State.replyStatus_foldl_frame (s : State) (st : Status) (fs : List Frame) :
    fs.foldl (fun s f => s.replyStatus f st) s =
      { s with link := { s.link with
        replies := s.link.replies ++ fs.map fun f => ⟨f.tag, f.position, f.kindOctet, st, [], 0⟩ } } := by
  induction fs generalizing s with
  | nil => simp
  | cons f fs ih =>
    rw [List.foldl_cons, ih]
    simp only [State.replyStatus, State.placeReply, List.map_cons, List.append_assoc, List.singleton_append]

end Sys2Proof.Machine
end

