-- ==== Sys2Proof/Laws/Memory.lean ====
section
/-! SUPPORT. The cells of the Text Store: a write is read back, leaves every other address as it was, and keeps the
canonical form; and the two ways in which texts are stored keep it. -/

namespace Sys2Proof.Machine

namespace Memory

theorem wfFrom_mono {m : Memory} {low high : Nat} (h : wfFrom high m = true) (hl : low ≤ high) : wfFrom low m = true := by
  cases m with
  | nil => rfl
  | cons c m =>
    simp only [wfFrom, Bool.and_eq_true, decide_eq_true_eq] at h ⊢
    exact ⟨⟨Nat.le_trans hl h.1.1, h.1.2⟩, h.2⟩

theorem wfFrom_write {m : Memory} {low x : Nat} (v : Byte) (h : wfFrom low m = true) (hx : low ≤ x) :
    wfFrom low (m.write x v) = true := by
  induction m generalizing low with
  | nil =>
    simp only [write]
    split
    · rfl
    · next hv => simp [wfFrom, hx, hv]
  | cons c m ih =>
    obtain ⟨a, b⟩ := c
    simp only [wfFrom, Bool.and_eq_true, decide_eq_true_eq] at h
    simp only [write]
    split
    · next hxa =>
      split
      · simp [wfFrom, h]
      · next hv =>
        simp only [wfFrom, Bool.and_eq_true, decide_eq_true_eq, bne_iff_ne]
        exact ⟨⟨hx, hv⟩, ⟨hxa, by simpa using h.1.2⟩, h.2⟩
    · split
      · next he =>
        subst he
        split
        · exact wfFrom_mono h.2 (by omega)
        · next hv => simp [wfFrom, hx, hv, h.2]
      · simp only [wfFrom, Bool.and_eq_true, decide_eq_true_eq]
        exact ⟨h.1, ih h.2 (by omega)⟩

/-- A write keeps the canonical form. -/
theorem wf_write {m : Memory} (h : m.wf = true) (x : Nat) (v : Byte) : (m.write x v).wf = true :=
  wfFrom_write v h (Nat.zero_le _)

theorem read_of_lt {m : Memory} {low x : Nat} (h : wfFrom low m = true) (hx : x < low) : m.read x = blankByte := by
  induction m generalizing low with
  | nil => rfl
  | cons c m ih =>
    obtain ⟨a, b⟩ := c
    simp only [wfFrom, Bool.and_eq_true, decide_eq_true_eq] at h
    rw [read, if_neg (by omega)]
    exact ih h.2 (by omega)

theorem read_write_from {m : Memory} {low : Nat} (h : wfFrom low m = true) (x y : Nat) (v : Byte) :
    (m.write x v).read y = if y = x then v else m.read y := by
  induction m generalizing low with
  | nil =>
    simp only [write]
    split
    · next hv => subst hv; simp [read]
    · simp only [read]
  | cons c m ih =>
    obtain ⟨a, b⟩ := c
    simp only [wfFrom, Bool.and_eq_true, decide_eq_true_eq] at h
    simp only [write]
    split
    · next hxa =>
      split
      · next hv =>
        split
        · next hyx =>
          subst hyx
          rw [read, if_neg (by omega), hv]
          exact read_of_lt h.2 (by omega)
        · rfl
      · simp only [read]
    · split
      · next he =>
        subst he
        split
        · next hv =>
          split
          · next hyx => subst hyx; rw [hv]; exact read_of_lt h.2 (by omega)
          · next hyx => rw [read, if_neg hyx]
        · simp only [read]
          split <;> rfl
      · next hne =>
        simp only [read]
        rw [ih h.2]
        by_cases hya : y = a
        · subst hya; rw [if_pos rfl, if_pos rfl, if_neg (fun e => hne e.symm)]
        · simp only [if_neg hya]

/-- The byte written is the byte read there, and every other address reads as before. -/
theorem read_write {m : Memory} (h : m.wf = true) (x y : Nat) (v : Byte) :
    (m.write x v).read y = if y = x then v else m.read y :=
  read_write_from h x y v

end Memory

theorem TextMap.storeAtPointer_wf {m : TextMap} {cells : Memory} (h : cells.wf = true) (c : Byte) :
    (m.storeAtPointer cells c).2.wf = true := by
  unfold TextMap.storeAtPointer
  split
  · exact h
  · exact Memory.wf_write h _ _

theorem TextMap.storeChars_wf (how : Manner) (cs : List Byte) {m : TextMap} {cells : Memory} (h : cells.wf = true) :
    (TextMap.storeChars how cs m cells).2.1.wf = true := by
  induction cs generalizing m cells with
  | nil => exact h
  | cons c cs ih =>
    unfold TextMap.storeChars
    dsimp only
    split
    · split
      · exact h
      · split
        · exact h
        · exact ih (TextMap.storeAtPointer_wf h c)
    · exact ih (TextMap.storeAtPointer_wf h c)

theorem Chain.storeAtTail_wf {k : Chain} {cells : Memory} (h : cells.wf = true) (c : Byte) :
    (k.storeAtTail cells c).2.wf = true := by
  unfold Chain.storeAtTail
  split
  · exact h
  · exact Memory.wf_write h _ _

theorem storeArrival_wf (cs : List Byte) {k : Chain} {t : TextStore} (h : t.cells.wf = true) :
    (storeArrival cs k t).2.1.cells.wf = true := by
  induction cs generalizing k t with
  | nil => exact h
  | cons c cs ih =>
    unfold storeArrival
    split
    · exact h
    · split
      · split
        · exact h
        · exact ih (Chain.storeAtTail_wf h c)
      · exact ih (Chain.storeAtTail_wf h c)

/-- The cells at reset are in canonical form. -/
theorem State.atRest_cells_wf (k : Vector Bool 8) (b : Bool) (q : List Instr) (p : List Nat) :
    (State.atRest k b q p).store.cells.wf = true := rfl

theorem State.reset_cells_wf : State.reset.store.cells.wf = true := rfl

end Sys2Proof.Machine
end

