-- ==== Sys2Proof/Laws/Queue.lean ====
section
/-! SUPPORT. The two places of a broadcast queue (07: R114): what an insertion holds, and that it keeps the classes in
order. -/

namespace Sys2Proof.Machine

theorem mem_insertAtTail {q : List Entry} {e x : Entry} : x ∈ insertAtTail q e ↔ x = e ∨ x ∈ q := by
  have h := List.takeWhile_append_dropWhile (p := fun y : Entry => decide (y.rank ≤ e.rank)) (l := q)
  unfold insertAtTail
  simp only [List.mem_append, List.mem_cons]
  constructor
  · rintro (h1 | h1 | h1)
    · exact .inr ((List.takeWhile_prefix _).subset h1)
    · exact .inl h1
    · exact .inr ((List.dropWhile_suffix _).subset h1)
  · rintro (h1 | h1)
    · exact .inr (.inl h1)
    · rw [← h] at h1
      rcases List.mem_append.mp h1 with h2 | h2
      · exact .inl h2
      · exact .inr (.inr h2)

theorem mem_insertAtHead {q : List Entry} {e x : Entry} : x ∈ insertAtHead q e ↔ x = e ∨ x ∈ q := by
  have h := List.takeWhile_append_dropWhile (p := fun y : Entry => decide (y.rank < e.rank)) (l := q)
  unfold insertAtHead
  simp only [List.mem_append, List.mem_cons]
  constructor
  · rintro (h1 | h1 | h1)
    · exact .inr ((List.takeWhile_prefix _).subset h1)
    · exact .inl h1
    · exact .inr ((List.dropWhile_suffix _).subset h1)
  · rintro (h1 | h1)
    · exact .inr (.inl h1)
    · rw [← h] at h1
      rcases List.mem_append.mp h1 with h2 | h2
      · exact .inl h2
      · exact .inr (.inr h2)

/-- Dropping the entries that a test takes from the front of a queue with rising classes leaves entries that fail it,
where the test goes by class. -/
theorem dropWhile_rank {q : List Entry} {k : Rank} (h : (q.map fun e => e.rank).Pairwise (· ≤ ·)) (x : Entry)
    (hx : x ∈ q.dropWhile fun y => decide (y.rank ≤ k)) : k < x.rank := by
  induction q with
  | nil => cases hx
  | cons a q ih =>
    simp only [List.map_cons, List.pairwise_cons] at h
    by_cases ha : a.rank ≤ k
    · rw [List.dropWhile_cons_of_pos (by simpa using ha)] at hx
      exact ih h.2 hx
    · rw [List.dropWhile_cons_of_neg (by simpa using ha)] at hx
      rcases List.mem_cons.mp hx with rfl | hx
      · exact lt_of_not_ge ha
      · exact lt_of_lt_of_le (lt_of_not_ge ha) (h.1 _ (List.mem_map_of_mem hx))

theorem dropWhile_rank_lt {q : List Entry} {k : Rank} (h : (q.map fun e => e.rank).Pairwise (· ≤ ·)) (x : Entry)
    (hx : x ∈ q.dropWhile fun y => decide (y.rank < k)) : k ≤ x.rank := by
  induction q with
  | nil => cases hx
  | cons a q ih =>
    simp only [List.map_cons, List.pairwise_cons] at h
    by_cases ha : a.rank < k
    · rw [List.dropWhile_cons_of_pos (by simpa using ha)] at hx
      exact ih h.2 hx
    · rw [List.dropWhile_cons_of_neg (by simpa using ha)] at hx
      rcases List.mem_cons.mp hx with rfl | hx
      · exact le_of_not_gt ha
      · exact le_trans (le_of_not_gt ha) (h.1 _ (List.mem_map_of_mem hx))

theorem insertAtTail_sorted {q : List Entry} (e : Entry) (h : (q.map fun x => x.rank).Pairwise (· ≤ ·)) :
    ((insertAtTail q e).map fun x => x.rank).Pairwise (· ≤ ·) := by
  have h' := h
  rw [← List.takeWhile_append_dropWhile (p := fun y : Entry => decide (y.rank ≤ e.rank)) (l := q), List.map_append,
    List.pairwise_append] at h'
  unfold insertAtTail
  rw [List.map_append, List.map_cons, List.pairwise_append, List.pairwise_cons]
  refine ⟨h'.1, ⟨fun r hr => ?_, h'.2.1⟩, fun a ha b hb => ?_⟩
  · obtain ⟨x, hx, rfl⟩ := List.mem_map.mp hr
    exact le_of_lt (dropWhile_rank h x hx)
  · rcases List.mem_cons.mp hb with rfl | hb
    · obtain ⟨x, hx, rfl⟩ := List.mem_map.mp ha
      simpa using List.mem_takeWhile_imp hx
    · exact h'.2.2 a ha b hb

theorem insertAtHead_sorted {q : List Entry} (e : Entry) (h : (q.map fun x => x.rank).Pairwise (· ≤ ·)) :
    ((insertAtHead q e).map fun x => x.rank).Pairwise (· ≤ ·) := by
  have h' := h
  rw [← List.takeWhile_append_dropWhile (p := fun y : Entry => decide (y.rank < e.rank)) (l := q), List.map_append,
    List.pairwise_append] at h'
  unfold insertAtHead
  rw [List.map_append, List.map_cons, List.pairwise_append, List.pairwise_cons]
  refine ⟨h'.1, ⟨fun r hr => ?_, h'.2.1⟩, fun a ha b hb => ?_⟩
  · obtain ⟨x, hx, rfl⟩ := List.mem_map.mp hr
    exact dropWhile_rank_lt h x hx
  · rcases List.mem_cons.mp hb with rfl | hb
    · obtain ⟨x, hx, rfl⟩ := List.mem_map.mp ha
      have := List.mem_takeWhile_imp hx
      simp only [decide_eq_true_eq] at this
      exact le_of_lt this
    · exact h'.2.2 a ha b hb

end Sys2Proof.Machine
end

