-- ==== Sys2Proof/Laws/Texts.lean ====
section
/-! SUPPORT. The texts of a turn and the payload of a notice are, octet by octet, what the statements write out. -/

namespace Sys2Proof.Machine

theorem threeDigits_eq_serialOctets (n : Nat) : threeDigits n = serialOctets n := rfl

theorem decimal_eq_revisionOctets (n : Nat) : decimal n = revisionOctets n := by
  unfold decimal revisionOctets threeDigits
  by_cases h : n < 10
  · simp [h, Nat.not_le.mpr h, Nat.not_le.mpr (Nat.lt_of_lt_of_le h (by decide : 10 ≤ 100)), digit, digitOctet]
  · by_cases g : n < 100 <;> simp [h, g, Nat.not_lt.mp h, Nat.not_le.mpr, Nat.not_lt.mp, digit, digitOctet]

theorem code_eq_categoryOctets (k : Category) : k.code = categoryOctets k := by cases k <;> rfl

theorem headerText_eq_headerOctets (s : State) (k : TurnKind) : s.headerText k = s.headerOctets k := by
  cases k with
  | telex c => rfl
  | pass p => simp only [State.headerText, State.headerOctets, passHeader, threeDigits_eq_serialOctets,
      code_eq_categoryOctets, decimal_eq_revisionOctets]; rfl

theorem trailerText_eq_trailerOctets (k : TurnKind) : trailerText k = trailerOctets k := by cases k <;> rfl

theorem breakSequence_eq_breakOctets : breakSequence = breakOctets := rfl

theorem closingSequence_eq_closingOctets (k : TurnKind) (r : CutReason) : closingSequence k r = closingOctets k r := by
  cases k <;> cases r <;> rfl

/-- The bit of the events that stand at one place of their kinds' lists. -/
theorem any_bit_cons (k : Byte) (names es : List NoticeEvent) (v : NoticeEvent) :
    (if (v :: es).any (fun v => decide (v ∈ names)) = true then k else 0) =
      (if v ∈ names then k else 0) ||| (if es.any (fun v => decide (v ∈ names)) = true then k else 0) := by
  by_cases h : v ∈ names
  · by_cases g : es.any (fun v => decide (v ∈ names)) = true <;> simp [List.any_cons, h, g]
  · simp [List.any_cons, h]

theorem placeBit_eq (v : NoticeEvent) :
    (1 : Byte) <<< v.place =
      (if v ∈ [NoticeEvent.pause, .completed, .locked, .started] then 1 else 0) |||
      (if v ∈ [NoticeEvent.resume, .interrupted, .off, .clockDrifting] then 2 else 0) |||
      (if v ∈ [NoticeEvent.holdExceeded, .abandoned, .permitTimeout, .clockLocked] then 4 else 0) |||
      (if v ∈ [NoticeEvent.moved, .missed, .permitLost, .silenceOn] then 8 else 0) |||
      (if v ∈ [NoticeEvent.closed, .committed, .gapStart, .silenceOff] then 16 else 0) |||
      (if v ∈ [NoticeEvent.retired, .gapEnd] then 32 else 0) := by
  cases v <;> decide

theorem orPlaces_eq_bits (es : List NoticeEvent) (b : Byte) :
    let bit (k : Byte) (names : List NoticeEvent) : Byte := if es.any (fun v => decide (v ∈ names)) then k else 0
    (es.map NoticeEvent.place).foldl (fun b p => b ||| ((1 : Byte) <<< p)) b =
      b ||| (bit 1 [.pause, .completed, .locked, .started] ||| bit 2 [.resume, .interrupted, .off, .clockDrifting] |||
        bit 4 [.holdExceeded, .abandoned, .permitTimeout, .clockLocked] |||
        bit 8 [.moved, .missed, .permitLost, .silenceOn] ||| bit 16 [.closed, .committed, .gapStart, .silenceOff] |||
        bit 32 [.retired, .gapEnd]) := by
  induction es generalizing b with
  | nil => simp
  | cons v es ih =>
    simp only [List.map_cons, List.foldl_cons, ih, any_bit_cons, placeBit_eq]
    ac_rfl

/-- The payload of a notice as it is written out. -/
theorem noticePayload_eq_noticeOctets (s : State) (e : NoticeEntry) : s.noticePayload e = s.noticeOctets e := by
  obtain ⟨key, events, counts⟩ := e
  have h : encodePlaces (events.map NoticeEvent.place) = [_] :=
    congrArg (fun x => [x]) ((orPlaces_eq_bits events 0).trans (BitVec.zero_or))
  unfold State.noticePayload State.noticeOctets
  rw [h]
  dsimp only
  generalize (_ ||| if (events.any fun v => decide (v ∈ [NoticeEvent.retired, .gapEnd])) = true then (32 : Byte) else 0) = o
  cases key with
  | circuit c =>
    simp only [State.noticeBody]
    generalize s.circuit c = x
    obtain ⟨life, host, channel, _, _, _, flow, _, _, _, _, _⟩ := x
    cases life <;> cases host <;> cases channel <;> cases flow <;> first
      | rfl
      | simp [Circuit.noticeFields, Circuit.state, holdReasonFields, encodePlaces, CircuitState.place, Flow.place,
          encodeOctet, encodeWord, NoticeKey.kindPlace, NoticeKey.number, encodeOptional]
  | bulletin n =>
    simp only [State.noticeBody, bulletinNoticeFields]
    cases s.bulletin n with
    | none => rfl
    | some b => rcases b with ⟨st⟩; cases st <;> simp [encodeOctet, encodeWord, bulletinStatePlace, NoticeKey.kindPlace,
        NoticeKey.number, encodeOptional]
  | channel ch =>
    simp only [State.noticeBody]
    cases (s.channel ch).state <;> rfl
  | station =>
    simp only [State.noticeBody, State.stationNoticeFields]
    cases s.clock.status <;> cases s.silence <;> rfl

end Sys2Proof.Machine
end

