-- ==== Sys2Proof/Tests/Slice0.lean ====
section
/-! SUPPORT. The model's own tests: ill-formed requests that the check refuses, the spec's worked values one step at a
time, and for every statement a state that meets its hypotheses, at the ends of its clauses. -/

namespace Sys2Proof.Tests

open Sys2Proof Sys2Proof.Machine

/- One test after another: waiting tests would each hold a thread. -/
set_option Elab.async false

/-! ## Small states -/

def who : ReplyTo := ⟨7, 0⟩

def fullSet : List Category := [.dr, .ur, .nw, .mw, .wf, .ir, .rn]

/-- Five-unit code at 50 baud, lead 2, phasing 4, key hold 2. -/
def profile : Profile := ⟨50, .fiveUnit, 2, 4, 2, 100, 1, 64, 2, 1, 1, fullSet, true⟩

def at0 (st : ChannelState) : Channel := { Channel.reset with profile := some profile, state := st }

/-- Channel 0 as given, the rest as after reset. -/
def onChannel0 (x : Channel) : State := State.reset.setChannel 0 x

/-- A channel that keys with a turn and a symbol in progress. -/
def onAir (t : Turn) (y : Symbol) : Channel :=
  { at0 .keyed with keyreq := true, turn := some t, output := some ⟨y, 0⟩ }

def bound0 : Circuit := { Circuit.reset with life := .bound, callUp := [0x41] }

/-- A circuit with two characters queued, at the end of block 1 and the start of block 2. -/
def queued : Circuit := { bound0 with chain := ⟨[1, 2], 63, 1⟩ }

def withCircuit (x : Circuit) (s : State) : State := s.setCircuit 0 x

def map70 (a b : Nat) : TextMap := ⟨70, [⟨5, a⟩, ⟨6, b⟩], 0⟩

def bulletin (st : BulletinState) (m : TextMap) : Bulletin :=
  { declared 12 .ur m ⟨[0], .now, 2, none⟩ with state := st }

def withBulletin (b : Bulletin) (s : State) : State := s.setBulletin 3 (some b)

def telexTurn (p : Phase) : Turn := Turn.fresh (.telex ⟨0, 0, 0⟩) p

def passOf (b : Bulletin) : PassTurn := loadPass b ⟨3, 1, 2, 0, 0⟩

def passTurn (b : Bulletin) (p : Phase) : Turn := Turn.fresh (.pass (passOf b)) p

def schedule0 : ScheduleFields := ⟨1, .every 5, 1, some 1⟩

/-! ## Well-formed requests -/

theorem test_wellformed_numbers_fit :
    (Request.setClock 65535).wellFormed = true ∧ (Request.setClock 65536).wellFormed = false ∧
    (Request.channelOn 255).wellFormed = true ∧ (Request.channelOn 256).wellFormed = false ∧
    (Request.setStation ⟨256, 0, 0, 0⟩).wellFormed = false ∧ (Request.setStation ⟨0, 65536, 0, 0⟩).wellFormed = false ∧
    (Request.setStation ⟨0, 0, 256, 0⟩).wellFormed = false ∧ (Request.setStation ⟨0, 0, 0, 65536⟩).wellFormed = false ∧
    (Request.channelOff 0 256).wellFormed = false ∧ (Request.channelOff 256 0).wellFormed = false := by decide

theorem test_wellformed_profile_fits :
    (Request.setProfile 0 ⟨255, 255, 255, 255, 255, 65535, 255, 65535, 255, 255, 255, 255, 255⟩).wellFormed = true ∧
    (Request.setProfile 256 ⟨0, 0, 0, 0, 0, 0, 0, 0, 0, 0, 0, 0, 0⟩).wellFormed = false ∧
    ([⟨256, 0, 0, 0, 0, 0, 0, 0, 0, 0, 0, 0, 0⟩, ⟨0, 256, 0, 0, 0, 0, 0, 0, 0, 0, 0, 0, 0⟩,
      ⟨0, 0, 256, 0, 0, 0, 0, 0, 0, 0, 0, 0, 0⟩, ⟨0, 0, 0, 256, 0, 0, 0, 0, 0, 0, 0, 0, 0⟩,
      ⟨0, 0, 0, 0, 256, 0, 0, 0, 0, 0, 0, 0, 0⟩, ⟨0, 0, 0, 0, 0, 65536, 0, 0, 0, 0, 0, 0, 0⟩,
      ⟨0, 0, 0, 0, 0, 0, 256, 0, 0, 0, 0, 0, 0⟩, ⟨0, 0, 0, 0, 0, 0, 0, 65536, 0, 0, 0, 0, 0⟩,
      ⟨0, 0, 0, 0, 0, 0, 0, 0, 256, 0, 0, 0, 0⟩, ⟨0, 0, 0, 0, 0, 0, 0, 0, 0, 256, 0, 0, 0⟩,
      ⟨0, 0, 0, 0, 0, 0, 0, 0, 0, 0, 256, 0, 0⟩, ⟨0, 0, 0, 0, 0, 0, 0, 0, 0, 0, 0, 256, 0⟩,
      ⟨0, 0, 0, 0, 0, 0, 0, 0, 0, 0, 0, 0, 256⟩] : List ProfileFields).all (fun f => !f.fits) = true := by decide

/-- The longest texts that a payload of 240 octets holds, and one character more. -/
theorem test_wellformed_payload_fits :
    (Request.circuitText 0 (List.replicate 237 0x41)).wellFormed = true ∧
    (Request.circuitText 0 (List.replicate 238 0x41)).wellFormed = false ∧
    (Request.openCircuit 0 0 (List.replicate 236 0x41)).wellFormed = true ∧
    (Request.openCircuit 0 0 (List.replicate 237 0x41)).wellFormed = false ∧
    (Request.bulletinText 1 0 (some 3) (List.replicate 234 0x41)).wellFormed = true ∧
    (Request.bulletinText 1 0 (some 3) (List.replicate 235 0x41)).wellFormed = false ∧
    (Request.bulletinText 1 0 none (List.replicate 235 0x41)).wellFormed = true := by decide +kernel

theorem test_wellformed_schedules_fit :
    (Request.amendBulletin 1 ⟨256, .now, 1, none⟩).wellFormed = false ∧
    (Request.amendBulletin 1 ⟨1, .every 65536, 1, none⟩).wellFormed = false ∧
    (Request.amendBulletin 1 ⟨1, .atMinutes [65536], 1, none⟩).wellFormed = false ∧
    (Request.amendBulletin 1 ⟨1, .now, 256, none⟩).wellFormed = false ∧
    (Request.amendBulletin 1 ⟨1, .now, 1, some 256⟩).wellFormed = false ∧
    (Request.declareBulletin 1 65536 0 0 ⟨1, .now, 1, none⟩).wellFormed = false ∧
    (Request.amendBulletin 1 ⟨1, .atMinutes (List.replicate 118 0), 1, none⟩).wellFormed = false ∧
    (Request.readText 1 0 65536 0).wellFormed = false ∧ (Request.stageRevision 1 65536).wellFormed = false := by decide +kernel

theorem test_wellformed_events_always : Instr.frameTake.wellFormed = true ∧ (Instr.setClock who 65536).wellFormed = false := by
  decide

/-! ## The line (10) -/

/-- The check value of the frame check (10: R168). -/
theorem test_crc_check_value :
    crc [0x31, 0x32, 0x33, 0x34, 0x35, 0x36, 0x37, 0x38, 0x39] = 0x29B1 := by decide +kernel

/-- A SET CLOCK payload, octet by octet. -/
theorem test_decode_set_clock : decodeRequest [0x02, 0x02, 0xD0] = some (.setClock 720) := by decide

theorem test_decode_declare :
    decodeRequest [0x30, 3, 0, 12, 1, 0, 70, 0x01, 2, 0, 5, 1, 1, 1] = some (.declareBulletin 3 12 1 70 schedule0) := by decide

theorem test_decode_bulletin_text : decodeRequest [0x31, 3, 1, 1, 2, 1, 0x41] = some (.bulletinText 3 1 (some 2) [0x41]) := by
  decide

/-- Unknown kinds and fields of the wrong count or size are no request. -/
theorem test_decode_refuses :
    decodeRequest [] = none ∧ decodeRequest [0x05] = none ∧ decodeRequest [0x02, 0x02] = none ∧
    decodeRequest [0x03, 0] = none ∧ decodeRequest [0x21, 0, 2, 0x41] = none := by decide

/-- A whole READ STATION frame, its octets written out, is queued. -/
theorem test_frame_is_queued :
    ([0xA5, 0x40, 7, 1, 0x03] ++ crcOctets [0x40, 7, 1, 0x03]).foldl State.receiveOctet State.reset =
      State.reset.setReceiveQueue [⟨7, 0, false, [0x03]⟩] := by decide +kernel

/-- 17 octets of 10 bit times each at 115200 bit/s. -/
theorem test_reset_line : State.reset.link.outgoing = some ⟨.notice, false, 0, 0, startedPayload, 425⟩ := by decide

theorem test_step_idle : ∃ t, step State.reset = .next t ∧ t.now = 1 := ⟨_, rfl, rfl⟩

theorem test_step_takes_front :
    step { State.reset with pending := [.setClock who 5, .frameTake] } =
      exec (.setClock who 5) { State.reset with pending := [.frameTake] } := rfl

/-! ## Symbols and texts (06, 08, 09) -/

/-- 7.5 unit intervals at 50 baud are 150 ms, and 10 at 200 baud are 50 ms (06: R93). -/
theorem test_symbol_periods :
    profile.symbolTicks = Config.milliseconds 150 ∧
    ({ profile with rate := 200, code := .sevenUnit } : Profile).symbolTicks = Config.milliseconds 50 := by decide

theorem test_conversion :
    convert .fiveUnit 0x61 = ⟨0x41, some .letters, false⟩ ∧ convert .fiveUnit 0x35 = ⟨0x35, some .figures, false⟩ ∧
    convert .fiveUnit 0x23 = ⟨0x3F, some .figures, true⟩ ∧ convert .fiveUnit 0x20 = ⟨0x20, none, false⟩ ∧
    convert .sevenUnit 0x23 = ⟨0x23, none, false⟩ := by decide

/-- "BLT 012 UR REV 1", "END 012" and "CANCEL 012" (08: R134, R149; 09: R157). -/
theorem test_pass_texts :
    passHeader (passOf (bulletin .released (map70 0 0))) =
      [0x42, 0x4C, 0x54, 0x20, 0x30, 0x31, 0x32, 0x20, 0x55, 0x52, 0x20, 0x52, 0x45, 0x56, 0x20, 0x31, 0x0D, 0x0A] ∧
    passTrailer (passOf (bulletin .released (map70 0 0))) =
      [0x0D, 0x0A, 0x45, 0x4E, 0x44, 0x20, 0x30, 0x31, 0x32, 0x0D, 0x0A] ∧
    closingSequence (.pass (passOf (bulletin .released (map70 0 0)))) .withdraw =
      [0x0D, 0x0A, 0x43, 0x41, 0x4E, 0x43, 0x45, 0x4C, 0x20, 0x30, 0x31, 0x32, 0x0D, 0x0A] ∧
    closingSequence (.telex ⟨0, 0, 0⟩) .purge = [0x0D, 0x0A, 0x42, 0x52, 0x4B, 0x0D, 0x0A] := by decide

theorem test_telex_header_cont :
    telexHeader [0x41, 0x42] true = [0x41, 0x42, 0x20, 0x43, 0x4F, 0x4E, 0x54, 0x0D, 0x0A] ∧
    telexHeader [0x41] false = [0x41, 0x0D, 0x0A] := by decide

/-- The texts as the statements write them out: a header with one, two and three digits of the revision, one of a telex turn
that resumes, and the trailers and sequences (08: R132, R134, R140, R149; 09: R157). -/
theorem test_octets_of_texts :
    let pass (revision : Nat) : TurnKind :=
      .pass { passOf (bulletin .released (map70 0 0)) with serial := 57, category := .nw, revision := revision }
    let s := withCircuit { bound0 with resume := true } State.reset
    let blt : List Byte := [0x42, 0x4C, 0x54, 0x20, 0x30, 0x35, 0x37, 0x20, 0x4E, 0x57, 0x20, 0x52, 0x45, 0x56, 0x20]
    [s.headerOctets (pass 12), s.headerOctets (pass 9), s.headerOctets (pass 999), s.headerOctets (.telex ⟨0, 0, 0⟩),
      trailerOctets (pass 1), trailerOctets (.telex ⟨0, 0, 0⟩), closingOctets (pass 1) .withdraw, closingOctets (pass 1) .purge] =
      [blt ++ [0x31, 0x32, 0x0D, 0x0A], blt ++ [0x39, 0x0D, 0x0A], blt ++ [0x39, 0x39, 0x39, 0x0D, 0x0A],
        [0x41, 0x20, 0x43, 0x4F, 0x4E, 0x54, 0x0D, 0x0A], [0x0D, 0x0A, 0x45, 0x4E, 0x44, 0x20, 0x30, 0x35, 0x37, 0x0D, 0x0A],
        [0x0D, 0x0A], [0x0D, 0x0A, 0x43, 0x41, 0x4E, 0x43, 0x45, 0x4C, 0x20, 0x30, 0x35, 0x37, 0x0D, 0x0A],
        [0x0D, 0x0A, 0x42, 0x52, 0x4B, 0x0D, 0x0A]] := by decide +kernel

/-- A notice of each kind, octet by octet: PAUSE and CLOSED of a CLOSING circuit that CHANNEL holds, COMPLETED and RETIRED of
an EMPTY entry, GAP_END of a KEYED channel, and no event of the station (11: R181). -/
theorem test_octets_of_notices :
    let s := withCircuit { queued with life := .closing, channelHold := true, flow := .pausedStore } (onChannel0 (at0 .keyed))
    let counts : Counts := ⟨258, 0, 0, 1, 0⟩
    [s.noticeOctets ⟨.circuit 0, [.closed, .pause], counts⟩, s.noticeOctets ⟨.bulletin 3, [.completed, .retired], counts⟩,
      s.noticeOctets ⟨.channel 0, [.gapEnd], counts⟩, s.noticeOctets ⟨.station, [], counts⟩] =
      [[0, 1, 0, 17, 3, 2, 2, 0, 2, 0], [1, 1, 3, 33, 0, 0, 0, 0, 1, 2, 0, 0, 0, 0, 0, 1], [2, 1, 0, 32, 5],
        [3, 0, 0, 0, 0, 1, 1, 4, 0, 0, 0]] := by decide +kernel

/-- The hold reasons stand beside the state in the notice of a CLOSING circuit alone (05: R71, R90; log 30). -/
theorem test_circuit_notice_fields :
    ({ queued with life := .closing, hostHold := true } : Circuit).noticeFields = [3, 1, 0, 0, 2, 0] ∧
    ({ queued with hostHold := true } : Circuit).noticeFields = [2, 0, 0, 2, 0] := by decide

/-! ## Memory (01) -/

/-- A write of the value that an unlisted address reads as leaves no cell. -/
theorem test_memory_canonical :
    Memory.write [(3, 1), (9, 2)] 3 0 = [(9, 2)] ∧ Memory.write [(3, 1), (9, 2)] 5 7 = [(3, 1), (5, 7), (9, 2)] ∧
    Memory.wf [(3, 1), (3, 2)] = false ∧ Memory.wf [(3, 0)] = false ∧ Memory.wf [(3, 1), (9, 2)] = true := by decide

/-! ## Hypotheses met, and the ends of clauses: the step and every command -/

theorem witness_EveryRequestIsAnsweredOnce :
    (Instr.setClock who 5).request = some (who, .setClock 5) ∧ Request.setClock 5 ≠ .restart ∧
    State.reset.resetHeld = false ∧ State.reset.link.restartPending = false ∧
    (State.reset.setLink { State.reset.link with restartPending := true }).link.restartPending = true := by decide

theorem witness_FailedRequestChangesNothing :
    (runRequest (.setClock 1440) State.reset).2.status = .range ∧
    (runRequest (.circuitText 0 [0x41]) (withCircuit bound0 (State.reset.takeBlocks 1024))).2.status = .storeFull := by
  decide +kernel

theorem witness_NumbersAreCheckedFirst :
    (runRequest (.channelOn 8) State.reset).2 = ⟨.range, [0]⟩ ∧ (runRequest (.channelOn 7) State.reset).2.status = .state ∧
    (runRequest (.readCircuit 32) State.reset).2 = ⟨.range, [0]⟩ ∧ (runRequest (.readCircuit 31) State.reset).2.status = .ok ∧
    (runRequest (.clearMarks 0) State.reset).2 = ⟨.nullEntry, []⟩ ∧
    (runRequest (.clearMarks 64) State.reset).2 = ⟨.range, [0]⟩ ∧
    (runRequest (.clearMarks 63) State.reset).2 = ⟨.notPresent, []⟩ ∧ State.reset.bulletin 63 = none := by decide

theorem witness_WrongStateIsRefused_channel :
    (at0 .idle).state ∉ [ChannelState.unset, .off] ∧ (at0 .idle).state ≠ .off ∧
    (at0 .off).state ∈ [ChannelState.unset, .off] ∧ ((onChannel0 (at0 .stopping)).channel 0).state = .stopping := by decide

theorem witness_WrongStateIsRefused_circuit :
    ((withCircuit bound0 State.reset).circuit 0).life ≠ .free ∧ (State.reset.circuit 0).life = .free ∧
    ({ bound0 with life := .closing } : Circuit).life = .closing ∧
    ({ bound0 with life := .closing } : Circuit).drainPending = false := by decide

theorem witness_WrongStateIsRefused_bulletin :
    (3 : Fin 64) ≠ 0 ∧
    (withBulletin (bulletin .withdrawing (map70 0 0)) State.reset).bulletin 3 = some (bulletin .withdrawing (map70 0 0)) ∧
    (bulletin .withdrawing (map70 0 0)).state ≠ .composing ∧ (bulletin .composing (map70 0 0)).state ≠ .released ∧
    (bulletin .released (map70 0 0)).staged = none ∧
    ({ bulletin .released (map70 0 0) with staged := some (map70 0 0), commitPending := true } : Bulletin).staged.isSome := by
  decide

theorem witness_IdleLineBeginsReplyThenNotice :
    State.reset.link.outgoing ≠ none ∧
    (let idle := State.reset.setLink { State.reset.link with outgoing := none }
     idle.link.outgoing = none ∧ idle.notices = [] ∧ idle.link.replies = [] ∧
     (idle.placeReply who 1 .ok).link.replies = [⟨7, 0, 1, .ok, [], 0⟩] ∧
     (idle.raiseEvent .station .silenceOn).notices = [⟨.station, [.silenceOn], Counts.zero⟩]) := by decide

/-- A run of two frames: 240 octets with MORE, then the rest. -/
theorem witness_long_reply :
    let idle := State.reset.setLink { State.reset.link with outgoing := none, replies := [⟨7, 0, 1, .ok, List.replicate 239 0, 0⟩] }
    idle.arbitrate.link.outgoing.map (fun f => (f.more, f.payload.length)) = some (true, 240) ∧
    idle.arbitrate.link.replies.map (fun r => r.sent) = [240] := by decide +kernel

theorem witness_RaiseAppendsOrMerges :
    (State.reset.notices = []) ∧
    raiseInto [⟨.station, [.silenceOn], ⟨0, 0, 0, 0, 65535⟩⟩] .station (some .silenceOn) ⟨0, 0, 0, 0, 1⟩ =
      [⟨.station, [.silenceOn], ⟨0, 0, 0, 0, 65535⟩⟩] := by decide

/-! ## The station and the channels -/

/-- Each field at and past its ends: 10 to 600, 2 to 120, 0 to 288. -/
theorem witness_SetStationPutsSettingsInForce :
    State.reset.serves ∧
    [(setStation ⟨1, 10, 2, 288⟩ State.reset).2, (setStation ⟨0, 600, 120, 0⟩ State.reset).2] = [.ok, .ok] ∧
    [(setStation ⟨2, 10, 2, 288⟩ State.reset).2, (setStation ⟨1, 9, 2, 288⟩ State.reset).2,
      (setStation ⟨1, 601, 2, 288⟩ State.reset).2, (setStation ⟨1, 10, 1, 288⟩ State.reset).2,
      (setStation ⟨1, 10, 121, 288⟩ State.reset).2, (setStation ⟨1, 10, 2, 289⟩ State.reset).2] =
      [.range 0, .range 1, .range 1, .range 2, .range 2, .range 3] := ⟨⟨rfl, rfl⟩, by decide +kernel⟩

/-- An episode that has lasted the new limit of 10 s, one tick less, and the limit as it was. -/
theorem witness_SetStation_expiry :
    let s := withCircuit { queued with waitStart := some 0 } State.reset
    let after (limit ticks : Nat) := (setStation ⟨0, limit, 2, 0⟩ { s with now := ticks }).1
    queued.holdNotified = false ∧ ((after 10 (Config.seconds 10)).circuit 0).holdNotified = true ∧
    ((after 10 (Config.seconds 10 - 1)).circuit 0).holdNotified = false ∧
    ((after 120 (Config.seconds 120)).circuit 0).holdNotified = false ∧
    (after 10 (Config.seconds 10)).notices.map (fun e => (e.key, e.events)) = [(.circuit 0, [.holdExceeded])] := by
  decide +kernel

theorem witness_SetClockSetsTheMinuteAlone :
    State.reset.serves ∧ (setClock 1439 State.reset).2 = .ok ∧ (setClock 1440 State.reset).2 = .range 0 :=
  ⟨⟨rfl, rfl⟩, by decide⟩

theorem witness_ReadsChangeNothing :
    State.reset.serves ∧ (3 : Fin 64) ≠ 0 ∧ (readStation State.reset).2.fields =
      [0, 0, 120, 20, 0, 64, 0, 0, 0, 1, 0, 4, 0, 0, 0, 1, 0, 0] := ⟨⟨rfl, rfl⟩, by decide, by decide +kernel⟩

theorem witness_RestartSkipsWhatWaits :
    State.reset.serves ∧ State.reset.link.batch = none ∧ State.reset.link.receiveQueue = [] := ⟨⟨rfl, rfl⟩, rfl, rfl⟩

def profileFields0 : ProfileFields := ⟨50, 0, 2, 4, 2, 100, 1, 64, 2, 1, 1, 127, 1⟩

/-- The lowest and the highest record of the table, and each field just out of its range. -/
theorem witness_SetProfilePutsTheRecordInForce :
    State.reset.serves ∧ (State.reset.channel 0).state ∈ [ChannelState.unset, .off] ∧
    acceptProfile profileFields0 = .ok profile ∧
    (acceptProfile ⟨200, 1, 32, 64, 255, 5000, 60, 2048, 64, 8, 8, 0, 0⟩).isOk = true ∧
    (([{ profileFields0 with rate := 60 }, { profileFields0 with code := 2 }, { profileFields0 with lead := 33 },
      { profileFields0 with phasing := 3 }, { profileFields0 with phasing := 65 }, { profileFields0 with keyHold := 256 },
      { profileFields0 with permitTimeout := 99 }, { profileFields0 with permitTimeout := 5001 },
      { profileFields0 with retryInterval := 0 }, { profileFields0 with retryInterval := 61 },
      { profileFields0 with telexQuota := 63 }, { profileFields0 with telexQuota := 2049 },
      { profileFields0 with turnGrace := 1 }, { profileFields0 with turnGrace := 65 },
      { profileFields0 with telexBurst := 0 }, { profileFields0 with telexBurst := 9 },
      { profileFields0 with bulletinBurst := 0 }, { profileFields0 with bulletinBurst := 9 },
      { profileFields0 with categories := 128 }, { profileFields0 with observeSilence := 2 }].map fun f =>
        match acceptProfile f with | .ok _ => 0 | .error v => (v.fields.head?.getD 0).toNat) =
      [1, 2, 3, 4, 4, 5, 6, 6, 7, 7, 8, 8, 9, 9, 10, 10, 11, 11, 12, 13]) := ⟨⟨rfl, rfl⟩, by decide⟩

theorem witness_ChannelOnStartsTheLockTimer :
    (onChannel0 (at0 .off)).serves ∧ ((onChannel0 (at0 .off)).channel 0).state = .off := ⟨⟨rfl, rfl⟩, by decide⟩

theorem witness_ChannelOffEntersOff :
    (onChannel0 (at0 .locking)).serves ∧
    (∀ st ∈ [ChannelState.locking, .idle, .requesting, .backoff, .keyed],
      ((onChannel0 (at0 st)).channel 0).state = st ∧ ((onChannel0 (at0 st)).channel 0).turn = none) ∧
    ((onChannel0 (onAir (telexTurn .body) .idle)).channel 0).turn = some (telexTurn .body) ∧
    ((onChannel0 { onAir (telexTurn .body) .idle with state := .stopping }).channel 0).state = .stopping :=
  ⟨⟨rfl, rfl⟩, by decide⟩

/-- One entry queued on channel 0 for bulletin 3, with this many occasions left. -/
def withEntry (limit : Nat) (x : Channel) : State :=
  withBulletin { bulletin .released (map70 0 0) with schedule := ⟨[0], .every 5, 1, some limit⟩ }
    (onChannel0 { x with queue := [⟨3, 1, 1, 0, 0⟩] })

/-- The removed entry is a miss, and with no occasion left the bulletin retires; a current telex turn ends with a move
pending or without. -/
theorem witness_ChannelOffEntersOff_queue :
    (at0 .idle).queueLaw ∧ (((withEntry 1 (at0 .idle)).enterOff 0).bulletin 3).map (fun b => b.missed) = some 1 ∧
    ((withEntry 0 (at0 .idle)).enterOff 0).bulletin 3 = none ∧
    (({ passOf (bulletin .released (map70 0 0)) with bulletin := 4 } : PassTurn).abandoned = false) ∧
    (withCircuit queued (onChannel0 (onAir (telexTurn .body) .idle))).circuit 0 = queued ∧ queued.movePending = none ∧
    ({ queued with movePending := some 1 } : Circuit).movePending = some 1 ∧
    ({ bound0 with life := .closing } : Circuit).count = 0 := by
  refine ⟨⟨by decide, by decide, by decide⟩, ?_⟩
  decide +kernel

/-- Entering OFF with two entries, of which one bulletin retires: its blocks are at the tail of the free list; the other one
is a miss; the bound circuit is held. -/
theorem witness_wentOff :
    let kept := { bulletin .released ⟨64, [⟨9, 0⟩], 0⟩ with schedule := ⟨[0], .every 5, 1, some 1⟩ }
    let v := (withEntry 0 { at0 .keyed with bound := [0] }).setBulletin 4 (some kept) |>.setCircuit 0
      { queued with waitStart := some 1 }
    let v := v.setChannel 0 { v.channel 0 with queue := [⟨3, 1, 1, 0, 0⟩, ⟨4, 1, 1, 0, 0⟩] }
    let u := v.enterOff 0
    ((v.channel 0).queue.map fun e => e.bulletin).Nodup ∧ v.offReturns 0 = [5, 6] ∧
    [v.retiresWithout 0 3 { bulletin .released (map70 0 0) with schedule := ⟨[0], .every 5, 1, some 0⟩ },
      v.retiresWithout 0 4 kept] = [true, false] ∧
    u.bulletin 3 = none ∧ u.bulletin 4 = some { kept with missed := 1 } ∧
    u.store.free = State.reset.store.free ++ [5, 6] ∧
    u.circuit 0 = { queued with channelHold := true } := by decide +kernel

/-! ## Circuits -/

theorem witness_OpenCircuitBindsTheCircuit :
    (onChannel0 (at0 .off)).serves ∧ ((onChannel0 (at0 .off)).circuit 0).life = .free ∧
    [(openCircuit 0 8 [0x41] (onChannel0 (at0 .off))).2, (openCircuit 0 0 [] (onChannel0 (at0 .off))).2,
      (openCircuit 0 0 (List.replicate 13 0x41) (onChannel0 (at0 .off))).2,
      (openCircuit 0 0 [0x1F] (onChannel0 (at0 .off))).2, (openCircuit 0 0 [0x7F] (onChannel0 (at0 .off))).2,
      (openCircuit 0 7 [0x41] (onChannel0 (at0 .off))).2, (openCircuit 0 0 [0x20, 0x7E] (onChannel0 (at0 .off))).2] =
      [.range 1, .range 2, .range 2, .fail .badCharacter, .fail .badCharacter, .fail .state, .ok] :=
  ⟨⟨rfl, rfl⟩, by decide⟩

theorem witness_CircuitTextJoinsTheQueue :
    (withCircuit queued (State.reset.takeBlocks 3)).serves ∧ queued.life = .bound ∧ queued.chain.law ∧
    ([1, 2] ++ [3, 4] : List BlockNo).Nodup ∧ (withCircuit queued State.reset).cellsLaw ∧ isText [0x41, 0x0D] :=
  ⟨⟨rfl, rfl⟩, rfl, by unfold Chain.law; decide, by decide, rfl, by unfold isText isTextCharacter; decide⟩

/-- The ends of the count and of the accepted set, on either side. -/
theorem witness_textRefused_count :
    textRefused 1 [] (.range 1) ∧ textRefused 3 (List.replicate 201 0x41) (.range 3) :=
  ⟨.inl ⟨.inl rfl, rfl⟩, .inl ⟨.inr (by decide +kernel), rfl⟩⟩

theorem witness_textRefused_characters :
    textRefused 1 [0x1F] (.fail .badCharacter) ∧ textRefused 3 [0x20, 0x7F] (.fail .badCharacter) :=
  ⟨.inr ⟨by decide, by decide, ⟨0x1F, by simp, by unfold isTextCharacter; decide⟩, rfl⟩,
    .inr ⟨by decide, by decide, ⟨0x7F, by simp, by unfold isTextCharacter; decide⟩, rfl⟩⟩

theorem witness_isText : isText (List.replicate 200 0x7E) ∧ isText [0x20, 0x7E, 0x0D, 0x0A] := by
  unfold isText isTextCharacter
  decide +kernel

theorem witness_CircuitText_refused :
    [(circuitText 0 [] (withCircuit queued State.reset)).2, (circuitText 0 [0x7F] (withCircuit queued State.reset)).2,
      (circuitText 0 (List.replicate 201 0x7F) (withCircuit queued State.reset)).2] =
      [.range 1, .fail .badCharacter, .range 1] := by decide +kernel

/-- A block is wanting: STORE_FULL with none stored and PARTIAL with some; the limit refuses the 513th character. -/
theorem witness_CircuitText_stops :
    (storeArrival [0x41] ⟨[1], 0, 64⟩ ⟨[], 0, []⟩).2.2 = (0, some .noBlock) ∧
    (storeArrival [0x41, 0x42] ⟨[1], 0, 63⟩ ⟨[], 0, []⟩).2.2 = (1, some .noBlock) ∧
    (storeArrival [0x41] ⟨[1, 2, 3, 4, 5, 6, 7, 8], 0, 64⟩ ⟨[9], 0, []⟩).2.2 = (0, some .limit) ∧
    flowAfter .flowing 383 384 none = .pausedThreshold ∧ flowAfter .pausedThreshold 400 400 (some .noBlock) = .pausedStore ∧
    flowAfter .flowing 382 383 none = .flowing := by decide

/-- Two characters at an empty circuit of an IDLE and of a BACKOFF channel, at a held one, at one that waits already, and
at one on air whose body is idling or is emitting. -/
theorem witness_CircuitText_arrival :
    let after (x : Circuit) (y : Channel) :=
      (circuitText 0 [0x41, 0x42] ((withCircuit x (onChannel0 { y with bound := [0] })).takeBlocks 3)).1
    let grace (p : Phase) (z : Symbol) := ((after bound0 (onAir (Turn.fresh (.telex ⟨0, 0, 2⟩) p) z)).channel 0).turn.map
      fun t => t.kind
    ((after bound0 (at0 .idle)).channel 0).state = .requesting ∧ ((after bound0 (at0 .idle)).circuit 0).waitStart = some 0 ∧
    (after bound0 (at0 .backoff)).channel 0 = { at0 .backoff with bound := [0] } ∧
    ((after bound0 (at0 .backoff)).circuit 0).waitStart = some 0 ∧
    ((after { bound0 with hostHold := true } (at0 .idle)).circuit 0).waitStart = none ∧
    ((after { queued with waitStart := some 7 } (at0 .idle)).circuit 0).waitStart = some 7 ∧
    grace .body .idle = some (.telex ⟨0, 0, 0⟩) ∧ grace .body (.data 0x41 0x41) = some (.telex ⟨0, 0, 2⟩) ∧
    grace .trailer .idle = some (.telex ⟨0, 0, 2⟩) := by decide +kernel

def waitingOn (st : ChannelState) (x : Circuit) : State :=
  withCircuit x (onChannel0 { at0 st with bound := [0] })

theorem witness_HoldCircuitSetsTheHostHold :
    (waitingOn .idle queued).serves ∧ ((waitingOn .idle queued).circuit 0).life ≠ .free ∧
    (!queued.channelHold && decide (1 ≤ queued.count) && !(waitingOn .idle queued).onAir 0) = true ∧
    (!queued.channelHold && decide (1 ≤ bound0.count)) = false ∧ queued.waitStart = none ∧
    ({ queued with waitStart := some 0 } : Circuit).waitStart ≠ none ∧
    ((waitingOn .backoff queued).channel 0).state ≠ .idle ∧ ((waitingOn .idle queued).channel 0).state = .idle ∧
    (waitingOn .idle queued).silenced 0 = false := ⟨⟨rfl, rfl⟩, by decide⟩

/-- OFF begins the wait: an IDLE channel requests, or keys and starts the turn at once, which ends the wait, and one that is
not IDLE does nothing. -/
theorem witness_HoldCircuit_consults :
    let after (st : ChannelState) (keyok : Bool) :=
      (holdCircuit 0 1 ((waitingOn st { queued with hostHold := true, holdNotified := true }).setKeyok 0 keyok)).1
    ((after .idle false).channel 0).state = .requesting ∧ ((after .idle false).channel 0).keyreq = true ∧
    ((after .idle false).circuit 0).waitStart = some 0 ∧ ((after .idle false).circuit 0).holdNotified = false ∧
    ((after .idle true).channel 0).state = .keyed ∧ ((after .idle true).circuit 0).waitStart = none ∧
    ((after .idle true).channel 0).lastServed = some 0 ∧
    (after .backoff false).channel 0 = (waitingOn .backoff queued).channel 0 ∧
    ((after .backoff false).circuit 0).waitStart = some 0 := by decide +kernel

theorem witness_MoveCircuitRebinds :
    (waitingOn .idle queued).serves ∧ ((waitingOn .idle queued).circuit 0).life ≠ .free ∧
    ((waitingOn .idle queued).channel 1).profile = none ∧ ((waitingOn .idle queued).channel 0).profile ≠ none ∧
    (waitingOn .idle queued).onAir 0 = false ∧
    (withCircuit queued (onChannel0 (onAir (telexTurn .body) .idle))).onAir 0 = true := ⟨⟨rfl, rfl⟩, by decide⟩

/-- A wait goes on, begins or ends as the target is ON or not, and an IDLE target requests. -/
theorem witness_MoveCircuit_wait :
    let after (x : Circuit) (st : ChannelState) := (moveCircuit 0 1 ((waitingOn .off x).setChannel 1 (at0 st))).1
    ((after { queued with waitStart := some 7, holdNotified := true } .backoff).circuit 0).waitStart = some 7 ∧
    ((after { queued with waitStart := some 7, holdNotified := true } .backoff).circuit 0).holdNotified = true ∧
    ((after { queued with channelHold := true, holdNotified := true } .keyed).circuit 0).waitStart = some 0 ∧
    ((after { queued with channelHold := true, holdNotified := true } .keyed).circuit 0).holdNotified = false ∧
    ((after { queued with waitStart := some 7 } .off).circuit 0).waitStart = none ∧
    ((after queued .idle).channel 1).state = .requesting ∧
    (at0 .idle).carriesCircuit 0 = false := by decide +kernel

/-- A move off air takes the whole record with it. -/
theorem witness_MoveCircuit_carries :
    let x := { queued with life := .closing, drainPending := true, hostHold := true, resume := true, flow := .pausedStore }
    ((moveCircuit 0 1 ((waitingOn .off x).setChannel 1 (at0 .idle))).1.circuit 0) = { x with channel := 1 } := by
  decide +kernel

/-- Circuit 1, which paused for STORE and holds one character, or 129, when blocks come back: by PURGE of circuit 0, by a
withdrawal, a commit and a discard. -/
def pausedBeside (count : Nat) (b : Bulletin) : State :=
  (withBulletin b (waitingOn .off queued)).setCircuit 1
    { bound0 with flow := .pausedStore, chain := ⟨[7, 8, 9], 0, count - 128⟩ }

theorem witness_returnReported :
    let staged := { bulletin .released (map70 0 0) with staged := some ⟨64, [⟨9, 64⟩], 0⟩ }
    let after (count : Nat) := [(closeCircuit 0 1 (pausedBeside count staged)).1,
      (withdrawBulletin 3 (pausedBeside count staged)).1, (commitRevision 3 (pausedBeside count staged)).1,
      (discardRevision 3 (pausedBeside count staged)).1].map fun u => ((u.circuit 1).flow, u.notices.any fun e =>
        e.key = .circuit 1 && e.events.contains .resume)
    after 128 = List.replicate 4 (.flowing, true) ∧ after 129 = List.replicate 4 (.pausedStore, false) ∧
    map70 0 0 ≠ ⟨70, [], 0⟩ ∧ (closeCircuit 0 1 (pausedBeside 128 staged)).1.store.free.length = 1026 := by decide +kernel

theorem witness_CloseCircuitFreesTheCircuit :
    (waitingOn .idle bound0).serves ∧ bound0.life = .bound ∧ bound0.count = 0 ∧ queued.count = 2 ∧
    (waitingOn .idle bound0).onAir 0 = false ∧
    ({ queued with life := .closing, drainPending := true } : Circuit).drainPending = true ∧
    (withCircuit queued (onChannel0 (onAir (telexTurn .body) .idle))).onAir 0 = true := ⟨⟨rfl, rfl⟩, by decide⟩

/-! ## Bulletins -/

theorem witness_DeclareBulletinAllocates :
    State.reset.serves ∧ State.reset.bulletin 3 = none ∧
    [(declareBulletin 3 1000 1 70 schedule0 State.reset).2, (declareBulletin 3 999 7 70 schedule0 State.reset).2,
      (declareBulletin 3 999 6 0 schedule0 State.reset).2, (declareBulletin 3 999 6 2049 schedule0 State.reset).2,
      (declareBulletin 3 999 6 2048 ⟨1, .every 4, 1, none⟩ State.reset).2,
      (declareBulletin 3 999 6 2048 schedule0 State.reset).2,
      (declareBulletin 3 999 6 2048 schedule0 (State.reset.takeBlocks 929)).2,
      (declareBulletin 3 999 6 2048 schedule0 (State.reset.takeBlocks 928)).2] =
      [.range 1, .range 2, .range 3, .range 3, .range 5, .ok, .fail .storeFull, .ok] :=
  ⟨⟨rfl, rfl⟩, by decide, by decide +kernel⟩

/-- The schedule group at and past its ends (02: R22). -/
theorem test_schedule_group :
    ([⟨255, .now, 1, none⟩, ⟨1, .every 5, 3, some 1⟩, ⟨1, .every 1440, 1, some 255⟩, ⟨1, .atMinutes [0, 1439], 1, none⟩,
      ⟨256, .now, 1, none⟩, ⟨1, .every 4, 1, none⟩, ⟨1, .every 1441, 1, none⟩, ⟨1, .atMinutes [], 1, none⟩,
      ⟨1, .atMinutes [5, 5], 1, none⟩, ⟨1, .atMinutes [1440], 1, none⟩, ⟨1, .now, 0, none⟩, ⟨1, .now, 4, none⟩,
      ⟨1, .now, 1, some 0⟩, ⟨1, .now, 1, some 256⟩].map fun f =>
        match acceptSchedule 1 f with | .ok _ => 0 | .error v => (v.fields.head?.getD 0).toNat) =
      [0, 0, 0, 0, 1, 2, 2, 2, 2, 2, 3, 3, 4, 4] := by decide

theorem law_map70 (a b : Nat) (ha : a ≤ 64) (hb : b ≤ 6) : (map70 a b).law := by
  refine ⟨by simp [map70], by simp [map70, blocksNeeded], by simp [map70, TextMap.blockNumbers], by simp [map70], fun p hp => ?_⟩
  match p, hp with
  | 0, _ => simpa [map70, TextMap.fill, TextMap.size] using ha
  | 1, _ => simpa [map70, TextMap.fill, TextMap.size] using hb

theorem witness_TextRewritesAMap :
    (withBulletin (bulletin .composing (map70 64 0)) State.reset).serves ∧ (map70 64 0).law ∧ (map70 64 6).law ∧
    (withBulletin (bulletin .composing (map70 64 0)) State.reset).cellsLaw ∧
    [(bulletinText 3 0 (some 1) (List.replicate 6 0x41) (withBulletin (bulletin .composing (map70 64 0)) State.reset)).2,
      (bulletinText 3 0 (some 1) (List.replicate 7 0x41) (withBulletin (bulletin .composing (map70 64 0)) State.reset)).2,
      (bulletinText 3 0 none [0x41] (withBulletin
        (bulletin .composing { map70 64 6 with pointer := 1 }) State.reset)).2,
      (bulletinText 3 0 (some 2) [] (withBulletin (bulletin .composing (map70 64 0)) State.reset)).2,
      (bulletinText 3 0 (some 1) [] (withBulletin (bulletin .composing (map70 64 0)) State.reset)).2,
      (bulletinText 3 0 none [0x7F] (withBulletin (bulletin .composing (map70 64 0)) State.reset)).2] =
      [.ok, ⟨.partialText, [6]⟩, .fail .limit, .range 2, .range 3, .fail .badCharacter] :=
  ⟨⟨rfl, rfl⟩, law_map70 _ _ (by decide) (by decide), law_map70 _ _ (by decide) (by decide), rfl, by decide +kernel⟩

/-- Three blocks of which the middle one is present: a write from the first stops at it, with the pointer there. -/
def gapped : TextMap := ⟨130, [⟨5, 62⟩, ⟨6, 64⟩, ⟨7, 0⟩], 0⟩

theorem witness_ReleasedTextOnlyGrows_room :
    gapped.room 0 = [62, 63] ∧ gapped.room 2 = [128, 129] ∧ (map70 63 5).room 0 = [63, 69] ∧
    (TextMap.storeChars .extending [0x41, 0x42] gapped []).1.pointer = 0 ∧
    (TextMap.storeChars .extending [0x41, 0x42, 0x43] gapped []).1.pointer = 1 ∧
    (TextMap.storeChars .extending [0x41, 0x42, 0x43] gapped []).2.2 = 2 := by decide

theorem witness_ReleasedTextOnlyGrows :
    (withBulletin (bulletin .released (map70 64 5)) State.reset).serves ∧ (map70 64 5).law ∧
    (bulletin .released (map70 64 5)).state = .released ∧
    [(bulletinText 3 0 (some 1) [0x41] (withBulletin (bulletin .released (map70 64 5)) State.reset)).2,
      (bulletinText 3 0 (some 0) [0x41] (withBulletin (bulletin .released (map70 64 5)) State.reset)).2,
      (bulletinText 3 0 none [0x41] (withBulletin (bulletin .released (map70 64 6)) State.reset)).2,
      (bulletinText 3 0 none [0x41] (withBulletin
        (bulletin .released { map70 64 6 with pointer := 1 }) State.reset)).2,
      (bulletinText 3 0 (some 2) [0x41] (withBulletin (bulletin .released (map70 64 5)) State.reset)).2,
      (bulletinText 3 0 (some 0) [0x1F] (withBulletin (bulletin .released (map70 64 5)) State.reset)).2] =
      [.ok, .fail .readOnly, .fail .readOnly, .fail .limit, .range 2, .fail .badCharacter] :=
  ⟨⟨rfl, rfl⟩, law_map70 _ _ (by decide) (by decide), rfl, by decide +kernel⟩

theorem witness_AmendAndReleasePutTheGroupInForce :
    (withBulletin (bulletin .composing (map70 0 0)) (onChannel0 (at0 .idle))).serves ∧
    acceptSchedule 1 schedule0 = .ok ⟨[0], .every 5, 1, some 1⟩ ∧ (acceptSchedule 1 ⟨1, .every 4, 1, none⟩).isOk = false ∧
    ((onChannel0 (at0 .idle)).channel 0).accepts .ur = true ∧ (State.reset.channel 0).accepts .ur = false ∧
    (bulletin .composing (map70 0 0)).schedule.start = .now ∧ Start.every 5 ≠ .now ∧
    ((onChannel0 (at0 .idle)).channel 0).takesOccasion 3 (bulletin .composing (map70 0 0)) = true :=
  ⟨⟨rfl, rfl⟩, by decide⟩

/-- A telex turn yields to class 1, a channel that is OFF is a miss. -/
theorem witness_AmendAndRelease_occasion :
    (telexTurn .body).caused .urgency = { telexTurn .body with pendingCut := some ⟨.urgency, 0⟩ } ∧
    (telexTurn .trailer).caused .distress = telexTurn .trailer ∧
    ({ telexTurn .body with pendingCut := some ⟨.urgency, 9⟩ } : Turn).caused .distress =
      { telexTurn .body with pendingCut := some ⟨.distress, 0⟩ } ∧
    ((releaseBulletin 3 (withBulletin (bulletin .composing (map70 0 0)) (onChannel0 (onAir (telexTurn .body) .idle)))).1.channel
      0).turn = some { telexTurn .body with pendingCut := some ⟨.urgency, 0⟩ } ∧
    (at0 .off).takesOccasion 3 (bulletin .composing (map70 0 0)) = false ∧
    (bulletin .composing (map70 0 0)).schedule.mask.Nodup := by decide +kernel

/-- An IDLE channel that takes the entry of an occasion requests, at a release and at a minute advance, and keys where KEYOK is
present; under silence, which holds back class 1, it stays IDLE. -/
theorem witness_occasion_keys :
    let released (quiet keyok : Bool) := (releaseBulletin 3 { (withBulletin (bulletin .composing (map70 0 0))
      (onChannel0 (at0 .idle))).setKeyok 0 keyok with silence := quiet }).1
    let advanced (quiet keyok : Bool) : State := ({ (withBulletin { bulletin .released (map70 0 0) with
      schedule := ⟨[0], .every 5, 1, some 2⟩, countdown := 1 } (onChannel0 (at0 .idle))).setKeyok 0 keyok with
        silence := quiet } : State).minuteAdvance
    [released false false, released false true, released true false, advanced false false, advanced false true,
      advanced true false].map (fun s => ((s.channel 0).state, (s.channel 0).keyreq)) =
      [(.requesting, true), (.keyed, true), (.idle, false), (.requesting, true), (.keyed, true), (.idle, false)] := by
  decide +kernel

/-- A minute advance cuts a telex turn for an entry of class 1. -/
theorem witness_MinuteAdvance_cuts :
    let s := (withBulletin { bulletin .released (map70 0 0) with schedule := ⟨[0], .every 5, 1, some 2⟩, countdown := 1 }
      (onChannel0 (onAir (telexTurn .body) .idle))).setKeyok 0 true
    (s.channel 0).takesOccasion 3 (bulletin .released (map70 0 0)) = true ∧
    (s.minuteAdvance.channel 0).turn.map (fun t => t.pendingCut) = some (some ⟨.urgency, 0⟩) := by decide +kernel

/-- Where the new entry stands: behind the entries of its class and before the others, also of two occasions of one advance,
and gone where a pass of it has started at once. -/
theorem witness_queuePlaced :
    let waiting : List Entry := [⟨8, 1, 1, 0, 9⟩, ⟨9, 2, 1, 0, 9⟩]
    let due := { bulletin .released (map70 0 0) with schedule := ⟨[0], .every 5, 2, some 2⟩, countdown := 1 }
    let placed : List Entry := [⟨8, 1, 1, 0, 9⟩, ⟨3, 1, 2, 0, 1⟩, ⟨4, 1, 2, 0, 1⟩, ⟨9, 2, 1, 0, 9⟩]
    let advancing (st : ChannelState) (q : List Entry) :=
      ((withBulletin due (onChannel0 { at0 st with queue := q })).setBulletin 4 (some due)).setKeyok 0 true
    ((releaseBulletin 3 (withBulletin (bulletin .composing (map70 0 0)) (onChannel0 { at0 .idle with queue := waiting }))).1.channel
      0).queue = [⟨8, 1, 1, 0, 9⟩, ⟨3, 1, 2, 0, 0⟩, ⟨9, 2, 1, 0, 9⟩] ∧
    (advancing .backoff waiting).advanceEntries 0 = [⟨3, 1, 2, 0, 1⟩, ⟨4, 1, 2, 0, 1⟩] ∧
    ((advancing .backoff waiting).minuteAdvance.channel 0).queue = placed ∧
    ((advancing .idle []).minuteAdvance.channel 0).queue = [⟨4, 1, 2, 0, 1⟩] ∧
    ((advancing .idle []).minuteAdvance.channel 0).carriesPass 3 = true ∧
    (at0 .idle).takesOccasion 3 (bulletin .composing (map70 0 0)) = true := by decide +kernel

theorem witness_queuePlaced_law : (at0 .idle).queueLaw := by
  unfold Channel.queueLaw
  decide

/-- The last occasion, of a release and of a minute advance, on an OFF channel and on an ON one; with an entry elsewhere, and
with a pass on air: the bulletin retires in the first case alone. -/
theorem witness_retiresUnplaced :
    let due := { bulletin .released (map70 0 0) with schedule := ⟨[0], .every 5, 1, some 1⟩, countdown := 1 }
    let new := bulletin .composing (map70 0 0)
    let owing (b : Bulletin) (x : Channel) := withBulletin b ((onChannel0 (at0 .off)).setChannel 1 x)
    let cases (b : Bulletin) := [withBulletin b (onChannel0 (at0 .off)), withBulletin b (onChannel0 (at0 .idle)),
      owing b { at0 .idle with queue := [⟨3, 1, 1, 0, 0⟩] }]
    ((cases new).map fun s => (s.retiresUnplaced 3 new [0], ((releaseBulletin 3 s).1.bulletin 3).isSome)) =
      [(true, false), (false, true), (false, true)] ∧
    ((cases due ++ [withBulletin { due with onAir := 1 } (onChannel0 (at0 .off))]).map fun s =>
      ((s.minuteAdvance.bulletin 3).isSome, s.advanceReturns, s.minuteAdvance.store.free.length)) =
      [(false, [5, 6], 1026), (true, [], 1024), (true, [], 1024), (true, [], 1024)] ∧
    due.dueAt Clock.reset = true := by decide +kernel

/-- Two entries of one advance, of class 1 and then of class 0, cut a telex turn on a KEYED channel; the later one replaces
the URGENCY cut of the earlier one; with a commit pending it does not count. -/
theorem witness_advance_told :
    let due (k : Category) (commit : Bool) := { bulletin .released (map70 0 0) with
      category := k, schedule := ⟨[0], .every 5, 1, some 2⟩, countdown := 1, commitPending := commit }
    let s (commit : Bool) := ((withBulletin (due .ur false) (onChannel0 (onAir (telexTurn .body) .idle))).setBulletin 4
      (some (due .dr commit))).setKeyok 0 true
    [s false, s true].map (fun s => (((s.advanceEntries 0).filter (s.entryFree 0)).map fun e => e.bulletin,
      (s.minuteAdvance.channel 0).turn.map fun t => t.pendingCut)) =
      [([3, 4], some (some ⟨.distress, 0⟩)), ([3], some (some ⟨.urgency, 0⟩))] := by decide +kernel

/-- A release with a start of NOW and no channel in the mask is over at once (02: R36, 04: R65). -/
theorem test_release_to_nobody :
    let b := { bulletin .composing (map70 0 0) with schedule := ⟨[], .now, 1, none⟩ }
    ((releaseBulletin 3 (withBulletin b State.reset)).1.bulletin 3) = none := by decide +kernel

theorem witness_WithdrawBulletinUnqueues :
    (withBulletin (bulletin .released (map70 0 0)) State.reset).serves ∧ (3 : Fin 64) ≠ 0 ∧
    (bulletin .released (map70 0 0)).state ≠ .withdrawing ∧ (bulletin .released (map70 0 0)).onAir = 0 ∧
    ({ bulletin .released (map70 0 0) with onAir := 1 } : Bulletin).onAir ≠ 0 := ⟨⟨rfl, rfl⟩, by decide⟩

theorem witness_ClearMarksClears :
    (withBulletin (bulletin .withdrawing (map70 0 0)) State.reset).serves ∧ State.reset.bulletin 3 = none ∧
    (withBulletin (bulletin .withdrawing (map70 0 0)) State.reset).bulletin 3 =
      some (bulletin .withdrawing (map70 0 0)) := ⟨⟨rfl, rfl⟩, by decide⟩

theorem witness_ReadTextReturnsWrittenCharacters :
    (withBulletin (bulletin .composing (map70 2 0)) State.reset).serves ∧
    [(readText 3 1 0 1 (withBulletin (bulletin .composing (map70 2 0)) State.reset)).2,
      (readText 3 0 70 1 (withBulletin (bulletin .composing (map70 2 0)) State.reset)).2,
      (readText 3 0 69 0 (withBulletin (bulletin .composing (map70 2 0)) State.reset)).2,
      (readText 3 0 69 193 (withBulletin (bulletin .composing (map70 2 0)) State.reset)).2,
      (readText 3 0 69 192 (withBulletin (bulletin .composing (map70 2 0)) State.reset)).2,
      (readText 3 0 1 192 (withBulletin (bulletin .composing (map70 2 0)) State.reset)).2] =
      [.fail .state, .range 2, .range 3, .range 3, ⟨.ok, [0]⟩, ⟨.ok, [1, 0]⟩] := ⟨⟨rfl, rfl⟩, by decide +kernel⟩

theorem witness_StageRevisionClaimsAMap :
    (withBulletin (bulletin .released (map70 0 0)) State.reset).serves ∧
    (bulletin .released (map70 0 0)).staged = none ∧
    [(stageRevision 3 1 (withBulletin (bulletin .composing (map70 0 0)) State.reset)).2,
      (stageRevision 3 1 (withBulletin { bulletin .released (map70 0 0) with staged := some (map70 0 0) } State.reset)).2,
      (stageRevision 3 0 (withBulletin (bulletin .released (map70 0 0)) State.reset)).2,
      (stageRevision 3 2049 (withBulletin (bulletin .released (map70 0 0)) State.reset)).2,
      (stageRevision 3 65 (withBulletin (bulletin .released (map70 0 0)) (State.reset.takeBlocks 959))).2,
      (stageRevision 3 65 (withBulletin (bulletin .released (map70 0 0)) (State.reset.takeBlocks 958))).2] =
      [.fail .state, .fail .state, .range 1, .range 1, .fail .storeFull, .ok] := ⟨⟨rfl, rfl⟩, by decide, by decide +kernel⟩

def revising (a b revision onAir : Nat) : Bulletin :=
  { bulletin .released (map70 0 0) with staged := some (map70 a b), revision := revision, onAir := onAir }

theorem witness_CommitRevisionTakesOrPends :
    (withBulletin (revising 64 6 1 0) State.reset).serves ∧ (revising 64 6 1 0).commitPending = false ∧
    [(commitRevision 3 (withBulletin (revising 64 5 1 0) State.reset)).2,
      (commitRevision 3 (withBulletin (revising 64 6 999 0) State.reset)).2,
      (commitRevision 3 (withBulletin (revising 64 6 998 1) State.reset)).2,
      (commitRevision 3 (withBulletin (revising 64 6 998 0) State.reset)).2] =
      [.fail .incomplete, .fail .revisionLimit, ⟨.ok, [1, 3, 0xE6]⟩, ⟨.ok, [0, 3, 0xE7]⟩] :=
  ⟨⟨rfl, rfl⟩, by decide, by decide +kernel⟩

theorem witness_DiscardRevisionReturnsTheStagedMap :
    (withBulletin (revising 0 0 1 0) State.reset).serves ∧ (revising 0 0 1 0).state = .released ∧
    (revising 0 0 1 0).staged = some (map70 0 0) ∧ (revising 0 0 1 0).commitPending = false ∧
    ({ revising 0 0 1 1 with commitPending := true } : Bulletin).commitPending = true := ⟨⟨rfl, rfl⟩, by decide⟩

/-- The end of the pending time raises KEYREQ on an IDLE channel with an entry, and cuts a telex turn on a KEYED one. -/
theorem witness_DiscardRevision_told :
    let after (x : Channel) := (discardRevision 3 (withBulletin { revising 0 0 1 1 with commitPending := true }
      (onChannel0 { x with queue := [⟨3, 1, 1, 0, 0⟩] }))).1.channel 0
    (after (at0 .idle)).keyreq = true ∧
    (after (onAir (telexTurn .body) .idle)).turn = some ((telexTurn .body).caused .urgency) ∧
    (after (onAir (telexTurn .trailer) .idle)).turn = some (telexTurn .trailer) := by decide +kernel

/-! ## The line -/

def assembling (octets : List Byte) : State :=
  State.reset.setAssembly (some ⟨octets, State.reset.startTimer Config.interOctetPeriod⟩)

/-- Both sides of the sync octet, of the length 240, and of the last octet. -/
theorem witness_OctetsAssembleFrames :
    State.reset.resetHeld = false ∧ State.reset.link.assembly = none ∧
    ((assembling [0xA5]).setAssembly none).link.assembly = none ∧
    (State.reset.receiveOctet 0xA4).link.assembly = none ∧ (State.reset.receiveOctet 0xA5).link.assembly.isSome ∧
    (((assembling [0xA5, 0x40, 7]).receiveOctet 240).link.assembly.map fun a => a.octets.length) = some 4 ∧
    ((assembling [0xA5, 0x40, 7]).receiveOctet 241).link.assembly = none ∧
    ((assembling [0xA5, 0x40, 7]).receiveOctet 241).link.errors = 1 ∧
    (((assembling [0xA5, 0x40, 7, 0]).receiveOctet 0).link.assembly.map fun a => a.octets.length) = some 5 ∧
    ((assembling [0xA5, 0x40, 7, 0, 0]).receiveOctet 0).link.assembly = none ∧
    ({ assembling [0xA5] with now := Config.milliseconds 20 } : State).interOctetExpiry.link.errors = 1 := by decide +kernel

theorem witness_WholeFramesAreChecked :
    State.reset.link.restartPending = false ∧
    (State.reset.checkFrame [0x40, 7, 0] [0, 0]).link.errors = 1 ∧
    (State.reset.checkFrame [0x80, 7, 0] (crcOctets [0x80, 7, 0])).link.errors = 1 ∧
    (State.reset.checkFrame [0x50, 7, 0] (crcOctets [0x50, 7, 0])).link.receiveQueue = [⟨7, 0, false, []⟩] ∧
    ((State.reset.setReceiveQueue (List.replicate 15 ⟨7, 0, false, []⟩)).checkFrame [0x40, 7, 0]
      (crcOctets [0x40, 7, 0])).link.receiveQueue.length = 16 ∧
    ((State.reset.setReceiveQueue (List.replicate 16 ⟨7, 0, false, []⟩)).checkFrame [0x40, 7, 0]
      (crcOctets [0x40, 7, 0])).link.replies = [⟨7, 0, 0, .busy, [], 0⟩] ∧
    ((State.reset.setLink { State.reset.link with restartPending := true }).checkFrame [0x40, 7, 0]
      (crcOctets [0x40, 7, 0])).link.replies = [⟨7, 0, 0, .skipped, [], 0⟩] := by decide +kernel

def taken (f : Frame) (b : Option Batch) : State :=
  (State.reset.setReceiveQueue [f]).setLink { (State.reset.setReceiveQueue [f]).link with batch := b }

theorem witness_LoneFrameIsExecuted :
    (taken ⟨7, 0, false, [0x03]⟩ none).serves ∧ (taken ⟨7, 0, false, [0x03]⟩ none).link.receiveQueue = [⟨7, 0, false, [0x03]⟩] ∧
    (taken ⟨7, 0, false, [0x03]⟩ none).link.batch = none ∧ (taken ⟨7, 0, false, [0x03]⟩ none).link.replies = [] ∧
    (taken ⟨7, 0, false, [0x03]⟩ none).link.executing = [] ∧
    decodeRequest [0x03] = some .readStation ∧ decodeRequest [0x03, 0] = none ∧ decodeRequest [0x04] = some .restart ∧
    ((State.reset.placeReply who 1 .ok).link.replies.all fun x => x.status ≠ .busy) = true := ⟨⟨rfl, rfl⟩, by decide⟩

/-- The positions on either side of the expected one, at an empty batch, at one frame held and at 15. -/
theorem witness_BatchesAreHeldOrDiscarded :
    (taken ⟨7, 1, true, [3]⟩ none).serves ∧
    (let held (k : Nat) : Batch := ⟨List.replicate k ⟨7, 0, true, [3]⟩, ⟨0, 0⟩⟩
     ((taken ⟨7, 1, true, [3]⟩ none).takeFrame.link.replies.map fun x => x.status) = [.batchDiscarded] ∧
     ((taken ⟨7, 0, true, [3]⟩ none).takeFrame.link.batch.map fun b => b.held.length) = some 1 ∧
     ((taken ⟨7, 1, true, [3]⟩ (some (held 1))).takeFrame.link.batch.map fun b => b.held.length) = some 2 ∧
     (taken ⟨7, 15, true, [3]⟩ (some (held 15))).takeFrame.link.batch = none ∧
     (taken ⟨7, 15, true, [3]⟩ (some (held 15))).takeFrame.link.replies.length = 16 ∧
     ((taken ⟨7, 1, false, [3]⟩ (some (held 1))).takeFrame.link.replies.map fun x => x.status) = [.ok, .ok] ∧
     ((taken ⟨7, 2, true, [3]⟩ (some (held 1))).takeFrame.link.replies.map fun x => x.status) =
       [.batchDiscarded, .batchDiscarded] ∧
     ((taken ⟨7, 0, true, [3]⟩ (some (held 1))).takeFrame.link.replies.map fun x => x.status) = [.batchDiscarded] ∧
     ((taken ⟨7, 0, false, [3]⟩ (some (held 1))).takeFrame.link.replies.map fun x => x.status) = [.batchDiscarded, .ok]) :=
  ⟨⟨rfl, rfl⟩, by decide +kernel⟩

/-- A batch that is whole, with these pauses to come. -/
def executing (pauses : List Nat) : State :=
  { (withCircuit bound0 State.reset).startBatch
      [⟨1, 0, true, [0x02, 0, 5]⟩, ⟨2, 1, true, [0x21, 0, 1, 0x07]⟩, ⟨3, 2, false, [0x03]⟩] with pauses := pauses }

/-- 10: section 10.9: OK, BAD_CHARACTER, SKIPPED, in one step; and with a pause after the first request in two. -/
theorem witness_BatchIsExecutedInOrder :
    (executing []).serves ∧ (executing []).link.executing ≠ [] ∧
    ((executing []).takeFrame.link.replies.map fun x => (x.tag, x.status)) =
      [(1, .ok), (2, .badCharacter), (3, .skipped)] ∧
    ((executing [0]).takeFrame.link.replies.map fun x => (x.tag, x.status)) = [(1, .ok)] ∧
    ((executing [0]).takeFrame.link.executing.map fun f => f.tag) = [2, 3] ∧
    ((executing [0]).takeFrame.takeFrame.link.replies.map fun x => (x.tag, x.status)) =
      [(1, .ok), (2, .badCharacter), (3, .skipped)] ∧
    ((executing [2]).takeFrame.link.executing) = [] := ⟨⟨rfl, rfl⟩, by decide, by decide +kernel⟩

def sending (pending : Bool) (replies : List Reply) (f : OutFrame) : State :=
  State.reset.setLink { State.reset.link with restartPending := pending, replies := replies, outgoing := some f }

theorem witness_FrameCompletionFreesTheLine :
    (sending false [] ⟨.notice, false, 0, 0, [], 150⟩).resetHeld = false ∧
    (sending false [⟨7, 0, 1, .ok, [], 2⟩] ⟨.reply, true, 0, 7, [], 150⟩).completeFrame.link.replies.length = 1 ∧
    (sending false [⟨7, 0, 1, .ok, [], 2⟩] ⟨.reply, false, 0, 7, [], 150⟩).completeFrame.link.replies = [] ∧
    (sending true [⟨7, 0, 1, .ok, [], 2⟩] ⟨.reply, false, 0, 7, [], 150⟩).completeFrame.now = 0 ∧
    (sending true [⟨7, 0, 1, .ok, [], 2⟩] ⟨.notice, false, 0, 0, [], 150⟩).completeFrame.now = 150 := by decide +kernel

theorem witness_ResetStartsFromTheResetValues :
    (State.atRest State.reset.keyok false [] []).resetHeld = true ∧ State.reset.resetHeld = false := ⟨rfl, rfl⟩

/-! ## The clock, SILENCE, and timers -/

def ticking (c : Clock) (now : Nat) : State := { State.reset.setClock c with now := now }

/-- An age just below 30 s and one of 30 s. -/
theorem witness_MarkEdgesSteerTheClock :
    State.reset.clock.source = .external ∧ State.reset.clock.markLatched = false ∧
    (ticking { Clock.reset with markLatched := true } (Config.seconds 30 - 1)).takeMark.clock.minute = 0 ∧
    (ticking { Clock.reset with markLatched := true } (Config.seconds 30)).takeMark.clock.minute = 1 ∧
    (ticking { Clock.reset with markLatched := true, status := .locked } 0).takeMark.clock.status = .locked := by
  decide +kernel

theorem witness_AdvanceTimerAdvancesTheMinute :
    (ticking Clock.reset (Config.seconds 61)).clock.advanceTimer.due = (ticking Clock.reset (Config.seconds 61)).now ∧
    (ticking { Clock.reset with minute := 1439 } (Config.seconds 61)).advanceExpiry.clock.minute = 0 ∧
    ({ Clock.reset with source := .internal } : Clock).source = .internal ∧
    ({ Clock.reset with status := .locked } : Clock).status = .locked := by decide +kernel

def repeating (countdown : Nat) : Bulletin :=
  { bulletin .released (map70 0 0) with schedule := ⟨[0], .every 5, 1, some 2⟩, countdown := countdown }

theorem witness_MinuteAdvanceStepsCountdowns :
    (repeating 2).state = .released ∧ (repeating 2).schedule.limit ≠ some 0 ∧
    (repeating 2).schedule.start = .every 5 ∧ 1 < (repeating 2).countdown ∧ (repeating 1).countdown ≤ 1 ∧
    ((onChannel0 (at0 .idle)).channel 0).takesOccasion 3 (repeating 1) = true ∧
    (((withBulletin (repeating 2) State.reset).minuteAdvance.bulletin 3).map fun b => b.countdown) = some 1 ∧
    (((withBulletin (repeating 1) (onChannel0 (at0 .idle))).minuteAdvance.bulletin 3).map fun b => b.countdown) = some 5 := by
  decide +kernel

/-- A COMPOSING, a WITHDRAWING and a used-up bulletin are passed over, at a countdown of 1, and one that is not due steps. -/
theorem witness_MinuteAdvance_passed_over :
    let counted (b : Bulletin) := ((withBulletin b State.reset).minuteAdvance.bulletin 3).map fun b => b.countdown
    let usedUp := { repeating 1 with schedule := ⟨[0], .every 5, 1, some 0⟩ }
    [counted { repeating 1 with state := .composing }, counted { repeating 1 with state := .withdrawing }, counted usedUp,
      counted (repeating 2), counted (repeating 1)] = [some 1, some 1, some 1, some 1, some 5] ∧
    [({ repeating 1 with state := .composing } : Bulletin), usedUp, repeating 2, repeating 1].map
      (fun b => b.dueAt Clock.reset) = [false, false, false, true] := by decide +kernel

theorem witness_MinuteAdvance_keying : (withBulletin (repeating 1) (onChannel0 (at0 .idle))).keyingLaw := by
  unfold State.keyingLaw Channel.keyingLaw
  decide +kernel

/-- Start AT: with the clock set and the minute in its list it is due, and not a minute before. -/
theorem witness_MinuteAdvance_at :
    let b := { repeating 0 with schedule := ⟨[0, 1], .atMinutes [1, 7], 1, some 2⟩ }
    let s := withBulletin b (onChannel0 (at0 .idle))
    let due (minute : Nat) (isSet : Bool) := (s.setClock { Clock.reset with minute := minute, isSet := isSet }).minuteAdvance
    b.schedule.mask.Nodup ∧ ((due 0 true).bulletin 3).map (fun x => (x.missed, x.schedule.limit)) = some (1, some 1) ∧
    ((due 1 true).bulletin 3).map (fun x => (x.missed, x.schedule.limit)) = some (0, some 2) ∧
    ((due 0 false).bulletin 3).map (fun x => (x.missed, x.schedule.limit)) = some (0, some 2) := by decide +kernel

theorem witness_SilenceStopsObservingChannels :
    State.reset.resetHeld = false ∧ State.reset.silence = false ∧ (at0 .idle).settings.observeSilence = true ∧
    (State.reset.channel 0).settings.observeSilence = false ∧
    (passTurn { bulletin .released (map70 0 0) with category := .dr } .body).isDistress = true ∧
    (telexTurn .body).isDistress = false ∧ (waitingOn .idle queued).anythingEligible 0 = true ∧
    (waitingOn .idle bound0).anythingEligible 0 = false ∧
    ({ waitingOn .requesting queued with silence := true } : State).anythingEligible 0 = false := by decide

/-- The release on a KEYED channel that observes: an entry of class 1 cuts a telex turn, and not a pass of class 1; and on
one that is STOPPING nothing changes. -/
theorem witness_silenceRelease_keyed :
    let b := bulletin .released (map70 0 0)
    let on (st : ChannelState) (t : Turn) : State := { withBulletin b (onChannel0 { onAir t .idle with
      state := st, queue := [⟨3, 1, 1, 0, 0⟩] }) with silence := true }
    let after (st : ChannelState) (t : Turn) := ((on st t).releaseSilence.channel 0).turn.map fun t => t.pendingCut
    after .keyed (telexTurn .body) = some (some ⟨.urgency, 0⟩) ∧ after .keyed (passTurn b .body) = some none ∧
    after .stopping (telexTurn .body) = some none ∧
    ({ on .keyed (telexTurn .body) with silence := false } : State).entryEligible 0 ⟨3, 1, 1, 0, 0⟩ = true := by
  decide +kernel

theorem witness_SilenceStops_binding :
    (waitingOn .idle queued).bindingLaw ∧ (waitingOn .idle bound0).bindingLaw := by
  unfold State.bindingLaw
  decide +kernel

/-- A turn that SILENCE is to stop, at a character of its header, from KEYED and from STOPPING. -/
def stopping (st : ChannelState) : State :=
  withBulletin { bulletin .released (map70 0 0) with onAir := 1 } (onChannel0
    { onAir { passTurn (bulletin .released (map70 0 0)) .header with text := [0x41, 0x41] } (.data 0x41 0x41) with
      state := st, silenceStop := true })

theorem witness_SilenceStopsObservingChannels_stop :
    (((stopping .stopping).completeSymbol 0).channel 0).state = .off ∧
    (((stopping .keyed).completeSymbol 0).channel 0).queue = [⟨3, 1, 2, 1, 0⟩] ∧
    (((stopping .keyed).completeSymbol 0).channel 0).state = .requesting ∧
    ((({ stopping .keyed with silence := true } : State).completeSymbol 0).channel 0).state = .idle ∧
    ((withCircuit queued (onChannel0 { onAir (Turn.fresh (.telex ⟨0, 1, 0⟩) .body) .shiftLetters with
      silenceStop := true })).completeSymbol 0).circuit 0 = { queued with resume := true, waitStart := some 0 } := by
  decide +kernel

/-- A telex turn that SILENCE stops: at a character of its body, which leaves the queue; at the last character of its header,
with a cut pending and without one; and at the last character of a CLOSING circuit, which is then FREE. -/
theorem witness_telexWorked :
    let on (x : Circuit) (t : Turn) : State := withCircuit x (onChannel0 { onAir t (.data 0x41 0x41) with
      silenceStop := true, bound := [0] })
    let body (n : Nat) : Turn := Turn.fresh (.telex ⟨0, n, 0⟩) .body
    let header (cut : Option PendingCut) : Turn := { telexTurn .header with text := [0x41], pendingCut := cut }
    let resuming : Circuit := { queued with resume := true }
    let after (x : Circuit) (t : Turn) := ((on x t).completeSymbol 0).circuit 0
    queued.chain.law ∧ (after queued (body 0)).count = 1 ∧ (after queued (body 0)).resume = true ∧
    (after resuming (header none)).resume = false ∧ (after resuming (header (some ⟨.distress, 0⟩))).resume = true ∧
    after { bound0 with life := .closing, chain := ⟨[1], 0, 1⟩ } (body 0) = Circuit.freeOn 0 ∧
    (after { queued with movePending := some 1 } (body 0)).channel = 1 := by
  refine ⟨by unfold Chain.law; decide, ?_⟩
  decide +kernel

def inGap (timer : Option Timer) : Turn :=
  Turn.fresh (.pass { passOf (bulletin .released (map70 0 0)) with gapTimer := timer }) .gap

theorem witness_HoldAndGapTimersExpire :
    (State.reset.circuit 0).waitStart = none ∧ ({ queued with waitStart := some 4 } : Circuit).waitStart = some 4 ∧
    queued.holdNotified = false ∧ (inGap none).kind = .pass { passOf (bulletin .released (map70 0 0)) with gapTimer := none } ∧
    ((onChannel0 (onAir (inGap (some ⟨9, 9⟩)) .idle)).channel 0).turn = some (inGap (some ⟨9, 9⟩)) := by decide

/-! ## Keying and turns -/

theorem witness_KeyokRiseIsAGrant :
    (waitingOn .requesting queued).keyokOf 0 = false ∧ ((waitingOn .requesting queued).channel 0).state = .requesting ∧
    ((waitingOn .idle queued).channel 0).state ≠ .requesting ∧
    (waitingOn .requesting queued).anythingEligible 0 = true ∧ (waitingOn .requesting bound0).anythingEligible 0 = false ∧
    (((waitingOn .requesting queued).riseKeyok 0).channel 0).state = .keyed := by decide +kernel

theorem witness_KeyokFallIsAPermitLoss :
    ((onChannel0 (onAir (passTurn (bulletin .released (map70 0 0)) .body) .idle)).setKeyok 0 true).keyokOf 0 = true ∧
    (at0 .idle).state ∉ [ChannelState.keyed, .stopping] ∧ (at0 .stopping).state ∈ [ChannelState.keyed, .stopping] ∧
    (onAir (telexTurn .body) .idle).turn.isSome = true ∧ (telexTurn .body).cutInProgress = none ∧
    (passOf (bulletin .released (map70 0 0))).abandoned = false ∧ bound0.life = .bound ∧
    (withBulletin (bulletin .released (map70 0 0)) State.reset).bulletin (passOf (bulletin .released (map70 0 0))).bulletin =
      some (bulletin .released (map70 0 0)) := by decide

/-- A stop of a pass with a cut in progress and of an abandoned one, and a stop of its own: the three counters and the queue
after a permit loss, and after an ABORT, where an entry put back is missed. -/
theorem witness_stops_of_a_pass :
    let b := bulletin .released (map70 0 0)
    let on (cut : Option CutReason) (abandoned : Bool) : State :=
      (withBulletin { b with onAir := 1 } (onChannel0 (onAir { Turn.fresh (.pass { passOf b with abandoned := abandoned })
        .closing with cutInProgress := cut } .idle))).setKeyok 0 true
    let said (u : State) := (u.bulletin 3).map fun b => [b.interrupted, b.abandoned, b.missed]
    let lost (cut : Option CutReason) (abandoned : Bool) := (on cut abandoned).fallKeyok 0
    let aborted (cut : Option CutReason) (abandoned : Bool) := (channelOff 0 1 (on cut abandoned)).1
    said (lost none false) = some [1, 0, 0] ∧ said (lost (some .distress) false) = some [1, 0, 0] ∧
    said (lost (some .withdraw) false) = some [0, 0, 0] ∧ said (lost none true) = some [0, 1, 0] ∧
    ((lost (some .distress) false).channel 0).queue = [⟨3, 1, 2, 1, 0⟩] ∧ ((lost (some .withdraw) false).channel 0).queue = [] ∧
    said (aborted none false) = some [0, 0, 1] ∧ said (aborted (some .distress) false) = some [1, 0, 1] ∧
    said (aborted (some .withdraw) false) = some [0, 0, 0] ∧ said (aborted none true) = some [0, 1, 0] := by decide +kernel

theorem witness_ChannelTimersExpire :
    (at0 .idle).lockTimer = none ∧ (at0 .idle).permitTimer = none ∧ (at0 .idle).retryTimer = none ∧
    ({ at0 .locking with lockTimer := some ⟨3, 3⟩ } : Channel).lockTimer = some ⟨3, 3⟩ ∧
    ({ at0 .requesting with permitTimer := some ⟨3, 3⟩ } : Channel).permitTimer = some ⟨3, 3⟩ ∧
    ({ at0 .backoff with retryTimer := some ⟨3, 3⟩ } : Channel).retryTimer = some ⟨3, 3⟩ ∧
    (waitingOn .backoff queued).anythingEligible 0 = true ∧ (waitingOn .backoff bound0).anythingEligible 0 = false ∧
    (waitingOn .backoff queued).keyokOf 0 = false ∧ ((waitingOn .backoff queued).setKeyok 0 true).keyokOf 0 = true := by
  decide

/-- The lock expiry frees a circuit of its last hold, whose wait begins, and the channel requests or keys; a circuit that HOST
holds too does not wait, and the channel is IDLE with KEYREQ low. -/
theorem witness_lock_expiry :
    let after (x : Circuit) (keyok : Bool) := ((withCircuit { x with channelHold := true, holdNotified := true } (onChannel0
      { at0 .locking with bound := [0], lockTimer := some ⟨3, 3⟩ })).setKeyok 0 keyok).lockExpiry 0
    ((after queued false).circuit 0) = { queued with waitStart := some 3 } ∧
    ((after queued false).channel 0).state = .requesting ∧ ((after queued false).channel 0).keyreq = true ∧
    ((after queued true).channel 0).state = .keyed ∧ ((after queued true).circuit 0).waitStart = none ∧
    ((after { queued with hostHold := true } false).circuit 0) = { queued with hostHold := true, holdNotified := true } ∧
    ((after { queued with hostHold := true } false).channel 0) = { at0 .idle with bound := [0] } ∧
    ({ queued with channelHold := true, holdNotified := true } : Circuit).releasedAt false 3 =
      { queued with waitStart := some 3 } := by decide +kernel

def choosing (rank : Rank) (k : Category) (bulletinRun telexRun : Nat) : State :=
  withBulletin { bulletin .released (map70 0 0) with category := k }
    (withCircuit queued (onChannel0 { at0 .keyed with
      queue := [⟨3, rank, 1, 0, 0⟩], bound := [0], bulletinRun := bulletinRun, telexRun := telexRun }))

/-- The seven choices, with the runs on either side of the bursts, which are 1. -/
theorem witness_SelectionTakesTheFirstChoice :
    (choosing 0 .dr 9 0).choose 0 = .entry ⟨3, 0, 1, 0, 0⟩ ∧ (choosing 1 .ur 9 0).choose 0 = .entry ⟨3, 1, 1, 0, 0⟩ ∧
    (choosing 2 .nw 0 0).choose 0 = .entry ⟨3, 2, 1, 0, 0⟩ ∧ (choosing 2 .nw 1 0).choose 0 = .circuit 0 ∧
    (choosing 3 .rn 0 1).choose 0 = .entry ⟨3, 3, 1, 0, 0⟩ ∧ (choosing 3 .rn 0 0).choose 0 = .circuit 0 ∧
    (withCircuit bound0 (choosing 3 .rn 1 0)).choose 0 = .entry ⟨3, 3, 1, 0, 0⟩ ∧
    (waitingOn .keyed bound0).choose 0 = .nothing := by decide +kernel

/-- A commit pending and silence take an entry out, but silence not one of class 0; the rotation begins after the last
served circuit, and at the head where that is not in the list. -/
theorem witness_Selection_eligible :
    let pending (p : Bool) := withBulletin { bulletin .released (map70 0 0) with commitPending := p } State.reset
    let quiet : State := { onChannel0 (at0 .idle) with silence := true }
    let urgent := withBulletin (bulletin .released (map70 0 0)) quiet
    let rotation (c : Option (Fin 32)) := ({ at0 .keyed with bound := [4, 2, 9], lastServed := c } : Channel).rotation
    (pending false).entryEligible 0 ⟨3, 1, 1, 0, 0⟩ = true ∧ (pending true).entryEligible 0 ⟨3, 1, 1, 0, 0⟩ = false ∧
    urgent.entryEligible 0 ⟨3, 1, 1, 0, 0⟩ = false ∧ urgent.entryEligible 0 ⟨3, 0, 1, 0, 0⟩ = true ∧
    urgent.entryEligible 1 ⟨3, 1, 1, 0, 0⟩ = true ∧ (withCircuit queued quiet).circuitEligible 0 0 = false ∧
    (withCircuit queued quiet).circuitEligible 1 0 = true ∧ (withCircuit bound0 quiet).circuitEligible 1 0 = false ∧
    rotation none = [4, 2, 9] ∧ rotation (some 2) = [9, 4, 2] ∧ rotation (some 9) = [4, 2, 9] ∧
    rotation (some 5) = [4, 2, 9] := by decide +kernel

/-- A telex turn and a pass that a grant starts, from runs of 255 and 3. -/
theorem witness_selected_turns :
    let grant (x : Channel) := ((withBulletin (bulletin .released (map70 0 0)) (withCircuit { queued with waitStart := some 0 }
      (onChannel0 { x with bulletinRun := 255, telexRun := 3 }))).riseKeyok 0)
    let telex := grant { at0 .requesting with bound := [0] }
    let pass := grant { at0 .requesting with queue := [⟨3, 1, 2, 0, 0⟩] }
    (telex.channel 0).lastServed = some 0 ∧ (telex.channel 0).telexRun = 4 ∧ (telex.channel 0).bulletinRun = 0 ∧
    (telex.circuit 0).waitStart = none ∧ (pass.channel 0).bulletinRun = 255 ∧ (pass.channel 0).telexRun = 0 ∧
    (pass.channel 0).queue = [] ∧ (pass.bulletin 3).map (fun b => b.onAir) = some 1 ∧
    (pass.channel 0).turn = some (passTurn (bulletin .released (map70 0 0)) profile.openingPhase) := by decide +kernel

theorem witness_EntriesStandByClass :
    (([⟨1, 1, 1, 0, 0⟩, ⟨2, 2, 1, 0, 0⟩, ⟨3, 2, 1, 0, 0⟩] : List Entry).map fun x => x.rank).Pairwise (· ≤ ·) ∧
    (insertAtTail [⟨1, 1, 1, 0, 0⟩, ⟨2, 2, 1, 0, 0⟩, ⟨3, 3, 1, 0, 0⟩] ⟨4, 2, 1, 0, 0⟩).map (fun x => x.bulletin) = [1, 2, 4, 3] ∧
    (insertAtHead [⟨1, 1, 1, 0, 0⟩, ⟨2, 2, 1, 0, 0⟩, ⟨3, 3, 1, 0, 0⟩] ⟨4, 2, 1, 0, 0⟩).map (fun x => x.bulletin) = [1, 4, 2, 3] := by
  decide

def opening (p : Phase) (count : Nat) (text : List Byte) (position : Nat) (y : Symbol) : State :=
  withCircuit bound0 (onChannel0 (onAir
    { telexTurn p with phaseCount := count, text := text, textPosition := position } y))

/-- LEAD of 2 and PREAMBLE of 4, at the last symbol and the one before; a header at its last character. -/
theorem witness_TurnOpensWithPhasingAndHeader :
    (telexTurn .lead).pendingCut = none ∧ (telexTurn .lead).held = none ∧
    (((opening .lead 0 [] 0 .idle).completeSymbol 0).channel 0).turn.map (fun t => t.phase) = some .lead ∧
    (((opening .lead 1 [] 0 .idle).completeSymbol 0).channel 0).turn.map (fun t => t.phase) = some .preamble ∧
    (((opening .preamble 2 [] 0 .phase).completeSymbol 0).channel 0).turn.map (fun t => t.phase) = some .preamble ∧
    (((opening .preamble 3 [] 0 .phase).completeSymbol 0).channel 0).turn.map (fun t => t.text) = some [0x41, 0x0D, 0x0A] ∧
    (((opening .header 0 [0x41, 0x35] 0 (.data 0x41 0x41)).completeSymbol 0).channel 0).turn.map (fun t => t.held) =
      some (some 0x35) ∧
    (((opening .header 0 [0x41] 0 (.data 0x41 0x41)).completeSymbol 0).channel 0).turn.map (fun t => t.phase) =
      some .body := by decide +kernel

/-- The first symbol of a header is in the unknown shift, and the first one of a body is the head of the queue or of the map,
or IDLE. -/
theorem witness_TurnOpens_first :
    let said (s : State) := ((s.completeSymbol 0).channel 0).output.map fun e => e.symbol
    let header (x : Circuit) (t : Turn) := withCircuit x ((onChannel0 { onAir { t with text := [0x0A] } (.data 0x0A 0x0A) with
      shift := .letters }).setStore { State.reset.store with cells := [(cellAddress 1 63, 0x42), (cellAddress 5 0, 0x39)] })
    let pass (fill : Nat) := let b := bulletin .released (map70 fill 0)
      withBulletin b (header queued (passTurn b .header))
    said (opening .preamble 3 [] 0 .phase) = some .shiftLetters ∧
    said (header queued (telexTurn .header)) = some (.data 0x42 0x42) ∧
    said (header bound0 (telexTurn .header)) = some .idle ∧ said (pass 1) = some .shiftFigures ∧
    said (pass 0) = some .idle ∧ queued.chain.text [(cellAddress 1 63, 0x42)] = [0x42, blankByte] := by decide +kernel

/-- The middle of a trailer and of a closing sequence: the next character, or its shift. -/
theorem witness_TurnOpens_middle :
    let said (p : Phase) (text : List Byte) := let u := (opening p 0 text 0 (.data 0x0A 0x0A)).completeSymbol 0
      ((u.channel 0).output.map fun e => e.symbol, (u.channel 0).turn.map fun t => (t.textPosition, t.held))
    said .trailer [0x0A, 0x45] = (some .shiftLetters, some (1, some 0x45)) ∧
    said .closing [0x0A, 0x0D] = (some (.data 0x0D 0x0D), some (1, none)) := by decide +kernel

/-- The first character of the sequence of a cut that has fallen, in a header and in a gap. -/
theorem witness_cutFallen :
    let fallen (t : Turn) (y : Symbol) :=
      let x := ((onChannel0 (onAir { t with pendingCut := some ⟨.distress, 0⟩ } y)).completeSymbol 0).channel 0
      (x.output.map fun e => e.symbol, x.turn.map fun t => (t.phase, t.text == breakSequence))
    fallen { telexTurn .header with text := [0x41] } (.data 0x41 0x41) = (some (.data 0x0D 0x0D), some (.closing, true)) ∧
    fallen (inGap none) .idle = (some (.data 0x0D 0x0D), some (.closing, true)) ∧
    fallen (telexTurn .lead) .idle = (some (.data 0x0D 0x0D), some (.closing, true)) := by decide +kernel

/-- A shift and its held character, and a character sent as "?", at the end of the count and before it. -/
theorem witness_TurnOpens_shift :
    let shifted := (onChannel0 (onAir { telexTurn .header with text := [0x35], held := some 0x35 } .shiftFigures)).completeSymbol 0
    (shifted.channel 0).shift = .figures ∧ (shifted.channel 0).output.map (fun e => e.symbol) = some (.data 0x35 0x35) ∧
    (((onChannel0 (onAir { telexTurn .header with text := [0x23, 0x23] } (.data 0x3F 0x23))).completeSymbol 0).channel
      0).substitutions = 1 ∧
    (((onChannel0 { onAir { telexTurn .header with text := [0x23, 0x23] } (.data 0x3F 0x23) with
      substitutions := 65535 }).completeSymbol 0).channel 0).substitutions = 65535 := by decide +kernel

def telexBody (x : Circuit) (body grace : Nat) (y : Symbol) : State :=
  withCircuit x (onChannel0 (onAir (Turn.fresh (.telex ⟨0, body, grace⟩) .body) y))

def phaseAfter (s : State) : Option Phase := ((s.completeSymbol 0).channel 0).turn.map fun t => t.phase

/-- The quota is 64 and the grace 2: a word boundary at the quota, 32 past it without one, and the grace. -/
theorem witness_TelexBodyTakesFromTheQueue :
    queued.chain.law ∧ 1 ≤ profile.turnGrace ∧ queued.count ≠ 0 ∧ bound0.count = 0 ∧
    phaseAfter (telexBody queued 63 0 (.data 0x41 0x41)) = some .body ∧
    phaseAfter (telexBody queued 63 0 (.data 0x20 0x20)) = some .trailer ∧
    phaseAfter (telexBody queued 95 0 (.data 0x41 0x41)) = some .trailer ∧
    phaseAfter (telexBody queued 94 0 (.data 0x41 0x41)) = some .body ∧
    phaseAfter (telexBody bound0 0 0 .idle) = some .body ∧ phaseAfter (telexBody bound0 0 1 .idle) = some .trailer ∧
    phaseAfter (telexBody { bound0 with life := .closing } 0 0 .idle) = some .trailer :=
  ⟨by unfold Chain.law; decide, by decide +kernel⟩

/-- 129 characters, of which one leaves the head block and empties it; 130 of them. -/
def longQueue (flow : Flow) (tail : Nat) : Circuit := { bound0 with chain := ⟨[1, 2, 3], 63, tail⟩, flow := flow }

theorem witness_TelexBody_resume :
    (longQueue .pausedStore 64).count = 129 ∧ (longQueue .pausedStore 64).chain.law ∧
    (∀ f ∈ [Flow.pausedThreshold, .pausedStore],
      ((((telexBody (longQueue f 64) 0 0 (.data 0x41 0x41)).completeSymbol 0).circuit 0).flow = .flowing) ∧
      ((((telexBody { bound0 with chain := ⟨[1, 2, 3, 4], 63, 1⟩, flow := f } 0 0 (.data 0x41 0x41)).completeSymbol 0).circuit
        0).flow) = f) ∧
    ((((telexBody queued 0 1 .idle).completeSymbol 0).channel 0).turn.map fun t => t.kind) = some (.telex ⟨0, 0, 0⟩) := by
  refine ⟨by decide, by unfold Chain.law; decide, ?_⟩
  decide +kernel

def passBody (m : TextMap) (offset : Nat) (ph : Phase) (abandoned : Bool) (y : Symbol) : State :=
  withBulletin (bulletin .released m) (onChannel0 (onAir
    (Turn.fresh (.pass { passOf (bulletin .released m) with bodyOffset := offset, abandoned := abandoned }) ph) y))

/-- The last character of the text, a written and a missing next character, and the three ways out of a gap. -/
theorem witness_PassBodyReadsTheMap :
    phaseAfter (passBody (map70 64 6) 69 .body false (.data 0x41 0x41)) = some .trailer ∧
    phaseAfter (passBody (map70 64 6) 68 .body false (.data 0x41 0x41)) = some .body ∧
    phaseAfter (passBody (map70 64 0) 63 .body false (.data 0x41 0x41)) = some .gap ∧
    phaseAfter (passBody (map70 64 1) 64 .gap false .idle) = some .body ∧
    phaseAfter (passBody (map70 64 0) 64 .gap true .idle) = some .closing ∧
    phaseAfter (passBody (map70 64 0) 64 .gap false .idle) = some .gap := by decide +kernel

/-- The character that follows is the one the map holds. -/
theorem witness_PassBody_character :
    (((({ passBody (map70 64 6) 63 .body false (.data 0x20 0x20) with
        store := ⟨[], 0, [(cellAddress 6 0, 0x0A)]⟩ } : State).completeSymbol 0).channel 0).output.map fun e => e.symbol) =
      some (.data 0x0A 0x0A) := by decide +kernel

def ending (t : Turn) (st : ChannelState) : State :=
  withBulletin { bulletin .released (map70 64 6) with onAir := 1 }
    (onChannel0 { onAir { t with text := [0x0A] } (.data 0x0A 0x0A) with state := st })

theorem witness_LastSymbolEndsTheTurn :
    (((ending (passTurn (bulletin .released (map70 64 6)) .trailer) .stopping).completeSymbol 0).channel 0).state = .off ∧
    ((((ending (passTurn (bulletin .released (map70 64 6)) .trailer) .keyed).completeSymbol 0).bulletin 3).map fun b =>
      (b.completed, b.sent, b.onAir)) = some (1, true, 1) ∧
    (((withBulletin { bulletin .withdrawing (map70 64 6) with onAir := 1 }
      (ending (passTurn (bulletin .released (map70 64 6)) .closing) .keyed)).completeSymbol 0).bulletin 3) = none ∧
    (((withCircuit { bound0 with life := .closing } (ending (telexTurn .trailer) .keyed)).completeSymbol 0).circuit 0).life =
      .free := by decide +kernel

/-- A telex turn ends with characters left: at its own end, at a permit loss and at an ABORT, with no move pending and with one
to an IDLE channel, the wait begins, and the target requests; from STOPPING the circuit that stays is held. -/
theorem witness_telexEnded :
    let on (st : ChannelState) (move : Option (Fin 8)) : State :=
      ((withCircuit { queued with movePending := move, holdNotified := true } (onChannel0
        { onAir { telexTurn .trailer with text := [0x0A] } (.data 0x0A 0x0A) with state := st, bound := [0] })).setChannel 1
        (at0 .idle)).setKeyok 0 true
    let said (u : State) := ((u.circuit 0).waitStart, (u.circuit 0).holdNotified, (u.circuit 0).channel,
      (u.circuit 0).channelHold, (u.channel 1).state)
    [(on .keyed none).endTurn 0 .own, (on .keyed (some 1)).endTurn 0 .own, (on .keyed none).fallKeyok 0,
      (on .keyed (some 1)).fallKeyok 0, (channelOff 0 1 (on .keyed none)).1, (channelOff 0 1 (on .stopping (some 1))).1].map
        said =
      [(some 0, false, 0, false, .idle), (some 0, false, 1, false, .requesting), (some 0, false, 0, false, .idle),
        (some 0, false, 1, false, .requesting), (none, false, 0, true, .idle), (some 0, false, 1, false, .requesting)] ∧
    ((on .keyed none).circuit 0).channel = 0 := by decide +kernel

/-- The entry after its own end with two passes left and with one, after a cut, after an abandonment, and after a
withdrawal; the resume flag of a telex turn that a cut ended. -/
theorem witness_LastSymbolEndsTheTurn_entry :
    let b := bulletin .released (map70 64 6)
    let busy (t : Turn) : State := ending t .keyed
    let pass (passes : Nat) (abandoned : Bool) : TurnKind := .pass { passOf b with passes := passes, abandoned := abandoned }
    let after (k : TurnKind) (r : Option CutReason) : State :=
      (busy { Turn.fresh k (if r.isSome then .closing else .trailer) with cutInProgress := r }).completeSymbol 0
    let said (u : State) := (u.bulletin 3).map fun b => (b.completed, b.interrupted, b.abandoned)
    said (after (pass 2 false) none) = some (1, 0, 0) ∧ ((after (pass 2 false) none).channel 0).carriesPass 3 = true ∧
    said (after (pass 1 false) none) = some (1, 0, 0) ∧ ((after (pass 1 false) none).channel 0).turn = none ∧
    said (after (pass 1 false) (some .urgency)) = some (0, 1, 0) ∧
    ((after (pass 1 false) (some .urgency)).channel 0).carriesPass 3 = true ∧
    said (after (pass 2 false) (some .withdraw)) = some (0, 0, 0) ∧
    ((after (pass 2 false) (some .withdraw)).channel 0).turn = none ∧
    said (after (pass 2 true) none) = some (0, 0, 1) ∧
    (((withCircuit queued (ending { Turn.fresh (.telex ⟨0, 1, 0⟩) .closing with cutInProgress := some .distress }
      .keyed)).completeSymbol 0).circuit 0).resume = true ∧
    (((withCircuit queued (ending { Turn.fresh (.telex ⟨0, 0, 0⟩) .closing with cutInProgress := some .distress }
      .keyed)).completeSymbol 0).circuit 0).resume = false := by decide +kernel

/-- A pending commit is taken at the end of the last pass: an IDLE channel with an entry raises KEYREQ, a telex turn on a
KEYED one is caused its cut, and a bulletin whose occasions are used up retires if no entry is left. -/
theorem witness_LastSymbolEndsTheTurn_commit :
    let b := { revising 64 6 1 1 with commitPending := true }
    let used := { b with schedule := ⟨[0], .every 5, 1, some 0⟩ }
    let owed (x : Channel) : Channel := { x with queue := [⟨3, 1, 1, 0, 0⟩] }
    let after (b : Bulletin) (x : Channel) :=
      (withBulletin b ((ending { passTurn b .trailer with kind := .pass { passOf b with passes := 1 } } .keyed).setChannel 1
        x)).completeSymbol 0
    let idle := after b (owed (at0 .idle))
    let keyed := after b (owed (onAir (telexTurn .body) .idle))
    b.state = .released ∧ b.staged = some (map70 64 6) ∧ b.onAir = 1 ∧
    (idle.bulletin 3).map (fun x => (x.current, x.staged, x.revision, x.commitPending)) =
      some (map70 64 6, none, 2, false) ∧
    (idle.channel 1).keyreq = true ∧ idle.store.free = State.reset.store.free ++ [5, 6] ∧
    (keyed.channel 1).turn = some ((telexTurn .body).caused .urgency) ∧
    (after used (owed (at0 .idle))).bulletin 3 ≠ none ∧ (after used (at0 .idle)).bulletin 3 = none := by decide +kernel

/-- The last pass of a RELEASED bulletin ends without a commit: with its occasions used up it retires, its blocks at the tail
of the free list; with an occasion left, with an entry put back, and with another pass on air it stands. -/
theorem witness_passEnded :
    let b (limit onAir : Nat) := { bulletin .released (map70 64 6) with
      schedule := ⟨[0], .every 5, 1, some limit⟩, onAir := onAir }
    let after (b : Bulletin) (passes : Nat) := (withBulletin b (ending { passTurn b .trailer with
      kind := .pass { passOf b with passes := passes } } .keyed)).completeSymbol 0
    [after (b 0 1) 1, after (b 1 1) 1, after (b 0 1) 2, after (b 0 2) 1].map (fun u =>
      ((u.bulletin 3).map fun x => (x.onAir, x.completed), u.store.free.length)) =
      [(none, 1026), (some (0, 1), 1024), (some (1, 1), 1024), (some (1, 1), 1024)] ∧
    (passTurn (b 0 1) .trailer).outcomeOf (passOf (b 0 1)) .completed = some .completed ∧
    ({ passTurn (b 0 1) .closing with cutInProgress := some .withdraw } : Turn).outcomeOf (passOf (b 0 1)) .completed = none ∧
    ({ passTurn (b 0 1) .closing with cutInProgress := some .purge } : Turn).outcomeOf
      { passOf (b 0 1) with abandoned := true } .completed = some .abandoned := by decide +kernel

/-- The last symbol of a pass on a STOPPING channel: the entry put back is missed, and the bulletin retires. -/
theorem witness_passEnded_stopping :
    let b := { bulletin .released (map70 64 6) with schedule := ⟨[0], .every 5, 1, some 1⟩, onAir := 1 }
    let after (b : Bulletin) := (withBulletin b (ending (passTurn b .trailer) .stopping)).completeSymbol 0
    ((after b).bulletin 3).map (fun x => (x.completed, x.missed, x.onAir)) = some (1, 1, 0) ∧
    (after { b with schedule := ⟨[0], .every 5, 1, some 0⟩ }).bulletin 3 = none := by decide +kernel

def cutting (t : Turn) (r : CutReason) (n : Nat) (y : Symbol) : Option Phase :=
  phaseAfter (withBulletin (bulletin .released (map70 64 6)) (withCircuit { bound0 with chain := ⟨[1, 2], 60, 4⟩ }
    (onChannel0 (onAir { t with pendingCut := some ⟨r, n⟩ } y))))

/-- An URGENCY cut on either side of a word boundary and of 16 characters, in both kinds of body; the other reasons; the
gap; and a shift. -/
theorem witness_CutsFallAndHoldEnds_body :
    (∀ t ∈ [passTurn (bulletin .released (map70 64 6)) .body, telexTurn .body],
      cutting t .urgency 0 (.data 0x41 0x41) = some .body ∧ cutting t .urgency 14 (.data 0x41 0x41) = some .body ∧
      cutting t .urgency 15 (.data 0x41 0x41) = some .closing ∧ cutting t .urgency 0 (.data 0x20 0x20) = some .closing ∧
      cutting t .distress 0 (.data 0x41 0x41) = some .closing ∧ cutting t .urgency 16 .shiftLetters = some .body ∧
      cutting t .withdraw 0 .shiftLetters = some .closing) ∧
    cutting (telexTurn .body) .urgency 15 .idle = some .body ∧ cutting (telexTurn .body) .urgency 16 .idle = some .closing ∧
    cutting (inGap none) .urgency 0 .idle = some .closing ∧
    cutting (Turn.fresh (.pass { passOf (bulletin .released (map70 64 6)) with bodyOffset := 69 }) .body) .distress 0
      (.data 0x41 0x41) = some .trailer := by decide +kernel

/-- A purge has emptied the queue under a body character, and a gap whose pass is abandoned under a pending cut. -/
theorem witness_CutsFallAndHoldEnds_emptied :
    let abandoned := (onChannel0 (onAir { Turn.fresh (.pass { passOf (bulletin .released (map70 64 0)) with
      abandoned := true }) .gap with pendingCut := some ⟨.withdraw, 0⟩ } .idle)).completeSymbol 0
    let purged := (withCircuit { bound0 with life := .closing } (onChannel0 (onAir { Turn.fresh (.telex ⟨0, 4, 0⟩) .body with
      pendingCut := some ⟨.purge, 0⟩ } (.data 0x41 0x41)))).completeSymbol 0
    bound0.chain.law ∧ bound0.count = 0 ∧
    ((abandoned.channel 0).turn.map fun t => (t.phase, t.text, t.pendingCut, t.cutInProgress)) =
      some (.closing, breakSequence, none, none) ∧
    ((purged.channel 0).turn.map fun t => (t.phase, t.kind, t.cutInProgress)) =
      some (.closing, .telex ⟨0, 4, 0⟩, some .purge) := by
  refine ⟨?_, by decide +kernel⟩
  unfold Chain.law
  decide

/-- An URGENCY cut that waits inside a word: at the quota of 64 and 32 more the turn goes to its trailer, and one character
before it the body goes on. -/
theorem witness_CutsFallAndHoldEnds_margin :
    let after (n : Nat) := ((withCircuit queued (onChannel0 (onAir { Turn.fresh (.telex ⟨0, n, 0⟩) .body with
      pendingCut := some ⟨.urgency, 3⟩ } (.data 0x41 0x41)))).completeSymbol 0).channel 0
    [after 95, after 94].map (fun x => x.turn.map fun t => (t.phase, t.text, t.pendingCut)) =
      [some (.trailer, [0x0D, 0x0A], none), some (.body, [], some ⟨.urgency, 4⟩)] ∧
    queued.count ≠ 1 ∧ 1 ≤ profile.turnGrace ∧ profile.telexQuota = 64 := by decide +kernel

/-- Every phase and reason of the cuts that fall at once, and the key hold of 2 on either side. -/
theorem witness_CutsFallAndHoldEnds :
    (∀ p ∈ [Phase.lead, .preamble, .header], ∀ r ∈ [CutReason.distress, .urgency, .withdraw, .purge],
      phaseAfter (onChannel0 (onAir { telexTurn p with pendingCut := some ⟨r, 0⟩, text := [0x41, 0x42] } .idle)) =
        some .closing) ∧
    (((onChannel0 { at0 .keyed with output := some ⟨.idle, 0⟩, holdCount := 0 }).completeSymbol 0).channel 0).state = .keyed ∧
    (((onChannel0 { at0 .keyed with output := some ⟨.idle, 0⟩, holdCount := 1 }).completeSymbol 0).channel 0).state = .idle ∧
    phaseAfter (withCircuit queued (onChannel0 { at0 .keyed with output := some ⟨.idle, 0⟩, bound := [0] })) =
      some .preamble := by decide +kernel

/-! ## The laws -/

/-- Every law holds of one state, so none is an empty hypothesis. -/
theorem witness_laws :
    State.reset.cellsLaw ∧ State.reset.noticeLaw ∧ State.reset.linkLaw ∧ State.reset.restLaw ∧
    State.reset.queueLimitLaw := by
  refine ⟨rfl, List.nodup_nil, by unfold State.linkLaw; decide, fun h => absurd h (by decide), ?_⟩
  unfold State.queueLimitLaw
  decide

theorem witness_keying_laws :
    State.reset.keyingLaw ∧ State.reset.onAirLaw ∧ State.reset.freeLaw ∧ State.reset.bindingLaw ∧ State.reset.queueLaw := by
  refine ⟨?_, ?_, ?_, ?_, ?_⟩
  · unfold State.keyingLaw Channel.keyingLaw; decide +kernel
  · unfold State.onAirLaw; decide +kernel
  · unfold State.freeLaw; decide +kernel
  · unfold State.bindingLaw; decide +kernel
  · unfold State.queueLaw Channel.queueLaw; decide +kernel

theorem witness_block_laws : State.reset.chainLaw ∧ State.reset.blockLaw := by
  refine ⟨by unfold State.chainLaw Chain.law; decide +kernel, fun b => ?_⟩
  have h : State.reset.allBlocks = List.finRange 1024 := by decide +kernel
  rw [h]
  exact List.count_eq_one_of_mem (List.nodup_finRange 1024) (List.mem_finRange b)

theorem witness_PayloadsAreReadBack :
    (Request.declareBulletin 3 12 1 70 schedule0).wellFormed = true ∧
    decodeRequest (encodeRequest (.declareBulletin 3 12 1 70 schedule0)) = some (.declareBulletin 3 12 1 70 schedule0) := by
  decide

theorem witness_FramesCrossTheLine :
    State.reset.link.assembly = none ∧ ([] : List Byte).length ≤ 240 ∧ (List.replicate 240 (0 : Byte)).length ≤ 240 := by
  decide +kernel

end Sys2Proof.Tests
end

section
/-! PROOFS. The frame of a request that is served and the entry checks of a bulletin request, said once; and the requests
of the Bulletin Table settled from them. -/

namespace Sys2Proof.Machine

/-! ## A request that is served (10: R173, R177) -/

/-- The block runs, and the reply placed after it carries its verdict (10: R173). -/
theorem request_of_serves {s : State} (h : s.serves) (r : ReplyTo) (kind : Byte) (run : State → State × Verdict) :
    request r kind run s = .next ((run s).1.replied r kind (run s).2) := by
  obtain ⟨notHeld, notRestarting⟩ := h
  simp [request, event, State.answerRequest, State.replied, notHeld, notRestarting]

/-! ## The entry a request names (02: R19) -/

theorem entryNumber_of_ne_zero {n : Fin 64} (h : n ≠ 0) : entryNumber n = .ok n := by
  have nonzero : n.val ≠ 0 := Fin.val_ne_zero_iff.mpr h
  simp [entryNumber, nonzero]

theorem presentEntry_of_some {s : State} {n : Fin 64} {b : Bulletin} (h : n ≠ 0) (hb : s.bulletin n = some b) :
    s.presentEntry n = .ok (n, b) := by
  simp [State.presentEntry, entryNumber_of_ne_zero h, hb]

theorem presentEntry_of_none {s : State} {n : Fin 64} (h : n ≠ 0) (hb : s.bulletin n = none) :
    s.presentEntry n = .error (.fail .notPresent) := by
  simp [State.presentEntry, entryNumber_of_ne_zero h, hb]

theorem onBulletin_of_some {s : State} {n : Fin 64} {b : Bulletin} (f : State → Fin 64 → Bulletin → State × Verdict)
    (h : n ≠ 0) (hb : s.bulletin n = some b) : onBulletin n f s = f s n b := by
  simp [onBulletin, presentEntry_of_some h hb]

theorem onBulletin_of_none {s : State} {n : Fin 64} (f : State → Fin 64 → Bulletin → State × Verdict)
    (h : n ≠ 0) (hb : s.bulletin n = none) : onBulletin n f s = (s, .fail .notPresent) := by
  simp [onBulletin, presentEntry_of_none h hb]

/-! ## CLEAR MARKS (02: R38) -/

theorem clearMarks_of_some {s : State} {n : Fin 64} {b : Bulletin} (h : n ≠ 0) (hb : s.bulletin n = some b) :
    clearMarks n s = (s.setBulletin n (some b.clearMarks), .ok) :=
  onBulletin_of_some _ h hb

theorem clearMarks_of_none {s : State} {n : Fin 64} (h : n ≠ 0) (hb : s.bulletin n = none) :
    clearMarks n s = (s, .fail .notPresent) :=
  onBulletin_of_none _ h hb

theorem exec_clearMarks_of_serves {s : State} (h : s.serves) (r : ReplyTo) (number : Nat) :
    exec (.clearMarks r number) s = .next ((clearMarks number s).1.replied r 0x35 (clearMarks number s).2) :=
  request_of_serves h r 0x35 (clearMarks number)

/-- Settles O26, by the two cases of the entry: a descriptor, or EMPTY. -/
theorem clearMarksClears : Obligations.ClearMarksClears := by
  intro r n s served nonzero
  rw [exec_clearMarks_of_serves served]
  constructor
  · intro b present
    rw [clearMarks_of_some nonzero present]
    rfl
  · intro empty
    rw [clearMarks_of_none nonzero empty]
    rfl

end Sys2Proof.Machine
end

section
/-! PROOFS. The bulletin claim and the check of a numeric field, said once; and STAGE REVISION settled from them. -/

namespace Sys2Proof.Machine

/-! ## The check of a numeric field and the bulletin claim (01: R8) -/

theorem within_iff {low high n : Nat} : within low high n = true ↔ low ≤ n ∧ n ≤ high := by
  simp [within]

theorem State.claimGranted_iff {s : State} {n : Nat} :
    s.claimGranted n = true ↔ n + s.store.reserve ≤ s.store.free.length :=
  decide_eq_true_iff

theorem State.claim_of_granted {s : State} {length : Nat}
    (h : blocksNeeded length + s.store.reserve ≤ s.store.free.length) (n : Fin 64) (f : TextMap → Bulletin) :
    s.claim length n f =
      ((s.takeBlocks (blocksNeeded length)).setBulletin n (some (f (s.claimedMap length))), .ok) :=
  if_pos (State.claimGranted_iff.mpr h)

theorem State.claim_of_short {s : State} {length : Nat}
    (h : s.store.free.length < blocksNeeded length + s.store.reserve) (n : Fin 64) (f : TextMap → Bulletin) :
    s.claim length n f = (s, .fail .storeFull) :=
  if_neg fun granted => Nat.not_le.mpr h (State.claimGranted_iff.mp granted)

/-! ## STAGE REVISION (03: R43) -/

theorem exec_stageRevision_of_serves {s : State} (h : s.serves) (r : ReplyTo) (number length : Nat) :
    exec (.stageRevision r number length) s =
      .next ((stageRevision number length s).1.replied r 0x38 (stageRevision number length s).2) :=
  request_of_serves h r 0x38 (stageRevision number length)

section
variable {s : State} {n : Fin 64} {b : Bulletin} (nonzero : n ≠ 0) (present : s.bulletin n = some b)
include nonzero present

theorem stageRevision_of_wrong_state (h : b.state ≠ .released ∨ b.staged.isSome = true) (length : Nat) :
    stageRevision n length s = (s, .fail .state) := by
  rw [stageRevision, onBulletin_of_some _ nonzero present]
  rcases h with notReleased | alreadyStaged
  · exact if_pos notReleased
  · rw [if_pos alreadyStaged, ite_self]

/-- Past the state checks stand the check of the length and then the claim. -/
theorem stageRevision_of_stageable (released : b.state = .released) (unstaged : b.staged = none) (length : Nat) :
    stageRevision n length s = if within 1 2048 length then s.claim length n fun map => { b with staged := some map }
      else (s, .range 1) := by
  rw [stageRevision, onBulletin_of_some _ nonzero present]
  simp only [released, unstaged, ne_eq, not_true_eq_false, Option.isSome_none, Bool.false_eq_true, if_false]
  cases within 1 2048 length <;> rfl

theorem stageRevision_of_length_out_of_range (released : b.state = .released) (unstaged : b.staged = none)
    {length : Nat} (h : length = 0 ∨ 2048 < length) : stageRevision n length s = (s, .range 1) := by
  rw [stageRevision_of_stageable nonzero present released unstaged, if_neg]
  rw [within_iff]
  omega

theorem stageRevision_of_length_in_range (released : b.state = .released) (unstaged : b.staged = none)
    {length : Nat} (low : 1 ≤ length) (high : length ≤ 2048) :
    stageRevision n length s = s.claim length n fun map => { b with staged := some map } := by
  rw [stageRevision_of_stageable nonzero present released unstaged, if_pos (within_iff.mpr ⟨low, high⟩)]

end

/-- Settles O28, by the order of the checks: the state, the length, and the claim short of blocks or granted. -/
theorem stageRevisionClaimsAMap : Obligations.StageRevisionClaimsAMap := by
  intro r n b length s served nonzero present
  rw [exec_stageRevision_of_serves served]
  refine ⟨fun wrongState => ?_, fun released unstaged => ⟨fun outOfRange => ?_, fun low high short => ?_,
    fun low high enough => ?_⟩⟩
  · rw [stageRevision_of_wrong_state nonzero present wrongState]
    rfl
  · rw [stageRevision_of_length_out_of_range nonzero present released unstaged outOfRange]
    rfl
  · rw [stageRevision_of_length_in_range nonzero present released unstaged low high, State.claim_of_short short]
    rfl
  · rw [stageRevision_of_length_in_range nonzero present released unstaged low high, State.claim_of_granted enough]
    rfl

end Sys2Proof.Machine
end

section
/-! PROOFS. The Station Clock: SET CLOCK (04: R61), the edges on MARK (R55 to R57) and the expiry of the advance timer
(R58). An event inside a minute advance may raise notices of bulletins and circuits but none of the station, so CLOCK_LOCKED
and CLOCK_DRIFTING come from the change of the clock's status alone. -/

namespace Sys2Proof.Machine

/-! ## SET CLOCK (04: R61) -/

theorem setClock_of_le {minute : Nat} (h : minute ≤ 1439) (s : State) :
    setClock minute s = (s.setClock { s.clock with minute := minute, isSet := true }, .ok) :=
  if_pos h

theorem setClock_of_gt {minute : Nat} (h : 1439 < minute) (s : State) : setClock minute s = (s, .range 0) :=
  if_neg (Nat.not_le.mpr h)

theorem exec_setClock_of_serves {s : State} (h : s.serves) (r : ReplyTo) (minute : Nat) :
    exec (.setClock r minute) s = .next ((setClock minute s).1.replied r 0x02 (setClock minute s).2) :=
  request_of_serves h r 0x02 (setClock minute)

/-- Settles O10, by the one check of the minute. -/
theorem setClockSetsTheMinuteAlone : Obligations.SetClockSetsTheMinuteAlone := by
  intro r minute s served
  rw [exec_setClock_of_serves served]
  constructor
  · intro inRange
    rw [setClock_of_le inRange]
    rfl
  · intro outOfRange
    rw [setClock_of_gt outOfRange]
    rfl

/-! ## The notices of the station -/

/-- A raise under one key leaves the notices under another as they were (11: R180). -/
theorem raiseInto_filter_of_ne {key other : NoticeKey} (h : key ≠ other) (es : List NoticeEntry)
    (ev : Option NoticeEvent) (add : Counts) :
    (raiseInto es key ev add).filter (fun e => e.key = other) = es.filter fun e => e.key = other := by
  induction es with
  | nil => simp [raiseInto, h]
  | cons e es ih =>
    simp only [raiseInto]
    by_cases here : e.key = key
    · simp [here, h]
    · simp [here, List.filter_cons, ih]

/-- The waiting notices under the key of the station. -/
def State.stationNotices (s : State) : List NoticeEntry := s.notices.filter fun e => e.key = .station

namespace State

theorem stationNotices_congr {s t : State} (h : t.notices = s.notices) : t.stationNotices = s.stationNotices :=
  congrArg (List.filter fun e : NoticeEntry => e.key = .station) h

theorem stationNotices_raise {key : NoticeKey} (h : key ≠ .station) (s : State) (ev : Option NoticeEvent) (add : Counts) :
    (s.raise key ev add).stationNotices = s.stationNotices :=
  raiseInto_filter_of_ne h s.notices ev add

theorem stationNotices_raiseEvent {key : NoticeKey} (h : key ≠ .station) (s : State) (e : NoticeEvent) :
    (s.raiseEvent key e).stationNotices = s.stationNotices :=
  stationNotices_raise h s _ _

theorem stationNotices_foldl {α : Type} {f : State → α → State}
    (hf : ∀ s a, (f s a).stationNotices = s.stationNotices) (l : List α) (s : State) :
    (l.foldl f s).stationNotices = s.stationNotices := by
  induction l generalizing s with
  | nil => rfl
  | cons a l ih => exact (ih (f s a)).trans (hf s a)

/-! ### Telling a channel raises nothing (07: R117) -/

theorem notices_of_turnStarted {v u : State} {ch : Fin 8} {phase : Phase} {choice : Choice}
    (h : v.turnStarted ch phase choice u) : u.notices = v.notices := by
  cases choice with
  | entry e =>
    obtain ⟨b, -, rfl⟩ := h
    rfl
  | circuit c =>
    rw [turnStarted] at h
    rw [h]
    rfl
  | nothing => exact h.elim

theorem notices_of_consulted {v u : State} {ch : Fin 8} (h : v.consulted ch u) : u.notices = v.notices := by
  unfold consulted at h
  dsimp only at h
  split at h
  · rw [h]
  · split at h
    · rw [h]
      rfl
    · exact (notices_of_turnStarted h).trans rfl

theorem consult_notices {s : State} {ch : Fin 8} (idle : (s.channel ch).state = .idle) :
    (s.consult ch).notices = s.notices := by
  have told : s.tellIdle ch = s.consult ch := if_pos idle
  exact told ▸ notices_of_consulted (s.tellIdle_consulted ch)

theorem tellEntry_notices (s : State) (ch : Fin 8) (k : Rank) : (s.tellEntry ch k).notices = s.notices := by
  unfold tellEntry
  dsimp only
  split
  · next idle => exact consult_notices idle
  · split_ifs <;> rfl
  all_goals rfl

theorem tellEntryOf_notices (s : State) (n : Fin 64) (ch : Fin 8) : (s.tellEntryOf n ch).notices = s.notices := by
  unfold tellEntryOf
  split
  · rfl
  · split
    · exact tellEntry_notices ..
    · rfl

/-! ### A block return report and a retirement (01: R18; 02: R37) -/

theorem reportTo_stationNotices (s : State) (c : Fin 32) : (s.reportTo c).stationNotices = s.stationNotices := by
  unfold reportTo
  dsimp only
  split
  · exact stationNotices_raiseEvent (key := .circuit c) nofun _ _
  · rfl

theorem returnAndReport_stationNotices (s : State) (bs : List BlockNo) :
    (s.returnAndReport bs).stationNotices = s.stationNotices := by
  unfold returnAndReport
  split
  · rfl
  · exact stationNotices_foldl reportTo_stationNotices allCircuits _

theorem retirementTest_stationNotices (s : State) (n : Fin 64) : (s.retirementTest n).stationNotices = s.stationNotices := by
  unfold retirementTest
  split
  · rfl
  · split
    · exact (stationNotices_raiseEvent (key := .bulletin n) nofun _ _).trans (returnAndReport_stationNotices _ _)
    · rfl

/-! ### An occasion and the minute advance (04: R54, R64, R65) -/

theorem visitChannels_stationNotices (n : Fin 64) (b : Bulletin) (chs : List (Fin 8)) (acc : State × List (Fin 8)) :
    (chs.foldl (visitChannel n b) acc).1.stationNotices = acc.1.stationNotices := by
  induction chs generalizing acc with
  | nil => rfl
  | cons ch chs ih =>
    have visited : (visitChannel n b acc ch).1.stationNotices = acc.1.stationNotices := by
      unfold visitChannel
      dsimp only
      split
      · rfl
      · exact stationNotices_raise (key := .bulletin n) nofun _ _ _
    exact (ih _).trans visited

theorem countOccasion_stationNotices (s : State) (n : Fin 64) (limit : Option Nat) :
    (s.countOccasion n limit).stationNotices = s.stationNotices := by
  unfold countOccasion
  split
  · rfl
  · dsimp only
    split
    · exact retirementTest_stationNotices _ _
    · rfl

theorem occasion_stationNotices (s : State) (n : Fin 64) : (s.occasion n).stationNotices = s.stationNotices := by
  unfold occasion
  split
  · rfl
  · next b _ =>
    have told := stationNotices_foldl fun s ch => stationNotices_congr (tellEntryOf_notices s n ch)
    exact (told _ _).trans ((countOccasion_stationNotices _ _ _).trans (visitChannels_stationNotices n b _ _))

theorem advanceBulletin_stationNotices (s : State) (n : Fin 64) :
    (s.advanceBulletin n).stationNotices = s.stationNotices := by
  unfold advanceBulletin
  split
  · rfl
  · split
    · split
      · rfl
      · split
        · exact occasion_stationNotices s n
        · rfl
      · split
        · exact occasion_stationNotices _ n
        · rfl
    · rfl

theorem minuteAdvance_stationNotices (s : State) : s.minuteAdvance.stationNotices = s.stationNotices :=
  stationNotices_foldl advanceBulletin_stationNotices allEntries _

/-! ## What a minute advance leaves alone (04: R54) -/

/-- The notices of the station, the time, the line and the cells are the same. -/
structure SameStation (s t : State) : Prop where
  stationNotices : t.stationNotices = s.stationNotices
  now : t.now = s.now
  link : t.link = s.link
  cells : t.store.cells = s.store.cells

theorem SameStation.trans {s t u : State} (h : s.SameStation t) (h' : t.SameStation u) : s.SameStation u where
  stationNotices := h'.stationNotices.trans h.stationNotices
  now := h'.now.trans h.now
  link := h'.link.trans h.link
  cells := h'.cells.trans h.cells

theorem sameStation_setClock (s : State) (c : Clock) : s.SameStation (s.setClock c) := ⟨rfl, rfl, rfl, rfl⟩

/-- Past the clock itself, an advance is made of the writes and raises of the operations inside an event. -/
theorem moves_minuteAdvance (s : State) :
    (s.setClock { s.clock with minute := (s.clock.minute + 1) % 1440, lastAdvance := s.now }).Moves s.minuteAdvance :=
  Moves.refl.foldl (fun _ n => Moves.refl.advanceBulletin n) allEntries

theorem minuteAdvance_clock (s : State) : s.minuteAdvance.clock =
    { s.clock with minute := (s.clock.minute + 1) % 1440, lastAdvance := s.now } := by
  obtain ⟨-, clock, -⟩ := s.moves_minuteAdvance.frame
  exact clock

theorem sameStation_minuteAdvance (s : State) : s.SameStation s.minuteAdvance := by
  obtain ⟨link, -, now, -, -, -, -, -, -, cells, -⟩ := s.moves_minuteAdvance.frame
  exact ⟨s.minuteAdvance_stationNotices, now, link, cells⟩

/-! ## The status of the clock (04: R57, R58) -/

theorem lockClock_clock (s : State) : s.lockClock.clock =
    { s.clock with status := .locked, advanceTimer := ⟨Config.seconds 61, s.now + Config.seconds 61⟩ } := by
  unfold lockClock
  split <;> rfl

theorem lockClock_frame (s : State) :
    s.lockClock = { s with clock := s.lockClock.clock, notices := s.lockClock.notices } := by
  unfold lockClock
  split <;> rfl

@[simp] theorem lockClock_now (s : State) : s.lockClock.now = s.now := by rw [lockClock_frame]
@[simp] theorem lockClock_link (s : State) : s.lockClock.link = s.link := by rw [lockClock_frame]
@[simp] theorem lockClock_store (s : State) : s.lockClock.store = s.store := by rw [lockClock_frame]

theorem lockClock_reports {s : State} (h : s.clock.status = .drifting) : s.lockClock.reports .station .clockLocked := by
  unfold lockClock
  rw [h]
  exact reports_raiseEvent ..

theorem lockClock_notices {s : State} (h : s.clock.status = .locked) : s.lockClock.notices = s.notices := by
  unfold lockClock
  rw [h]
  rfl

theorem driftClock_clock (s : State) : s.driftClock.clock =
    { s.clock with status := .drifting, advanceTimer := ⟨Config.seconds 60, s.now + Config.seconds 60⟩ } := by
  unfold driftClock
  split <;> rfl

theorem driftClock_frame (s : State) :
    s.driftClock = { s with clock := s.driftClock.clock, notices := s.driftClock.notices } := by
  unfold driftClock
  split <;> rfl

@[simp] theorem driftClock_now (s : State) : s.driftClock.now = s.now := by rw [driftClock_frame]
@[simp] theorem driftClock_link (s : State) : s.driftClock.link = s.link := by rw [driftClock_frame]
@[simp] theorem driftClock_store (s : State) : s.driftClock.store = s.store := by rw [driftClock_frame]

theorem driftClock_reports {s : State} (h : s.clock.status = .locked) : s.driftClock.reports .station .clockDrifting := by
  unfold driftClock
  rw [h]
  exact reports_raiseEvent ..

theorem driftClock_notices {s : State} (h : s.clock.status = .drifting) : s.driftClock.notices = s.notices := by
  unfold driftClock
  rw [h]
  rfl

/-! ## The work of the three events -/

theorem latchMark_external {s : State} (h : s.clock.source = .external) :
    s.latchMark = s.setClock { s.clock with markLatched := true } := by
  rw [latchMark, h]

theorem latchMark_internal {s : State} (h : s.clock.source = .internal) : s.latchMark = s := by
  rw [latchMark, h]

theorem takeMark_of_not_latched {s : State} (h : s.clock.markLatched = false) : s.takeMark = s := by
  simp [takeMark, h]

/-- The edge is cleared, and the minute advances at an age of 30 s or more (04: R57). -/
def edgeTaken (s : State) : State :=
  if Config.seconds 30 ≤ s.now - s.clock.lastAdvance then (s.setClock { s.clock with markLatched := false }).minuteAdvance
  else s.setClock { s.clock with markLatched := false }

theorem takeMark_of_latched {s : State} (external : s.clock.source = .external) (latched : s.clock.markLatched = true) :
    s.takeMark = s.edgeTaken.lockClock := by
  rw [takeMark, if_pos (by simp [external, latched])]
  rfl

theorem sameStation_edgeTaken (s : State) : s.SameStation s.edgeTaken := by
  unfold edgeTaken
  split
  · exact (sameStation_setClock s _).trans (sameStation_minuteAdvance _)
  · exact sameStation_setClock s _

theorem advanceExpiry_of_due {s : State} (h : s.clock.advanceTimer.due = s.now) :
    s.advanceExpiry = s.minuteAdvance.driftClock := by
  have reached : s.reach s.now = s := by rw [reach, Nat.max_self]
  rw [advanceExpiry, h, reached]

end State

/-! ## The clock's events (04: R55 to R58) -/

/-- An event while RESET is released (11: R184). -/
theorem event_of_released {s : State} (h : s.resetHeld = false) (f : State → State) :
    event f s = .next (f s).arbitrate := by
  simp [event, h]

theorem exec_markFallingEdge_of_released {s : State} (h : s.resetHeld = false) :
    exec .markFallingEdge s = .next s.latchMark.arbitrate :=
  event_of_released h State.latchMark

theorem exec_markEdgeEvent_of_released {s : State} (h : s.resetHeld = false) :
    exec .markEdgeEvent s = .next s.takeMark.arbitrate :=
  event_of_released h State.takeMark

theorem exec_advanceTimerExpiry_of_released {s : State} (h : s.resetHeld = false) :
    exec .advanceTimerExpiry s = .next s.advanceExpiry.arbitrate :=
  event_of_released h State.advanceExpiry

/-- Settles O38: the edge is taken at its age, and then the clock locks. -/
theorem markEdgesSteerTheClock : Obligations.MarkEdgesSteerTheClock := by
  intro s released external
  rw [exec_markFallingEdge_of_released released, exec_markEdgeEvent_of_released released]
  refine ⟨?_, fun unlatched => ?_, fun latched => ?_⟩
  · rw [State.latchMark_external external]
    rfl
  · rw [State.takeMark_of_not_latched unlatched]
  · intro advances taken
    have same := s.sameStation_edgeTaken
    have edge : (if advances then taken.minuteAdvance else taken) = s.edgeTaken := by
      simp only [advances, decide_eq_true_eq]
      rfl
    have clock : s.edgeTaken.clock = { s.clock with
        minute := if advances then (s.clock.minute + 1) % 1440 else s.clock.minute
        lastAdvance := if advances then s.now else s.clock.lastAdvance
        markLatched := false } := by
      rw [← edge]
      cases advances
      · rfl
      · exact taken.minuteAdvance_clock
    have status : s.edgeTaken.clock.status = s.clock.status := by rw [clock]
    refine ⟨s.edgeTaken.lockClock, ?_, ?_, ?_, fun drifting => ?_, fun locked => ?_, ?_⟩
    · rw [State.takeMark_of_latched external latched]
    · rw [edge]
      exact s.edgeTaken.lockClock_frame
    · rw [State.lockClock_clock, clock, same.now]
    · exact State.lockClock_reports (status.trans drifting)
    · exact (State.stationNotices_congr (State.lockClock_notices (status.trans locked))).trans same.stationNotices
    · simp [same.now, same.link, same.cells]

/-- Settles O39: the minute advances, and then the clock drifts. -/
theorem advanceTimerAdvancesTheMinute : Obligations.AdvanceTimerAdvancesTheMinute := by
  intro s released
  rw [exec_markFallingEdge_of_released released, exec_advanceTimerExpiry_of_released released]
  refine ⟨fun internal => ?_, fun due => ?_⟩
  · rw [State.latchMark_internal internal]
  · have same := s.sameStation_minuteAdvance
    have status : s.minuteAdvance.clock.status = s.clock.status := by rw [s.minuteAdvance_clock]
    refine ⟨s.minuteAdvance.driftClock, ?_, s.minuteAdvance.driftClock_frame, ?_, fun locked => ?_, fun drifting => ?_, ?_⟩
    · rw [State.advanceExpiry_of_due due]
    · rw [State.driftClock_clock, s.minuteAdvance_clock, same.now]
    · exact State.driftClock_reports (status.trans locked)
    · exact (State.stationNotices_congr (State.driftClock_notices (status.trans drifting))).trans same.stationNotices
    · simp [same.now, same.link, same.cells]

end Sys2Proof.Machine
end

section
/-! PROOFS. The receive side of the line (10: R167): what an octet does in HUNTING and in ASSEMBLING, one lemma per
outcome, and the expiry of the inter-octet timer. -/

namespace Sys2Proof.Machine

namespace State

/-! ## HUNTING -/

theorem receiveOctet_of_hunting {s : State} (hunting : s.link.assembly = none) (o : Byte) :
    s.receiveOctet o =
      if o = sync then s.setAssembly (some ⟨[o], s.startTimer Config.interOctetPeriod⟩) else s := by
  simp [receiveOctet, hunting]

/-! ## ASSEMBLING -/

/-- The payload length that the octets of a frame announce in octet 3 (10: R168). -/
def announcedLength (octets : List Byte) : Nat := (octets[3]?.getD 0).toNat

theorem receiveOctet_of_assembling {s : State} {a : Assembly} (assembling : s.link.assembly = some a) (o : Byte) :
    s.receiveOctet o = s.holdOctet (a.octets ++ [o]) := by
  simp [receiveOctet, assembling]

section
variable (s : State) {octets : List Byte}

/-- The octet is held and the timer restarts, before the length is known and then until the last octet. -/
theorem holdOctet_of_unfinished (h : octets.length < 4 ∨
      (announcedLength octets ≤ Config.payloadLimit ∧ octets.length < 4 + announcedLength octets + 2)) :
    s.holdOctet octets = s.setAssembly (some ⟨octets, s.startTimer Config.interOctetPeriod⟩) := by
  by_cases short : octets.length < 4
  · exact if_pos short
  · obtain ⟨inLimit, unfinished⟩ := h.resolve_left short
    have beforeEnd : octets.length < announcedLength octets + 6 := by omega
    exact (if_neg short).trans ((if_neg (Nat.not_lt.mpr inLimit)).trans (if_pos beforeEnd))

theorem holdOctet_of_over_limit (h : 4 ≤ octets.length) (tooLong : Config.payloadLimit < announcedLength octets) :
    s.holdOctet octets = (s.setAssembly none).linkError :=
  (if_neg (Nat.not_lt.mpr h)).trans (if_pos tooLong)

theorem holdOctet_of_whole (h : 4 ≤ octets.length) (inLimit : announcedLength octets ≤ Config.payloadLimit)
    (whole : 4 + announcedLength octets + 2 ≤ octets.length) :
    s.holdOctet octets = (s.setAssembly none).checkFrame ((octets.drop 1).take (announcedLength octets + 3))
      (octets.drop (announcedLength octets + 4)) := by
  have atEnd : ¬ octets.length < announcedLength octets + 6 := by omega
  exact (if_neg (Nat.not_lt.mpr h)).trans ((if_neg (Nat.not_lt.mpr inLimit)).trans (if_neg atEnd))

end

/-! ## The inter-octet timer -/

/-- An event that ends now takes no time. -/
@[simp] theorem reach_self (s : State) : s.reach s.now = s := by rw [reach, Nat.max_self]

theorem interOctetExpiry_of_due {s : State} {a : Assembly} (assembling : s.link.assembly = some a)
    (due : a.timer.due = s.now) : s.interOctetExpiry = (s.setAssembly none).linkError := by
  simp [interOctetExpiry, assembling, due]

end State

/-! ## The events of the receive side (10: R167) -/

theorem exec_linkOctetReceived_of_released {s : State} (h : s.resetHeld = false) (o : Byte) :
    exec (.linkOctetReceived o) s = .next (s.receiveOctet o).arbitrate :=
  event_of_released h fun s => s.receiveOctet o

theorem exec_interOctetTimerExpiry_of_released {s : State} (h : s.resetHeld = false) :
    exec .interOctetTimerExpiry s = .next s.interOctetExpiry.arbitrate :=
  event_of_released h State.interOctetExpiry

/-- Settles O31, by the state of the receive side and, in ASSEMBLING, by the three outcomes of an octet held. -/
theorem octetsAssembleFrames : Obligations.OctetsAssembleFrames := by
  intro o s released
  rw [exec_linkOctetReceived_of_released released, exec_interOctetTimerExpiry_of_released released]
  refine ⟨fun hunting => ?_, fun a assembling => ?_, rfl, fun _ _ _ _ => rfl⟩
  · rw [State.receiveOctet_of_hunting hunting]
    rfl
  · rw [State.receiveOctet_of_assembling assembling]
    refine ⟨fun unfinished => ?_, fun long tooLong => ?_, fun long inLimit whole => ?_, fun due => ?_⟩
    · rw [s.holdOctet_of_unfinished unfinished]
      rfl
    · rw [s.holdOctet_of_over_limit long tooLong]
      rfl
    · rw [s.holdOctet_of_whole long inLimit whole]
      rfl
    · rw [State.interOctetExpiry_of_due assembling due]
      rfl

end Sys2Proof.Machine
end

section
/-! PROOFS. A raise (11: R180): it passes over the entries of other keys, and then appends an entry at the tail or merges
into the entry of its key. -/

namespace Sys2Proof.Machine

/-! ## The event set of an entry -/

theorem addEvent_eq_append (es : List NoticeEvent) (event : Option NoticeEvent) :
    addEvent es event = es ++ event.toList.filter (fun v => !decide (v ∈ es)) := by
  cases event with
  | none => simp [addEvent]
  | some v => by_cases present : v ∈ es <;> simp [addEvent, present]

theorem addEvent_nil (event : Option NoticeEvent) : addEvent [] event = event.toList := by
  cases event <;> rfl

/-! ## The place of an entry in the queue -/

section
variable {key : NoticeKey}

theorem raiseInto_append_of_absent {before : List NoticeEntry} (absent : ∀ x ∈ before, x.key ≠ key)
    (rest : List NoticeEntry) (event : Option NoticeEvent) (add : Counts) :
    raiseInto (before ++ rest) key event add = before ++ raiseInto rest key event add := by
  induction before with
  | nil => rfl
  | cons x xs ih =>
    obtain ⟨otherKey, absentBehind⟩ := List.forall_mem_cons.mp absent
    rw [List.cons_append, raiseInto, if_neg otherKey, ih absentBehind, List.cons_append]

theorem raiseInto_of_absent {es : List NoticeEntry} (absent : ∀ e ∈ es, e.key ≠ key) (event : Option NoticeEvent)
    (add : Counts) : raiseInto es key event add = es ++ [⟨key, event.toList, add⟩] := by
  have atTail := raiseInto_append_of_absent absent [] event add
  rwa [List.append_nil, raiseInto, addEvent_nil] at atTail

theorem raiseInto_cons_of_key {e : NoticeEntry} (sameKey : e.key = key) (after : List NoticeEntry)
    (event : Option NoticeEvent) (add : Counts) :
    raiseInto (e :: after) key event add = ⟨key, addEvent e.events event, e.counts.add add⟩ :: after := by
  rw [raiseInto, if_pos sameKey, sameKey]

end

/-- Settles O8: entries of other keys are passed over, and the rest of the queue is empty or begins with the entry of the
key. -/
theorem raiseAppendsOrMerges : Obligations.RaiseAppendsOrMerges := by
  intro s key event add
  constructor
  · intro absent
    rw [State.raise, raiseInto_of_absent absent]
  · intro before e after queue absent sameKey
    rw [State.raise, queue, raiseInto_append_of_absent absent, raiseInto_cons_of_key sameKey, addEvent_eq_append]
    rfl

end Sys2Proof.Machine
end

section
/-! PROOFS. What the operations inside an event can do to the records that the laws of the queues, of the binding and of
the Text Store read, said once: a small set of writes, each with what it may change. The laws that every step keeps follow
by induction over these writes. -/

namespace Sys2Proof.Machine

/-! ## Writes to a channel that take no entry and no turn on -/

/-- The channel may have lost entries or its turn, and has gained none; its bound list is the same. -/
structure Channel.Lightens (x y : Channel) : Prop where
  queue : y.queue.Sublist x.queue
  bound : y.bound = x.bound
  passes : ∀ n, y.carriesPass n = true → x.carriesPass n = true
  circuits : ∀ c, y.carriesCircuit c = true → x.carriesCircuit c = true

namespace Channel.Lightens

variable {x y : Channel}

theorem of_same_turn (queue : y.queue.Sublist x.queue) (bound : y.bound = x.bound) (turn : y.turn = x.turn) :
    x.Lightens y where
  queue := queue
  bound := bound
  passes n h := by rwa [Channel.carriesPass, turn] at h
  circuits c h := by rwa [Channel.carriesCircuit, turn] at h

theorem of_no_turn (queue : y.queue = x.queue) (bound : y.bound = x.bound) (turn : y.turn = none) : x.Lightens y where
  queue := queue ▸ List.Sublist.refl _
  bound := bound
  passes n h := by simp [Channel.carriesPass, turn] at h
  circuits c h := by simp [Channel.carriesCircuit, turn] at h

/-- A change of the turn record to one of the same bulletin or circuit. -/
theorem of_map_turn {f : Turn → Turn} (hf : ∀ t, x.turn = some t →
      (∀ n, (f t).kind.isPassOf n = true → t.kind.isPassOf n = true) ∧
      ∀ c, (f t).kind.isTurnOf c = true → t.kind.isTurnOf c = true) :
    x.Lightens { x with turn := x.turn.map f } := by
  refine ⟨List.Sublist.refl _, rfl, fun n h => ?_, fun c h => ?_⟩
  all_goals
    cases ht : x.turn with
    | none => simp [Channel.carriesPass, Channel.carriesCircuit, ht] at h
    | some t =>
      simp only [Channel.carriesPass, Channel.carriesCircuit, ht, Option.map_some, Option.any_some] at h ⊢
      obtain ⟨passes, circuits⟩ := hf t ht
      first | exact passes _ h | exact circuits _ h

end Channel.Lightens

/-! ## The writes -/

/-- The blocks that the maps of an entry hold; none while it is EMPTY. -/
def entryBlocks (b : Option Bulletin) : List BlockNo := b.elim [] Bulletin.allBlocks

/-- The circuit is off air in `u`: it was in `t` already, or its turn has just been cleared. -/
def State.Lands (t : State) (c : Fin 32) (u : State) : Prop :=
  (u = t ∧ t.onAir c = false) ∨ ∃ ch, (t.channel ch).carriesCircuit c = true ∧ u = t.clearTurn ch

/-- The circuit has left the bound list of its channel, and the record is the one given. -/
def State.unbound (t : State) (c : Fin 32) (x : Circuit) : State := (t.unbind c).setCircuit c x

/-- t comes from s by the writes of the operations inside an event, each of which keeps the laws of the queues, of the
binding and of the Text Store. -/
inductive State.Evolves (s : State) : State → Prop
  | refl : Evolves s s
  | raise {t : State} (k : NoticeKey) (e : Option NoticeEvent) (a : Counts) : Evolves s t → Evolves s (t.raise k e a)
  | settings {t : State} (k : Clock) (hold gap reserve : Nat) : Evolves s t → Evolves s { t with
      clock := k, holdLimit := hold, gapTimeout := gap, store := { t.store with reserve := reserve } }
  | cells {t : State} (m : Memory) : Evolves s t → (t.store.cells.wf = true → m.wf = true) →
      Evolves s (t.setStore { t.store with cells := m })
  | bulletin {t : State} (n : Fin 64) (x : Option Bulletin) (free : List BlockNo) : Evolves s t →
      (free ++ entryBlocks x).Perm (t.store.free ++ entryBlocks (t.bulletin n)) →
      Evolves s ((t.setStore { t.store with free := free }).setBulletin n x)
  | circuit {t : State} (c : Fin 32) (x : Circuit) (free : List BlockNo) : Evolves s t →
      x.channel = (t.circuit c).channel → (x.life = .free ↔ (t.circuit c).life = .free) →
      (x.life = .free → (t.circuit c).movePending = none → x.movePending = none) →
      ((t.circuit c).chain.law → x.chain.law) →
      (x.life = .free → (t.circuit c).chain.blocks = [] → x.chain.blocks = []) →
      ((t.circuit c).count ≤ 512 → x.count ≤ 512) →
      (free ++ x.chain.blocks).Perm (t.store.free ++ (t.circuit c).chain.blocks) →
      Evolves s ((t.setStore { t.store with free := free }).setCircuit c x)
  | channel {t : State} (ch : Fin 8) (x : Channel) : Evolves s t → (t.channel ch).Lightens x →
      Evolves s (t.setChannel ch x)
  | entry {t : State} (ch : Fin 8) (x : Channel) (e : Entry) : Evolves s t →
      ((t.channel ch).holdsEntry e.bulletin = false ∨ (t.channel ch).carriesPass e.bulletin = true) →
      (t.channel ch).Lightens { x with queue := (t.channel ch).queue } → x.carriesPass e.bulletin = false →
      (x.queue = insertAtTail (t.channel ch).queue e ∨ x.queue = insertAtHead (t.channel ch).queue e) →
      Evolves s (t.setChannel ch x)
  | pass {t : State} (ch : Fin 8) (x : Channel) (n : Fin 64) : Evolves s t →
      x.queue = (t.channel ch).queue.eraseP (fun e => e.bulletin = n) → x.bound = (t.channel ch).bound →
      (∀ i, x.carriesPass i = true → i = n) → (∀ c, x.carriesCircuit c = false) → Evolves s (t.setChannel ch x)
  | telex {t : State} (ch : Fin 8) (x : Channel) (c : Fin 32) : Evolves s t → c ∈ (t.channel ch).bound →
      x.queue = (t.channel ch).queue → x.bound = (t.channel ch).bound → (∀ n, x.carriesPass n = false) →
      (∀ d, x.carriesCircuit d = true → d = c) → Evolves s (t.setChannel ch x)
  | opens {t : State} (c : Fin 32) (ch : Fin 8) (isOn : Bool) (callUp : List Byte) : Evolves s t →
      (t.circuit c).life = .free → Evolves s ((t.bindTail ch c).setCircuit c (opened ch isOn callUp))
  | moves {t u : State} (c : Fin 32) (target : Fin 8) (hold : Bool) : Evolves s t → t.Lands c u →
      ((t.circuit c).life ≠ .free ∨ (t.circuit c).movePending ≠ none) →
      Evolves s (((u.unbind c).bindTail target c).setCircuit c { t.circuit c with
        channel := target, movePending := none, channelHold := hold })
  | closes {t u : State} (c : Fin 32) : Evolves s t → t.Lands c u → (t.circuit c).life ≠ .free →
      (t.circuit c).count = 0 → Evolves s (u.unbound c (t.circuit c).freed)

/-! ## The store is left in place -/

theorem State.setStore_store_self (s : State) : s.setStore { s.store with free := s.store.free } = s := rfl

namespace State.Evolves

variable {s t u : State}

theorem trans (h : s.Evolves t) (h' : t.Evolves u) : s.Evolves u := by
  induction h' with
  | refl => exact h
  | raise k e a _ ih => exact ih.raise k e a
  | settings k a b c _ ih => exact ih.settings k a b c
  | cells m _ wf ih => exact ih.cells m wf
  | bulletin n x l _ p ih => exact ih.bulletin n x l p
  | circuit c x l _ h1 h2 h3 h4 h5 h6 h7 ih => exact ih.circuit c x l h1 h2 h3 h4 h5 h6 h7
  | channel ch x _ l ih => exact ih.channel ch x l
  | entry ch x e _ h1 h2 h3 h4 ih => exact ih.entry ch x e h1 h2 h3 h4
  | pass ch x n _ h1 h2 h3 h4 ih => exact ih.pass ch x n h1 h2 h3 h4
  | telex ch x c _ h1 h2 h3 h4 h5 ih => exact ih.telex ch x c h1 h2 h3 h4 h5
  | opens c ch o l _ h1 ih => exact ih.opens c ch o l h1
  | moves c ch o _ h1 h2 ih => exact ih.moves c ch o h1 h2
  | closes c _ h1 h2 h3 ih => exact ih.closes c h1 h2 h3

theorem foldl {α : Type} {f : State → α → State} (hf : ∀ (r : State) (a : α), r.Evolves (f r a)) (h : s.Evolves t)
    (l : List α) : s.Evolves (l.foldl f t) := by
  induction l generalizing t with
  | nil => exact h
  | cons a l ih => exact ih (h.trans (hf t a))

theorem raiseEvent (h : s.Evolves t) (k : NoticeKey) (e : NoticeEvent) : s.Evolves (t.raiseEvent k e) := h.raise k _ _

theorem setClock (h : s.Evolves t) (k : Clock) : s.Evolves (t.setClock k) := h.settings k t.holdLimit t.gapTimeout t.store.reserve

/-! ## Plain writes -/

/-- A descriptor write that keeps the blocks of the entry. -/
theorem setBulletin (h : s.Evolves t) (n : Fin 64) (x : Option Bulletin)
    (same : entryBlocks x = entryBlocks (t.bulletin n)) : s.Evolves (t.setBulletin n x) :=
  h.bulletin n x t.store.free (same ▸ List.Perm.refl _)

theorem mapBulletin (h : s.Evolves t) (n : Fin 64) (f : Bulletin → Bulletin) (same : ∀ b, (f b).allBlocks = b.allBlocks) :
    s.Evolves (t.mapBulletin n f) := by
  refine h.setBulletin n _ ?_
  cases t.bulletin n with
  | none => rfl
  | some b => exact same b

/-- A descriptor write that returns blocks of the entry. -/
theorem returned (h : s.Evolves t) (n : Fin 64) (x : Option Bulletin) (bs : List BlockNo)
    (all : (bs ++ entryBlocks x).Perm (entryBlocks (t.bulletin n))) :
    s.Evolves ((t.setBulletin n x).returnBlocks bs) := by
  refine h.bulletin n x (t.store.free ++ bs) ?_
  rw [List.append_assoc]
  exact all.append_left _

/-- A write to a circuit that keeps its channel, its queue and whether it is FREE. -/
theorem setCircuit (h : s.Evolves t) (c : Fin 32) (x : Circuit) (channel : x.channel = (t.circuit c).channel := by rfl)
    (life : x.life = .free ↔ (t.circuit c).life = .free := by rfl)
    (move : x.life = .free → (t.circuit c).movePending = none → x.movePending = none := by exact fun _ h => h)
    (chain : x.chain = (t.circuit c).chain := by rfl) : s.Evolves (t.setCircuit c x) := by
  refine h.circuit c x t.store.free channel life move ?_ ?_ ?_ (chain ▸ List.Perm.refl _)
  · rw [chain]; exact id
  · rw [chain]; exact fun _ => id
  · rw [Circuit.count, Circuit.count, chain]; exact id

/-- A channel write that keeps the queue, the bound list and the turn. -/
theorem setChannel (h : s.Evolves t) (ch : Fin 8) (x : Channel) (queue : x.queue = (t.channel ch).queue := by rfl)
    (bound : x.bound = (t.channel ch).bound := by rfl) (turn : x.turn = (t.channel ch).turn := by rfl) : s.Evolves (t.setChannel ch x) :=
  h.channel ch x (.of_same_turn (queue ▸ List.Sublist.refl _) bound turn)

/-- A channel write that keeps the queue and the bound list and leaves no turn. -/
theorem clearing (h : s.Evolves t) (ch : Fin 8) (x : Channel) (queue : x.queue = (t.channel ch).queue := by rfl)
    (bound : x.bound = (t.channel ch).bound := by rfl) (turn : x.turn = none := by rfl) : s.Evolves (t.setChannel ch x) :=
  h.channel ch x (.of_no_turn queue bound turn)

/-- A change of the turn record to one of the same bulletin or circuit. -/
theorem mapTurn (h : s.Evolves t) (ch : Fin 8) (f : Turn → Turn) (hf : ∀ x, (t.channel ch).turn = some x →
      (∀ n, (f x).kind.isPassOf n = true → x.kind.isPassOf n = true) ∧
      ∀ c, (f x).kind.isTurnOf c = true → x.kind.isTurnOf c = true) : s.Evolves (t.mapTurn ch f) :=
  h.channel ch _ (.of_map_turn hf)

/-- A change of the turn record that keeps its kind. -/
theorem mapTurn_of_kind (h : s.Evolves t) (ch : Fin 8) (f : Turn → Turn) (hf : ∀ x, (f x).kind = x.kind) :
    s.Evolves (t.mapTurn ch f) :=
  h.mapTurn ch f fun x _ => by rw [hf]; exact ⟨fun _ => id, fun _ => id⟩

/-! ## Selection and keying -/

theorem emit (h : s.Evolves t) (ch : Fin 8) (y : Symbol) : s.Evolves (t.emit ch y) := h.setChannel ch _

theorem startPass (h : s.Evolves t) (g : Bool) (ch : Fin 8) (e : Entry) : s.Evolves (t.startPass g ch e) := by
  unfold State.startPass
  split
  · exact h
  · next b present =>
    refine ((h.pass ch _ e.bulletin (by rfl) (by rfl) ?_ ?_).setBulletin e.bulletin _ ?_).emit _ _
    · intro i carries
      simpa [Channel.carriesPass, Turn.fresh, TurnKind.isPassOf, loadPass, eq_comm] using carries
    · intro c
      simp [Channel.carriesCircuit, Turn.fresh, TurnKind.isTurnOf]
    · rw [State.setChannel_bulletin, present]
      rfl

theorem startTelex (h : s.Evolves t) (g : Bool) {ch : Fin 8} {c : Fin 32} (bound : c ∈ (t.channel ch).bound) :
    s.Evolves (t.startTelex g ch c) := by
  refine ((h.telex ch _ c bound (by rfl) (by rfl) ?_ ?_).setCircuit c _).emit _ _
  · intro n
    simp [Channel.carriesPass, Turn.fresh, TurnKind.isPassOf]
  · intro d carries
    simpa [Channel.carriesCircuit, Turn.fresh, TurnKind.isTurnOf, eq_comm] using carries

end State.Evolves

theorem Channel.mem_bound_of_rotation {x : Channel} {c : Fin 32} (h : c ∈ x.rotation) : c ∈ x.bound := by
  unfold Channel.rotation at h
  split at h
  · exact h
  · split at h
    · rcases List.mem_append.mp h with later | earlier
      · exact List.mem_of_mem_drop later
      · exact List.mem_of_mem_take earlier
    · exact h

theorem State.choose_circuit_bound {s : State} {ch : Fin 8} {c : Fin 32} (h : s.choose ch = .circuit c) :
    c ∈ (s.channel ch).bound := by
  unfold State.choose at h
  dsimp only at h
  split at h
  · cases h
  · cases h
  · split at h
    · cases h
    · split at h
      · cases h
      · split at h
        · next next => cases h; exact Channel.mem_bound_of_rotation (List.mem_of_find?_eq_some next)
        · split at h
          · cases h
          · cases h

namespace State.Evolves

variable {s t u : State}

theorem selectTurn (h : s.Evolves t) {g : Bool} {ch : Fin 8} (hu : t.selectTurn g ch = some u) : s.Evolves u := by
  unfold State.selectTurn at hu
  split at hu
  · cases hu; exact h.startPass _ _ _
  · next chosen => cases hu; exact h.startTelex _ (State.choose_circuit_bound chosen)
  · cases hu

theorem release (h : s.Evolves t) (ch : Fin 8) : s.Evolves (t.release ch) := h.clearing ch _

theorem enterHold (h : s.Evolves t) (ch : Fin 8) : s.Evolves (t.enterHold ch) := by
  unfold State.enterHold
  split
  · exact h.release _
  · exact (h.clearing ch _).emit _ _

theorem selectOrHold (h : s.Evolves t) (g : Bool) (ch : Fin 8) :
    s.Evolves ((t.selectTurn g ch).getD (t.enterHold ch)) := by
  cases hu : t.selectTurn g ch with
  | none => exact h.enterHold ch
  | some u => exact h.selectTurn hu

theorem grant (h : s.Evolves t) (ch : Fin 8) : s.Evolves (t.grant ch) := (h.setChannel ch _).selectOrHold _ _

theorem requestKey (h : s.Evolves t) (ch : Fin 8) : s.Evolves (t.requestKey ch) := by
  unfold State.requestKey
  dsimp only
  split
  · exact (h.setChannel ch _).grant _
  · exact h.setChannel ch _

theorem consult (h : s.Evolves t) (ch : Fin 8) : s.Evolves (t.consult ch) := by
  unfold State.consult
  split
  · exact h.requestKey _
  · exact h

theorem tellIdle (h : s.Evolves t) (ch : Fin 8) : s.Evolves (t.tellIdle ch) := by
  unfold State.tellIdle
  split
  · exact h.consult _
  · exact h

theorem causeCut (h : s.Evolves t) (ch : Fin 8) (r : CutReason) : s.Evolves (t.causeCut ch r) :=
  h.mapTurn_of_kind ch (fun x => x.causeCut r) fun x => State.Settles.kind_causeCut x r

theorem tellEntry (h : s.Evolves t) (ch : Fin 8) (k : Rank) : s.Evolves (t.tellEntry ch k) := by
  unfold State.tellEntry
  dsimp only
  split
  · exact h.consult _
  · split
    · split
      · exact h.causeCut _ _
      · split
        · exact h.causeCut _ _
        · exact h
    · exact h
  all_goals exact h

theorem tellEntryOf (h : s.Evolves t) (n : Fin 64) (ch : Fin 8) : s.Evolves (t.tellEntryOf n ch) := by
  unfold State.tellEntryOf
  split
  · exact h
  · split
    · exact h.tellEntry _ _
    · exact h

/-! ## Circuits -/

theorem updateWait (h : s.Evolves t) (c : Fin 32) : s.Evolves (t.updateWait c) := by
  unfold State.updateWait
  dsimp only
  split
  · split
    · exact h
    · exact h.setCircuit c _
  · exact h.setCircuit c _

theorem settleWait (h : s.Evolves t) (c : Fin 32) : s.Evolves (t.settleWait c) := by
  unfold State.settleWait
  split
  · exact (h.updateWait _).tellIdle _
  · exact h.updateWait _

theorem resumeFlow (h : s.Evolves t) (c : Fin 32) : s.Evolves (t.resumeFlow c) :=
  (h.setCircuit c _).raiseEvent _ _

theorem emissionTest (h : s.Evolves t) (c : Fin 32) : s.Evolves (t.emissionTest c) := by
  unfold State.emissionTest
  dsimp only
  split
  · split
    · exact h
    · exact h.resumeFlow _
    · split
      · exact h.resumeFlow _
      · exact h
  · exact h

theorem reportTo (h : s.Evolves t) (c : Fin 32) : s.Evolves (t.reportTo c) := by
  unfold State.reportTo
  dsimp only
  split
  · exact h.resumeFlow _
  · exact h

theorem returnReport (h : s.Evolves t) : s.Evolves t.returnReport := h.foldl (fun _ c => refl.reportTo c) _

/-- A descriptor write that returns blocks of the entry, with their report. -/
theorem returnedAndReported (h : s.Evolves t) (n : Fin 64) (x : Option Bulletin) (bs : List BlockNo)
    (all : (bs ++ entryBlocks x).Perm (entryBlocks (t.bulletin n))) :
    s.Evolves ((t.setBulletin n x).returnAndReport bs) := by
  unfold State.returnAndReport
  split
  · next none => subst none; exact h.bulletin n x t.store.free (all.append_left _)
  · exact (h.returned n x bs all).returnReport

/-- A move is applied to a circuit that is off air. -/
theorem applyMove (h : s.Evolves t) {c : Fin 32} (ch : Fin 8) (lands : t.Lands c u)
    (taken : (t.circuit c).life ≠ .free ∨ (t.circuit c).movePending ≠ none) : s.Evolves (u.applyMove c ch) := by
  have same : u.circuit c = t.circuit c := by
    rcases lands with ⟨rfl, -⟩ | ⟨i, -, rfl⟩ <;> rfl
  have moved : s.Evolves (((u.unbind c).bindTail ch c).setCircuit c { u.circuit c with
      channel := ch, movePending := none, channelHold := !(((u.unbind c).bindTail ch c).channel ch).isOn }) :=
    same ▸ h.moves c ch _ lands taken
  unfold State.applyMove
  dsimp only
  split
  · exact ((moved.raiseEvent _ _).updateWait _).tellIdle _
  · exact (moved.raiseEvent _ _).updateWait _

theorem finishClose (h : s.Evolves t) {c : Fin 32} (lands : t.Lands c u) (life : (t.circuit c).life ≠ .free)
    (empty : (t.circuit c).count = 0) : s.Evolves (u.finishClose c) := by
  have same : u.circuit c = t.circuit c := by
    rcases lands with ⟨rfl, -⟩ | ⟨i, -, rfl⟩ <;> rfl
  have closed := (h.closes c lands life empty).raiseEvent (.circuit c) .closed
  rw [← same] at closed
  exact closed

/-- The turn of a circuit is cleared and its end handled. -/
theorem circuitTurnEnd (h : s.Evolves t) {ch : Fin 8} {c : Fin 32} (carries : (t.channel ch).carriesCircuit c = true) :
    s.Evolves ((t.clearTurn ch).circuitTurnEnd c) := by
  have lands : t.Lands c (t.clearTurn ch) := .inr ⟨ch, carries, rfl⟩
  have same : (t.clearTurn ch).circuit c = t.circuit c := rfl
  unfold State.circuitTurnEnd
  dsimp only
  rw [same]
  split
  · next closing => exact h.finishClose lands (by simp [closing.1]) closing.2
  · split
    · next pending => exact h.applyMove _ lands (.inr (by simp [pending]))
    · exact (h.clearing ch _).settleWait _

theorem setChannelHold (h : s.Evolves t) (on : Bool) (c : Fin 32) : s.Evolves (t.setChannelHold on c) :=
  (h.setCircuit c _).updateWait _

end State.Evolves

/-- The same, in the order of arguments in which holdBound folds it. -/
theorem State.evolves_setChannelHold (on : Bool) (s : State) (c : Fin 32) : s.Evolves (State.setChannelHold on s c) :=
  State.Evolves.refl.setChannelHold on c

namespace State.Evolves

variable {s t u : State}

theorem holdBound (h : s.Evolves t) (ch : Fin 8) (on : Bool) : s.Evolves (t.holdBound ch on) :=
  h.foldl (State.evolves_setChannelHold on) _

/-! ## Bulletins -/

theorem missed (h : s.Evolves t) (n : Fin 64) : s.Evolves (t.missed n) :=
  (h.mapBulletin n _ (by exact fun _ => rfl)).raise _ _ _

theorem emptyEntry (h : s.Evolves t) {n : Fin 64} {b : Bulletin} (present : t.bulletin n = some b) :
    s.Evolves (t.emptyEntry n b) := by
  refine h.returnedAndReported n none _ ?_
  rw [present]
  simp [entryBlocks]

theorem retirementTest (h : s.Evolves t) (n : Fin 64) : s.Evolves (t.retirementTest n) := by
  unfold State.retirementTest
  split
  · exact h
  · next present =>
    split
    · exact (h.emptyEntry present).raiseEvent _ _
    · exact h

theorem tellHolders (h : s.Evolves t) (n : Fin 64) : s.Evolves (t.tellHolders n) :=
  h.foldl (fun _ ch => refl.tellEntryOf n ch) _

theorem commit (h : s.Evolves t) {n : Fin 64} {b : Bulletin} {m : TextMap} (present : t.bulletin n = some b)
    (staged : b.staged = some m) : s.Evolves (t.commit n b m) := by
  have taken : s.Evolves ((t.returnBlocks b.current.blockNumbers).setBulletin n (some { b with
      current := m, staged := none, revision := b.revision + 1, revised := true, commitPending := false })) := by
    refine h.returned n _ b.current.blockNumbers ?_
    simp [present, entryBlocks, Bulletin.allBlocks, staged]
  unfold State.commit
  dsimp only
  split
  · exact ((taken.raiseEvent _ _).returnReport).tellHolders _
  · exact (taken.raiseEvent _ _).returnReport

theorem raiseOutcome (h : s.Evolves t) (n : Fin 64) (o : PassOutcome) : s.Evolves (t.raiseOutcome n o) := by
  cases o
  case withdrawn => exact h
  all_goals exact h.raise _ _ _

theorem lastPassEnded (h : s.Evolves t) (n : Fin 64) : s.Evolves (t.lastPassEnded n) := by
  unfold State.lastPassEnded
  split
  · exact h
  · next present =>
    split
    · exact (h.emptyEntry present).raise _ _ _
    · exact h
    · split
      · next staged => exact (h.commit present staged).retirementTest _
      · exact h.retirementTest _

theorem allBlocks_account (b : Bulletin) (o : PassOutcome) : (b.account o).allBlocks = b.allBlocks := by
  cases o <;> rfl

theorem passEndReport (h : s.Evolves t) (n : Fin 64) (o : PassOutcome) : s.Evolves (t.passEndReport n o) := by
  unfold State.passEndReport
  split
  · exact h
  · next b present =>
    have accounted : s.Evolves (t.setBulletin n (some (b.account o))) :=
      h.setBulletin n _ (by rw [present]; exact allBlocks_account b o)
    have counted := (accounted.raiseOutcome n o).mapBulletin n (fun b => { b with onAir := b.onAir - 1 }) fun _ => rfl
    dsimp only
    split
    · exact counted.lastPassEnded _
    · exact counted

theorem visitChannel (h : s.Evolves t) (n : Fin 64) (b : Bulletin) (l : List (Fin 8)) (ch : Fin 8) :
    s.Evolves (State.visitChannel n b (t, l) ch).1 := by
  unfold State.visitChannel
  dsimp only
  split
  · next takes =>
    simp only [Channel.takesOccasion, Bool.and_eq_true, Bool.not_eq_true'] at takes
    obtain ⟨⟨-, noEntry⟩, noPass⟩ := takes
    exact h.entry ch _ (t.newEntry n b) (.inl noEntry) (.of_same_turn (List.Sublist.refl _) rfl rfl) noPass (.inl rfl)
  · exact h.missed _

theorem visitChannels (h : s.Evolves t) (n : Fin 64) (b : Bulletin) (l chs : List (Fin 8)) :
    s.Evolves (chs.foldl (State.visitChannel n b) (t, l)).1 := by
  induction chs generalizing t l with
  | nil => exact h
  | cons ch chs ih => exact ih (h.visitChannel n b l ch) _

theorem countOccasion (h : s.Evolves t) (n : Fin 64) (l : Option Nat) : s.Evolves (t.countOccasion n l) := by
  unfold State.countOccasion
  split
  · exact h
  · dsimp only
    split
    · exact (h.mapBulletin n _ (by exact fun _ => rfl)).retirementTest _
    · exact h.mapBulletin n _ (by exact fun _ => rfl)

theorem occasion (h : s.Evolves t) (n : Fin 64) : s.Evolves (t.occasion n) := by
  unfold State.occasion
  split
  · exact h
  · exact ((h.visitChannels _ _ _ _).countOccasion _ _).foldl (fun _ ch => refl.tellEntryOf n ch) _

theorem advanceBulletin (h : s.Evolves t) (n : Fin 64) : s.Evolves (t.advanceBulletin n) := by
  unfold State.advanceBulletin
  split
  · exact h
  · split
    · split
      · exact h
      · split
        · exact h.occasion _
        · exact h
      · split
        · exact (h.mapBulletin n _ (by exact fun _ => rfl)).occasion _
        · exact h.mapBulletin n _ (by exact fun _ => rfl)
    · exact h

theorem minuteAdvance (h : s.Evolves t) : s.Evolves t.minuteAdvance :=
  (h.setClock _).foldl (fun _ n => refl.advanceBulletin n) allEntries

/-! ## Turn ends -/

theorem clearTurn (h : s.Evolves t) (ch : Fin 8) : s.Evolves (t.clearTurn ch) := h.clearing ch _

theorem endTelex (h : s.Evolves t) {ch : Fin 8} {x : TelexTurn} (carries : (t.channel ch).carriesCircuit x.circuit = true)
    (e : Ending) : s.Evolves (t.endTelex ch x e) := by
  refine State.Evolves.circuitTurnEnd (t := t.setCircuit x.circuit _) ?_ carries
  exact h.setCircuit x.circuit _

end State.Evolves

/-- An ended pass leaves the queue as it was, or with its own entry back in it (04: R66). -/
theorem PassTurn.requeue_cases (p : PassTurn) (released : Bool) (o : PassOutcome) (q : List Entry) :
    p.requeue released o q = q ∨ ∃ e : Entry, e.bulletin = p.bulletin ∧
      (p.requeue released o q = insertAtTail q e ∨ p.requeue released o q = insertAtHead q e) := by
  unfold PassTurn.requeue
  cases released with
  | false => exact .inl rfl
  | true =>
    cases o with
    | completed =>
      simp only [Bool.not_true, Bool.false_eq_true, if_false]
      split
      · exact .inr ⟨_, rfl, .inl rfl⟩
      · exact .inl rfl
    | interrupted => exact .inr ⟨_, rfl, .inr rfl⟩
    | abandoned => exact .inl rfl
    | withdrawn => exact .inl rfl
    | aborted => exact .inl rfl

namespace State.Evolves

variable {s t u : State}

theorem endPass (h : s.Evolves t) {ch : Fin 8} {p : PassTurn} (carries : (t.channel ch).carriesPass p.bulletin = true)
    (e : Ending) : s.Evolves (t.endPass ch p e) := by
  unfold State.endPass
  refine State.Evolves.passEndReport ?_ _ _
  unfold State.clearTurn
  rw [State.setChannel_setChannel]
  simp only [State.channel_setChannel, if_true]
  rcases p.requeue_cases (t.isReleased p.bulletin) (p.outcome e) (t.channel ch).queue with same | ⟨x, own, put⟩
  · exact h.clearing ch _ same
  · exact h.entry ch _ x (.inr (own ▸ carries)) (.of_no_turn rfl rfl rfl) rfl put

theorem endTurn (h : s.Evolves t) (ch : Fin 8) (e : Ending) : s.Evolves (t.endTurn ch e) := by
  unfold State.endTurn
  split
  · exact h
  · next x turn =>
    split
    · next y kind => exact h.endTelex (by simp [Channel.carriesCircuit, turn, kind, TurnKind.isTurnOf]) e
    · next p kind => exact h.endPass (by simp [Channel.carriesPass, turn, kind, TurnKind.isPassOf]) e

theorem stopTurn (h : s.Evolves t) (ch : Fin 8) (r : StopReason) : s.Evolves (t.stopTurn ch r) := by
  unfold State.stopTurn
  split
  · exact h
  · exact h.endTurn _ _

theorem dropQueue (h : s.Evolves t) (ch : Fin 8) : s.Evolves (t.dropQueue ch) :=
  ((h.channel ch _ (by exact .of_same_turn (List.nil_sublist _) rfl rfl)).foldl
    (fun _ (e : Entry) => refl.missed e.bulletin) _).foldl (fun _ (e : Entry) => refl.retirementTest e.bulletin) _

theorem enterOff (h : s.Evolves t) (ch : Fin 8) : s.Evolves (t.enterOff ch) := by
  have off := ((h.clearing ch (t.channel ch).switchOff).dropQueue ch).holdBound ch true
  exact (off.setChannel ch _).raiseEvent _ _

theorem afterTurnEnd (h : s.Evolves t) (ch : Fin 8) : s.Evolves (t.afterTurnEnd ch) := by
  unfold State.afterTurnEnd
  split
  · exact h.enterOff _
  · exact h.selectOrHold _ _
  all_goals exact h

theorem afterSilence (h : s.Evolves t) (ch : Fin 8) : s.Evolves (t.afterSilence ch) := by
  unfold State.afterSilence
  split
  · exact h.enterOff _
  all_goals exact (h.release _).tellIdle _

theorem requestAgain (h : s.Evolves t) (ch : Fin 8) : s.Evolves (t.requestAgain ch) := h.clearing ch _

/-! ## Symbols -/

theorem sendChar (h : s.Evolves t) (ch : Fin 8) (c : Byte) : s.Evolves (t.sendChar ch c) := by
  have held : s.Evolves (t.mapTurn ch fun x => { x with held := some c }) := h.mapTurn_of_kind ch _ fun _ => rfl
  unfold State.sendChar
  dsimp only
  split
  · split
    · exact h.emit _ _
    · exact held.emit _ _
  · split
    · exact h.emit _ _
    · exact held.emit _ _
  all_goals exact h.emit _ _

theorem phaseSymbol (h : s.Evolves t) (ch : Fin 8) (x : Turn) : s.Evolves (t.phaseSymbol ch x) := by
  unfold State.phaseSymbol
  split
  · exact h.emit _ _
  · exact h.emit _ _
  · exact h.sendChar _ _
  · exact h.sendChar _ _
  · exact h.sendChar _ _
  · exact h.emit _ _
  · split
    · split
      · exact h.sendChar _ _
      · exact h.emit _ _
    · exact h.sendChar _ _

theorem beginSymbol (h : s.Evolves t) (ch : Fin 8) : s.Evolves (t.beginSymbol ch) := by
  unfold State.beginSymbol
  split
  · exact h
  · split
    · exact (h.mapTurn_of_kind ch _ (by exact fun _ => rfl)).emit _ _
    · exact h.phaseSymbol _ _

theorem subject_stopGapTimer (k : TurnKind) :
    (∀ n, k.stopGapTimer.isPassOf n = true → k.isPassOf n = true) ∧
    ∀ c, k.stopGapTimer.isTurnOf c = true → k.isTurnOf c = true := by
  cases k <;> exact ⟨fun _ => id, fun _ => id⟩

theorem fallCut (h : s.Evolves t) (ch : Fin 8) : s.Evolves (t.fallCut ch) := by
  refine (h.mapTurn ch _ fun x _ => ?_).beginSymbol _
  cases x.pendingCut with
  | none => exact ⟨fun _ => id, fun _ => id⟩
  | some p => exact subject_stopGapTimer x.kind

/-- The turn of the channel is of this kind's bulletin or circuit; what the rules of a phase may assume of their
argument. -/
def Concerns (t : State) (ch : Fin 8) (k : TurnKind) : Prop :=
  ∀ x, (t.channel ch).turn = some x → (∀ n, k.isPassOf n = true → x.kind.isPassOf n = true) ∧
    ∀ c, k.isTurnOf c = true → x.kind.isTurnOf c = true

theorem Concerns.of_turn {ch : Fin 8} {x : Turn} (h : (t.channel ch).turn = some x) : Concerns t ch x.kind := by
  intro y hy
  rw [h] at hy
  cases hy
  exact ⟨fun _ => id, fun _ => id⟩

/-- A turn record whose subject is now that of the kind. -/
theorem Concerns.mapTurn {ch : Fin 8} {k : TurnKind} {f : Turn → Turn} (hf : ∀ x, (t.channel ch).turn = some x →
      (∀ n, k.isPassOf n = true → (f x).kind.isPassOf n = true) ∧
      ∀ c, k.isTurnOf c = true → (f x).kind.isTurnOf c = true) : Concerns (t.mapTurn ch f) ch k := by
  intro y hy
  rw [State.mapTurn_channel, if_pos rfl] at hy
  cases hx : (t.channel ch).turn with
  | none => rw [hx] at hy; cases hy
  | some x =>
    rw [hx, Option.map_some, Option.some.injEq] at hy
    subst hy
    exact hf x hx

theorem Concerns.mapTurn_of_kind {ch : Fin 8} {k : TurnKind} {f : Turn → Turn} (h : Concerns t ch k)
    (hf : ∀ x, (f x).kind = x.kind) : Concerns (t.mapTurn ch f) ch k :=
  .mapTurn fun x hx => by rw [hf]; exact h x hx

/-- A change of the turn record to one with the subject of a kind that it concerns. -/
theorem mapKind (h : s.Evolves t) {ch : Fin 8} {k : TurnKind} (hk : Concerns t ch k) (f : Turn → Turn)
    (hf : ∀ x, (∀ n, (f x).kind.isPassOf n = true → k.isPassOf n = true) ∧
      ∀ c, (f x).kind.isTurnOf c = true → k.isTurnOf c = true) : s.Evolves (t.mapTurn ch f) :=
  h.mapTurn ch f fun x hx =>
    ⟨fun n own => (hk x hx).1 n ((hf x).1 n own), fun c own => (hk x hx).2 c ((hf x).2 c own)⟩

theorem enterGap (h : s.Evolves t) (ch : Fin 8) (p : PassTurn) (hk : Concerns t ch (.pass p)) :
    s.Evolves (t.enterGap ch p) := (h.mapKind hk _ fun _ => ⟨fun _ => id, fun _ => id⟩).raiseEvent _ _

theorem enterBody (h : s.Evolves t) (ch : Fin 8) (x : Turn) (hk : Concerns t ch x.kind) : s.Evolves (t.enterBody ch x) := by
  unfold State.enterBody
  split
  · next y kind =>
    rw [kind] at hk
    exact (h.setCircuit y.circuit _).mapKind (k := .telex y) hk _
      (by exact fun _ => ⟨fun _ => id, fun _ => id⟩)
  · next p kind =>
    rw [kind] at hk
    have body : s.Evolves (t.mapTurn ch fun x => { x with phase := .body, kind := .pass { p with bodyOffset := 0 } }) :=
      h.mapKind hk _ fun _ => ⟨fun _ => id, fun _ => id⟩
    dsimp only
    split
    · exact body
    · exact body.enterGap ch _ (.mapTurn fun _ _ => ⟨fun _ => id, fun _ => id⟩)

theorem completeLead (h : s.Evolves t) (ch : Fin 8) (x : Turn) : s.Evolves (t.completeLead ch x).1 := by
  have counted : s.Evolves (t.mapTurn ch fun y => { y with phaseCount := x.phaseCount + 1 }) :=
    h.mapTurn_of_kind ch _ fun _ => rfl
  unfold State.completeLead
  dsimp only
  split
  · exact counted
  · split
    · exact counted.mapTurn_of_kind ch _ fun _ => rfl
    · exact counted

theorem completePreamble (h : s.Evolves t) (ch : Fin 8) (x : Turn) : s.Evolves (t.completePreamble ch x).1 := by
  have counted : s.Evolves (t.mapTurn ch fun y => { y with phaseCount := x.phaseCount + 1 }) :=
    h.mapTurn_of_kind ch _ fun _ => rfl
  unfold State.completePreamble
  dsimp only
  split
  · exact counted
  · split
    · exact counted.mapTurn_of_kind ch _ fun _ => rfl
    · exact counted

theorem completeHeader (h : s.Evolves t) (ch : Fin 8) (x : Turn) (hk : Concerns t ch x.kind) :
    s.Evolves (t.completeHeader ch x).1 := by
  have counted : s.Evolves (t.mapTurn ch fun y => { y with textPosition := x.textPosition + 1 }) :=
    h.mapTurn_of_kind ch _ fun _ => rfl
  unfold State.completeHeader
  dsimp only
  split
  · exact counted
  · split
    · exact counted.enterBody _ _ (hk.mapTurn_of_kind fun _ => rfl)
    · exact counted

theorem completeClosing (h : s.Evolves t) (ch : Fin 8) (x : Turn) : s.Evolves (t.completeClosing ch x).1 :=
  h.mapTurn_of_kind ch _ fun _ => rfl

theorem testTelexBody (h : s.Evolves t) (ch : Fin 8) (w : Bool) : s.Evolves (t.testTelexBody ch w).1 := by
  unfold State.testTelexBody
  split
  · exact h
  · split
    · exact h
    · split
      · exact h
      · split
        · exact h.mapTurn_of_kind ch _ fun _ => rfl
        · exact h

end State.Evolves
end Sys2Proof.Machine
end

section
/-! PROOFS. The form of a circuit's chain (01: R14 to R16) through an arrival and through the leave of a character: its
blocks, its law and its count. -/

namespace Sys2Proof.Machine

namespace Chain

/-! ## One character at the tail -/

theorem storeAtTail_of_last {k : Chain} {b : BlockNo} (last : k.blocks.getLast? = some b) (cells : Memory) (c : Byte) :
    k.storeAtTail cells c = ({ k with tailFill := k.tailFill + 1 }, cells.write (cellAddress b k.tailFill) c) := by
  simp only [storeAtTail, last]

theorem storeAtTail_append (k : Chain) (b : BlockNo) (cells : Memory) (c : Byte) :
    (k.append b).storeAtTail cells c =
      (⟨k.blocks ++ [b], if k.blocks = [] then 0 else k.headOffset, 1⟩, cells.write (cellAddress b 0) c) :=
  storeAtTail_of_last (k := k.append b) (by simp [append]) cells c

theorem storeAtTail_blocks (k : Chain) (cells : Memory) (c : Byte) : (k.storeAtTail cells c).1.blocks = k.blocks := by
  unfold storeAtTail
  split <;> rfl

/-! ## The law and the count, by the number of blocks -/

theorem law_iff (k : Chain) : k.law ↔ (k.blocks = [] → k.headOffset = 0 ∧ k.tailFill = 0) ∧
    (k.blocks ≠ [] → k.headOffset < 64 ∧ 1 ≤ k.tailFill ∧ k.tailFill ≤ 64 ∧
      (k.blocks.length = 1 → k.headOffset < k.tailFill)) := by
  unfold law
  split <;> simp [*]

theorem law_empty : Chain.empty.law := by simp [law, empty]

theorem count_of_nil {k : Chain} (h : k.blocks = []) : k.count = 0 := by simp [count, h]

theorem count_of_one {k : Chain} (h : k.blocks.length = 1) : k.count = k.tailFill - k.headOffset := by simp [count, h]

theorem count_of_more {k : Chain} {n : Nat} (h : k.blocks.length = n + 2) :
    k.count = (64 - k.headOffset) + 64 * n + k.tailFill := by simp [count, h]

/-- The number of blocks decides how the characters are counted (01: R14). -/
theorem length_cases (k : Chain) :
    k.blocks = [] ∧ k.count = 0 ∨ (k.blocks.length = 1 ∧ k.count = k.tailFill - k.headOffset) ∨
    ∃ n, k.blocks.length = n + 2 ∧ k.count = (64 - k.headOffset) + 64 * n + k.tailFill := by
  match h : k.blocks.length with
  | 0 => exact .inl ⟨List.length_eq_zero_iff.mp h, count_of_nil (List.length_eq_zero_iff.mp h)⟩
  | 1 => exact .inr (.inl ⟨rfl, count_of_one h⟩)
  | n + 2 => exact .inr (.inr ⟨n, rfl, count_of_more h⟩)

/-- A lawful chain without a character holds no block. -/
theorem blocks_of_count_zero {k : Chain} (law : k.law) (h : k.count = 0) : k.blocks = [] := by
  obtain ⟨-, some⟩ := (law_iff k).mp law
  rcases length_cases k with ⟨none, -⟩ | ⟨one, count⟩ | ⟨n, more, count⟩
  · exact none
  · obtain ⟨-, -, -, order⟩ := some (by intro none; simp [none] at one)
    have := order one
    omega
  · obtain ⟨-, filled, -⟩ := some (by intro none; simp [none] at more)
    omega

/-! ## The head character leaves (01: R16) -/

theorem leave_blocks (k : Chain) : (k.leave.2 ++ k.leave.1.blocks).Perm k.blocks := by
  unfold leave
  split
  · simp [empty]
  · split
    · cases k.blocks <;> simp
    · simp

theorem leave_blocks_of_nil {k : Chain} (h : k.blocks = []) : k.leave.1.blocks = [] := by
  have all := (leave_blocks k).length_eq
  simp [h] at all
  exact all.2

theorem leave_count_le (k : Chain) : k.leave.1.count ≤ k.count := by
  unfold leave
  split
  · simp [empty, count]
  · next many =>
    split
    · next last =>
      rcases length_cases k with ⟨none, count⟩ | ⟨one, count⟩ | ⟨n, more, count⟩
      · omega
      · rw [count_of_nil (List.length_eq_zero_iff.mp (by simp [one]))]
        exact Nat.zero_le _
      · rcases n with _ | n
        · rw [count_of_one (by simp [more]), count]
          dsimp only
          omega
        · rw [count_of_more (n := n) (by simp [more]), count]
          dsimp only
          omega
    · next inside =>
      rcases length_cases k with ⟨none, count⟩ | ⟨one, count⟩ | ⟨n, more, count⟩
      · omega
      · rw [count_of_one (k := ⟨k.blocks, k.headOffset + 1, k.tailFill⟩) one, count]
        dsimp only
        omega
      · rw [count_of_more (k := ⟨k.blocks, k.headOffset + 1, k.tailFill⟩) more, count]
        dsimp only
        omega

theorem leave_law {k : Chain} (law : k.law) : k.leave.1.law := by
  obtain ⟨-, some⟩ := (law_iff k).mp law
  unfold leave
  split
  · exact law_empty
  · next many =>
    rcases length_cases k with ⟨none, count⟩ | ⟨one, count⟩ | ⟨n, more, count⟩
    · omega
    all_goals
      obtain ⟨head, filled, full, order⟩ := some (by rintro none; simp_all)
      split
      · next last =>
        rw [law_iff]
        simp only [← List.length_eq_zero_iff, List.length_tail, ne_eq]
        omega
      · next inside =>
        rw [law_iff]
        simp only [← List.length_eq_zero_iff, ne_eq]
        omega

end Chain

/-! ## An arrival (01: R15) -/

/-- What holds before an arrival and through each character stored holds after it. -/
theorem storeArrival_keeps {P : Chain → TextStore → Prop}
    (claims : ∀ k t c b free, P k t → k.count < 512 → (k.blocks = [] ∨ k.tailFill = 64) → t.free = b :: free →
      P ⟨k.blocks ++ [b], if k.blocks = [] then 0 else k.headOffset, 1⟩
        { t with free := free, cells := t.cells.write (cellAddress b 0) c })
    (stores : ∀ k t c b, P k t → k.count < 512 → k.blocks.getLast? = some b → k.tailFill ≠ 64 →
      P { k with tailFill := k.tailFill + 1 } { t with cells := t.cells.write (cellAddress b k.tailFill) c })
    (cs : List Byte) {k : Chain} {t : TextStore} (h : P k t) :
    P (storeArrival cs k t).1 (storeArrival cs k t).2.1 := by
  induction cs generalizing k t with
  | nil => exact h
  | cons c cs ih =>
    unfold storeArrival
    split
    · exact h
    · next room =>
      have room : k.count < 512 := Nat.lt_of_not_le room
      split
      · next wants =>
        split
        · exact h
        · next b free blocks =>
          have := ih (claims k t c b free h room wants blocks)
          simpa only [Chain.storeAtTail_append] using this
      · next open_ =>
        rw [not_or] at open_
        obtain ⟨b, last⟩ : ∃ b, k.blocks.getLast? = some b := by
          cases last : k.blocks.getLast? with
          | none => exact absurd (List.getLast?_eq_none_iff.mp last) open_.1
          | some b => exact ⟨b, rfl⟩
        have := ih (stores k t c b h room last open_.2)
        simpa only [Chain.storeAtTail_of_last last] using this

theorem storeArrival_reserve (cs : List Byte) (k : Chain) (t : TextStore) :
    (storeArrival cs k t).2.1.reserve = t.reserve :=
  storeArrival_keeps (P := fun _ u => u.reserve = t.reserve) (fun _ _ _ _ _ h _ _ _ => h) (fun _ _ _ _ h _ _ _ => h)
    cs rfl

theorem TextStore.eq_of_reserve {t u : TextStore} (h : u.reserve = t.reserve) :
    u = { t with free := u.free, cells := u.cells } := by
  rw [← h]

/-- An arrival moves blocks from the free list to the chain (01: R15). -/
theorem storeArrival_blocks (cs : List Byte) (k : Chain) (t : TextStore) :
    ((storeArrival cs k t).2.1.free ++ (storeArrival cs k t).1.blocks).Perm (t.free ++ k.blocks) := by
  refine storeArrival_keeps (P := fun l u => (u.free ++ l.blocks).Perm (t.free ++ k.blocks)) ?_ ?_ cs (.refl _)
  · intro l u c b free h _ _ blocks
    rw [blocks] at h
    refine List.Perm.trans ?_ h
    rw [← List.append_assoc, List.cons_append]
    exact List.perm_append_singleton b _
  · intro l u c b h _ _ _
    exact h

/-- The count of a chain after one more character. -/
theorem Chain.count_claim {k : Chain} (law : k.law) (wants : k.blocks = [] ∨ k.tailFill = 64) (b : BlockNo) :
    (⟨k.blocks ++ [b], if k.blocks = [] then 0 else k.headOffset, 1⟩ : Chain).count = k.count + 1 := by
  obtain ⟨-, some⟩ := (law_iff k).mp law
  rcases length_cases k with ⟨none, count⟩ | ⟨one, count⟩ | ⟨n, more, count⟩
  · rw [count_of_one (by simp [none]), count]
    simp [none]
  · have blocks : k.blocks ≠ [] := by rintro none; simp [none] at one
    have := some blocks
    rw [count_of_more (n := 0) (by simp [one]), count]
    simp only [blocks, if_false, false_or] at wants ⊢
    omega
  · have blocks : k.blocks ≠ [] := by rintro none; simp [none] at more
    have := some blocks
    rw [count_of_more (n := n + 1) (by simp [more]), count]
    simp only [blocks, if_false, false_or] at wants ⊢
    omega

theorem Chain.count_store {k : Chain} (law : k.law) (blocks : k.blocks ≠ []) :
    ({ k with tailFill := k.tailFill + 1 } : Chain).count = k.count + 1 := by
  obtain ⟨-, some⟩ := (law_iff k).mp law
  have := some blocks
  rcases length_cases k with ⟨none, count⟩ | ⟨one, count⟩ | ⟨n, more, count⟩
  · exact absurd none blocks
  · rw [count_of_one (k := { k with tailFill := k.tailFill + 1 }) one, count]
    dsimp only
    omega
  · rw [count_of_more (k := { k with tailFill := k.tailFill + 1 }) more, count]
    dsimp only
    omega

theorem Chain.law_claim {k : Chain} (law : k.law) (b : BlockNo) :
    (⟨k.blocks ++ [b], if k.blocks = [] then 0 else k.headOffset, 1⟩ : Chain).law := by
  obtain ⟨-, some⟩ := (law_iff k).mp law
  rw [law_iff]
  by_cases none : k.blocks = []
  · simp [none]
  · have := some none
    simp [none]
    omega

theorem Chain.law_store {k : Chain} (law : k.law) (blocks : k.blocks ≠ []) (open_ : k.tailFill ≠ 64) :
    ({ k with tailFill := k.tailFill + 1 } : Chain).law := by
  obtain ⟨-, some⟩ := (law_iff k).mp law
  have := some blocks
  rw [law_iff]
  refine ⟨fun none => absurd none blocks, fun _ => ?_⟩
  dsimp only
  omega

theorem blocks_ne_nil_of_getLast? {α : Type} {l : List α} {a : α} (h : l.getLast? = some a) : l ≠ [] := by
  rintro rfl
  cases h

theorem storeArrival_law (cs : List Byte) {k : Chain} (t : TextStore) (law : k.law) : (storeArrival cs k t).1.law :=
  storeArrival_keeps (P := fun l _ => l.law) (fun _ _ _ _ _ h _ _ _ => Chain.law_claim h _)
    (fun _ _ _ _ h _ last open_ => Chain.law_store h (blocks_ne_nil_of_getLast? last) open_) cs law

/-- The count of a chain goes up by one at most with one more character, whatever its form. -/
theorem Chain.count_claim_le (k : Chain) (b : BlockNo) (h : k.blocks = [] ∨ k.tailFill = 64) :
    (⟨k.blocks ++ [b], if k.blocks = [] then 0 else k.headOffset, 1⟩ : Chain).count ≤ k.count + 1 := by
  rcases length_cases k with ⟨none, count⟩ | ⟨one, count⟩ | ⟨n, more, count⟩
  · rw [count_of_one (by simp [none])]
    simp [none]
  · have blocks : k.blocks ≠ [] := by rintro none; simp [none] at one
    rw [count_of_more (n := 0) (by simp [one]), count]
    simp only [blocks, if_false, false_or] at h ⊢
    omega
  · have blocks : k.blocks ≠ [] := by rintro none; simp [none] at more
    rw [count_of_more (n := n + 1) (by simp [more]), count]
    simp only [blocks, if_false, false_or] at h ⊢
    omega

theorem Chain.count_store_le (k : Chain) : ({ k with tailFill := k.tailFill + 1 } : Chain).count ≤ k.count + 1 := by
  rcases length_cases k with ⟨none, count⟩ | ⟨one, count⟩ | ⟨n, more, count⟩
  · rw [count_of_nil (k := { k with tailFill := k.tailFill + 1 }) none]
    exact Nat.zero_le _
  · rw [count_of_one (k := { k with tailFill := k.tailFill + 1 }) one, count]
    dsimp only
    omega
  · rw [count_of_more (k := { k with tailFill := k.tailFill + 1 }) more, count]
    dsimp only
    omega

/-- An arrival stops at 512 characters (01: R15; 05: R75). -/
theorem storeArrival_limit (cs : List Byte) {k : Chain} (t : TextStore) (limit : k.count ≤ 512) :
    (storeArrival cs k t).1.count ≤ 512 := by
  refine storeArrival_keeps (P := fun l _ => l.count ≤ 512) ?_ ?_ cs limit
  · intro l u c b free _ room wants _
    have := l.count_claim_le b wants
    omega
  · intro l u c b _ room _ _
    have := l.count_store_le
    omega

end Sys2Proof.Machine
end

section
/-! PROOFS. The symbol completion and the requests, made of the writes that keep the laws. -/

namespace Sys2Proof.Machine
namespace State.Evolves

variable {s t u : State}

/-! ## The telex body -/

theorem leaveQueue (h : s.Evolves t) (c : Fin 32) : s.Evolves (t.leaveQueue c) := by
  have left : s.Evolves ((t.setCircuit c { t.circuit c with chain := (t.circuit c).chain.leave.1 }).returnBlocks
      (t.circuit c).chain.leave.2) := by
    refine h.circuit c { t.circuit c with chain := (t.circuit c).chain.leave.1 }
      (t.store.free ++ (t.circuit c).chain.leave.2) rfl Iff.rfl (fun _ => id) Chain.leave_law
      (fun _ => Chain.leave_blocks_of_nil) (fun limit => (Chain.leave_count_le _).trans limit) ?_
    rw [List.append_assoc]
    exact (Chain.leave_blocks _).append_left _
  unfold State.leaveQueue
  dsimp only
  split
  · exact left.emissionTest _
  · exact (left.emissionTest _).returnReport

theorem completeTelexChar (h : s.Evolves t) (ch : Fin 8) (x : TelexTurn) (c : Byte) (hk : Concerns t ch (.telex x)) :
    s.Evolves (t.completeTelexChar ch x c).1 := by
  unfold State.completeTelexChar
  dsimp only
  split
  · exact h.testTelexBody _ _
  · exact ((h.mapKind hk _ (by exact fun _ => ⟨fun _ => id, fun _ => id⟩)).leaveQueue _).testTelexBody _ _

theorem completeTelexIdle (h : s.Evolves t) (ch : Fin 8) (x : Turn) (y : TelexTurn) (hk : Concerns t ch (.telex y)) :
    s.Evolves (t.completeTelexIdle ch x y).1 := by
  unfold State.completeTelexIdle
  split
  · exact (h.mapKind hk _ (by exact fun _ => ⟨fun _ => id, fun _ => id⟩)).testTelexBody _ _
  · exact h.mapKind hk _ (by exact fun _ => ⟨fun _ => id, fun _ => id⟩)

/-! ## The pass body and the gap -/

theorem completePassChar (h : s.Evolves t) (ch : Fin 8) (x : Turn) (p : PassTurn) (c : Byte)
    (hk : Concerns t ch (.pass p)) : s.Evolves (t.completePassChar ch x p c).1 := by
  have next : s.Evolves (t.mapTurn ch fun _ =>
      { x.countUrgency with kind := .pass { p with bodyOffset := p.bodyOffset + 1 } }) :=
    h.mapKind hk _ fun _ => ⟨fun _ => id, fun _ => id⟩
  unfold State.completePassChar
  dsimp only
  split
  · exact next.mapTurn_of_kind ch _ fun _ => rfl
  · split
    · exact next
    · split
      · exact next
      · exact next.enterGap ch _ (.mapTurn fun _ _ => ⟨fun _ => id, fun _ => id⟩)

theorem completeGap (h : s.Evolves t) (ch : Fin 8) (x : Turn) (p : PassTurn) : s.Evolves (t.completeGap ch x p).1 := by
  unfold State.completeGap
  split
  · exact h.mapTurn ch _ fun x _ => subject_stopGapTimer x.kind
  · split
    · exact h
    · split
      · exact (h.mapTurn ch _ (by exact fun x _ => subject_stopGapTimer x.kind)).raiseEvent _ _
      · exact h

/-! ## The completion of a symbol -/

theorem completeBody (h : s.Evolves t) (ch : Fin 8) (x : Turn) (y : Symbol) (hk : Concerns t ch x.kind) :
    s.Evolves (t.completeBody ch x y).1 := by
  unfold State.completeBody
  split
  case h_1 kind => rw [kind] at hk; exact h.completeTelexChar _ _ _ hk
  case h_2 kind => rw [kind] at hk; exact h.completeTelexIdle _ _ _ hk
  case h_3 kind => rw [kind] at hk; exact h.completePassChar _ _ _ _ hk
  all_goals exact h

theorem completePhase (h : s.Evolves t) (ch : Fin 8) (x : Turn) (y : Symbol) (hk : Concerns t ch x.kind) :
    s.Evolves (t.completePhase ch x y).1 := by
  unfold State.completePhase
  split
  · exact h.completeLead _ _
  · exact h.completePreamble _ _
  · exact h.completeHeader _ _ hk
  · exact h.completeBody _ _ _ hk
  · split
    · exact h.completeGap _ _ _
    · exact h
  · exact h.completeClosing _ _
  · exact h.completeClosing _ _

theorem completeTurn (h : s.Evolves t) (ch : Fin 8) (x : Turn) (y : Symbol) (hk : Concerns t ch x.kind) :
    s.Evolves (t.completeTurn ch x y).1 := by
  unfold State.completeTurn
  split
  · exact h
  · exact h
  all_goals exact h.completePhase _ _ _ hk

theorem completeHold (h : s.Evolves t) (ch : Fin 8) (stop : Bool) : s.Evolves (t.completeHold ch stop) := by
  have counted : s.Evolves (t.setChannel ch
      { t.channel ch with holdCount := (t.channel ch).holdCount + 1, output := none }) := h.setChannel ch _
  unfold State.completeHold
  dsimp only
  split
  · next selected => exact counted.selectTurn selected
  · split
    · exact counted.release _
    · exact counted.emit _ _

theorem goOn (h : s.Evolves t) (ch : Fin 8) (stop : Bool) (p : Progress) : s.Evolves (t.goOn ch stop p) := by
  unfold State.goOn
  split
  · split
    · exact (h.stopTurn _ _).afterSilence _
    · exact h.beginSymbol _
  · split
    · exact (h.stopTurn _ _).afterSilence _
    · exact h.fallCut _
  · split
    · exact h
    · exact (h.endTurn _ _).afterTurnEnd _

theorem finishSymbol (h : s.Evolves t) (ch : Fin 8) (y : Symbol) :
    s.Evolves (t.setChannel ch { (t.channel ch).finishSymbol y with silenceStop := false }) := by
  have same : ∀ x : Channel, (x.finishSymbol y).queue = x.queue ∧ (x.finishSymbol y).bound = x.bound ∧
      (x.finishSymbol y).turn = x.turn := by
    intro x
    unfold Channel.finishSymbol
    split
    case h_5 => split <;> exact ⟨rfl, rfl, rfl⟩
    all_goals exact ⟨rfl, rfl, rfl⟩
  obtain ⟨queue, bound, turn⟩ := same (t.channel ch)
  exact h.setChannel ch _ queue bound turn

/-- The whole of a symbol completion, from the state at its time on. -/
theorem completeSymbol (ch : Fin 8) (s : State) : ∃ now, ({ s with now := now } : State).Evolves (s.completeSymbol ch) := by
  unfold State.completeSymbol
  split
  · exact ⟨s.now, refl⟩
  · next e _ =>
    refine ⟨max s.now e.due, ?_⟩
    dsimp only
    have finished := (refl (s := s.reach e.due)).finishSymbol ch e.symbol
    split
    · exact finished.completeHold _ _
    · next x turn => exact (finished.completeTurn ch x _ (.of_turn turn)).goOn _ _ _

/-! ## The requests on the station and on a channel -/

theorem setMarkSource (h : s.Evolves t) (m : MarkSource) : s.Evolves (t.setMarkSource m) := by
  unfold State.setMarkSource
  split
  · exact h
  · cases m with
    | external => exact h.setClock _
    | internal =>
      dsimp only
      split
      · exact (h.setClock _).raiseEvent _ _
      · exact h.setClock _

theorem holdExceeded (h : s.Evolves t) (c : Fin 32) : s.Evolves (t.holdExceeded c) := (h.setCircuit c _).raiseEvent _ _

theorem expireHold (h : s.Evolves t) (c : Fin 32) : s.Evolves (t.expireHold c) := by
  unfold State.expireHold
  split
  · exact h.holdExceeded c
  · exact h

theorem setHoldLimit (h : s.Evolves t) (limit : Nat) : s.Evolves (t.setHoldLimit limit) := by
  unfold State.setHoldLimit
  split
  · exact h
  · exact (h.settings t.clock limit t.gapTimeout t.store.reserve).foldl (fun _ c => refl.expireHold c) _

theorem putSettings (h : s.Evolves t) (m : MarkSource) (f : StationFields) : s.Evolves (t.putSettings m f) :=
  ((h.setMarkSource m).setHoldLimit f.holdLimit).settings _ _ f.gapTimeout f.storeReserve

theorem setStation (h : s.Evolves t) (f : StationFields) : s.Evolves (setStation f t).1 := by
  unfold Machine.setStation
  split
  · exact h
  · split_ifs
    · exact h
    · exact h
    · exact h
    · exact h.putSettings _ _

theorem setClockRequest (h : s.Evolves t) (minute : Nat) : s.Evolves (Machine.setClock minute t).1 := by
  unfold Machine.setClock
  split
  · exact h.setClock _
  · exact h

theorem setProfile (h : s.Evolves t) (channel : Nat) (f : ProfileFields) : s.Evolves (setProfile channel f t).1 := by
  unfold Machine.setProfile
  split
  · exact h
  · split
    · exact h
    · split
      · exact h
      · exact h.setChannel _ _

theorem channelOn (h : s.Evolves t) (channel : Nat) : s.Evolves (channelOn channel t).1 := by
  unfold Machine.channelOn
  split
  · exact h
  · dsimp only
    split
    · exact h.setChannel _ _
    · exact h

theorem offGraceful (h : s.Evolves t) (ch : Fin 8) : s.Evolves (t.offGraceful ch).1 := by
  unfold State.offGraceful
  dsimp only
  split
  case h_8 =>
    split
    · exact h.setChannel _ _
    · exact h.enterOff _
  all_goals first | exact h | exact h.enterOff _

theorem offAbort (h : s.Evolves t) (ch : Fin 8) : s.Evolves (t.offAbort ch).1 := by
  unfold State.offAbort
  split
  all_goals first | exact h | exact h.enterOff _ | exact (h.stopTurn _ _).enterOff _

theorem channelOff (h : s.Evolves t) (channel mode : Nat) : s.Evolves (channelOff channel mode t).1 := by
  unfold Machine.channelOff onChannel
  split
  · exact h
  · dsimp only
    split_ifs
    · exact h.offGraceful _
    · exact h.offAbort _
    · exact h

/-! ## The requests on a circuit -/

theorem onCircuit (h : s.Evolves t) (circuit : Nat) {f : State → Fin 32 → State × Verdict}
    (hf : ∀ c, s.Evolves (f t c).1) : s.Evolves (onCircuit circuit f t).1 := by
  unfold Machine.onCircuit
  split
  · exact h
  · exact hf _

theorem openCircuit (h : s.Evolves t) (circuit channel : Nat) (callUp : List Byte) :
    s.Evolves (openCircuit circuit channel callUp t).1 := by
  refine h.onCircuit circuit fun c => ?_
  split
  · exact h
  · next free =>
    split
    · exact h
    · split_ifs
      · exact h
      · exact h
      · exact h
      · exact h.opens c _ _ callUp (not_not.mp free)

theorem setFlow (h : s.Evolves t) (c : Fin 32) (flow : Flow) : s.Evolves (t.setFlow c flow) := by
  unfold State.setFlow
  dsimp only
  split
  · exact (h.setCircuit c _).raiseEvent _ _
  · exact h.setCircuit c _

theorem subject_clearGrace (x : Turn) : (∀ n, x.clearGrace.kind.isPassOf n = true → x.kind.isPassOf n = true) ∧
    ∀ c, x.clearGrace.kind.isTurnOf c = true → x.kind.isTurnOf c = true := by
  unfold Turn.clearGrace
  cases kind : x.kind <;> simp [kind, TurnKind.isPassOf, TurnKind.isTurnOf]

theorem arrivalReport (h : s.Evolves t) (c : Fin 32) : s.Evolves (t.arrivalReport c) := by
  unfold State.arrivalReport
  dsimp only
  split
  · split
    · exact h.mapTurn _ _ fun x _ => subject_clearGrace x
    · exact h
  · exact h.settleWait _

theorem arrive (h : s.Evolves t) {c : Fin 32} (bound : (t.circuit c).life = .bound) (chars : List Byte) :
    s.Evolves (t.arrive c chars).1 := by
  have stored : s.Evolves ((t.setStore (storeArrival chars (t.circuit c).chain t.store).2.1).setCircuit c
      { t.circuit c with chain := (storeArrival chars (t.circuit c).chain t.store).1 }) := by
    have cells := h.cells (storeArrival chars (t.circuit c).chain t.store).2.1.cells (storeArrival_wf chars)
    have moved := cells.circuit c { t.circuit c with chain := (storeArrival chars (t.circuit c).chain t.store).1 }
      (storeArrival chars (t.circuit c).chain t.store).2.1.free rfl Iff.rfl (fun _ => id) (storeArrival_law _ _)
      (fun free => absurd (bound.symm.trans free) nofun) (storeArrival_limit _ _) (storeArrival_blocks _ _ _)
    rw [TextStore.eq_of_reserve (storeArrival_reserve chars (t.circuit c).chain t.store)]
    exact moved
  unfold State.arrive
  dsimp only
  split
  · exact (stored.setFlow _ _).arrivalReport _
  · exact stored.setFlow _ _

theorem circuitText (h : s.Evolves t) (circuit : Nat) (chars : List Byte) : s.Evolves (circuitText circuit chars t).1 := by
  refine h.onCircuit circuit fun c => ?_
  split
  · exact h
  · next bound =>
    split_ifs
    · exact h
    · exact h
    · exact h.arrive (not_not.mp bound) chars

theorem setHostHold (h : s.Evolves t) (c : Fin 32) (on : Bool) : s.Evolves (t.setHostHold c on) :=
  (h.setCircuit c _).settleWait _

theorem holdCircuit (h : s.Evolves t) (circuit setting : Nat) : s.Evolves (holdCircuit circuit setting t).1 := by
  refine h.onCircuit circuit fun c => ?_
  split_ifs
  · exact h
  · exact h.setHostHold _ _
  · exact h.setHostHold _ _
  · exact h

theorem moveCircuit (h : s.Evolves t) (circuit target : Nat) : s.Evolves (moveCircuit circuit target t).1 := by
  refine h.onCircuit circuit fun c => ?_
  dsimp only
  split
  · exact h
  · next movable =>
    have life : (t.circuit c).life ≠ .free := fun free => movable (by simp [Circuit.immovable, free])
    split
    · exact h
    · split_ifs with noProfile onAir
      · exact h
      · exact h.setCircuit c _ rfl Iff.rfl fun free => absurd free life
      · exact h.applyMove _ (.inl ⟨rfl, by simpa using onAir⟩) (.inl life)

theorem closeDrain (h : s.Evolves t) {c : Fin 32} (life : (t.circuit c).life ≠ .free) : s.Evolves (t.closeDrain c) := by
  have closing : s.Evolves (t.setCircuit c { t.circuit c with life := .closing, drainPending := true }) :=
    h.setCircuit c _ rfl (by simp [life]) nofun
  unfold State.closeDrain
  dsimp only
  split
  · next empty =>
    simp only [Bool.and_eq_true, decide_eq_true_eq, Bool.not_eq_true'] at empty
    exact closing.finishClose (.inl ⟨rfl, empty.2⟩) (by simp) empty.1
  · exact closing

/-- A purge takes the whole queue away (01: R17). -/
theorem purged (h : s.Evolves t) {c : Fin 32} (life : (t.circuit c).life ≠ .free) :
    s.Evolves ((t.setCircuit c { t.circuit c with
      chain := Chain.empty, flow := .flowing, life := .closing, drainPending := false }).returnAndReport
        (t.circuit c).chain.blocks) := by
  have taken := h.circuit c { t.circuit c with
      chain := Chain.empty, flow := .flowing, life := .closing, drainPending := false }
    (t.store.free ++ (t.circuit c).chain.blocks) rfl (by simp [life]) nofun (fun _ => Chain.law_empty) nofun
    (fun _ => by simp [Circuit.count, Chain.empty, Chain.count]) (by simp [Chain.empty])
  unfold State.returnAndReport
  split
  · next none =>
    rw [none, List.append_nil] at taken
    exact taken
  · exact taken.returnReport

end State.Evolves
end Sys2Proof.Machine
end

section
/-! PROOFS. The close of a circuit and the requests on a bulletin, made of the same writes; then every request but
RESTART. -/

namespace Sys2Proof.Machine

/-! ## A map write keeps the blocks of the map (01: R12, R13) -/

namespace TextMap

theorem blockNumbers_setFill (m : TextMap) (p fill : Nat) : (m.setFill p fill).blockNumbers = m.blockNumbers := by
  unfold setFill blockNumbers
  refine List.ext_getElem? fun i => ?_
  simp only [List.getElem?_map, List.getElem?_modify]
  cases m.blocks[i]? with
  | none => rfl
  | some b => by_cases same : p = i <;> simp [same]

theorem blockNumbers_storeAtPointer (m : TextMap) (cells : Memory) (c : Byte) :
    (m.storeAtPointer cells c).1.blockNumbers = m.blockNumbers := by
  unfold storeAtPointer
  split
  · rfl
  · exact blockNumbers_setFill _ _ _

theorem blockNumbers_advance (m : TextMap) (how : Manner) : (m.advance how).blockNumbers = m.blockNumbers := by
  cases how with
  | rewriting => exact blockNumbers_setFill _ _ _
  | extending => rfl

theorem blockNumbers_storeChars (how : Manner) (cs : List Byte) (m : TextMap) (cells : Memory) :
    (storeChars how cs m cells).1.blockNumbers = m.blockNumbers := by
  induction cs generalizing m cells with
  | nil => rfl
  | cons c cs ih =>
    unfold storeChars
    dsimp only
    split
    · split
      · rfl
      · split
        · exact blockNumbers_advance m how
        · exact (ih _ _).trans ((blockNumbers_storeAtPointer _ _ _).trans (blockNumbers_advance m how))
    · exact (ih _ _).trans (blockNumbers_storeAtPointer _ _ _)

theorem blockNumbers_beginWrite {m start : TextMap} {how : Manner} {block : Option Nat}
    (h : m.beginWrite how block = .ok start) : start.blockNumbers = m.blockNumbers := by
  unfold beginWrite at h
  split at h
  · cases h
    exact blockNumbers_setFill _ _ _
  · split at h <;> cases h
    rfl
  · split at h <;> cases h
    rfl
  · split at h
    · cases h
    · split at h <;> cases h
      rfl

theorem blockNumbers_fresh (length : Nat) (bs : List BlockNo) : (fresh length bs).blockNumbers = bs := by
  unfold fresh blockNumbers
  rw [List.map_map]
  exact List.map_id _

end TextMap

/-! ## The block return report passes over the descriptors -/

theorem State.reportTo_setBulletin (s : State) (n : Fin 64) (x : Option Bulletin) (c : Fin 32) :
    (s.setBulletin n x).reportTo c = (s.reportTo c).setBulletin n x := by
  unfold State.reportTo
  simp only [State.setBulletin_circuit]
  rw [apply_ite (fun t : State => t.setBulletin n x)]
  rfl

theorem State.returnReport_setBulletin (s : State) (n : Fin 64) (x : Option Bulletin) :
    (s.setBulletin n x).returnReport = s.returnReport.setBulletin n x := by
  unfold State.returnReport
  induction allCircuits generalizing s with
  | nil => rfl
  | cons c cs ih => rw [List.foldl_cons, List.foldl_cons, State.reportTo_setBulletin, ih]

theorem State.returnAndReport_setBulletin (s : State) (n : Fin 64) (x : Option Bulletin) (bs : List BlockNo) :
    (s.setBulletin n x).returnAndReport bs = (s.returnAndReport bs).setBulletin n x := by
  unfold State.returnAndReport
  split
  · rfl
  · exact State.returnReport_setBulletin (s.returnBlocks bs) n x

/-- A return of blocks with its report changes the flow of a circuit alone (05: R81). -/
theorem State.returnAndReport_circuit (s : State) (bs : List BlockNo) (d : Fin 32) :
    (s.returnAndReport bs).circuit d = { s.circuit d with flow := ((s.returnAndReport bs).circuit d).flow } := by
  unfold State.returnAndReport
  split
  · rfl
  · next some => exact (State.returnReport_spec (s.returnBlocks bs) bs some d).2

namespace State.Evolves

variable {s t u : State}

/-! ## CLOSE CIRCUIT (05: R84, R85) -/

theorem closePurge (h : s.Evolves t) {c : Fin 32} (life : (t.circuit c).life ≠ .free) : s.Evolves (t.closePurge c) := by
  have gone := h.purged life
  unfold State.closePurge
  dsimp only
  split
  · exact gone.causeCut _ _
  · next offAir =>
    refine gone.finishClose (.inl ⟨rfl, by simpa using offAir⟩) ?_ ?_
    · rw [State.returnAndReport_circuit]
      simp
    · rw [State.returnAndReport_circuit]
      simp [Circuit.count, Chain.count, Chain.empty]

theorem closeCircuit (h : s.Evolves t) (circuit mode : Nat) : s.Evolves (closeCircuit circuit mode t).1 := by
  refine h.onCircuit circuit fun c => ?_
  dsimp only
  split_ifs with free
  · exact h
  · exact h
  · exact h.closeDrain free
  · exact h.closePurge free
  · exact h

/-! ## The requests on a bulletin -/

theorem onBulletin (h : s.Evolves t) (number : Nat) {f : State → Fin 64 → Bulletin → State × Verdict}
    (hf : ∀ n b, t.bulletin n = some b → s.Evolves (f t n b).1) : s.Evolves (onBulletin number f t).1 := by
  unfold Machine.onBulletin
  split
  · exact h
  · next p present => exact hf _ _ (presentEntry_bulletin present)

/-- A granted claim takes the blocks of the fresh map off the free list (01: R5, R8). -/
theorem claim (h : s.Evolves t) (length : Nat) (n : Fin 64) (f : TextMap → Bulletin)
    (adds : (entryBlocks (some (f (t.claimedMap length)))).Perm
      (t.store.free.take (blocksNeeded length) ++ entryBlocks (t.bulletin n))) : s.Evolves (t.claim length n f).1 := by
  unfold State.claim
  split
  · refine h.bulletin n _ (t.store.free.drop (blocksNeeded length)) ?_
    refine (adds.append_left _).trans ?_
    rw [← List.append_assoc]
    refine List.Perm.append_right _ (List.perm_append_comm.trans ?_)
    rw [List.take_append_drop]
  · exact h

theorem declareBulletin (h : s.Evolves t) (number serial category length : Nat) (f : ScheduleFields) :
    s.Evolves (declareBulletin number serial category length f t).1 := by
  unfold Machine.declareBulletin
  split
  · exact h
  · next n _ =>
    split
    · exact h
    · next absent =>
      split
      · exact h
      · split
        · exact h
        · split
          · exact h
          · split
            · exact h
            · refine h.claim length n _ ?_
              rw [Option.not_isSome_iff_eq_none.mp absent]
              simp [entryBlocks, declared, Bulletin.allBlocks, State.claimedMap, TextMap.blockNumbers_fresh]

theorem writeText (h : s.Evolves t) {n : Fin 64} {b : Bulletin} (present : t.bulletin n = some b) (m : TextMap)
    (how : Manner) (block : Option Nat) (chars : List Byte) (put : TextMap → Bulletin)
    (places : ∀ map : TextMap, map.blockNumbers = m.blockNumbers → (put map).allBlocks = b.allBlocks) :
    s.Evolves (t.writeText n m how block chars put).1 := by
  unfold State.writeText
  split
  · exact h
  · split
    · exact h
    · next start begun =>
      refine (h.cells _ (TextMap.storeChars_wf how chars)).setBulletin n _ ?_
      rw [State.setStore_bulletin, present]
      exact places _ ((TextMap.blockNumbers_storeChars how chars start _).trans (TextMap.blockNumbers_beginWrite begun))

theorem currentText (h : s.Evolves t) {n : Fin 64} {b : Bulletin} (present : t.bulletin n = some b)
    (block : Option Nat) (chars : List Byte) : s.Evolves (t.currentText n b block chars).1 := by
  unfold State.currentText
  split
  · exact h
  all_goals
    refine h.writeText present _ _ _ _ _ fun map same => ?_
    simp [Bulletin.allBlocks, same]

theorem stagedText (h : s.Evolves t) {n : Fin 64} {b : Bulletin} (present : t.bulletin n = some b)
    (block : Option Nat) (chars : List Byte) : s.Evolves (t.stagedText n b block chars).1 := by
  unfold State.stagedText
  split
  · next m _ staged =>
    split
    · exact h
    · refine h.writeText present m _ _ _ _ fun map same => ?_
      simp [Bulletin.allBlocks, same, staged]
  · exact h

theorem bulletinText (h : s.Evolves t) (number target : Nat) (block : Option Nat) (chars : List Byte) :
    s.Evolves (Machine.bulletinText number target block chars t).1 := by
  refine h.onBulletin number fun n b present => ?_
  split_ifs
  · exact h
  · exact h.currentText present _ _
  · exact h.stagedText present _ _
  · exact h

/-- A schedule put in force leaves the maps. -/
theorem putInForce (h : s.Evolves t) {n : Fin 64} {b : Bulletin} (present : t.bulletin n = some b) (g : Schedule) :
    s.Evolves (t.putInForce n b g) := by
  have put : ∀ limit, s.Evolves (t.setBulletin n (some { b with
      state := .released, schedule := { g with limit := limit }, countdown := g.start.countdown })) :=
    fun limit => h.setBulletin n _ (by rw [present]; rfl)
  unfold State.putInForce
  dsimp only
  split
  · exact (put _).occasion n
  · exact put _

theorem testAndForce (h : s.Evolves t) {n : Fin 64} {b : Bulletin} (present : t.bulletin n = some b) (g : Schedule) :
    s.Evolves (t.testAndForce n b g).1 := by
  unfold State.testAndForce
  split
  · exact h
  · exact h.putInForce present g

theorem amendBulletin (h : s.Evolves t) (number : Nat) (f : ScheduleFields) :
    s.Evolves (amendBulletin number f t).1 := by
  refine h.onBulletin number fun n b present => ?_
  split
  · exact h
  · split
    · exact h
    · split
      · exact h.setBulletin n _ (by rw [present]; rfl)
      · exact h.testAndForce present _

theorem releaseBulletin (h : s.Evolves t) (number : Nat) : s.Evolves (releaseBulletin number t).1 := by
  refine h.onBulletin number fun n b present => ?_
  split
  · exact h.testAndForce present _
  · exact h

theorem unqueue (h : s.Evolves t) (n : Fin 64) (ch : Fin 8) : s.Evolves (State.unqueue n t ch) :=
  h.channel ch _ (.of_same_turn List.filter_sublist rfl rfl)

theorem cutPass (h : s.Evolves t) (n : Fin 64) (ch : Fin 8) : s.Evolves (State.cutPass n t ch) := by
  unfold State.cutPass
  split
  · exact h.causeCut _ _
  · exact h

theorem withdrawOnAir (h : s.Evolves t) {n : Fin 64} {b : Bulletin} (present : t.bulletin n = some b) :
    s.Evolves (t.withdrawOnAir n b) := by
  unfold State.withdrawOnAir
  dsimp only
  refine State.Evolves.foldl (fun r ch => refl.cutPass n ch) ?_ _
  rw [← State.returnAndReport_setBulletin]
  refine h.returnedAndReported n _ _ ?_
  rw [present]
  simp [entryBlocks, Bulletin.allBlocks, List.perm_append_comm]

theorem withdrawBulletin (h : s.Evolves t) (number : Nat) : s.Evolves (withdrawBulletin number t).1 := by
  refine h.onBulletin number fun n b present => ?_
  split
  · exact h
  · have unqueued : s.Evolves (allChannels.foldl (State.unqueue n) t) := h.foldl (fun _ ch => refl.unqueue n ch) _
    have present' : (allChannels.foldl (State.unqueue n) t).bulletin n = some b :=
      (bulletin_unqueue t n n _).trans present
    dsimp only
    split
    · exact unqueued.emptyEntry present'
    · exact unqueued.withdrawOnAir present'

theorem clearMarks (h : s.Evolves t) (number : Nat) : s.Evolves (clearMarks number t).1 :=
  h.onBulletin number fun n _ present => h.setBulletin n _ (by rw [present]; rfl)

theorem stageRevision (h : s.Evolves t) (number length : Nat) : s.Evolves (stageRevision number length t).1 := by
  refine h.onBulletin number fun n b present => ?_
  split
  · exact h
  · split
    · exact h
    · next unstaged =>
      split
      · exact h
      · refine h.claim length n _ ?_
        rw [present]
        simp [entryBlocks, Bulletin.allBlocks, State.claimedMap, TextMap.blockNumbers_fresh,
          Option.not_isSome_iff_eq_none.mp unstaged, List.perm_append_comm]

theorem commitRevision (h : s.Evolves t) (number : Nat) : s.Evolves (commitRevision number t).1 := by
  refine h.onBulletin number fun n b present => ?_
  split
  · next m _ staged =>
    split_ifs
    · exact h
    · exact h
    · exact h
    · exact h.commit present staged
    · exact h.setBulletin n _ (by rw [present]; rfl)
  · exact h

theorem discardStaged (h : s.Evolves t) {n : Fin 64} {b : Bulletin} {m : TextMap} (present : t.bulletin n = some b)
    (staged : b.staged = some m) : s.Evolves (t.discardStaged n b m) := by
  have gone : s.Evolves ((t.setBulletin n (some { b with staged := none, commitPending := false })).returnAndReport
      m.blockNumbers) := by
    refine h.returnedAndReported n _ _ ?_
    rw [present]
    simp [entryBlocks, Bulletin.allBlocks, staged, List.perm_append_comm]
  unfold State.discardStaged
  dsimp only
  split
  · exact gone.tellHolders n
  · exact gone

theorem discardRevision (h : s.Evolves t) (number : Nat) : s.Evolves (discardRevision number t).1 := by
  refine h.onBulletin number fun n b present => ?_
  split
  · next staged => exact h.discardStaged present staged
  · exact h

/-- Every request but RESTART does its work by these writes. -/
theorem runRequest (h : s.Evolves t) {q : Request} (hq : q ≠ .restart) : s.Evolves (runRequest q t).1 := by
  cases q with
  | setStation f => exact h.setStation f
  | setClock m => exact h.setClockRequest m
  | readStation => exact h
  | restart => exact absurd rfl hq
  | setProfile ch f => exact h.setProfile ch f
  | channelOn ch => exact h.channelOn ch
  | channelOff ch mode => exact h.channelOff ch mode
  | readChannel ch => exact h
  | openCircuit c ch l => exact h.openCircuit c ch l
  | circuitText c l => exact h.circuitText c l
  | holdCircuit c x => exact h.holdCircuit c x
  | moveCircuit c ch => exact h.moveCircuit c ch
  | closeCircuit c mode => exact h.closeCircuit c mode
  | readCircuit c => exact h
  | declareBulletin n ser cat len f => exact h.declareBulletin n ser cat len f
  | bulletinText n tgt b l => exact h.bulletinText n tgt b l
  | amendBulletin n f => exact h.amendBulletin n f
  | releaseBulletin n => exact h.releaseBulletin n
  | withdrawBulletin n => exact h.withdrawBulletin n
  | clearMarks n => exact h.clearMarks n
  | readBulletin n => exact h
  | readText n tgt off cnt => exact h.onBulletin n fun _ _ _ => h
  | stageRevision n len => exact h.stageRevision n len
  | commitRevision n => exact h.commitRevision n
  | discardRevision n => exact h.discardRevision n

end State.Evolves
end Sys2Proof.Machine
end

section
/-! PROOFS. What the operations inside an event leave alone; and a command as a run of writes: the work of the blocks, the
line, the time, and the return to the reset values. -/

namespace Sys2Proof.Machine

/-! ## What the work of the blocks leaves alone -/

/-- The line, the time, the levels and the waiting commands are as they were. -/
structure State.SameFrame (s t : State) : Prop where
  link : t.link = s.link
  now : t.now = s.now
  resetHeld : t.resetHeld = s.resetHeld
  keyok : t.keyok = s.keyok
  silence : t.silence = s.silence
  pending : t.pending = s.pending
  pauses : t.pauses = s.pauses

theorem State.SameFrame.rfl {s : State} : s.SameFrame s := ⟨.refl _, .refl _, .refl _, .refl _, .refl _, .refl _, .refl _⟩

theorem State.SameFrame.trans {s t u : State} (h : s.SameFrame t) (h' : t.SameFrame u) : s.SameFrame u :=
  ⟨h'.link.trans h.link, h'.now.trans h.now, h'.resetHeld.trans h.resetHeld, h'.keyok.trans h.keyok,
    h'.silence.trans h.silence, h'.pending.trans h.pending, h'.pauses.trans h.pauses⟩

theorem State.Lands.frame {t u : State} {c : Fin 32} (h : t.Lands c u) : t.SameFrame u := by
  rcases h with ⟨same, -⟩ | ⟨ch, -, cleared⟩
  · exact same ▸ .rfl
  · exact cleared ▸ ⟨rfl, rfl, rfl, rfl, rfl, rfl, rfl⟩

theorem State.Evolves.frame {s t : State} (h : s.Evolves t) : s.SameFrame t := by
  induction h with
  | refl => exact .rfl
  | moves _ _ _ _ lands _ ih => exact (ih.trans lands.frame).trans ⟨rfl, rfl, rfl, rfl, rfl, rfl, rfl⟩
  | closes _ _ lands _ _ ih => exact (ih.trans lands.frame).trans ⟨rfl, rfl, rfl, rfl, rfl, rfl, rfl⟩
  | _ => next ih => exact ih.trans ⟨rfl, rfl, rfl, rfl, rfl, rfl, rfl⟩

/-! ## A command as a run of writes -/

/-- RESET is released, and LINK READY is asserted (11: R184). -/
def State.released (s : State) : State := { s with resetHeld := false, link := { s.link with linkReady := true } }

/-- t comes from s by the writes of the commands: the work of the blocks, time, the line, the take of notices, the
pauses of a batch, and the reset of a RESTART. -/
inductive State.Runs (s : State) : State → Prop
  | refl : Runs s s
  | work {t u : State} : Runs s t → t.Evolves u → Runs s u
  | time {t : State} (now : Nat) : Runs s t → Runs s { t with now := now }
  | line {t : State} (l : Link) : Runs s t → l.receiveQueue = t.link.receiveQueue → l.linkReady = t.link.linkReady →
      Runs s (t.setLink l)
  | queue {t : State} (q : List Frame) : Runs s t → (q.length ≤ 16 ∨ q.length ≤ t.link.receiveQueue.length) →
      Runs s (t.setReceiveQueue q)
  | notices {t : State} (l : List NoticeEntry) : Runs s t → l.Sublist t.notices → Runs s { t with notices := l }
  | pauses {t : State} (l : List Nat) : Runs s t → Runs s { t with pauses := l }
  | restarts {t : State} : Runs s t → Runs s (State.atRest t.keyok t.silence t.pending t.pauses).released

namespace State.Runs

variable {s t u : State}

theorem trans (h : s.Runs t) (h' : t.Runs u) : s.Runs u := by
  induction h' with
  | refl => exact h
  | work _ e ih => exact ih.work e
  | time n _ ih => exact ih.time n
  | line l _ h1 h2 ih => exact ih.line l h1 h2
  | queue q _ h1 ih => exact ih.queue q h1
  | notices l _ h1 ih => exact ih.notices l h1
  | pauses l _ ih => exact ih.pauses l
  | restarts _ ih => exact ih.restarts

theorem foldl {α : Type} {f : State → α → State} (hf : ∀ (r : State) (a : α), r.Runs (f r a)) (h : s.Runs t)
    (l : List α) : s.Runs (l.foldl f t) := by
  induction l generalizing t with
  | nil => exact h
  | cons a l ih => exact ih (h.trans (hf t a))

/-- What the commands leave alone: the levels of the inputs and the waiting commands, and a released RESET. -/
theorem levels (h : s.Runs t) : t.keyok = s.keyok ∧ t.silence = s.silence ∧ t.pending = s.pending := by
  induction h with
  | refl => exact ⟨rfl, rfl, rfl⟩
  | work _ e ih =>
    obtain ⟨keyok, silence, pending⟩ := ih
    exact ⟨e.frame.keyok.trans keyok, e.frame.silence.trans silence, e.frame.pending.trans pending⟩
  | restarts _ ih =>
    dsimp only [State.released, State.atRest]
    exact ih
  | _ => next ih => exact ih

theorem resetHeld (h : s.Runs t) (released : s.resetHeld = false) : t.resetHeld = false := by
  induction h with
  | refl => exact released
  | work _ e ih => exact e.frame.resetHeld.trans ih
  | restarts _ _ => rfl
  | _ => next ih => exact ih

/-- What holds of the stores and the notices through the work of the blocks, and holds at rest, holds after a command. -/
theorem keeps {P : State → Prop} (work : ∀ t u : State, P t → t.Evolves u → P u)
    (same : ∀ t u : State, P t → u.store = t.store → u.bulletins = t.bulletins → u.circuits = t.circuits →
      u.channels = t.channels → u.notices.Sublist t.notices → P u)
    (rest : ∀ keyok silence pending pauses, P (State.atRest keyok silence pending pauses)) (h : s.Runs t) (hs : P s) :
    P t := by
  induction h with
  | refl => exact hs
  | work _ e ih => exact work _ _ ih e
  | restarts _ _ =>
    next t _ _ => exact same _ _ (rest t.keyok t.silence t.pending t.pauses) rfl rfl rfl rfl (List.Sublist.refl _)
  | notices l _ h1 ih => exact same _ _ ih rfl rfl rfl rfl h1
  | _ => next ih => exact same _ _ ih rfl rfl rfl rfl (List.Sublist.refl _)

/-! ## The line (10) -/

theorem reach (h : s.Runs t) (due : Nat) : s.Runs (t.reach due) := h.time _

theorem raise (h : s.Runs t) (k : NoticeKey) (e : Option NoticeEvent) (a : Counts) : s.Runs (t.raise k e a) :=
  h.work (.raise k e a .refl)

theorem raiseEvent (h : s.Runs t) (k : NoticeKey) (e : NoticeEvent) : s.Runs (t.raiseEvent k e) := h.raise k _ _

theorem placeReply (h : s.Runs t) (r : ReplyTo) (kind : Byte) (v : Verdict) : s.Runs (t.placeReply r kind v) :=
  h.line { t.link with replies := t.link.replies ++ [⟨r.tag, r.position, kind, v.status, v.fields, 0⟩] } rfl rfl

theorem replyStatus (h : s.Runs t) (f : Frame) (st : Status) : s.Runs (t.replyStatus f st) := h.placeReply _ _ _

theorem arbitrate (h : s.Runs t) : s.Runs t.arbitrate := by
  rw [State.arbitrate_frame]
  have left : s.Runs { t with notices := t.arbitrate.notices } := by
    refine h.notices _ ?_
    unfold State.arbitrate State.chooseNext
    split
    · exact List.Sublist.refl _
    · split
      · exact List.Sublist.refl _
      · next first => rw [first]; exact List.sublist_cons_self _ _
      · exact List.Sublist.refl _
  refine left.line t.arbitrate.link ?_ ?_
  all_goals rw [State.arbitrate_link]

theorem linkError (h : s.Runs t) : s.Runs t.linkError :=
  State.Runs.raise (h.line { t.link with errors := saturate Config.counterMax (t.link.errors + 1) } rfl rfl) _ _ _

theorem discardBatch (h : s.Runs t) : s.Runs t.discardBatch := by
  unfold State.discardBatch
  split
  · exact h
  · exact (h.foldl (fun _ f => refl.replyStatus f .batchDiscarded) _).line _ rfl rfl

theorem skipExecuting (h : s.Runs t) : s.Runs t.skipExecuting :=
  (h.foldl (fun _ f => refl.replyStatus f .skipped) _).line _ rfl rfl

theorem skipQueued (h : s.Runs t) : s.Runs t.skipQueued := by
  unfold State.skipQueued
  split
  · exact (h.skipExecuting.foldl (fun _ f => refl.replyStatus f .skipped) _).queue _ (.inl (Nat.zero_le _))
  · exact h

theorem runRequest (h : s.Runs t) (q : Request) : s.Runs (runRequest q t).1 := by
  by_cases restart : q = .restart
  · subst restart
    exact h.line { t.link with restartPending := true } rfl rfl
  · exact h.work (State.Evolves.refl.runRequest restart)

theorem answerRequest (h : s.Runs t) (r : ReplyTo) (kind : Byte) {run : State → State × Verdict}
    (runs : s.Runs (run t).1) : s.Runs (t.answerRequest r kind run) := by
  unfold State.answerRequest
  split
  · exact h.placeReply _ _ _
  · exact runs.placeReply _ _ _

theorem executeFrame (h : s.Runs t) (f : Frame) : s.Runs (t.executeFrame f).1 := by
  have ran : s.Runs (runPayload f.payload t).1 := by
    unfold runPayload
    split
    · exact h
    · exact h.runRequest _
  exact (ran.placeReply _ _ _).arbitrate

theorem runBatch (h : s.Runs t) (n : Nat) : s.Runs (t.runBatch n) := by
  induction n generalizing t with
  | zero => exact h
  | succ n ih =>
    unfold State.runBatch
    split
    · exact h
    · next f fs _ =>
      have ran := State.Runs.executeFrame (h.line { t.link with executing := fs } rfl rfl) f
      dsimp only
      split
      · exact ih ran
      · exact ran.skipExecuting

theorem goOnWithBatch (h : s.Runs t) : s.Runs t.goOnWithBatch := by
  unfold State.goOnWithBatch
  split
  · exact h.runBatch _
  · split
    · exact h
    · exact (h.pauses _).runBatch _

theorem judgeFresh (h : s.Runs t) (f : Frame) : s.Runs (t.judgeFresh f) := by
  unfold State.judgeFresh
  split
  · split
    · exact h.line _ rfl rfl
    · exact h.executeFrame f
  · exact h.replyStatus _ _

theorem judgeOpen (h : s.Runs t) (b : Batch) (f : Frame) : s.Runs (t.judgeOpen b f) := by
  unfold State.judgeOpen
  split
  · split
    · split
      · exact State.Runs.discardBatch (h.line _ rfl rfl)
      · exact h.line _ rfl rfl
    · exact h.line _ rfl rfl
  · split
    · exact h.discardBatch.judgeFresh f
    · exact h.discardBatch.replyStatus _ _

theorem judgeFrame (h : s.Runs t) (f : Frame) : s.Runs (t.judgeFrame f) := by
  unfold State.judgeFrame
  split
  · exact h.judgeFresh f
  · exact h.judgeOpen _ f

theorem takeFrame (h : s.Runs t) : s.Runs t.takeFrame := by
  unfold State.takeFrame
  split
  · exact h.skipQueued
  · split
    · exact h
    · next f q _ waits =>
      split
      · exact (((h.queue q (.inr (by rw [waits]; exact Nat.le_succ _))).judgeFrame f).goOnWithBatch).skipQueued
      · exact h
    · exact h.goOnWithBatch.skipQueued

theorem batchExpiry (h : s.Runs t) : s.Runs t.batchExpiry := by
  unfold State.batchExpiry
  split
  · exact h
  · exact (h.reach _).discardBatch

theorem setAssembly (h : s.Runs t) (a : Option Assembly) : s.Runs (t.setAssembly a) :=
  h.line { t.link with assembly := a } rfl rfl

theorem offerFrame (h : s.Runs t) (f : Frame) : s.Runs (t.offerFrame f) := by
  unfold State.offerFrame
  split
  · next room =>
    refine (h.queue (t.link.receiveQueue ++ [f]) (.inl ?_)).skipQueued
    rw [List.length_append]
    exact room
  · split
    · exact h.linkError
    · exact h.placeReply _ _ _

theorem checkFrame (h : s.Runs t) (inside checksum : List Byte) : s.Runs (t.checkFrame inside checksum) := by
  unfold State.checkFrame
  split
  · split_ifs
    · exact h.linkError.discardBatch
    · exact h.offerFrame _
    · exact h.linkError
  · exact h

theorem receiveOctet (h : s.Runs t) (octet : Byte) : s.Runs (t.receiveOctet octet) := by
  unfold State.receiveOctet
  split
  · split
    · exact h.setAssembly _
    · exact h
  · unfold State.holdOctet
    dsimp only
    split_ifs
    · exact h.setAssembly _
    · exact (h.setAssembly _).linkError
    · exact h.setAssembly _
    · exact (h.setAssembly _).checkFrame _ _

theorem interOctetExpiry (h : s.Runs t) : s.Runs t.interOctetExpiry := by
  unfold State.interOctetExpiry
  split
  · exact h
  · exact ((h.reach _).setAssembly _).linkError

theorem restart (h : s.Runs t) : s.Runs t.restart := (h.restarts.raiseEvent .station .started).arbitrate

theorem completeFrame (h : s.Runs t) : s.Runs t.completeFrame := by
  unfold State.completeFrame
  split
  · exact h
  · next f _ =>
    have finished : s.Runs (t.finishFrame f) := (h.reach f.due).line _ rfl rfl
    dsimp only
    split
    · exact finished.restart
    · exact finished

theorem restartReset (h : s.Runs t) : s.Runs t.restartReset := by
  unfold State.restartReset
  split
  · exact h
  · split
    · exact h.completeFrame
    · exact h

/-! ## The clock, SILENCE and the hold timers (04, 05, 06) -/

theorem lockClock (h : s.Runs t) : s.Runs t.lockClock := by
  unfold State.lockClock
  dsimp only
  split
  · exact (h.work (State.Evolves.refl.setClock _)).raiseEvent _ _
  · exact h.work (State.Evolves.refl.setClock _)

theorem latchMark (h : s.Runs t) : s.Runs t.latchMark := by
  unfold State.latchMark
  split
  · exact h.work (State.Evolves.refl.setClock _)
  · exact h

theorem takeMark (h : s.Runs t) : s.Runs t.takeMark := by
  unfold State.takeMark
  split
  · have unlatched : s.Runs (t.setClock { t.clock with markLatched := false }) :=
      h.work (State.Evolves.refl.setClock _)
    dsimp only
    split
    · exact (unlatched.work State.Evolves.refl.minuteAdvance).lockClock
    · exact unlatched.lockClock
  · exact h

theorem advanceExpiry (h : s.Runs t) : s.Runs t.advanceExpiry := by
  have advanced : s.Runs (t.reach t.clock.advanceTimer.due).minuteAdvance :=
    (h.reach _).work State.Evolves.refl.minuteAdvance
  unfold State.advanceExpiry State.driftClock
  dsimp only
  split
  · exact (advanced.work (State.Evolves.refl.setClock _)).raiseEvent _ _
  · exact advanced.work (State.Evolves.refl.setClock _)

theorem silenceChannel (h : s.Runs t) (ch : Fin 8) : s.Runs (t.silenceChannel ch) := by
  unfold State.silenceChannel
  dsimp only
  split
  · split
    · split
      · exact h
      · exact h.work (State.Evolves.refl.setChannel ch _)
    · split
      · exact h
      · exact h.work (State.Evolves.refl.setChannel ch _)
    · split
      · exact h
      · exact h.work (State.Evolves.refl.setChannel ch _)
    all_goals exact h
  · exact h

theorem unsilenceChannel (h : s.Runs t) (ch : Fin 8) : s.Runs (t.unsilenceChannel ch) := by
  unfold State.unsilenceChannel
  dsimp only
  split
  · split
    · exact h.work (State.Evolves.refl.consult ch)
    · split
      · exact h.work (State.Evolves.refl.tellEntry ch 1)
      · exact h
    all_goals exact h
  · exact h

theorem assertSilence (s : State) : ({ s with silence := true } : State).Runs s.assertSilence :=
  (refl.raiseEvent .station .silenceOn).foldl (fun _ ch => refl.silenceChannel ch) _

theorem releaseSilence (s : State) : ({ s with silence := false } : State).Runs s.releaseSilence :=
  (refl.raiseEvent .station .silenceOff).foldl (fun _ ch => refl.unsilenceChannel ch) _

theorem holdExpiry (h : s.Runs t) (c : Fin 32) : s.Runs (t.holdExpiry c) := by
  unfold State.holdExpiry
  split
  · exact h
  · exact (h.reach _).work (State.Evolves.refl.holdExceeded c)

/-! ## The events of a Channel Controller (06, 08) -/

theorem riseKeyok (s : State) (ch : Fin 8) : (s.setKeyok ch true).Runs (s.riseKeyok ch) := by
  unfold State.riseKeyok
  dsimp only
  split
  · exact refl.work (State.Evolves.refl.grant ch)
  · exact refl

theorem fallKeyok (s : State) (ch : Fin 8) : (s.setKeyok ch false).Runs (s.fallKeyok ch) := by
  have lost : (s.setKeyok ch false).Evolves ((s.setKeyok ch false).permitLost ch) :=
    (State.Evolves.refl.setChannel ch _).raiseEvent _ _
  unfold State.fallKeyok
  dsimp only
  split
  · split
    · exact refl.work ((lost.stopTurn ch .permit).requestAgain ch)
    · split
      · exact refl.work (lost.requestAgain ch)
      · exact refl.work (lost.release ch)
  · exact refl.work ((lost.stopTurn ch .permit).enterOff ch)
  all_goals exact refl

theorem lockExpiry (h : s.Runs t) (ch : Fin 8) : s.Runs (t.lockExpiry ch) := by
  unfold State.lockExpiry
  split
  · exact h
  · exact (h.reach _).work ((((State.Evolves.refl.setChannel ch _).holdBound ch false).raiseEvent _ _).consult ch)

theorem permitExpiry (h : s.Runs t) (ch : Fin 8) : s.Runs (t.permitExpiry ch) := by
  unfold State.permitExpiry
  split
  · exact h
  · exact (h.reach _).work ((State.Evolves.refl.setChannel ch _).raiseEvent _ _)

theorem retryExpiry (h : s.Runs t) (ch : Fin 8) : s.Runs (t.retryExpiry ch) := by
  unfold State.retryExpiry
  split
  · exact h
  · next timer _ =>
    have stopped : s.Runs ((t.reach timer.due).setChannel ch { (t.reach timer.due).channel ch with retryTimer := none }) :=
      (h.reach _).work (State.Evolves.refl.setChannel ch _)
    dsimp only
    split
    · exact stopped.work (State.Evolves.refl.requestKey ch)
    · exact stopped.work (State.Evolves.refl.setChannel ch _)

/-- The gap timer of a channel runs with the pass that is its turn. -/
theorem concerns_of_gapTimer {ch : Fin 8} {p : PassTurn} {timer : Timer}
    (h : (t.channel ch).gapTimer = some (p, timer)) : State.Evolves.Concerns t ch (.pass p) := by
  intro x turn
  simp only [Channel.gapTimer, turn] at h
  cases kind : x.kind with
  | telex _ => simp [kind] at h
  | pass q =>
    simp only [kind, Option.map_eq_some_iff, Prod.mk.injEq] at h
    obtain ⟨_, -, same, -⟩ := h
    exact same ▸ ⟨fun _ => id, fun _ => id⟩

theorem gapExpiry (h : s.Runs t) (ch : Fin 8) : s.Runs (t.gapExpiry ch) := by
  unfold State.gapExpiry
  split
  · exact h
  · next p timer runs =>
    exact (h.reach timer.due).work (State.Evolves.refl.mapKind (concerns_of_gapTimer (t := t.reach timer.due) runs) _
      (by exact fun _ => ⟨fun _ => id, fun _ => id⟩))

theorem completeSymbol (h : s.Runs t) (ch : Fin 8) : s.Runs (t.completeSymbol ch) := by
  obtain ⟨now, work⟩ := State.Evolves.completeSymbol ch t
  exact (h.time now).work work

end State.Runs

/-! ## The commands -/

/-- The level of an input moves at the event of that input alone. -/
def State.levelled (i : Instr) (s : State) : State :=
  match i with
  | .silenceAssert => { s with silence := true }
  | .silenceRelease => { s with silence := false }
  | .keyokGrant ch => s.setKeyok ch true
  | .permitLoss ch => s.setKeyok ch false
  | _ => s

/-- What a command makes of the state: no more than a level while RESET is held, its work while it is released, the
reset values, or the start from them. -/
inductive State.After (i : Instr) (s : State) : State → Prop
  | held : s.resetHeld = true → After i s (s.levelled i)
  | runs {t : State} : s.resetHeld = false → (s.levelled i).Runs t → After i s t
  | rests : s.levelled i = s → After i s (State.atRest s.keyok s.silence s.pending s.pauses)
  | starts {t : State} : s.levelled i = s → s.resetHeld = true → s.released.Runs t → After i s t

theorem State.setKeyok_self {s : State} {ch : Fin 8} {level : Bool} (h : s.keyokOf ch = level) :
    s.setKeyok ch level = s := by
  unfold State.setKeyok
  rw [← h, State.keyokOf, Vector.set_getElem_self]

theorem event_after {i : Instr} {s : State} {f : State → State} (same : s.levelled i = s)
    (runs : s.Runs (f s)) : ∃ t, event f s = .next t ∧ s.After i t := by
  refine ⟨_, rfl, ?_⟩
  cases held : s.resetHeld with
  | true =>
    have after := State.After.held (i := i) held
    rwa [same] at after
  | false => exact .runs held (same.symm ▸ runs.arbitrate)

theorem request_after {i : Instr} {s : State} (same : s.levelled i = s) (r : ReplyTo) (kind : Byte)
    {run : State → State × Verdict} (runs : s.Runs (run s).1) : ∃ t, request r kind run s = .next t ∧ s.After i t :=
  event_after same (State.Runs.refl.answerRequest r kind runs)

/-- The event of an input: its level alone while RESET is held, nothing where the level is the one it has, its work
otherwise. -/
theorem level_after {i : Instr} {s t : State} {f : State → State} (levelled : s.levelled i = t)
    (runs : t.Runs (f s)) : ∃ u, (if s.resetHeld then .next t else event f s : Answer) = .next u ∧ s.After i u := by
  cases held : s.resetHeld with
  | true => exact ⟨t, rfl, levelled ▸ .held held⟩
  | false =>
    refine ⟨(f s).arbitrate, by simp [event, held], .runs held ?_⟩
    rw [levelled]
    exact runs.arbitrate

theorem exec_silenceAssert_after (s : State) :
    ∃ t, exec .silenceAssert s = .next t ∧ s.After .silenceAssert t := by
  refine level_after rfl ?_
  split
  · next on => rw [show ({ s with silence := true } : State) = s by rw [← on]]; exact .refl
  · exact .assertSilence s

theorem exec_silenceRelease_after (s : State) :
    ∃ t, exec .silenceRelease s = .next t ∧ s.After .silenceRelease t := by
  refine level_after rfl ?_
  split
  · exact .releaseSilence s
  · next off =>
    rw [show ({ s with silence := false } : State) = s by rw [← Bool.eq_false_iff.mpr off]]
    exact .refl

theorem exec_keyokGrant_after (ch : Fin 8) (s : State) :
    ∃ t, exec (.keyokGrant ch) s = .next t ∧ s.After (.keyokGrant ch) t := by
  refine level_after rfl ?_
  split
  · next on => rw [State.setKeyok_self on]; exact .refl
  · exact .riseKeyok s ch

theorem exec_permitLoss_after (ch : Fin 8) (s : State) :
    ∃ t, exec (.permitLoss ch) s = .next t ∧ s.After (.permitLoss ch) t := by
  refine level_after rfl ?_
  split
  · exact .fallKeyok s ch
  · next off => rw [State.setKeyok_self (Bool.eq_false_iff.mpr off)]; exact .refl

theorem exec_restart_after (r : ReplyTo) (s : State) : ∃ t, exec (.restart r) s = .next t ∧ s.After (.restart r) t := by
  have prepared : s.Runs (if s.link.restartPending then s else s.discardBatch) := by
    split
    · exact .refl
    · exact State.Runs.refl.discardBatch
  exact event_after (i := .restart r) (s := s) (f := fun s =>
    ((if s.link.restartPending then s else s.discardBatch).answerRequest r 0x04 restart).skipQueued) rfl
    (prepared.answerRequest r 0x04 (prepared.runRequest .restart)).skipQueued

theorem exec_resetRelease_after (s : State) : ∃ t, exec .resetRelease s = .next t ∧ s.After .resetRelease t := by
  refine ⟨_, rfl, ?_⟩
  cases held : s.resetHeld with
  | true => exact .starts rfl held (State.Runs.refl.raiseEvent .station .started).arbitrate
  | false => exact .runs held .refl

/-- A command that is a request runs that request as one event of its block (10: R173). -/
theorem exec_of_request {i : Instr} {r : ReplyTo} {q : Request} (h : i.request = some (r, q)) (hq : q ≠ .restart)
    (s : State) : exec i s = request r q.kindCode (runRequest q) s := by
  cases i with
  | restart _ => simp only [Instr.request, Option.some.injEq, Prod.mk.injEq] at h; exact absurd h.2.symm hq
  | _ => cases h <;> rfl

theorem exec_request_after {i : Instr} {r : ReplyTo} {q : Request} (h : i.request = some (r, q)) (hq : q ≠ .restart)
    (s : State) : ∃ t, exec i s = .next t ∧ s.After i t := by
  have same : s.levelled i = s := by
    cases i with
    | silenceAssert => cases h
    | silenceRelease => cases h
    | keyokGrant ch => cases h
    | permitLoss ch => cases h
    | _ => rfl
  rw [exec_of_request h hq]
  exact request_after same _ _ (State.Runs.refl.runRequest _)

/-- Every command completes, and what it makes of the state. -/
theorem exec_after (i : Instr) (s : State) : ∃ t, exec i s = .next t ∧ s.After i t := by
  cases i with
  | restart r => exact exec_restart_after r s
  | linkOctetReceived octet => exact event_after (f := fun s => s.receiveOctet octet) rfl (State.Runs.refl.receiveOctet octet)
  | interOctetTimerExpiry => exact event_after rfl State.Runs.refl.interOctetExpiry
  | frameTake => exact event_after rfl State.Runs.refl.takeFrame
  | batchTimerExpiry => exact event_after rfl State.Runs.refl.batchExpiry
  | frameCompletion => exact event_after rfl State.Runs.refl.completeFrame
  | restartReset => exact event_after rfl State.Runs.refl.restartReset
  | resetAssert => exact ⟨_, rfl, .rests rfl⟩
  | resetRelease => exact exec_resetRelease_after s
  | markFallingEdge => exact event_after rfl State.Runs.refl.latchMark
  | markEdgeEvent => exact event_after rfl State.Runs.refl.takeMark
  | advanceTimerExpiry => exact event_after rfl State.Runs.refl.advanceExpiry
  | silenceAssert => exact exec_silenceAssert_after s
  | silenceRelease => exact exec_silenceRelease_after s
  | keyokGrant ch => exact exec_keyokGrant_after ch s
  | permitLoss ch => exact exec_permitLoss_after ch s
  | lockTimerExpiry ch => exact event_after (f := fun s => s.lockExpiry ch) rfl (State.Runs.refl.lockExpiry ch)
  | permitTimerExpiry ch => exact event_after (f := fun s => s.permitExpiry ch) rfl (State.Runs.refl.permitExpiry ch)
  | retryTimerExpiry ch => exact event_after (f := fun s => s.retryExpiry ch) rfl (State.Runs.refl.retryExpiry ch)
  | holdTimerExpiry c => exact event_after (f := fun s => s.holdExpiry c) rfl (State.Runs.refl.holdExpiry c)
  | gapTimerExpiry ch => exact event_after (f := fun s => s.gapExpiry ch) rfl (State.Runs.refl.gapExpiry ch)
  | symbolCompletion ch => exact event_after (f := fun s => s.completeSymbol ch) rfl (State.Runs.refl.completeSymbol ch)
  | _ =>
    exact exec_request_after (by rfl) (by nofun) s

end Sys2Proof.Machine
end

section
/-! PROOFS. The step, and what holds of every command. -/

namespace Sys2Proof.Machine

theorem step_of_pending {s : State} {i : Instr} {rest : List Instr} (h : s.pending = i :: rest) :
    step s = exec i (s.withPending rest) := by
  simp [step, h]

theorem step_of_idle {s : State} (h : s.pending = []) : step s = .next s.tick := by simp [step, h]

/-- Settles O1. -/
theorem stepRunsFrontCommand : Obligations.StepRunsFrontCommand := fun _ _ _ => rfl

theorem State.levelled_keyokOf (i : Instr) (s : State) (ch : Fin 8) : (s.levelled i).keyokOf ch =
    (match i with
      | .keyokGrant j => s.keyokOf ch || decide (j = ch)
      | .permitLoss j => s.keyokOf ch && !decide (j = ch)
      | _ => s.keyokOf ch) := by
  cases i with
  | keyokGrant j =>
    rw [State.levelled, State.keyokOf_setKeyok]
    by_cases same : j = ch <;> simp [same]
  | permitLoss j =>
    rw [State.levelled, State.keyokOf_setKeyok]
    by_cases same : j = ch <;> simp [same]
  | _ => rfl

theorem State.levelled_silence (i : Instr) (s : State) : (s.levelled i).silence =
    (match i with | .silenceAssert => true | .silenceRelease => false | _ => s.silence) := by
  cases i <;> rfl

theorem State.levelled_pending (i : Instr) (s : State) : (s.levelled i).pending = s.pending := by
  cases i <;> rfl

/-! ## The reset values -/

section

variable (keyok : Vector Bool 8) (silence : Bool) (pending : List Instr) (pauses : List Nat)

@[simp] theorem State.atRest_keyok : (State.atRest keyok silence pending pauses).keyok = keyok := rfl
@[simp] theorem State.atRest_silence : (State.atRest keyok silence pending pauses).silence = silence := rfl
@[simp] theorem State.atRest_pending : (State.atRest keyok silence pending pauses).pending = pending := rfl
@[simp] theorem State.atRest_pauses : (State.atRest keyok silence pending pauses).pauses = pauses := rfl

end

/-- The rest law: a part whose RESET is held stands at its reset values, whatever its levels and its commands. -/
theorem State.restLaw_iff (s : State) : s.restLaw ↔
    (s.resetHeld = true → ∃ keyok silence pending pauses, s = State.atRest keyok silence pending pauses) := by
  refine ⟨fun rest held => ⟨_, _, _, _, rest held⟩, fun rest held => ?_⟩
  obtain ⟨keyok, silence, pending, pauses, same⟩ := rest held
  subst same
  simp only [State.atRest_keyok, State.atRest_silence, State.atRest_pending, State.atRest_pauses]

/-- A command leaves the levels as its own event has them, and the waiting commands as they were. -/
theorem State.After.levels {i : Instr} {s t : State} (h : s.After i t) :
    t.keyok = (s.levelled i).keyok ∧ t.silence = (s.levelled i).silence ∧ t.pending = (s.levelled i).pending := by
  cases h with
  | held _ => exact ⟨rfl, rfl, rfl⟩
  | runs _ r => exact r.levels
  | rests same =>
    rw [same]
    exact ⟨State.atRest_keyok _ _ _ _, State.atRest_silence _ _ _ _, State.atRest_pending _ _ _ _⟩
  | starts same _ r => rw [same]; exact r.levels

/-- Settles O2: what a command makes of the state leaves the levels as its own event has them. -/
theorem everyCommandCompletes : Obligations.EveryCommandCompletes := by
  intro i s
  obtain ⟨t, done, after⟩ := exec_after i s
  obtain ⟨keyok, silence, pending⟩ := after.levels
  refine ⟨t, done, pending.trans (s.levelled_pending i), silence.trans (s.levelled_silence i), fun ch => ?_⟩
  rw [State.keyokOf_eq keyok]
  exact s.levelled_keyokOf i ch

/-- Settles O3: the work of the blocks leaves the line, the time and RESET alone. -/
theorem everyRequestIsAnsweredOnce : Obligations.EveryRequestIsAnsweredOnce := by
  intro i r q s isRequest notRestart notHeld
  rw [exec_of_request isRequest notRestart]
  refine ⟨fun restarting => ?_, fun serving => ?_⟩
  · simp [request, event, State.answerRequest, State.replied, notHeld, restarting]
  · have frame := (State.Evolves.refl (s := s)).runRequest notRestart |>.frame
    exact ⟨request_of_serves ⟨notHeld, serving⟩ r _ _, frame.link, frame.now, frame.pending, frame.resetHeld⟩

/-! ## What every step keeps -/

/-- What holds of the stores and the notices through the work of the blocks, and holds at rest, holds after every
command. -/
theorem State.After.keeps {P : State → Prop} (work : ∀ t u : State, P t → t.Evolves u → P u)
    (same : ∀ t u : State, P t → u.store = t.store → u.bulletins = t.bulletins → u.circuits = t.circuits →
      u.channels = t.channels → u.notices.Sublist t.notices → P u)
    (rest : ∀ keyok silence pending pauses, P (State.atRest keyok silence pending pauses)) {i : Instr} {s t : State}
    (h : s.After i t) (hs : P s) : P t := by
  have levelled : P (s.levelled i) := by
    cases i with
    | silenceAssert => exact same _ _ hs rfl rfl rfl rfl (List.Sublist.refl _)
    | silenceRelease => exact same _ _ hs rfl rfl rfl rfl (List.Sublist.refl _)
    | keyokGrant ch => exact same _ _ hs rfl rfl rfl rfl (List.Sublist.refl _)
    | permitLoss ch => exact same _ _ hs rfl rfl rfl rfl (List.Sublist.refl _)
    | _ => exact hs
  cases h with
  | held _ => exact levelled
  | runs _ r => exact r.keeps work same rest levelled
  | rests _ => exact rest _ _ _ _
  | starts _ _ r => exact r.keeps work same rest (same s _ hs rfl rfl rfl rfl (List.Sublist.refl _))

theorem step_after {s t : State} (h : step s = .next t) :
    t = s.tick ∨ ∃ i rest, s.pending = i :: rest ∧ (s.withPending rest).After i t := by
  cases pending : s.pending with
  | nil =>
    rw [step_of_idle pending] at h
    cases h
    exact .inl rfl
  | cons i rest =>
    obtain ⟨u, done, after⟩ := exec_after i (s.withPending rest)
    rw [step_of_pending pending, done] at h
    cases h
    exact .inr ⟨i, rest, rfl, after⟩

theorem step_keeps {P : State → Prop} (work : ∀ t u : State, P t → t.Evolves u → P u)
    (same : ∀ t u : State, P t → u.store = t.store → u.bulletins = t.bulletins → u.circuits = t.circuits →
      u.channels = t.channels → u.notices.Sublist t.notices → P u)
    (rest : ∀ keyok silence pending pauses, P (State.atRest keyok silence pending pauses)) {s t : State}
    (h : step s = .next t) (hs : P s) : P t := by
  rcases step_after h with ticked | ⟨i, rest', -, after⟩
  · subst ticked
    unfold State.tick
    split
    · exact hs
    · exact same s _ hs rfl rfl rfl rfl (List.Sublist.refl _)
  · exact after.keeps work same rest (same s _ hs rfl rfl rfl rfl (List.Sublist.refl _))

/-! ## The cells and the notices -/

theorem State.Lands.same {t u : State} {c : Fin 32} (h : t.Lands c u) :
    u.store = t.store ∧ u.bulletins = t.bulletins ∧ u.circuits = t.circuits ∧ u.notices = t.notices := by
  rcases h with ⟨same, -⟩ | ⟨ch, -, cleared⟩
  · exact same ▸ ⟨rfl, rfl, rfl, rfl⟩
  · exact cleared ▸ ⟨rfl, rfl, rfl, rfl⟩

theorem State.Evolves.cellsLaw {s t : State} (h : s.Evolves t) (hs : s.cellsLaw) : t.cellsLaw := by
  induction h with
  | refl => exact hs
  | cells m _ wf ih => exact wf ih
  | moves _ _ _ _ lands _ ih => exact (congrArg (fun x : TextStore => x.cells.wf = true) lands.same.1).mpr ih
  | closes _ _ lands _ _ ih => exact (congrArg (fun x : TextStore => x.cells.wf = true) lands.same.1).mpr ih
  | _ => next ih => exact ih

/-- Settles O53: the cells are written by `Memory.write` alone, which keeps their form. -/
theorem cellsStayCanonical : Obligations.CellsStayCanonical := fun _ _ law stepped =>
  step_keeps (P := State.cellsLaw) (fun _ _ law work => work.cellsLaw law)
    (fun _ _ law store _ _ _ _ => (congrArg (fun x : TextStore => x.cells.wf = true) store).mpr law) (fun _ _ _ _ => rfl)
    stepped law

theorem State.noticeLaw_congr {t u : State} (same : u.notices = t.notices) (h : t.noticeLaw) : u.noticeLaw := by
  rw [State.noticeLaw, same]
  exact h

theorem State.Evolves.noticeLaw {s t : State} (h : s.Evolves t) (hs : s.noticeLaw) : t.noticeLaw := by
  induction h with
  | refl => exact hs
  | raise k e a _ ih => exact raiseInto_nodup ih k e a
  | moves _ _ _ _ lands _ ih =>
    exact State.noticeLaw_congr lands.same.2.2.2 ih
  | closes _ _ lands _ _ ih =>
    exact State.noticeLaw_congr lands.same.2.2.2 ih
  | _ => next ih => exact ih

/-! ## The line -/

/-- The law of a released line. -/
def Link.lawful (l : Link) : Prop := l.receiveQueue.length ≤ 16 ∧ l.linkReady = decide (l.receiveQueue.length ≤ 14)

theorem State.Runs.lawful {s t : State} (h : s.Runs t) (hs : s.link.lawful) : t.link.lawful := by
  induction h with
  | refl => exact hs
  | work _ e ih => rw [e.frame.link]; exact ih
  | line l _ queue ready ih => rw [Link.lawful, State.setLink_link, queue, ready]; exact ih
  | queue q _ short ih =>
    refine ⟨?_, rfl⟩
    obtain ⟨limit, -⟩ := ih
    rcases short with short | short
    · exact short
    · exact short.trans limit
  | restarts _ _ => exact ⟨Nat.zero_le _, rfl⟩
  | _ => next ih => exact ih

theorem State.linkLaw_of_released {s : State} (h : s.resetHeld = false) : s.linkLaw ↔ s.link.lawful := by
  unfold State.linkLaw
  rw [h]
  exact Iff.rfl

theorem State.levelled_link (i : Instr) (s : State) :
    (s.levelled i).link = s.link ∧ (s.levelled i).resetHeld = s.resetHeld := by
  cases i <;> exact ⟨rfl, rfl⟩

theorem State.After.linkLaw {i : Instr} {s t : State} (h : s.After i t) (hs : s.linkLaw) : t.linkLaw := by
  obtain ⟨link, reset⟩ := s.levelled_link i
  cases h with
  | held _ => unfold State.linkLaw; rw [link, reset]; exact hs
  | runs released r =>
    rw [State.linkLaw_of_released (r.resetHeld (reset.trans released))]
    rw [State.linkLaw_of_released released] at hs
    exact r.lawful (link.symm ▸ hs)
  | rests _ => exact ⟨rfl, rfl, rfl⟩
  | starts _ held r =>
    rw [State.linkLaw_of_released (r.resetHeld rfl)]
    unfold State.linkLaw at hs
    rw [held, if_pos rfl] at hs
    obtain ⟨empty, -, -⟩ := hs
    exact r.lawful (by rw [Link.lawful, State.released, empty]; exact ⟨Nat.zero_le _, rfl⟩)

/-- Settles O54. -/
theorem noticeAndLinkLawsStay : Obligations.NoticeAndLinkLawsStay := by
  intro s t notices line stepped
  constructor
  · exact step_keeps (P := State.noticeLaw) (fun _ _ law work => work.noticeLaw law)
      (fun _ _ law _ _ _ _ fewer => law.sublist (fewer.map _)) (fun _ _ _ _ => List.nodup_nil) stepped notices
  · rcases step_after stepped with ticked | ⟨i, rest, -, after⟩
    · subst ticked
      unfold State.tick
      split <;> exact line
    · exact after.linkLaw line

/-! ## Keying, the air and the rest -/

theorem State.restLaw_levelled {s : State} (h : s.restLaw) (i : Instr) : (s.levelled i).restLaw := by
  rw [State.restLaw_iff] at h ⊢
  rw [(s.levelled_link i).2]
  intro held
  obtain ⟨keyok, silence, pending, pauses, same⟩ := h held
  subst same
  cases i with
  | silenceAssert => exact ⟨keyok, true, pending, pauses, rfl⟩
  | silenceRelease => exact ⟨keyok, false, pending, pauses, rfl⟩
  | keyokGrant ch => exact ⟨keyok.set ch.val true, silence, pending, pauses, rfl⟩
  | permitLoss ch => exact ⟨keyok.set ch.val false, silence, pending, pauses, rfl⟩
  | _ => exact ⟨keyok, silence, pending, pauses, rfl⟩

theorem State.restLaw_withPending {s : State} (h : s.restLaw) (later : List Instr) : (s.withPending later).restLaw := by
  rw [State.restLaw_iff] at h ⊢
  intro held
  obtain ⟨keyok, silence, pending, pauses, same⟩ := h held
  subst same
  exact ⟨keyok, silence, later, pauses, rfl⟩

theorem State.restLaw_of_released {s : State} (h : s.resetHeld = false) : s.restLaw := fun held => by
  rw [h] at held
  cases held

theorem State.After.restLaw {i : Instr} {s t : State} (h : s.After i t) (hs : s.restLaw) : t.restLaw := by
  cases h with
  | held _ => exact State.restLaw_levelled hs i
  | runs released r => exact State.restLaw_of_released (r.resetHeld ((s.levelled_link i).2.trans released))
  | rests _ => exact (State.restLaw_iff _).mpr fun _ => ⟨_, _, _, _, rfl⟩
  | starts _ _ r => exact State.restLaw_of_released (r.resetHeld rfl)

/-- The event of an input keeps both laws where its work does; while RESET is held the part stays at rest. -/
theorem level_good {s t : State} {f : State → State} (good : s.Good) (rest : s.resetHeld = true → t.Good)
    (work : (f s).Good) : ∃ u, (if s.resetHeld then .next t else event f s : Answer) = .next u ∧ u.Good := by
  split
  · next held => exact ⟨t, rfl, rest held⟩
  · exact event_good good fun _ => work

theorem State.good_of_rest {s : State} (rest : s.restLaw) (held : s.resetHeld = true) (keyok : Vector Bool 8)
    (silence : Bool) : ({ s with keyok := keyok, silence := silence } : State).Good := by
  obtain ⟨_, _, pending, pauses, same⟩ := (State.restLaw_iff s).mp rest held
  subst same
  exact atRest_good keyok silence pending pauses

theorem lockClock_good {s : State} (h : s.Good) : s.lockClock.Good := by
  unfold State.lockClock
  dsimp only
  split <;> exact good_of_same h rfl rfl rfl

theorem takeMark_good {s : State} (h : s.Good) : s.takeMark.Good := by
  have unlatched : (s.setClock { s.clock with markLatched := false }).Good := good_of_same h rfl rfl rfl
  unfold State.takeMark
  split
  · dsimp only
    split
    · exact lockClock_good (unlatched.settles State.Settles.refl.minuteAdvance)
    · exact lockClock_good unlatched
  · exact h

theorem advanceExpiry_good {s : State} (h : s.Good) : s.advanceExpiry.Good := by
  have reached : (s.reach s.clock.advanceTimer.due).Good := good_of_same h rfl rfl rfl
  have advanced := reached.settles State.Settles.refl.minuteAdvance
  unfold State.advanceExpiry
  generalize (s.reach s.clock.advanceTimer.due).minuteAdvance = t at advanced ⊢
  unfold State.driftClock
  dsimp only
  split <;> exact good_of_same advanced rfl rfl rfl

theorem latchMark_good {s : State} (h : s.Good) : s.latchMark.Good := by
  unfold State.latchMark
  split
  · exact good_of_same h rfl rfl rfl
  · exact h

theorem holdExpiry_good {s : State} (h : s.Good) (c : Fin 32) : (s.holdExpiry c).Good := by
  unfold State.holdExpiry
  split
  · exact h
  · exact good_of_same h rfl rfl rfl

theorem batchExpiry_good {s : State} (h : s.Good) : s.batchExpiry.Good := by
  unfold State.batchExpiry
  split
  · exact h
  · exact discardBatch_good (good_of_same h rfl rfl rfl)

theorem interOctetExpiry_good {s : State} (h : s.Good) : s.interOctetExpiry.Good := by
  unfold State.interOctetExpiry
  split
  · exact h
  · exact linkError_good (good_of_same h rfl rfl rfl)

theorem restartReset_good {s : State} (h : s.Good) : s.restartReset.Good := by
  unfold State.restartReset
  split
  · exact h
  · split
    · exact completeFrame_good h
    · exact h

theorem assertSilence_good {s : State} (h : s.Good) : s.assertSilence.Good :=
  foldl_good (fun _ ch good => silenceChannel_good good ch) _ (good_of_same h rfl rfl rfl)

theorem releaseSilence_good {s : State} (h : s.Good) : s.releaseSilence.Good :=
  foldl_good (fun r ch good => good.settles (settles_unsilenceChannel r ch)) _ (good_of_same h rfl rfl rfl)

theorem answerRequest_good {s : State} (h : s.Good) (r : ReplyTo) (kind : Byte) {run : State → State × Verdict}
    (ran : (run s).1.Good) : (s.answerRequest r kind run).Good := by
  unfold State.answerRequest
  split
  · exact good_of_same h rfl rfl rfl
  · exact good_of_same ran rfl rfl rfl

theorem exec_restart_good {s : State} (h : s.Good) (r : ReplyTo) : ∃ t, exec (.restart r) s = .next t ∧ t.Good := by
  have prepared : (if s.link.restartPending then s else s.discardBatch).Good := by
    split
    · exact h
    · exact discardBatch_good h
  refine event_good (f := fun s =>
    ((if s.link.restartPending then s else s.discardBatch).answerRequest r 0x04 restart).skipQueued) h fun _ => ?_
  exact skipQueued_good (answerRequest_good prepared r 0x04 (restart_good prepared))

/-- Every command keeps the keying law and the on-air law. -/
theorem exec_good {s : State} (h : s.Good) (rest : s.restLaw) (i : Instr) : ∃ t, exec i s = .next t ∧ t.Good := by
  cases i with
  | restart r => exact exec_restart_good h r
  | linkOctetReceived octet => exact event_good (f := fun s => s.receiveOctet octet) h fun _ => receiveOctet_good h octet
  | interOctetTimerExpiry => exact event_good h fun _ => interOctetExpiry_good h
  | frameTake => exact event_good h fun _ => takeFrame_good h
  | batchTimerExpiry => exact event_good h fun _ => batchExpiry_good h
  | frameCompletion => exact event_good h fun _ => completeFrame_good h
  | restartReset => exact event_good h fun _ => restartReset_good h
  | resetAssert => exact ⟨_, rfl, atRest_good _ _ _ _⟩
  | resetRelease =>
    refine ⟨_, rfl, ?_⟩
    split
    · exact start_good h
    · exact h
  | markFallingEdge => exact event_good h fun _ => latchMark_good h
  | markEdgeEvent => exact event_good h fun _ => takeMark_good h
  | advanceTimerExpiry => exact event_good h fun _ => advanceExpiry_good h
  | silenceAssert =>
    refine level_good h (fun held => State.good_of_rest rest held s.keyok true) ?_
    split
    · exact h
    · exact assertSilence_good h
  | silenceRelease =>
    refine level_good h (fun held => State.good_of_rest rest held s.keyok false) ?_
    split
    · exact releaseSilence_good h
    · exact h
  | keyokGrant ch =>
    refine level_good h (fun held => State.good_of_rest rest held (s.keyok.set ch.val true) s.silence) ?_
    split
    · exact h
    · exact riseKeyok_good h ch
  | permitLoss ch =>
    refine level_good h (fun held => State.good_of_rest rest held (s.keyok.set ch.val false) s.silence) ?_
    split
    · exact fallKeyok_good h ch
    · exact h
  | lockTimerExpiry ch => exact event_good (f := fun s => s.lockExpiry ch) h fun _ => lockExpiry_good h ch
  | permitTimerExpiry ch => exact event_good (f := fun s => s.permitExpiry ch) h fun _ => permitExpiry_good h ch
  | retryTimerExpiry ch => exact event_good (f := fun s => s.retryExpiry ch) h fun _ => retryExpiry_good h ch
  | holdTimerExpiry c => exact event_good (f := fun s => s.holdExpiry c) h fun _ => holdExpiry_good h c
  | gapTimerExpiry ch => exact event_good (f := fun s => s.gapExpiry ch) h fun _ => gapExpiry_good h ch
  | symbolCompletion ch => exact event_good (f := fun s => s.completeSymbol ch) h fun _ => State.completeSymbol_good h
  | _ =>
    rw [exec_of_request (by rfl) (by nofun)]
    exact request_good h _ _ (runRequest_good h _)

/-! ## The queues -/

theorem Channel.queueLaw_of_same {x y : Channel} (queue : y.queue = x.queue) (turn : y.turn = x.turn) (h : x.queueLaw) :
    y.queueLaw := by
  rw [Channel.queueLaw, queue]
  simp only [Channel.carriesPass, turn]
  exact h

theorem Channel.Lightens.queueLaw {x y : Channel} (l : x.Lightens y) (h : x.queueLaw) : y.queueLaw := by
  obtain ⟨once, apart, sorted⟩ := h
  refine ⟨once.sublist (l.queue.map _), fun e mem => ?_, sorted.sublist (l.queue.map _)⟩
  have off := apart e (l.queue.subset mem)
  exact Bool.eq_false_iff.mpr fun on => by rw [l.passes _ on] at off; cases off

theorem insertAtTail_perm (q : List Entry) (e : Entry) : (insertAtTail q e).Perm (e :: q) := by
  unfold insertAtTail
  refine List.perm_middle.trans (List.Perm.cons e ?_)
  rw [List.takeWhile_append_dropWhile]

theorem insertAtHead_perm (q : List Entry) (e : Entry) : (insertAtHead q e).Perm (e :: q) := by
  unfold insertAtHead
  refine List.perm_middle.trans (List.Perm.cons e ?_)
  rw [List.takeWhile_append_dropWhile]

/-- An entry joins the queue for a bulletin that has neither an entry in it nor a pass on the channel afterwards. -/
theorem Channel.queueLaw_of_joined {x y : Channel} {e : Entry} (h : x.queueLaw)
    (fresh : x.holdsEntry e.bulletin = false ∨ x.carriesPass e.bulletin = true)
    (passes : ∀ n, y.carriesPass n = true → x.carriesPass n = true) (off : y.carriesPass e.bulletin = false)
    (put : y.queue = insertAtTail x.queue e ∨ y.queue = insertAtHead x.queue e) : y.queueLaw := by
  obtain ⟨once, apart, sorted⟩ := h
  have perm : y.queue.Perm (e :: x.queue) := by
    rcases put with put | put
    · exact put ▸ insertAtTail_perm _ _
    · exact put ▸ insertAtHead_perm _ _
  have new : e.bulletin ∉ x.queue.map fun e => e.bulletin := by
    rw [List.mem_map]
    rintro ⟨z, mem, same⟩
    rcases fresh with fresh | carries
    · exact List.any_eq_false.mp fresh z mem (by simpa using same)
    · have := apart z mem
      rw [same, carries] at this
      cases this
  refine ⟨((perm.map _).nodup_iff).mpr (List.nodup_cons.mpr ⟨new, once⟩), fun z mem => ?_, ?_⟩
  · rcases List.mem_cons.mp (perm.mem_iff.mp mem) with same | mem
    · exact same ▸ off
    · have before := apart z mem
      exact Bool.eq_false_iff.mpr fun on => by rw [passes _ on] at before; cases before
  · rcases put with put | put
    · exact put ▸ insertAtTail_sorted e sorted
    · exact put ▸ insertAtHead_sorted e sorted

/-- The entry whose pass begins leaves the queue. -/
theorem Channel.queueLaw_of_taken {x y : Channel} {n : Fin 64} (h : x.queueLaw)
    (queue : y.queue = x.queue.eraseP fun e => e.bulletin = n) (only : ∀ i, y.carriesPass i = true → i = n) :
    y.queueLaw := by
  obtain ⟨once, apart, sorted⟩ := h
  have sub : y.queue.Sublist x.queue := queue ▸ List.eraseP_sublist
  have gone : ∀ e ∈ y.queue, e.bulletin ≠ n := by
    rw [queue]
    clear apart sorted sub queue
    generalize x.queue = q at once
    induction q with
    | nil => simp
    | cons a q ih =>
      rw [List.map_cons, List.nodup_cons] at once
      obtain ⟨first, later⟩ := once
      by_cases same : a.bulletin = n
      · rw [List.eraseP_cons_of_pos (by simpa using same)]
        intro e mem other
        exact first (List.mem_map.mpr ⟨e, mem, other.trans same.symm⟩)
      · rw [List.eraseP_cons_of_neg (by simpa using same)]
        intro e mem
        rcases List.mem_cons.mp mem with rfl | mem
        · exact same
        · exact ih later e mem
  refine ⟨once.sublist (sub.map _), fun e mem => ?_, sorted.sublist (sub.map _)⟩
  exact Bool.eq_false_iff.mpr fun on => gone e mem (only _ on)

theorem State.queueLaw_setChannel {s : State} {ch : Fin 8} {x : Channel} (h : s.queueLaw) (hx : x.queueLaw) :
    (s.setChannel ch x).queueLaw := by
  intro i
  rw [State.channel_setChannel]
  split
  · exact hx
  · exact h i

theorem State.Lands.queueLaw {t u : State} {c : Fin 32} (h : t.Lands c u) (law : t.queueLaw) : u.queueLaw := by
  rcases h with ⟨same, -⟩ | ⟨ch, -, cleared⟩
  · exact same ▸ law
  · exact cleared ▸ State.queueLaw_setChannel law
      (Channel.Lightens.queueLaw (x := t.channel ch) (.of_no_turn rfl rfl rfl) (law ch))

theorem State.queueLaw_unbind {s : State} (h : s.queueLaw) (c : Fin 32) : (s.unbind c).queueLaw :=
  State.queueLaw_setChannel h (Channel.queueLaw_of_same (x := s.channel (s.circuit c).channel) rfl rfl (h _))

theorem State.queueLaw_bindTail {s : State} (h : s.queueLaw) (ch : Fin 8) (c : Fin 32) : (s.bindTail ch c).queueLaw :=
  State.queueLaw_setChannel h (Channel.queueLaw_of_same (x := s.channel ch) rfl rfl (h ch))

theorem State.Evolves.queueLaw {s t : State} (h : s.Evolves t) (hs : s.queueLaw) : t.queueLaw := by
  induction h with
  | refl => exact hs
  | channel ch x _ light ih => exact State.queueLaw_setChannel ih (light.queueLaw (ih ch))
  | entry ch x e _ fresh light off put ih =>
    exact State.queueLaw_setChannel ih (Channel.queueLaw_of_joined (ih ch) fresh
      (fun n on => light.passes n on) off put)
  | pass ch x n _ queue _ only _ ih => exact State.queueLaw_setChannel ih (Channel.queueLaw_of_taken (ih ch) queue only)
  | telex ch x c _ _ queue _ passes _ ih =>
    refine State.queueLaw_setChannel ih ⟨queue ▸ (ih ch).1, fun e _ => passes _, queue ▸ (ih ch).2.2⟩
  | opens c ch isOn callUp _ _ ih => exact State.queueLaw_bindTail ih ch c
  | moves c target hold _ lands _ ih =>
    exact State.queueLaw_bindTail (State.queueLaw_unbind (lands.queueLaw ih) c) target c
  | closes c _ lands _ _ ih => exact State.queueLaw_unbind (lands.queueLaw ih) c
  | _ => next ih => exact ih

theorem State.queueLaw_congr {t u : State} (channels : u.channels = t.channels) (h : t.queueLaw) : u.queueLaw := by
  intro ch
  rw [State.channel, channels]
  exact h ch

theorem State.queueLaw_atRest (keyok : Vector Bool 8) (silence : Bool) (pending : List Instr) (pauses : List Nat) :
    (State.atRest keyok silence pending pauses).queueLaw :=
  State.queueLaw_congr (t := State.reset) rfl Tests.witness_keying_laws.2.2.2.2

/-- Settles O55. -/
theorem keyingAndOnAirLawsStay : Obligations.KeyingAndOnAirLawsStay := by
  intro s t rest keying onAir stepped
  have queues : s.queueLaw → t.queueLaw := step_keeps (fun _ _ law work => work.queueLaw law)
    (fun _ _ law _ _ _ channels _ => State.queueLaw_congr channels law) State.queueLaw_atRest stepped
  suffices t.restLaw ∧ t.Good by
    obtain ⟨resting, ⟨keying, onAir⟩⟩ := this
    exact ⟨resting, keying, onAir, queues⟩
  have good : s.Good := ⟨keying, onAir⟩
  cases pending : s.pending with
  | nil =>
    rw [step_of_idle pending] at stepped
    cases stepped
    unfold State.tick
    split
    · exact ⟨rest, good⟩
    · next released => exact ⟨fun held => absurd held released, good_of_same good rfl rfl rfl⟩
  | cons i later =>
    have waiting := State.restLaw_withPending rest later
    obtain ⟨u, done, lawful⟩ := exec_good (s := s.withPending later) (good_of_same good rfl rfl rfl) waiting i
    obtain ⟨v, done', after⟩ := exec_after i (s.withPending later)
    rw [step_of_pending pending] at stepped
    rw [done] at stepped done'
    cases stepped
    cases done'
    exact ⟨after.restLaw waiting, lawful⟩

end Sys2Proof.Machine
end

section
/-! PROOFS. The blocks of the Text Store and the circuits: every block stays in one place, and a circuit in the bound list
of its own channel. -/

namespace Sys2Proof.Machine

/-! ## Counting the blocks -/

theorem count_flatMap_set {α : Type} (f : α → List BlockNo) (b : BlockNo) :
    ∀ (l : List α) (i : Nat) (x : α) (h : i < l.length),
      ((l.set i x).flatMap f).count b + (f l[i]).count b = (l.flatMap f).count b + (f x).count b
  | a :: l, 0, x, _ => by
    simp only [List.set_cons_zero, List.flatMap_cons, List.count_append, List.getElem_cons_zero]
    omega
  | a :: l, i + 1, x, h => by
    have ih := count_flatMap_set f b l i x (Nat.lt_of_succ_lt_succ h)
    simp only [List.set_cons_succ, List.flatMap_cons, List.count_append, List.getElem_cons_succ]
    omega

theorem State.count_allBlocks (s : State) (b : BlockNo) : s.allBlocks.count b =
    s.store.free.count b + (s.bulletins.toList.flatMap entryBlocks).count b +
      (s.circuits.toList.flatMap fun x => x.chain.blocks).count b := by
  rw [State.allBlocks, List.count_append, List.count_append]
  rfl

theorem State.count_bulletins_set (s : State) (n : Fin 64) (x : Option Bulletin) (b : BlockNo) :
    ((s.setBulletin n x).bulletins.toList.flatMap entryBlocks).count b + (entryBlocks (s.bulletin n)).count b =
      (s.bulletins.toList.flatMap entryBlocks).count b + (entryBlocks x).count b := by
  have one := count_flatMap_set entryBlocks b s.bulletins.toList n.val x (by simp)
  rw [← Vector.toList_set, Vector.getElem_toList] at one
  exacts [one, n.isLt]

theorem State.count_circuits_set (s : State) (c : Fin 32) (x : Circuit) (b : BlockNo) :
    ((s.setCircuit c x).circuits.toList.flatMap fun x => x.chain.blocks).count b + (s.circuit c).chain.blocks.count b =
      (s.circuits.toList.flatMap fun x => x.chain.blocks).count b + x.chain.blocks.count b := by
  have one := count_flatMap_set (fun x : Circuit => x.chain.blocks) b s.circuits.toList c.val x (by simp)
  rw [← Vector.toList_set, Vector.getElem_toList] at one
  exacts [one, c.isLt]

/-- A write to a circuit that leaves its blocks together with the free list. -/
theorem State.count_setCircuit {t u : State} {c : Fin 32} {x : Circuit} (bulletins : u.bulletins = t.bulletins)
    (circuits : u.circuits = t.circuits)
    (all : (u.store.free ++ x.chain.blocks).Perm (t.store.free ++ (t.circuit c).chain.blocks)) (b : BlockNo) :
    (u.setCircuit c x).allBlocks.count b = t.allBlocks.count b := by
  have moved := all.count_eq b
  have one := u.count_circuits_set c x b
  have same : u.circuit c = t.circuit c := by rw [State.circuit, State.circuit, circuits]
  rw [circuits, same] at one
  simp only [List.count_append] at moved
  rw [State.count_allBlocks, State.count_allBlocks]
  simp only [State.setCircuit_store, State.setCircuit_bulletins, bulletins]
  omega

/-! ## The form of the chains and the blocks -/

theorem State.chainLaw_setCircuit {s : State} {c : Fin 32} {x : Circuit} (h : s.chainLaw) (law : x.chain.law)
    (free : x.life = .free → x.chain.blocks = []) : (s.setCircuit c x).chainLaw := by
  intro d
  rw [State.circuit_setCircuit]
  split
  · exact ⟨law, free⟩
  · exact h d

theorem State.chainLaw_congr {t u : State} (circuits : u.circuits = t.circuits) (h : t.chainLaw) : u.chainLaw := by
  intro c
  rw [State.circuit, circuits]
  exact h c

theorem State.allBlocks_congr {t u : State} (store : u.store = t.store) (bulletins : u.bulletins = t.bulletins)
    (circuits : u.circuits = t.circuits) : u.allBlocks = t.allBlocks := by
  rw [State.allBlocks, store, bulletins, circuits, State.allBlocks]

/-- The work of the blocks keeps the form of the chains, and moves blocks between the free list, the maps and the
chains. -/
theorem State.Evolves.blocks {s t : State} (h : s.Evolves t) (hs : s.chainLaw) :
    t.chainLaw ∧ ∀ b, t.allBlocks.count b = s.allBlocks.count b := by
  induction h with
  | refl => exact ⟨hs, fun _ => rfl⟩
  | bulletin n x free _ all ih =>
    next t _ =>
    obtain ⟨chains, counts⟩ := ih
    refine ⟨chains, fun b => ?_⟩
    have moved := all.count_eq b
    have one := (t.setStore { t.store with free := free }).count_bulletins_set n x b
    have before := counts b
    simp only [List.count_append] at moved
    rw [State.count_allBlocks] at before ⊢
    simp only [State.setBulletin_store, State.setBulletin_circuits, State.setStore_store, State.setStore_circuits,
      State.setStore_bulletin, State.setStore_bulletins] at one ⊢
    omega
  | circuit c x free _ _ life _ law empty _ all ih =>
    obtain ⟨chains, counts⟩ := ih
    obtain ⟨lawful, none⟩ := chains c
    refine ⟨State.chainLaw_setCircuit (State.chainLaw_congr rfl chains) (law lawful)
      fun free => empty free (none (life.mp free)), fun b => ?_⟩
    rw [← counts b]
    exact State.count_setCircuit (by rfl) (by rfl) all b
  | opens c ch isOn callUp _ free ih =>
    next t _ =>
    obtain ⟨chains, counts⟩ := ih
    refine ⟨State.chainLaw_setCircuit (State.chainLaw_congr rfl chains) Chain.law_empty nofun, fun b => ?_⟩
    rw [← counts b]
    refine State.count_setCircuit (t := t) (u := t.bindTail ch c) rfl rfl ?_ b
    rw [(chains c).2 free]
    exact .refl _
  | moves c target hold _ lands _ ih =>
    obtain ⟨chains, counts⟩ := ih
    obtain ⟨store, bulletins, circuits, -⟩ := lands.same
    refine ⟨State.chainLaw_setCircuit (State.chainLaw_congr circuits chains) (chains c).1 (chains c).2, fun b => ?_⟩
    rw [← counts b]
    refine State.count_setCircuit bulletins circuits ?_ b
    exact (congrArg (fun x : TextStore => x.free ++ _) store) ▸ .refl _
  | closes c _ lands _ empty ih =>
    obtain ⟨chains, counts⟩ := ih
    obtain ⟨store, bulletins, circuits, -⟩ := lands.same
    refine ⟨State.chainLaw_setCircuit (State.chainLaw_congr circuits chains) Chain.law_empty fun _ => rfl, fun b => ?_⟩
    rw [← counts b]
    refine State.count_setCircuit bulletins circuits ?_ b
    rw [Chain.blocks_of_count_zero (chains c).1 empty]
    exact (congrArg (fun x : TextStore => x.free ++ _) store) ▸ .refl _
  | _ => next ih => exact ih

/-- Settles O56. -/
theorem blockOwnershipStays : Obligations.BlockOwnershipStays := by
  intro s t chains blocks stepped
  refine step_keeps (P := fun s => s.chainLaw ∧ s.blockLaw) ?_ ?_ ?_ stepped ⟨chains, blocks⟩
  · intro t u ⟨chains, blocks⟩ work
    obtain ⟨chains, counts⟩ := work.blocks chains
    exact ⟨chains, fun b => (counts b).trans (blocks b)⟩
  · intro t u ⟨chains, blocks⟩ store bulletins circuits _ _
    exact ⟨State.chainLaw_congr circuits chains,
      fun b => (congrArg (List.count b) (State.allBlocks_congr store bulletins circuits)).trans (blocks b)⟩
  · intro keyok silence pending pauses
    obtain ⟨chains, blocks⟩ := Tests.witness_block_laws
    exact ⟨State.chainLaw_congr (t := State.reset) rfl chains, fun b =>
      (congrArg (List.count b) (State.allBlocks_congr (t := State.reset) rfl rfl rfl)).trans (blocks b)⟩

/-! ## The circuits -/

theorem State.unbind_bound (s : State) (c d : Fin 32) (j : Fin 8) : ((s.unbind c).channel j).bound.count d =
    (s.channel j).bound.count d - if d = c ∧ (s.circuit c).channel = j then 1 else 0 := by
  rw [State.unbind, State.channel_setChannel]
  split
  · next own =>
    subst own
    rw [List.count_erase]
    by_cases same : d = c
    · subst same
      simp
    · simp [same, Ne.symm same]
  · next other => simp [other]

theorem State.bindTail_bound (s : State) (ch : Fin 8) (c d : Fin 32) (j : Fin 8) :
    ((s.bindTail ch c).channel j).bound.count d =
      (s.channel j).bound.count d + if d = c ∧ ch = j then 1 else 0 := by
  rw [State.bindTail, State.channel_setChannel]
  split
  · next own =>
    subst own
    by_cases same : d = c
    · subst same
      simp
    · simp [same, Ne.symm same]
  · next other => simp [other]

theorem Channel.carriesCircuit_congr {x y : Channel} (h : y.turn = x.turn) (c : Fin 32) :
    y.carriesCircuit c = x.carriesCircuit c := by
  rw [Channel.carriesCircuit, h, Channel.carriesCircuit]

theorem State.unbind_carries (s : State) (c d : Fin 32) (j : Fin 8) :
    ((s.unbind c).channel j).carriesCircuit d = (s.channel j).carriesCircuit d := by
  rw [State.unbind, State.channel_setChannel]
  split
  · next own => exact own ▸ rfl
  · rfl

theorem State.bindTail_carries (s : State) (ch : Fin 8) (c d : Fin 32) (j : Fin 8) :
    ((s.bindTail ch c).channel j).carriesCircuit d = (s.channel j).carriesCircuit d := by
  rw [State.bindTail, State.channel_setChannel]
  split
  · next own => exact own ▸ rfl
  · rfl

/-- The binding law on one circuit. -/
def State.bindsCircuit (s : State) (c : Fin 32) : Prop := ∀ ch : Fin 8,
  (s.channel ch).bound.count c = (if (s.circuit c).life ≠ .free ∧ (s.circuit c).channel = ch then 1 else 0) ∧
  ((s.channel ch).carriesCircuit c = true → (s.circuit c).life ≠ .free ∧ (s.circuit c).channel = ch)

theorem State.bindingLaw_iff (s : State) : s.bindingLaw ↔ ∀ c, s.bindsCircuit c := Iff.rfl

/-- A write to a channel that keeps its bound list and takes no circuit on. -/
theorem State.bindingLaw_setChannel {s : State} {ch : Fin 8} {x : Channel} (h : s.bindingLaw)
    (bound : x.bound = (s.channel ch).bound) (fewer : ∀ c, x.carriesCircuit c = true →
      (s.circuit c).life ≠ .free ∧ (s.circuit c).channel = ch) : (s.setChannel ch x).bindingLaw := by
  intro c j
  rw [State.setChannel_circuit, State.channel_setChannel]
  split
  · next own =>
    subst own
    rw [bound]
    exact ⟨(h c ch).1, fewer c⟩
  · exact h c j

theorem State.Lands.bindingLaw {t u : State} {c : Fin 32} (lands : t.Lands c u) (h : t.bindingLaw) : u.bindingLaw := by
  rcases lands with ⟨same, -⟩ | ⟨ch, -, cleared⟩
  · exact same ▸ h
  · exact cleared ▸ State.bindingLaw_setChannel h rfl nofun

/-- A circuit that has landed is the turn of no channel. -/
theorem State.Lands.off {t u : State} {c : Fin 32} (lands : t.Lands c u) (h : t.bindingLaw) (j : Fin 8) :
    (u.channel j).carriesCircuit c = false := by
  rw [Bool.eq_false_iff]
  intro carries
  rcases lands with ⟨same, off⟩ | ⟨ch, own, cleared⟩
  · subst same
    obtain ⟨-, here⟩ := (h c j).2 carries
    rw [State.onAir, here, carries] at off
    cases off
  · subst cleared
    rw [State.clearTurn, State.channel_setChannel] at carries
    split at carries
    · cases carries
    · next other => exact other (((h c ch).2 own).2.symm.trans ((h c j).2 carries).2)

/-- A circuit that is the turn of no channel and in no bound list of `s` is written anew, and joins the list of its
channel unless it is FREE. -/
theorem State.bindingLaw_rebound {s t : State} {c : Fin 32} {x : Circuit} (h : ∀ d, d ≠ c → s.bindsCircuit d)
    (circuits : t.circuits = s.circuits)
    (bound : ∀ d j, (t.channel j).bound.count d =
      if d = c then (if x.life ≠ .free ∧ x.channel = j then 1 else 0) else (s.channel j).bound.count d)
    (carries : ∀ d j, (t.channel j).carriesCircuit d = (s.channel j).carriesCircuit d)
    (off : ∀ j, (s.channel j).carriesCircuit c = false) : (t.setCircuit c x).bindingLaw := by
  intro d j
  have same : t.circuit d = s.circuit d := by rw [State.circuit, circuits, State.circuit]
  rw [State.setCircuit_channel, State.circuit_setCircuit, bound, carries]
  by_cases own : c = d
  · subst own
    rw [if_pos rfl, if_pos rfl]
    exact ⟨rfl, fun on => by rw [off j] at on; cases on⟩
  · rw [if_neg own, if_neg (Ne.symm own), same]
    exact h d (Ne.symm own) j

theorem State.Lands.circuit {t u : State} {c : Fin 32} (lands : t.Lands c u) (d : Fin 32) : u.circuit d = t.circuit d := by
  rw [State.circuit, lands.same.2.2.1, State.circuit]

/-- The work of the blocks keeps the binding law, given the law of the FREE records. -/
theorem State.Evolves.circuits {s t : State} (h : s.Evolves t) (hs : s.freeLaw ∧ s.bindingLaw) :
    t.freeLaw ∧ t.bindingLaw := by
  induction h with
  | refl => exact hs
  | circuit c x free _ channel life move _ _ _ _ ih =>
    obtain ⟨pending, binding⟩ := ih
    refine ⟨fun d => ?_, fun d j => ?_⟩
    · rw [State.circuit_setCircuit]
      split
      · next own => exact fun isFree => move isFree (pending c (life.mp isFree))
      · exact pending d
    · rw [State.circuit_setCircuit]
      split
      · next own =>
        subst own
        simp only [channel, ne_eq, life]
        exact binding c j
      · exact binding d j
  | channel ch x _ light ih =>
    obtain ⟨pending, binding⟩ := ih
    exact ⟨pending, State.bindingLaw_setChannel binding light.bound fun c on => (binding c ch).2 (light.circuits c on)⟩
  | entry ch x e _ _ light _ _ ih =>
    obtain ⟨pending, binding⟩ := ih
    exact ⟨pending, State.bindingLaw_setChannel binding light.bound fun c on => (binding c ch).2 (light.circuits c on)⟩
  | pass ch x n _ _ bound _ none ih =>
    obtain ⟨pending, binding⟩ := ih
    refine ⟨pending, State.bindingLaw_setChannel binding bound fun c on => ?_⟩
    rw [none c] at on
    cases on
  | telex ch x c _ member _ bound _ only ih =>
    obtain ⟨pending, binding⟩ := ih
    refine ⟨pending, State.bindingLaw_setChannel binding bound fun d on => ?_⟩
    have own := only d on
    subst own
    have listed := (binding d ch).1
    rw [← List.count_pos_iff, listed] at member
    by_contra other
    rw [if_neg other] at member
    exact absurd member (Nat.lt_irrefl 0)
  | opens c ch isOn callUp _ isFree ih =>
    next t _ =>
    obtain ⟨pending, binding⟩ := ih
    refine ⟨fun d => ?_, State.bindingLaw_rebound (s := t) (fun d _ => binding d) rfl (fun d j => ?_)
      (fun d j => State.bindTail_carries t ch c d j) fun j => ?_⟩
    · rw [State.circuit_setCircuit]
      split
      · exact nofun
      · exact pending d
    · rw [State.bindTail_bound]
      by_cases own : d = c
      · subst own
        rw [(binding d j).1]
        simp [isFree, opened]
      · simp [own]
    · exact Bool.eq_false_iff.mpr fun on => ((binding c j).2 on).1 isFree
  | moves c target hold _ lands taken ih =>
    next t u _ =>
    obtain ⟨pending, binding⟩ := ih
    have landed := lands.bindingLaw binding
    have life : (t.circuit c).life ≠ .free := fun isFree => by
      rcases taken with notFree | move
      · exact notFree isFree
      · exact move (pending c isFree)
    refine ⟨fun d => ?_, State.bindingLaw_rebound (s := u) (fun d _ => landed d) rfl (fun d j => ?_) (fun d j => ?_)
      (lands.off binding)⟩
    · rw [State.circuit_setCircuit]
      split
      · exact fun _ => rfl
      · exact (lands.circuit d).symm ▸ pending d
    · rw [State.bindTail_bound, State.unbind_bound]
      by_cases own : d = c
      · subst own
        rw [(landed d j).1, lands.circuit]
        simp only [life, ne_eq, not_false_eq_true, true_and, if_true]
        omega
      · simp [own]
    · rw [State.bindTail_carries, State.unbind_carries]
  | closes c _ lands life _ ih =>
    next t u _ _ =>
    obtain ⟨pending, binding⟩ := ih
    have landed := lands.bindingLaw binding
    refine ⟨fun d => ?_, State.bindingLaw_rebound (s := u) (fun d _ => landed d) rfl (fun d j => ?_)
      (fun d j => State.unbind_carries u c d j) (lands.off binding)⟩
    · rw [State.unbound, State.circuit_setCircuit]
      split
      · exact fun _ => rfl
      · exact (lands.circuit d).symm ▸ pending d
    · rw [State.unbind_bound]
      by_cases own : d = c
      · subst own
        rw [(landed d j).1, lands.circuit]
        simp only [life, ne_eq, not_false_eq_true, true_and]
        simp [Circuit.freed, Circuit.reset]
      · simp [own]
  | _ => next ih => exact ih

theorem State.queueLimitLaw_setCircuit {s t : State} {c : Fin 32} {x : Circuit} (h : s.queueLimitLaw)
    (circuits : t.circuits = s.circuits) (limit : x.count ≤ 512) : (t.setCircuit c x).queueLimitLaw := by
  intro d
  rw [State.circuit_setCircuit]
  split
  · exact limit
  · rw [State.circuit, circuits]
    exact h d

theorem State.Evolves.queueLimitLaw {s t : State} (h : s.Evolves t) (hs : s.queueLimitLaw) : t.queueLimitLaw := by
  induction h with
  | refl => exact hs
  | circuit c x free _ _ _ _ _ _ limit _ ih => exact State.queueLimitLaw_setCircuit ih rfl (limit (ih c))
  | opens c ch isOn callUp _ _ ih => exact State.queueLimitLaw_setCircuit ih rfl (Nat.zero_le _)
  | moves c target hold _ lands _ ih => exact State.queueLimitLaw_setCircuit ih lands.same.2.2.1 (ih c)
  | closes c _ lands _ _ ih => exact State.queueLimitLaw_setCircuit ih lands.same.2.2.1 (Nat.zero_le _)
  | _ => next ih => exact ih

/-- Settles O57. -/
theorem circuitLawsStay : Obligations.CircuitLawsStay := by
  intro s t limit free binding stepped
  constructor
  · refine step_keeps (P := State.queueLimitLaw) (fun _ _ law work => work.queueLimitLaw law) ?_ ?_ stepped limit
    · intro t u law _ _ circuits _ _ c
      rw [State.circuit, circuits]
      exact law c
    · intro _ _ _ _ c
      exact Tests.witness_laws.2.2.2.2 c
  · refine step_keeps (P := fun s => s.freeLaw ∧ s.bindingLaw) (fun _ _ law work => work.circuits law) ?_ ?_ stepped
      ⟨free, binding⟩
    · intro t u ⟨free, binding⟩ _ _ circuits channels _
      refine ⟨fun c => ?_, fun c ch => ?_⟩
      · rw [State.circuit, circuits]
        exact free c
      · rw [State.circuit, State.channel, circuits, channels]
        exact binding c ch
    · obtain ⟨-, -, free, binding, -⟩ := Tests.witness_keying_laws
      exact fun _ _ _ _ => ⟨free, binding⟩

/-- Settles O58: the reset values meet every law. -/
theorem resetMeetsTheLaws : Obligations.ResetMeetsTheLaws := by
  obtain ⟨cells, notices, line, rest, limit⟩ := Tests.witness_laws
  obtain ⟨keying, onAir, free, binding, queues⟩ := Tests.witness_keying_laws
  obtain ⟨chains, blocks⟩ := Tests.witness_block_laws
  exact ⟨cells, notices, line, rest, keying, onAir, limit, chains, blocks, free, binding, queues⟩

end Sys2Proof.Machine
end

section
/-! PROOFS. The numbers and the states that a request is refused for, and what a refused request leaves: the state as it
was. -/

namespace Sys2Proof.Machine

/-! ## The number a request names (06: R91; 05: R70; 02: R19) -/

theorem channelNumber_val (field : Nat) (ch : Fin 8) : channelNumber field ch = .ok ch := by
  simp [channelNumber]

theorem channelNumber_of_le {n : Nat} (field : Nat) (h : 8 ≤ n) : channelNumber field n = .error (.range field) := by
  simp [channelNumber, Nat.not_lt.mpr h]

theorem circuitNumber_val (c : Fin 32) : circuitNumber c = .ok c := by simp [circuitNumber]

theorem circuitNumber_of_le {n : Nat} (h : 32 ≤ n) : circuitNumber n = .error (.range 0) := by
  simp [circuitNumber, Nat.not_lt.mpr h]

theorem entryNumber_zero : entryNumber 0 = .error (.fail .nullEntry) := rfl

theorem entryNumber_of_le {n : Nat} (h : 64 ≤ n) : entryNumber n = .error (.range 0) := by
  have nonzero : n ≠ 0 := by omega
  simp [entryNumber, nonzero, Nat.not_lt.mpr h]

theorem onChannel_val (ch : Fin 8) (f : State → Fin 8 → State × Verdict) (s : State) : onChannel ch f s = f s ch := by
  rw [onChannel, channelNumber_val]

theorem onCircuit_val (c : Fin 32) (f : State → Fin 32 → State × Verdict) (s : State) : onCircuit c f s = f s c := by
  rw [onCircuit, circuitNumber_val]

theorem onCircuit_of_error {n : Nat} {v : Verdict} (h : circuitNumber n = .error v)
    (f : State → Fin 32 → State × Verdict) (s : State) : onCircuit n f s = (s, v) := by
  rw [onCircuit, h]

theorem onBulletin_of_error {n : Nat} {v : Verdict} (h : entryNumber n = .error v)
    (f : State → Fin 64 → Bulletin → State × Verdict) (s : State) : onBulletin n f s = (s, v) := by
  rw [onBulletin, State.presentEntry, h]

/-- A request that names a bulletin by a bad number fails on it. -/
theorem runRequest_of_bad_entry {n : Nat} {v : Verdict} (h : entryNumber n = .error v) (s : State)
    (ser cat len : Nat) (f : ScheduleFields) (tgt : Nat) (b : Option Nat) (chars : List Byte) (off cnt : Nat) :
    ∀ q ∈ [Request.bulletinText n tgt b chars, .amendBulletin n f, .releaseBulletin n, .withdrawBulletin n,
        .clearMarks n, .readText n tgt off cnt, .stageRevision n len, .commitRevision n, .discardRevision n] ++
        [Request.declareBulletin n ser cat len f, .readBulletin n], runRequest q s = (s, v) := by
  simp only [List.cons_append, List.nil_append, List.forall_mem_cons, List.not_mem_nil, false_imp_iff, implies_true,
    and_true]
  refine ⟨?_, ?_, ?_, ?_, ?_, ?_, ?_, ?_, ?_, ?_, ?_⟩
  · rw [runRequest, bulletinText, onBulletin_of_error h]
  · rw [runRequest, amendBulletin, onBulletin_of_error h]
  · rw [runRequest, releaseBulletin, onBulletin_of_error h]
  · rw [runRequest, withdrawBulletin, onBulletin_of_error h]
  · rw [runRequest, clearMarks, onBulletin_of_error h]
  · rw [runRequest, readText, onBulletin_of_error h]
  · rw [runRequest, stageRevision, onBulletin_of_error h]
  · rw [runRequest, commitRevision, onBulletin_of_error h]
  · rw [runRequest, discardRevision, onBulletin_of_error h]
  · rw [runRequest, declareBulletin, h]
  · rw [runRequest, readBulletin, reads, h]

/-- Settles O5, one kind of number after another. -/
theorem numbersAreCheckedFirst : Obligations.NumbersAreCheckedFirst := by
  intro s n
  refine ⟨fun high f mode => ?_, fun high k chars => ?_, fun ser cat len f tgt b chars off cnt => ⟨?_, ?_, ?_⟩⟩
  · have bad := channelNumber_of_le 0 high
    simp only [List.forall_mem_cons, List.not_mem_nil, false_imp_iff, implies_true, and_true]
    refine ⟨?_, ?_, ?_, ?_⟩
    · rw [runRequest, setProfile, bad]; rfl
    · rw [runRequest, channelOn, bad]; rfl
    · rw [runRequest, channelOff, onChannel, bad]; rfl
    · rw [runRequest, readChannel, reads, bad]; rfl
  · have bad := circuitNumber_of_le high
    simp only [List.forall_mem_cons, List.not_mem_nil, false_imp_iff, implies_true, and_true]
    refine ⟨?_, ?_, ?_, ?_, ?_, ?_⟩
    · rw [runRequest, openCircuit, onCircuit_of_error bad]; rfl
    · rw [runRequest, circuitText, onCircuit_of_error bad]; rfl
    · rw [runRequest, holdCircuit, onCircuit_of_error bad]; rfl
    · rw [runRequest, moveCircuit, onCircuit_of_error bad]; rfl
    · rw [runRequest, closeCircuit, onCircuit_of_error bad]; rfl
    · rw [runRequest, readCircuit, reads, bad]; rfl
  · intro zero
    subst zero
    exact runRequest_of_bad_entry entryNumber_zero s ser cat len f tgt b chars off cnt
  · exact fun high => runRequest_of_bad_entry (entryNumber_of_le high) s ser cat len f tgt b chars off cnt
  · intro i same nonzero empty
    subst same
    have nonzero : i ≠ 0 := fun zero => nonzero (by rw [zero]; rfl)
    refine ⟨?_, ?_⟩
    · simp only [List.forall_mem_cons, List.not_mem_nil, false_imp_iff, implies_true, and_true]
      refine ⟨?_, ?_, ?_, ?_, ?_, ?_, ?_, ?_, ?_⟩
      · rw [runRequest, bulletinText, onBulletin_of_none _ nonzero empty]; rfl
      · rw [runRequest, amendBulletin, onBulletin_of_none _ nonzero empty]; rfl
      · rw [runRequest, releaseBulletin, onBulletin_of_none _ nonzero empty]; rfl
      · rw [runRequest, withdrawBulletin, onBulletin_of_none _ nonzero empty]; rfl
      · rw [runRequest, clearMarks, onBulletin_of_none _ nonzero empty]; rfl
      · rw [runRequest, readText, onBulletin_of_none _ nonzero empty]; rfl
      · rw [runRequest, stageRevision, onBulletin_of_none _ nonzero empty]; rfl
      · rw [runRequest, commitRevision, onBulletin_of_none _ nonzero empty]; rfl
      · rw [runRequest, discardRevision, onBulletin_of_none _ nonzero empty]; rfl
    · rw [runRequest, readBulletin, reads, entryNumber_of_ne_zero nonzero]
      simp only [empty]
      rfl

/-! ## The states in which requests are refused -/

theorem Channel.profileWritable_iff (x : Channel) : x.profileWritable = true ↔ x.state ∈ [.unset, .off] := by
  simp [Channel.profileWritable]

section

variable (s : State)

theorem setProfile_of_unwritable {ch : Fin 8} (h : (s.channel ch).state ∉ [.unset, .off]) (f : ProfileFields) :
    setProfile ch f s = (s, .fail .state) := by
  rw [← Channel.profileWritable_iff] at h
  simp [setProfile, channelNumber_val, h]

theorem channelOn_of_not_off {ch : Fin 8} (h : (s.channel ch).state ≠ .off) : channelOn ch s = (s, .fail .state) := by
  simp [channelOn, channelNumber_val, h]

theorem offGraceful_of_refused {ch : Fin 8} (h : (s.channel ch).state ∈ [.unset, .off, .stopping]) :
    s.offGraceful ch = (s, .fail .state) := by
  simp only [List.mem_cons, List.not_mem_nil, or_false] at h
  rcases h with h | h | h <;> simp [State.offGraceful, h]

theorem offAbort_of_refused {ch : Fin 8} (h : (s.channel ch).state ∈ [.unset, .off]) :
    s.offAbort ch = (s, .fail .state) := by
  simp only [List.mem_cons, List.not_mem_nil, or_false] at h
  rcases h with h | h <;> simp [State.offAbort, h]

theorem channelOff_graceful (ch : Fin 8) : channelOff ch 0 s = s.offGraceful ch := by
  rw [channelOff, onChannel_val, if_pos rfl]

theorem channelOff_abort (ch : Fin 8) : channelOff ch 1 s = s.offAbort ch := by
  rw [channelOff, onChannel_val, if_neg (by decide), if_pos rfl]

theorem openCircuit_of_bound {c : Fin 32} (h : (s.circuit c).life ≠ .free) (ch : Nat) (callUp : List Byte) :
    openCircuit c ch callUp s = (s, .fail .state) := by
  rw [openCircuit, onCircuit_val, if_pos h]

theorem circuitText_of_not_bound {c : Fin 32} (h : (s.circuit c).life ≠ .bound) (chars : List Byte) :
    circuitText c chars s = (s, .fail .state) := by
  rw [circuitText, onCircuit_val, if_pos h]

theorem holdCircuit_of_free {c : Fin 32} (h : (s.circuit c).life = .free) (k : Nat) :
    holdCircuit c k s = (s, .fail .state) := by
  rw [holdCircuit, onCircuit_val, if_pos h]

theorem Circuit.immovable_iff (x : Circuit) :
    x.immovable = true ↔ x.life = .free ∨ (x.life = .closing ∧ x.drainPending = false) := by
  simp [Circuit.immovable]

theorem moveCircuit_of_immovable {c : Fin 32} (h : (s.circuit c).immovable = true) (k : Nat) :
    moveCircuit c k s = (s, .fail .state) := by
  rw [moveCircuit, onCircuit_val, if_pos h]

theorem closeCircuit_of_refused {c : Fin 32} {k : Nat} (h : (s.circuit c).life = .free ∨
    ((s.circuit c).life = .closing ∧ ¬ ((s.circuit c).drainPending = true ∧ k = 1))) :
    closeCircuit c k s = (s, .fail .state) := by
  rw [closeCircuit, onCircuit_val]
  dsimp only
  rcases h with free | ⟨closing, refused⟩
  · rw [if_pos free]
  · rw [if_neg (by simp [closing]), if_pos]
    by_cases drain : (s.circuit c).drainPending = true
    · simpa [closing, drain] using refused
    · simp [closing, drain]

variable {s} {n : Fin 64} {b : Bulletin} (nonzero : n ≠ 0) (present : s.bulletin n = some b)

include nonzero present

theorem declareBulletin_of_present (ser cat len : Nat) (f : ScheduleFields) :
    declareBulletin n ser cat len f s = (s, .fail .state) := by
  rw [declareBulletin, entryNumber_of_ne_zero nonzero]
  simp [present]

theorem bulletinText_of_withdrawing (h : b.state = .withdrawing) (tgt : Nat) (p : Option Nat) (chars : List Byte) :
    bulletinText n tgt p chars s = (s, .fail .state) := by
  rw [bulletinText, onBulletin_of_some _ nonzero present, if_pos h]

theorem amendBulletin_of_withdrawing (h : b.state = .withdrawing) (f : ScheduleFields) :
    amendBulletin n f s = (s, .fail .state) := by
  rw [amendBulletin, onBulletin_of_some _ nonzero present, if_pos h]

theorem withdrawBulletin_of_withdrawing (h : b.state = .withdrawing) :
    withdrawBulletin n s = (s, .fail .state) := by
  rw [withdrawBulletin, onBulletin_of_some _ nonzero present, if_pos h]

theorem releaseBulletin_of_not_composing (h : b.state ≠ .composing) : releaseBulletin n s = (s, .fail .state) := by
  rw [releaseBulletin, onBulletin_of_some _ nonzero present, if_neg h]

theorem stageRevision_of_refused (h : b.state ≠ .released ∨ b.staged.isSome = true) (len : Nat) :
    stageRevision n len s = (s, .fail .state) := by
  rw [stageRevision, onBulletin_of_some _ nonzero present]
  split
  · rfl
  · next released => rw [if_pos (h.resolve_left released)]

theorem discardRevision_of_refused (h : b.state ≠ .released ∨ b.staged = none) :
    discardRevision n s = (s, .fail .state) := by
  rw [discardRevision, onBulletin_of_some _ nonzero present]
  split
  · next released staged => simp [released, staged] at h
  · rfl

theorem commitRevision_of_refused (h : b.state ≠ .released ∨ b.staged = none ∨ b.commitPending = true) :
    commitRevision n s = (s, .fail .state) := by
  rw [commitRevision, onBulletin_of_some _ nonzero present]
  split
  · next released staged =>
    have pending : b.commitPending = true := by simpa [released, staged] using h
    rw [if_pos pending]
  · rfl

theorem stagedText_of_refused (h : b.state ≠ .released ∨ b.staged = none ∨ b.commitPending = true) (p : Option Nat)
    (chars : List Byte) : bulletinText n 1 p chars s = (s, .fail .state) := by
  rw [bulletinText, onBulletin_of_some _ nonzero present]
  split
  · rfl
  · rw [if_neg (by decide), if_pos rfl, State.stagedText]
    split
    · next released staged =>
      have pending : b.commitPending = true := by simpa [released, staged] using h
      rw [if_pos pending]
    · rfl

end

/-- Settles O6, from one lemma for each refusal. -/
theorem wrongStateIsRefused : Obligations.WrongStateIsRefused := by
  intro s
  refine ⟨fun ch f unwritable => setProfile_of_unwritable s unwritable f, fun ch notOff => channelOn_of_not_off s notOff,
    fun ch off mode low => ?_, fun ch stopping => ?_, fun c ch callUp bound => openCircuit_of_bound s bound ch callUp,
    fun c chars notBound => circuitText_of_not_bound s notBound chars, fun c k free => ?_, fun c closing => ?_,
    fun c closing purge => ⟨?_, fun k => ?_⟩, fun n b nonzero present => ⟨?_, ?_, ?_, ?_, ?_, ?_⟩⟩
  · rcases Nat.le_one_iff_eq_zero_or_eq_one.mp low with mode | mode
    · subst mode
      refine (channelOff_graceful s ch).trans (offGraceful_of_refused s ?_)
      simp only [List.mem_cons, List.not_mem_nil, or_false] at off ⊢
      exact off.imp_right .inl
    · subst mode
      exact (channelOff_abort s ch).trans (offAbort_of_refused s off)
  · exact (channelOff_graceful s ch).trans (offGraceful_of_refused s (by simp [stopping]))
  · simp only [List.forall_mem_cons, List.not_mem_nil, false_imp_iff, implies_true, and_true]
    exact ⟨holdCircuit_of_free s free k,
      moveCircuit_of_immovable s ((Circuit.immovable_iff _).mpr (.inl free)) k, closeCircuit_of_refused s (.inl free)⟩
  · exact closeCircuit_of_refused s (.inr ⟨closing, by simp⟩)
  · exact closeCircuit_of_refused s (.inr ⟨closing, by simp [purge]⟩)
  · exact moveCircuit_of_immovable s ((Circuit.immovable_iff _).mpr (.inr ⟨closing, purge⟩)) k
  · exact fun ser cat len f => declareBulletin_of_present nonzero present ser cat len f
  · intro withdrawing tgt f p chars
    simp only [List.forall_mem_cons, List.not_mem_nil, false_imp_iff, implies_true, and_true]
    exact ⟨bulletinText_of_withdrawing nonzero present withdrawing tgt p chars,
      amendBulletin_of_withdrawing nonzero present withdrawing f,
      withdrawBulletin_of_withdrawing nonzero present withdrawing⟩
  · exact fun notComposing => releaseBulletin_of_not_composing nonzero present notComposing
  · exact fun refused len => stageRevision_of_refused nonzero present refused len
  · exact fun refused => discardRevision_of_refused nonzero present refused
  · exact fun refused => ⟨commitRevision_of_refused nonzero present refused,
      fun p chars => stagedText_of_refused nonzero present refused p chars⟩

/-! ## A refused request (02: R19; 05: R79) -/

/-- Where the verdict is neither OK nor PARTIAL, the state is as it was. -/
def State.Spared (s : State) (r : State × Verdict) : Prop :=
  r.2.status ≠ .ok → r.2.status ≠ .partialText → r.1 = s

namespace State.Spared

variable {s : State}

theorem same (v : Verdict) : s.Spared (s, v) := fun _ _ => rfl

theorem done {r : State × Verdict} (h : r.2.status = .ok := by rfl) : s.Spared r := fun notOk => absurd h notOk

theorem onChannel (number : Nat) {f : State → Fin 8 → State × Verdict} (hf : ∀ ch, s.Spared (f s ch)) :
    s.Spared (onChannel number f s) := by
  unfold Machine.onChannel
  split
  · exact same _
  · exact hf _

theorem onCircuit (number : Nat) {f : State → Fin 32 → State × Verdict} (hf : ∀ c, s.Spared (f s c)) :
    s.Spared (onCircuit number f s) := by
  unfold Machine.onCircuit
  split
  · exact same _
  · exact hf _

theorem onBulletin (number : Nat) {f : State → Fin 64 → Bulletin → State × Verdict} (hf : ∀ n b, s.Spared (f s n b)) :
    s.Spared (onBulletin number f s) := by
  unfold Machine.onBulletin
  split
  · exact same _
  · exact hf _ _

theorem setStation (f : StationFields) : s.Spared (setStation f s) := by
  unfold Machine.setStation
  split
  · exact same _
  · split_ifs
    · exact same _
    · exact same _
    · exact same _
    · exact done

theorem setClock (minute : Nat) : s.Spared (Machine.setClock minute s) := by
  unfold Machine.setClock
  split
  · exact done
  · exact same _

theorem setProfile (channel : Nat) (f : ProfileFields) : s.Spared (setProfile channel f s) := by
  unfold Machine.setProfile
  split
  · exact same _
  · split
    · exact same _
    · split
      · exact same _
      · exact done

theorem channelOn (channel : Nat) : s.Spared (channelOn channel s) := by
  unfold Machine.channelOn
  split
  · exact same _
  · dsimp only
    split
    · exact done
    · exact same _

theorem offGraceful (ch : Fin 8) : s.Spared (s.offGraceful ch) := by
  unfold State.offGraceful
  dsimp only
  split
  case h_8 => split <;> exact done
  all_goals first | exact same _ | exact done

theorem offAbort (ch : Fin 8) : s.Spared (s.offAbort ch) := by
  unfold State.offAbort
  split
  all_goals first | exact same _ | exact done

theorem channelOff (channel mode : Nat) : s.Spared (channelOff channel mode s) := by
  refine onChannel channel fun ch => ?_
  split_ifs
  · exact offGraceful ch
  · exact offAbort ch
  · exact same _

theorem openCircuit (circuit channel : Nat) (callUp : List Byte) : s.Spared (openCircuit circuit channel callUp s) := by
  refine onCircuit circuit fun c => ?_
  split
  · exact same _
  · split
    · exact same _
    · split_ifs
      · exact same _
      · exact same _
      · exact same _
      · exact done

theorem holdCircuit (circuit setting : Nat) : s.Spared (holdCircuit circuit setting s) := by
  refine onCircuit circuit fun c => ?_
  split_ifs
  · exact same _
  · exact done
  · exact done
  · exact same _

theorem moveCircuit (circuit target : Nat) : s.Spared (moveCircuit circuit target s) := by
  refine onCircuit circuit fun c => ?_
  split
  · exact same _
  · split
    · exact same _
    · split_ifs
      · exact same _
      · exact done
      · exact done

theorem closeCircuit (circuit mode : Nat) : s.Spared (closeCircuit circuit mode s) := by
  refine onCircuit circuit fun c => ?_
  dsimp only
  split_ifs
  · exact same _
  · exact same _
  · exact done
  · exact done
  · exact same _

theorem claim (length : Nat) (n : Fin 64) (f : TextMap → Bulletin) : s.Spared (s.claim length n f) := by
  unfold State.claim
  split
  · exact done
  · exact same _

theorem declareBulletin (number serial category length : Nat) (f : ScheduleFields) :
    s.Spared (declareBulletin number serial category length f s) := by
  unfold Machine.declareBulletin
  split
  · exact same _
  · split
    · exact same _
    · split
      · exact same _
      · split
        · exact same _
        · split
          · exact same _
          · split
            · exact same _
            · exact claim _ _ _

theorem writeText (n : Fin 64) (m : TextMap) (how : Manner) (block : Option Nat) (chars : List Byte)
    (put : TextMap → Bulletin) : s.Spared (s.writeText n m how block chars put) := by
  unfold State.writeText
  split
  · exact same _
  · split
    · exact same _
    · dsimp only
      unfold storedVerdict
      split
      · exact done
      · exact fun _ notPartial => absurd rfl notPartial

theorem bulletinText (number target : Nat) (block : Option Nat) (chars : List Byte) :
    s.Spared (Machine.bulletinText number target block chars s) := by
  refine onBulletin number fun n b => ?_
  split_ifs
  · exact same _
  · unfold State.currentText
    split
    · exact same _
    · exact writeText _ _ _ _ _ _
    · exact writeText _ _ _ _ _ _
  · unfold State.stagedText
    split
    · split
      · exact same _
      · exact writeText _ _ _ _ _ _
    · exact same _
  · exact same _

theorem testAndForce (n : Fin 64) (b : Bulletin) (g : Schedule) : s.Spared (s.testAndForce n b g) := by
  unfold State.testAndForce
  split
  · exact same _
  · exact done

theorem amendBulletin (number : Nat) (f : ScheduleFields) : s.Spared (amendBulletin number f s) := by
  refine onBulletin number fun n b => ?_
  split
  · exact same _
  · split
    · exact same _
    · split
      · exact done
      · exact testAndForce _ _ _

theorem releaseBulletin (number : Nat) : s.Spared (releaseBulletin number s) := by
  refine onBulletin number fun n b => ?_
  split
  · exact testAndForce _ _ _
  · exact same _

theorem withdrawBulletin (number : Nat) : s.Spared (withdrawBulletin number s) := by
  refine onBulletin number fun n b => ?_
  split
  · exact same _
  · exact done

theorem stageRevision (number length : Nat) : s.Spared (stageRevision number length s) := by
  refine onBulletin number fun n b => ?_
  split_ifs
  · exact same _
  · exact same _
  · exact same _
  · exact claim _ _ _

theorem commitRevision (number : Nat) : s.Spared (commitRevision number s) := by
  refine onBulletin number fun n b => ?_
  split
  · split_ifs
    · exact same _
    · exact same _
    · exact same _
    · exact done
    · exact done
  · exact same _

theorem discardRevision (number : Nat) : s.Spared (discardRevision number s) := by
  refine onBulletin number fun n b => ?_
  split
  · exact done
  · exact same _

end State.Spared

/-! ## The arrival that finds no room -/

/-- An arrival that stores nothing has changed nothing. -/
theorem storeArrival_of_none_stored {cs : List Byte} {k : Chain} {t : TextStore} (h : (storeArrival cs k t).2.2.1 = 0) :
    (storeArrival cs k t).1 = k ∧ (storeArrival cs k t).2.1 = t := by
  cases cs with
  | nil => exact ⟨rfl, rfl⟩
  | cons c cs =>
    unfold storeArrival at h ⊢
    split at h
    · next full => rw [if_pos full]; exact ⟨rfl, rfl⟩
    · next room =>
      rw [if_neg room]
      split at h
      · next wants =>
        rw [if_pos wants]
        split at h
        · exact ⟨rfl, rfl⟩
        · exact absurd h (Nat.succ_ne_zero _)
      · exact absurd h (Nat.succ_ne_zero _)

theorem State.setFlow_self (s : State) (c : Fin 32) : s.setFlow c (s.circuit c).flow = s := by
  unfold State.setFlow
  rw [if_neg fun h => h.2 h.1]
  exact s.setCircuit_circuit c

/-- An arrival fails where it stores nothing: at the queue limit, and where no block is free, when it pauses for STORE. -/
theorem State.arrive_of_refused {s : State} {c : Fin 32} {chars : List Byte} (notOk : (s.arrive c chars).2.status ≠ .ok)
    (notPartial : (s.arrive c chars).2.status ≠ .partialText) : (s.arrive c chars).1 = s ∨
      ((s.arrive c chars).2.status = .storeFull ∧ (s.arrive c chars).1 = s.setFlow c .pausedStore) := by
  have stopped : (s.arrive c chars).2 = arrivalVerdict (storeArrival chars (s.circuit c).chain s.store).2.2.1
      (storeArrival chars (s.circuit c).chain s.store).2.2.2 := rfl
  rw [stopped] at notOk notPartial ⊢
  have same := storeArrival_of_none_stored (cs := chars) (k := (s.circuit c).chain) (t := s.store)
  unfold State.arrive
  dsimp only
  generalize storeArrival chars (s.circuit c).chain s.store = a at notOk notPartial same ⊢
  obtain ⟨chain, store, stored, stop⟩ := a
  dsimp only at notOk notPartial same ⊢
  cases stop with
  | none => exact absurd rfl notOk
  | some why =>
    unfold arrivalVerdict at notPartial ⊢
    dsimp only at notPartial ⊢
    split at notPartial
    · exact absurd rfl notPartial
    · next nothing =>
      have nothing : stored = 0 := by omega
      obtain ⟨chainSame, storeSame⟩ := same nothing
      subst chainSame storeSame
      have put : (s.setStore s.store).setCircuit c { s.circuit c with chain := (s.circuit c).chain } = s :=
        s.setCircuit_circuit c
      rw [if_neg (by omega), if_neg (by omega), put]
      cases why with
      | noBlock => exact .inr ⟨rfl, rfl⟩
      | limit =>
        refine .inl ?_
        have flow : flowAfter (s.circuit c).flow (s.circuit c).count (s.circuit c).chain.count (some .limit) =
            (s.circuit c).flow := by
          unfold flowAfter
          rw [if_neg nofun, if_neg fun h => Nat.not_le.mpr h.2.1 h.2.2]
        rw [flow]
        exact s.setFlow_self c

/-- CIRCUIT TEXT is the one request that leaves something behind when it fails. -/
theorem circuitText_of_refused {s : State} {number : Nat} {chars : List Byte}
    (notOk : (circuitText number chars s).2.status ≠ .ok)
    (notPartial : (circuitText number chars s).2.status ≠ .partialText) :
    (circuitText number chars s).1 = s ∨ ∃ c : Fin 32, number = c.val ∧
      (circuitText number chars s).2.status = .storeFull ∧ (circuitText number chars s).1 = s.setFlow c .pausedStore := by
  by_cases high : 32 ≤ number
  · exact .inl (by rw [circuitText, onCircuit_of_error (circuitNumber_of_le high)])
  · obtain ⟨c, own⟩ : ∃ c : Fin 32, number = c.val := ⟨⟨number, Nat.lt_of_not_le high⟩, rfl⟩
    subst own
    rw [circuitText, onCircuit_val] at notOk notPartial ⊢
    split_ifs at notOk notPartial ⊢ with life count accepted
    · exact .inl rfl
    · exact .inl rfl
    · exact .inl rfl
    · exact (State.arrive_of_refused notOk notPartial).imp_right fun h => ⟨c, rfl, h⟩

/-- Settles O4, request by request. -/
theorem failedRequestChangesNothing : Obligations.FailedRequestChangesNothing := by
  intro q s notOk notPartial
  by_cases text : ∃ n chars, q = .circuitText n chars
  · obtain ⟨n, chars, rfl⟩ := text
    exact (circuitText_of_refused notOk notPartial).imp_right fun ⟨c, own, h⟩ => ⟨c, chars, by rw [own], h⟩
  · refine .inl ((?_ : s.Spared (runRequest q s)) notOk notPartial)
    cases q with
    | setStation f => exact .setStation f
    | setClock m => exact .setClock m
    | readStation => exact .same _
    | restart => exact .done
    | setProfile ch f => exact .setProfile ch f
    | channelOn ch => exact .channelOn ch
    | channelOff ch mode => exact .channelOff ch mode
    | readChannel ch => exact .same _
    | openCircuit c ch l => exact .openCircuit c ch l
    | circuitText c l => exact absurd ⟨c, l, rfl⟩ text
    | holdCircuit c x => exact .holdCircuit c x
    | moveCircuit c ch => exact .moveCircuit c ch
    | closeCircuit c mode => exact .closeCircuit c mode
    | readCircuit c => exact .same _
    | declareBulletin n ser cat len f => exact .declareBulletin n ser cat len f
    | bulletinText n tgt b l => exact .bulletinText n tgt b l
    | amendBulletin n f => exact .amendBulletin n f
    | releaseBulletin n => exact .releaseBulletin n
    | withdrawBulletin n => exact .withdrawBulletin n
    | clearMarks n => exact State.Spared.onBulletin n fun _ _ => .done
    | readBulletin n => exact .same _
    | readText n tgt off cnt => exact State.Spared.onBulletin n fun _ _ => .same _
    | stageRevision n len => exact .stageRevision n len
    | commitRevision n => exact .commitRevision n
    | discardRevision n => exact .discardRevision n

end Sys2Proof.Machine
end

section
/-! PROOFS. The line: the arbiter, the batch, the take of a frame, a frame completion and the reset (10; 11: R184, R185). -/

namespace Sys2Proof.Machine

/-! ## Events of a released part -/

theorem event_of_held {s : State} (h : s.resetHeld = true) (f : State → State) : event f s = .next s := by
  simp [event, h]

/-! ## The arbiter (10: R178) -/

theorem State.arbitrate_idem (s : State) : s.arbitrate.arbitrate = s.arbitrate := by
  cases outgoing : s.link.outgoing with
  | some f => rw [State.arbitrate_busy outgoing, State.arbitrate_busy outgoing]
  | none =>
    cases replies : s.link.replies with
    | cons r rest => rw [State.arbitrate_reply outgoing replies, State.arbitrate_busy rfl]
    | nil =>
      cases notices : s.notices with
      | cons e rest => rw [State.arbitrate_notice outgoing replies notices, State.arbitrate_busy rfl]
      | nil => rw [State.arbitrate_nothing replies notices, State.arbitrate_nothing replies notices]

/-- Settles O7. -/
theorem idleLineBeginsReplyThenNotice : Obligations.IdleLineBeginsReplyThenNotice := by
  intro s
  refine ⟨fun busy => ?_, fun idle => ⟨fun r rest replies => ?_, fun e rest replies notices => ?_, fun replies notices => ?_⟩⟩
  · obtain ⟨f, outgoing⟩ := Option.ne_none_iff_exists'.mp busy
    exact State.arbitrate_busy outgoing
  · exact State.arbitrate_reply idle replies
  · rw [State.arbitrate_notice idle replies notices, State.beginNotice, noticePayload_eq_noticeOctets]
    rfl
  · exact State.arbitrate_nothing replies notices

/-! ## Replies that carry a status alone -/

theorem State.replyStatus_foldl (s : State) (st : Status) (fs : List Frame) :
    fs.foldl (fun s f => s.replyStatus f st) s =
      s.setLink { s.link with replies := s.link.replies ++ fs.map fun f => f.answer st } :=
  State.replyStatus_foldl_frame s st fs

theorem State.skipExecuting_eq (s : State) : s.skipExecuting = s.setLink { s.link with
    replies := s.link.replies ++ s.link.executing.map (fun f => f.answer .skipped), executing := [] } := by
  rw [State.skipExecuting, State.replyStatus_foldl]
  rfl

theorem State.skipQueued_of_serving {s : State} (h : s.link.restartPending = false) : s.skipQueued = s := by
  simp [State.skipQueued, h]

theorem State.skipQueued_of_restarting {s : State} (h : s.link.restartPending = true) :
    s.skipQueued = s.setLink { s.link with
      replies := s.link.replies ++ (s.link.executing ++ s.link.receiveQueue).map (fun f => f.answer .skipped)
      executing := [], receiveQueue := [], linkReady := true } := by
  rw [State.skipQueued, if_pos h, State.skipExecuting_eq]
  dsimp only
  rw [State.replyStatus_foldl]
  simp only [State.setLink_link, List.map_append, List.append_assoc]
  rfl

theorem State.discardBatch_of_none {s : State} (h : s.link.batch = none) : s.discardBatch = s := by
  simp [State.discardBatch, h]

theorem State.discardBatch_of_some {s : State} {b : Batch} (h : s.link.batch = some b) :
    s.discardBatch = s.setLink { s.link with
      replies := s.link.replies ++ b.held.map (fun f => f.answer .batchDiscarded), batch := none } := by
  rw [State.discardBatch, h]
  dsimp only
  rw [State.replyStatus_foldl]
  rfl

/-- An open batch is discarded, whether or not there is one. -/
theorem State.discardBatch_eq (s : State) : s.discardBatch = s.setLink { s.link with
    replies := s.link.replies ++ s.link.batch.elim ([] : List Reply) fun b => b.held.map fun f => f.answer .batchDiscarded
    batch := none } := by
  cases batch : s.link.batch with
  | some b => rw [State.discardBatch_of_some batch]; rfl
  | none =>
    rw [State.discardBatch_of_none batch, Option.elim_none, List.append_nil, ← batch]
    rfl

/-- Settles O12. -/
theorem restartSkipsWhatWaits : Obligations.RestartSkipsWhatWaits := by
  intro r s served
  obtain ⟨released, serving⟩ := served
  have ran : exec (.restart r) s =
      .next ((((if s.link.restartPending then s else s.discardBatch).answerRequest r 0x04 restart).skipQueued)).arbitrate :=
    event_of_released released fun s =>
      ((if s.link.restartPending then s else s.discardBatch).answerRequest r 0x04 restart).skipQueued
  rw [ran, serving, if_neg (by decide), State.discardBatch_eq]
  refine congrArg (fun u : State => Host.Outcome.next u.arbitrate) ?_
  rw [State.answerRequest, if_neg (by simp [serving]), State.skipQueued_of_restarting (by rfl)]
  simp only [restart, State.placeReply, State.setLink_link, List.append_assoc]
  rfl

/-! ## A frame as it comes in (10: R170, R172) -/

theorem State.offerFrame_of_room {s : State} (room : s.link.receiveQueue.length < Config.receiveQueueSize) (f : Frame) :
    s.offerFrame f = (s.setReceiveQueue (s.link.receiveQueue ++ [f])).skipQueued :=
  if_pos room

theorem State.offerFrame_of_full {s : State} (full : Config.receiveQueueSize ≤ s.link.receiveQueue.length) (f : Frame) :
    s.offerFrame f = if s.link.replies.any Reply.isBusy then s.linkError
      else s.placeReply ⟨f.tag, f.position⟩ 0 ⟨.busy, []⟩ :=
  if_neg (Nat.not_lt.mpr full)

/-- Settles O32, by the outcomes of a check. -/
theorem wholeFramesAreChecked : Obligations.WholeFramesAreChecked := by
  intro s control tag length payload sum inside f
  have checked : s.checkFrame inside sum = if crcOctets inside ≠ sum then s.linkError.discardBatch
      else if control.extractLsb' 6 2 = requestKind then s.offerFrame f else s.linkError := rfl
  rw [checked]
  refine ⟨fun bad => ?_, fun good => ?_⟩
  · rw [if_pos bad, State.discardBatch_eq]
    rfl
  · rw [if_neg (not_not.mpr good)]
    refine ⟨fun noRequest => if_neg noRequest, fun isRequest => ?_⟩
    rw [if_pos (show control.extractLsb' 6 2 = requestKind from isRequest)]
    refine ⟨fun serving room => ?_, fun restarting room => ?_, fun full quiet => ?_, fun full busy => ?_⟩
    · rw [State.offerFrame_of_room room, State.skipQueued_of_serving (s := s.setReceiveQueue _) serving]
      simp only [State.setReceiveQueue, List.length_append, List.length_singleton]
      rfl
    · rw [State.offerFrame_of_room room, State.skipQueued_of_restarting (s := s.setReceiveQueue _) restarting]
      simp only [State.setReceiveQueue, State.setLink_link, List.append_assoc]
      rfl
    · have none : s.link.replies.any Reply.isBusy = false := by
        rw [List.any_eq_false]
        intro x mem
        simpa [Reply.isBusy] using quiet x mem
      rw [State.offerFrame_of_full full, none, if_neg (by decide)]
      rfl
    · have some : s.link.replies.any Reply.isBusy = true := by
        rw [List.any_eq_true]
        obtain ⟨x, mem, busy⟩ := busy
        exact ⟨x, mem, by simpa [Reply.isBusy] using busy⟩
      rw [State.offerFrame_of_full full, some, if_pos rfl]

/-! ## The payload and its kind (10: R173) -/

theorem atEnd_eq_some {α : Type} {o : Option (α × List Byte)} {a : α} : atEnd o = some a ↔ o = some (a, []) := by
  unfold atEnd
  split
  · simp
  · next other =>
    constructor
    · nofun
    · intro h
      exact absurd h (other a)

theorem kind_of_decodeFields {kind : Byte} {fields : List Byte} {d : Request} (h : decodeFields kind fields = some d) :
    kind.toNat = d.kindCode.toNat := by
  unfold decodeFields at h
  split at h
  case h_26 => cases h
  all_goals
    rename_i code
    rw [code]
    simp only [readSetProfile, readOpenCircuit, readCircuitText, readDeclare, readBulletinText, readAmend, readReadText,
      readStage, atEnd_eq_some, Option.map_eq_some_iff, Option.bind_eq_bind, Option.bind_eq_some_iff, Option.pure_def,
      Option.some.injEq, Prod.mk.injEq, Option.ite_none_right_eq_some] at h
    grind [Request.kindCode]

theorem kind_of_decodeRequest {payload : List Byte} {d : Request} (h : decodeRequest payload = some d) :
    payload.head?.getD 0 = d.kindCode := by
  cases payload with
  | nil => cases h
  | cons kind fields => exact BitVec.eq_of_toNat_eq (kind_of_decodeFields h)

/-! ## The take of a frame (10: R173 to R176) -/

theorem State.runPayload_of_request {s : State} {payload : List Byte} {d : Request} (h : decodeRequest payload = some d) :
    runPayload payload s = runRequest d s := by
  rw [runPayload, h]

theorem State.runPayload_of_none {s : State} {payload : List Byte} (h : decodeRequest payload = none) :
    runPayload payload s = (s, .fail .badRequest) := by
  rw [runPayload, h]

/-- A request leaves the frames that wait, and those of a batch in execution. -/
theorem runPayload_frames (s : State) (payload : List Byte) :
    (runPayload payload s).1.link.executing = s.link.executing ∧
      (runPayload payload s).1.link.receiveQueue = s.link.receiveQueue := by
  unfold runPayload
  split
  · exact ⟨rfl, rfl⟩
  · next q _ =>
    by_cases restart : q = .restart
    · subst restart
      exact ⟨rfl, rfl⟩
    · have frame := (State.Evolves.refl (s := s)).runRequest restart |>.frame.link
      rw [frame]
      exact ⟨rfl, rfl⟩

theorem State.arbitrate_frames (s : State) : s.arbitrate.link.executing = s.link.executing ∧
    s.arbitrate.link.receiveQueue = s.link.receiveQueue ∧
    s.arbitrate.link.restartPending = s.link.restartPending := by
  rw [State.arbitrate_link]
  exact ⟨rfl, rfl, rfl⟩

theorem State.executeFrame_eq (s : State) (f : Frame) : s.executeFrame f =
    ((runPayload f.payload s).1.replied ⟨f.tag, f.position⟩ f.kindOctet (runPayload f.payload s).2,
      (runPayload f.payload s).2.status) := rfl

theorem State.executeFrame_executing (s : State) (f : Frame) :
    (s.executeFrame f).1.link.executing = s.link.executing := by
  rw [State.executeFrame_eq, State.replied, (State.arbitrate_frames _).1]
  exact (runPayload_frames s f.payload).1

theorem State.goOnWithBatch_of_idle {s : State} (h : s.link.executing = []) : s.goOnWithBatch = s := by
  unfold State.goOnWithBatch
  split
  · rw [h]; rfl
  · rw [if_pos h]

theorem Link.mayTake_iff (l : Link) : l.mayTake = true ↔ ∀ x ∈ l.replies, x.status = .busy := by
  simp [Link.mayTake, Reply.isBusy]

/-- The state from which a taken frame is judged: it has left the receive queue. -/
def State.dequeued (s : State) (q : List Frame) : State := s.setReceiveQueue q

section

variable {s : State} {f : Frame} {q : List Frame}

/-- The frame at the head is taken where no reply of the Request Processor waits. -/
theorem exec_frameTake_of_taken (served : s.serves) (idle : s.link.executing = []) (waits : s.link.receiveQueue = f :: q)
    (free : ∀ x ∈ s.link.replies, x.status = .busy) :
    exec .frameTake s = .next ((((s.setReceiveQueue q).judgeFrame f).goOnWithBatch).skipQueued).arbitrate := by
  obtain ⟨released, serving⟩ := served
  have taken : s.takeFrame = (((s.setReceiveQueue q).judgeFrame f).goOnWithBatch).skipQueued := by
    rw [State.takeFrame, serving, if_neg (by decide), idle, waits]
    exact if_pos ((Link.mayTake_iff _).mpr free)
  rw [← taken]
  exact event_of_released released State.takeFrame

/-- Where a reply of the Request Processor waits, no frame is taken. -/
theorem exec_frameTake_of_waiting (served : s.serves) (idle : s.link.executing = [])
    (waits : s.link.receiveQueue = f :: q) (held : ∃ x ∈ s.link.replies, x.status ≠ .busy) :
    exec .frameTake s = .next s.arbitrate := by
  obtain ⟨released, serving⟩ := served
  have notTaken : s.takeFrame = s := by
    rw [State.takeFrame, serving, if_neg (by decide), idle, waits]
    refine if_neg fun may => ?_
    obtain ⟨x, mem, notBusy⟩ := held
    exact notBusy ((Link.mayTake_iff _).mp may x mem)
  exact (event_of_released released State.takeFrame).trans (by rw [notTaken])

/-- A frame that is judged without a batch becoming whole, in a part that serves. -/
theorem exec_frameTake_of_judged (served : s.serves) (idle : s.link.executing = [])
    (waits : s.link.receiveQueue = f :: q) (free : ∀ x ∈ s.link.replies, x.status = .busy) {t : State}
    (judged : (s.setReceiveQueue q).judgeFrame f = t) (still : t.link.executing = []) (serving : t.link.restartPending = false) :
    exec .frameTake s = .next t.arbitrate := by
  rw [exec_frameTake_of_taken served idle waits free, judged, State.goOnWithBatch_of_idle still,
    State.skipQueued_of_serving serving]

end

theorem State.judgeFrame_of_lone {s : State} {f : Frame} (noBatch : s.link.batch = none) (first : f.position = 0)
    (last : f.more = false) : s.judgeFrame f = (s.executeFrame f).1 := by
  rw [State.judgeFrame, noBatch]
  simp [State.judgeFresh, first, last]

theorem replied_arbitrate (u : State) (r : ReplyTo) (kind : Byte) (v : Verdict) :
    (u.replied r kind v).arbitrate = u.replied r kind v := State.arbitrate_idem _

theorem replied_frames (u : State) (r : ReplyTo) (kind : Byte) (v : Verdict) :
    (u.replied r kind v).link.executing = u.link.executing ∧
      (u.replied r kind v).link.receiveQueue = u.link.receiveQueue ∧
      (u.replied r kind v).link.restartPending = u.link.restartPending :=
  State.arbitrate_frames _

/-- Settles O33, by what the payload is: a request, none, or a RESTART. -/
theorem loneFrameIsExecuted : Obligations.LoneFrameIsExecuted := by
  intro s f q served idle waits p
  refine ⟨fun held => exec_frameTake_of_waiting served idle waits held, fun free noBatch first last => ?_⟩
  have dequeued : p = s.setReceiveQueue q := rfl
  have judged : (s.setReceiveQueue q).judgeFrame f = (p.executeFrame f).1 := State.judgeFrame_of_lone noBatch first last
  have still : (p.executeFrame f).1.link.executing = [] := (State.executeFrame_executing p f).trans idle
  rw [State.executeFrame_eq] at judged still
  refine ⟨fun d decoded notRestart => ?_, fun undecoded => ?_, fun decoded => ?_⟩
  · rw [State.runPayload_of_request decoded, Frame.kindOctet, kind_of_decodeRequest decoded] at judged still
    rw [← replied_arbitrate]
    refine exec_frameTake_of_judged served idle waits free judged still ?_
    rw [(replied_frames _ _ _ _).2.2, ((State.Evolves.refl (s := p)).runRequest notRestart).frame.link]
    exact served.2
  · rw [State.runPayload_of_none undecoded] at judged still
    rw [← replied_arbitrate]
    refine exec_frameTake_of_judged served idle waits free judged still ?_
    rw [(replied_frames _ _ _ _).2.2]
    exact served.2
  · intro answered
    rw [State.runPayload_of_request decoded, Frame.kindOctet, kind_of_decodeRequest decoded] at judged still
    have judged : (s.setReceiveQueue q).judgeFrame f = answered := judged
    have still : answered.link.executing = [] := still
    obtain ⟨-, queue, restarting⟩ := replied_frames
      (p.setLink { p.link with restartPending := true }) ⟨f.tag, f.position⟩ 0x04 .ok
    have queue : answered.link.receiveQueue = q := queue
    have restarting : answered.link.restartPending = true := restarting
    rw [exec_frameTake_of_taken served idle waits free, judged, State.goOnWithBatch_of_idle still,
      State.skipQueued_of_restarting restarting]
    simp only [still, queue, List.nil_append]
    rfl

/-! ## Batches (10: R174 to R176) -/

section

variable {s : State} {f : Frame}

theorem State.judgeFrame_of_held {b : Batch} (batch : s.link.batch = some b) (next : f.position.toNat = b.held.length)
    (more : f.more = true) (room : b.held.length ≠ 15) : s.judgeFrame f =
      s.setLink { s.link with batch := some ⟨b.held ++ [f], s.startTimer Config.batchPeriod⟩ } := by
  rw [State.judgeFrame, batch]
  simp [State.judgeOpen, next, more, room]

theorem State.judgeFrame_of_overfull {b : Batch} (batch : s.link.batch = some b)
    (next : f.position.toNat = b.held.length) (more : f.more = true) (full : b.held.length = 15) : s.judgeFrame f =
      (s.setLink { s.link with batch := some { b with held := b.held ++ [f] } }).discardBatch := by
  rw [State.judgeFrame, batch]
  simp [State.judgeOpen, next, more, full]

theorem State.judgeFrame_of_whole {b : Batch} (batch : s.link.batch = some b)
    (next : f.position.toNat = b.held.length) (last : f.more = false) : s.judgeFrame f = s.startBatch (b.held ++ [f]) := by
  rw [State.judgeFrame, batch]
  simp [State.judgeOpen, next, last]

theorem State.judgeFrame_of_astray {b : Batch} (batch : s.link.batch = some b)
    (other : f.position.toNat ≠ b.held.length) (later : f.position ≠ 0) :
    s.judgeFrame f = s.discardBatch.replyStatus f .batchDiscarded := by
  rw [State.judgeFrame, batch]
  exact (if_neg other).trans (if_neg later)

theorem State.judgeFrame_of_first {b : Batch} (batch : s.link.batch = some b)
    (other : f.position.toNat ≠ b.held.length) (first : f.position = 0) :
    s.judgeFrame f = s.discardBatch.judgeFresh f := by
  rw [State.judgeFrame, batch]
  exact (if_neg other).trans (if_pos first)

theorem State.judgeFresh_of_later (later : f.position ≠ 0) : s.judgeFresh f = s.replyStatus f .batchDiscarded :=
  if_neg later

theorem State.judgeFresh_of_more (first : f.position = 0) (more : f.more = true) : s.judgeFresh f =
    s.setLink { s.link with batch := some ⟨[f], s.startTimer Config.batchPeriod⟩ } := by
  rw [State.judgeFresh, if_pos first, if_pos more]

theorem State.judgeFresh_of_last (first : f.position = 0) (last : f.more = false) :
    s.judgeFresh f = (s.executeFrame f).1 := by
  rw [State.judgeFresh, if_pos first, if_neg (by simp [last])]

theorem State.batchExpiry_of_open {b : Batch} (batch : s.link.batch = some b) :
    s.batchExpiry = (s.reach b.timer.due).discardBatch := by
  rw [State.batchExpiry, batch]

theorem State.batchExpiry_of_none (noBatch : s.link.batch = none) : s.batchExpiry = s := by
  rw [State.batchExpiry, noBatch]

end

theorem exec_batchTimerExpiry_of_released {s : State} (h : s.resetHeld = false) :
    exec .batchTimerExpiry s = .next s.batchExpiry.arbitrate :=
  event_of_released h State.batchExpiry

/-- Settles O34, row by row of the rule. -/
theorem batchesAreHeldOrDiscarded : Obligations.BatchesAreHeldOrDiscarded := by
  intro s served waits answers
  have ⟨released, serving⟩ := served
  rw [exec_batchTimerExpiry_of_released released]
  refine ⟨fun b batch => ?_, fun noBatch => ?_, fun f q queue idle free => ?_⟩
  · rw [State.batchExpiry_of_open batch, State.discardBatch_of_some (s := s.reach b.timer.due) batch]
    rfl
  · rw [State.batchExpiry_of_none noBatch]
  intro l
  refine ⟨fun noBatch later => ?_, fun noBatch first more => ?_, fun b batch =>
    ⟨fun next more room => ?_, fun next more full => ?_, fun next last => ?_, fun other later => ?_,
      fun other first more => ?_, fun other first last => ?_⟩⟩
  · refine exec_frameTake_of_judged served idle queue free ?_ idle serving
    rw [State.judgeFrame, show (s.setReceiveQueue q).link.batch = none from noBatch]
    exact State.judgeFresh_of_later later
  · refine exec_frameTake_of_judged served idle queue free ?_ idle serving
    rw [State.judgeFrame, show (s.setReceiveQueue q).link.batch = none from noBatch]
    exact State.judgeFresh_of_more first more
  · exact exec_frameTake_of_judged served idle queue free
      (State.judgeFrame_of_held (s := s.setReceiveQueue q) batch next more (Nat.ne_of_lt room)) idle serving
  · refine exec_frameTake_of_judged served idle queue free ?_ idle serving
    rw [State.judgeFrame_of_overfull (s := s.setReceiveQueue q) batch next more full, State.discardBatch_of_some (by rfl)]
    rfl
  · rw [exec_frameTake_of_taken served idle queue free,
      State.judgeFrame_of_whole (s := s.setReceiveQueue q) batch next last]
    rfl
  · refine exec_frameTake_of_judged served idle queue free ?_ idle serving
    rw [State.judgeFrame_of_astray (s := s.setReceiveQueue q) batch other later,
      State.discardBatch_of_some (s := s.setReceiveQueue q) batch]
    simp only [State.replyStatus, State.placeReply, State.setLink_link, List.append_assoc, answers, List.map_append]
    rfl
  · refine exec_frameTake_of_judged served idle queue free ?_ idle serving
    rw [State.judgeFrame_of_first (s := s.setReceiveQueue q) batch other first, State.judgeFresh_of_more first more,
      State.discardBatch_of_some (s := s.setReceiveQueue q) batch]
    rfl
  · rw [exec_frameTake_of_taken served idle queue free,
      State.judgeFrame_of_first (s := s.setReceiveQueue q) batch other first, State.judgeFresh_of_last first last,
      State.discardBatch_of_some (s := s.setReceiveQueue q) batch, State.goOnWithBatch_of_idle]
    · rfl
    · exact (State.executeFrame_executing _ f).trans idle

end Sys2Proof.Machine
end

section
/-! PROOFS. The execution of a batch (10: R176), a frame completion (10: R178) and the reset (11: R184, R185). -/

namespace Sys2Proof.Machine

/-! ## The execution of a batch -/

/-- A sequence with one more element before it. -/
def prepend {α : Type} (a : α) (g : Nat → α) : Nat → α
  | 0 => a
  | i + 1 => g i

/-- The request of the frame g executed from s, with the frames after it still to be executed. -/
def State.batchTurn (s : State) (g : Frame) (later : List Frame) : State × Verdict :=
  runPayload g.payload (s.setLink { s.link with executing := later })

/-- One execution of some of the requests of a batch: how many, the states between them and their verdicts. -/
structure BatchRun (fs : List Frame) (most k : Nat) (run : Nat → State) (verdict : Nat → Verdict) : Prop where
  positive : 1 ≤ k
  atMost : k ≤ most
  turns : ∀ i g, i < k → fs[i]? = some g →
    verdict i = ((run i).batchTurn g (fs.drop (i + 1))).2 ∧
    run (i + 1) = ((run i).batchTurn g (fs.drop (i + 1))).1.replied ⟨g.tag, g.position⟩ (g.payload.head?.getD 0)
      ((run i).batchTurn g (fs.drop (i + 1))).2
  goesOn : ∀ i, i + 1 < k → (verdict i).status = .ok ∧ (run (i + 1)).link.restartPending = false

/-- The last request executed leaves the batch there, or ends it and has the rest skipped. -/
def BatchEnds (fs : List Frame) (most : Nat) (t : State) (k : Nat) (run : Nat → State) (verdict : Nat → Verdict) : Prop :=
  ((verdict (k - 1)).status = .ok ∧ (run k).link.restartPending = false ∧ k = most ∧ t = run k) ∨
  (((verdict (k - 1)).status ≠ .ok ∨ (run k).link.restartPending = true) ∧
    t = (run k).setLink { (run k).link with
      executing := [], replies := (run k).link.replies ++ (fs.drop k).map fun g => g.answer .skipped })

/-- The first request of a batch alone. -/
theorem BatchRun.one {s : State} {f : Frame} {later : List Frame} {most : Nat} (h : 1 ≤ most) :
    BatchRun (f :: later) most 1
      (prepend s fun _ => (s.batchTurn f later).1.replied ⟨f.tag, f.position⟩ f.kindOctet (s.batchTurn f later).2)
      (fun _ => (s.batchTurn f later).2) where
  positive := Nat.le_refl 1
  atMost := h
  turns i g one is := by
    obtain rfl : i = 0 := by omega
    obtain rfl : f = g := by simpa using is
    exact ⟨rfl, rfl⟩
  goesOn i one := by omega

/-- The first request of a batch and then those after it. -/
theorem BatchRun.cons {s : State} {f : Frame} {later : List Frame} {most k : Nat} {run : Nat → State}
    {verdict : Nat → Verdict} (h : BatchRun later most k run verdict)
    (first : run 0 = (s.batchTurn f later).1.replied ⟨f.tag, f.position⟩ f.kindOctet (s.batchTurn f later).2)
    (ok : (s.batchTurn f later).2.status = .ok) (serving : (run 0).link.restartPending = false) :
    BatchRun (f :: later) (most + 1) (k + 1) (prepend s run) (prepend (s.batchTurn f later).2 verdict) where
  positive := Nat.succ_pos k
  atMost := Nat.succ_le_succ h.atMost
  turns i g low is := by
    cases i with
    | zero =>
      obtain rfl : f = g := by simpa using is
      exact ⟨rfl, first⟩
    | succ i => exact h.turns i g (by omega) (by simpa using is)
  goesOn i low := by
    cases i with
    | zero => exact ⟨ok, serving⟩
    | succ i => exact h.goesOn i (by omega)

theorem BatchEnds.cons {s t : State} {f : Frame} {later : List Frame} {most k : Nat} {run : Nat → State}
    {verdict : Nat → Verdict} (v : Verdict) (positive : 1 ≤ k) (h : BatchEnds later most t k run verdict) :
    BatchEnds (f :: later) (most + 1) t (k + 1) (prepend s run) (prepend v verdict) := by
  obtain ⟨j, rfl⟩ : ∃ j, k = j + 1 := ⟨k - 1, by omega⟩
  exact h.imp (fun ⟨ok, serving, all, same⟩ => ⟨ok, serving, congrArg (· + 1) all, same⟩) id

theorem State.runBatch_of_idle {s : State} (h : s.link.executing = []) (n : Nat) : s.runBatch n = s := by
  cases n with
  | zero => rfl
  | succ n => rw [State.runBatch, h]

theorem State.runBatch_succ {s : State} {f : Frame} {later : List Frame} (h : s.link.executing = f :: later) (n : Nat) :
    s.runBatch (n + 1) =
      let t := (s.batchTurn f later).1.replied ⟨f.tag, f.position⟩ f.kindOctet (s.batchTurn f later).2
      if (s.batchTurn f later).2.status = .ok ∧ !t.link.restartPending then t.runBatch n else t.skipExecuting := by
  rw [State.runBatch, h]
  rfl

theorem State.batchTurn_executing (s : State) (f : Frame) (later : List Frame) (r : ReplyTo) (kind : Byte) (v : Verdict) :
    ((s.batchTurn f later).1.replied r kind v).link.executing = later :=
  (replied_frames _ r kind v).1.trans (runPayload_frames _ f.payload).1

/-- The execution of at most n + 1 requests of a batch, by induction on n. -/
theorem State.runBatch_runs (n : Nat) {s : State} {f : Frame} {later : List Frame}
    (h : s.link.executing = f :: later) : ∃ k run verdict, run 0 = s ∧
      BatchRun (f :: later) (min (f :: later).length (n + 1)) k run verdict ∧
      BatchEnds (f :: later) (min (f :: later).length (n + 1)) (s.runBatch (n + 1)) k run verdict := by
  have still := s.batchTurn_executing f later ⟨f.tag, f.position⟩ f.kindOctet (s.batchTurn f later).2
  have ran := State.runBatch_succ h
  dsimp only at ran
  have positive : 1 ≤ min (f :: later).length (n + 1) := by simp
  by_cases goes : (s.batchTurn f later).2.status = .ok ∧
      ((s.batchTurn f later).1.replied ⟨f.tag, f.position⟩ f.kindOctet (s.batchTurn f later).2).link.restartPending = false
  · obtain ⟨ok, serving⟩ := goes
    rw [ran, if_pos ⟨ok, by rw [serving]; rfl⟩]
    by_cases whole : n = 0 ∨ later = []
    · refine ⟨1, _, _, rfl, .one positive, .inl ⟨ok, serving, ?_, ?_⟩⟩
      · rcases whole with rfl | rfl <;> simp
      · rcases whole with rfl | rfl
        · rfl
        · exact State.runBatch_of_idle still n
    · obtain ⟨n, rfl⟩ : ∃ m, n = m + 1 := ⟨n - 1, by omega⟩
      obtain ⟨g, rest, rfl⟩ := List.exists_cons_of_ne_nil (not_or.mp whole).2
      obtain ⟨k, run, verdict, starts, runs, ends⟩ := State.runBatch_runs n still
      refine ⟨k + 1, prepend s run, prepend (s.batchTurn f (g :: rest)).2 verdict, rfl, ?_, ?_⟩
      · rw [List.length_cons, Nat.succ_min_succ]
        exact runs.cons starts ok (starts ▸ serving)
      · rw [List.length_cons, Nat.succ_min_succ]
        exact ends.cons _ runs.positive
  · refine ⟨1, _, _, rfl, .one positive, .inr ⟨?_, ?_⟩⟩
    · rw [not_and_or, Bool.not_eq_false] at goes
      exact goes
    · rw [ran, if_neg (by simpa using goes), State.skipExecuting_eq, still]
      rfl

theorem State.takeFrame_of_executing {s : State} {f : Frame} {later : List Frame} (serving : s.link.restartPending = false)
    (h : s.link.executing = f :: later) : s.takeFrame = s.goOnWithBatch.skipQueued := by
  rw [State.takeFrame, serving, if_neg (by decide), h]

/-- Settles O35, by whether a pause stands next. -/
theorem batchIsExecutedInOrder : Obligations.BatchIsExecutedInOrder := by
  intro s f later served executing fs most
  obtain ⟨released, serving⟩ := served
  refine ⟨?_, ?_⟩
  · rw [← State.takeFrame_of_executing serving executing]
    exact event_of_released released State.takeFrame
  · have run : ∃ k run verdict, run 0 = { s with pauses := s.pauses.tail } ∧ BatchRun fs most k run verdict ∧
        BatchEnds fs most s.goOnWithBatch k run verdict := by
      cases pauses : s.pauses with
      | nil =>
        have went : s.goOnWithBatch = s.runBatch (later.length + 1) := by
          rw [State.goOnWithBatch, pauses]
          dsimp only
          rw [executing, List.length_cons]
        have all : most = min fs.length (later.length + 1) := by simp [most, fs, pauses]
        rw [went, all]
        obtain ⟨k, run, verdict, starts, rest⟩ := State.runBatch_runs later.length executing
        exact ⟨k, run, verdict, by rw [starts, List.tail_nil, ← pauses], rest⟩
      | cons n tail =>
        have went : s.goOnWithBatch = ({ s with pauses := tail } : State).runBatch (n + 1) := by
          rw [State.goOnWithBatch, pauses]
          exact if_neg (by simp [executing])
        have some : most = min fs.length (n + 1) := by simp [most, fs, pauses]
        rw [went, some]
        exact State.runBatch_runs (s := { s with pauses := tail }) n executing
    obtain ⟨k, run, verdict, starts, runs, ends⟩ := run
    exact ⟨k, run, verdict, runs.positive, runs.atMost, starts, runs.turns, runs.goesOn, ends⟩

/-! ## The start of the part (11: R184, R181) -/

/-- The first notice of a part that starts from its reset values. -/
theorem noticePayload_of_started (keyok : Vector Bool 8) (silence : Bool) (pending : List Instr) (pauses : List Nat) :
    (State.atRest keyok silence pending pauses).released.noticePayload ⟨.station, [.started], Counts.zero⟩ =
      [3, 0, 1, 0, 0, 1, if silence then 0 else 1, 4, 0, 0, 0] := by
  have free : (State.atRest keyok silence pending pauses).released.freeCount = 1024 := by
    simp [State.freeCount, State.released, State.atRest]
  have body : (State.atRest keyok silence pending pauses).released.noticeBody ⟨.station, [.started], Counts.zero⟩ =
      encodeWord 0 ++ encodeOctet 1 ++ encodeOctet (silencePlace silence) ++ encodeWord 1024 ++ encodeWord 0 := by
    rw [← free]
    rfl
  rw [State.noticePayload, body]
  cases silence <;> rfl

theorem start_atRest (keyok : Vector Bool 8) (silence : Bool) (pending : List Instr) (pauses : List Nat) :
    (State.atRest keyok silence pending pauses).start = State.started keyok silence pending pauses := by
  have first : (State.atRest keyok silence pending pauses).start =
      ((State.atRest keyok silence pending pauses).released.raiseEvent .station .started).beginNotice
        ⟨.station, [.started], Counts.zero⟩ [] := State.arbitrate_notice (by rfl) (by rfl) (by rfl)
  have payload : ((State.atRest keyok silence pending pauses).released.raiseEvent .station .started).noticePayload
      ⟨.station, [.started], Counts.zero⟩ = [3, 0, 1, 0, 0, 1, if silence then 0 else 1, 4, 0, 0, 0] :=
    noticePayload_of_started keyok silence pending pauses
  rw [first, State.beginNotice, payload]
  cases silence <;> rfl

theorem started_arbitrate (keyok : Vector Bool 8) (silence : Bool) (pending : List Instr) (pauses : List Nat) :
    (State.started keyok silence pending pauses).arbitrate = State.started keyok silence pending pauses :=
  State.arbitrate_busy (by rfl)

/-- While RESET is held a request does nothing. -/
theorem exec_request_of_held {i : Instr} {r : ReplyTo} {q : Request} (h : i.request = some (r, q)) (hq : q ≠ .restart)
    {s : State} (held : s.resetHeld = true) : exec i s = .next s := by
  rw [exec_of_request h hq]
  exact event_of_held held _

/-- Settles O37. -/
theorem resetStartsFromTheResetValues : Obligations.ResetStartsFromTheResetValues := by
  intro s
  refine ⟨rfl, ?_, fun released => ?_, rfl, fun held c notAssert notRelease => ?_⟩
  · rw [← start_atRest]
    rfl
  · show Host.Outcome.next (if s.resetHeld then s.start else s) = _
    rw [released]
    rfl
  · cases c with
    | resetAssert => exact absurd rfl notAssert
    | resetRelease => exact absurd rfl notRelease
    | silenceAssert => exact if_pos held
    | silenceRelease => exact if_pos held
    | keyokGrant ch => exact if_pos held
    | permitLoss ch => exact if_pos held
    | linkOctetReceived o => exact event_of_held held fun s => s.receiveOctet o
    | interOctetTimerExpiry => exact event_of_held held _
    | frameTake => exact event_of_held held _
    | batchTimerExpiry => exact event_of_held held _
    | frameCompletion => exact event_of_held held _
    | restartReset => exact event_of_held held _
    | markFallingEdge => exact event_of_held held _
    | markEdgeEvent => exact event_of_held held _
    | advanceTimerExpiry => exact event_of_held held _
    | lockTimerExpiry ch => exact event_of_held held fun s => s.lockExpiry ch
    | permitTimerExpiry ch => exact event_of_held held fun s => s.permitExpiry ch
    | retryTimerExpiry ch => exact event_of_held held fun s => s.retryExpiry ch
    | holdTimerExpiry d => exact event_of_held held fun s => s.holdExpiry d
    | gapTimerExpiry ch => exact event_of_held held fun s => s.gapExpiry ch
    | symbolCompletion ch => exact event_of_held held fun s => s.completeSymbol ch
    | restart r => exact event_of_held held fun s =>
        ((if s.link.restartPending then s else s.discardBatch).answerRequest r 0x04 restart).skipQueued
    | _ => exact exec_request_of_held (by rfl) (by nofun) held

/-! ## A frame completion (10: R178; 11: R185) -/

theorem repliesAfter_eq (f : OutFrame) (replies : List Reply) :
    repliesAfter f replies = if f.kind = .reply ∧ f.more = false then replies.tail else replies := by
  unfold repliesAfter
  cases f.kind <;> cases f.more <;> rfl

section

variable {s : State} {f : OutFrame} (busy : s.link.outgoing = some f)

include busy

theorem State.completeFrame_of_staying
    (h : s.link.restartPending = false ∨ repliesAfter f s.link.replies ≠ []) : s.completeFrame = s.finishFrame f := by
  rw [State.completeFrame, busy]
  refine if_neg fun leaves => ?_
  rcases h with serving | waits
  · exact absurd leaves.1 (by rw [show (s.finishFrame f).link.restartPending = false from serving]; decide)
  · exact waits leaves.2

theorem State.completeFrame_of_restarting (restarting : s.link.restartPending = true)
    (last : repliesAfter f s.link.replies = []) :
    s.completeFrame = State.started s.keyok s.silence s.pending s.pauses := by
  rw [State.completeFrame, busy, ← start_atRest]
  exact if_pos ⟨restarting, last⟩

theorem State.restartReset_of_staying
    (h : s.link.restartPending = false ∨ repliesAfter f s.link.replies ≠ []) : s.restartReset = s := by
  rw [State.restartReset, busy]
  refine if_neg fun leaves => ?_
  rcases h with serving | waits
  · exact absurd leaves.1 (by rw [serving]; decide)
  · exact waits leaves.2

theorem State.restartReset_of_restarting (restarting : s.link.restartPending = true)
    (last : repliesAfter f s.link.replies = []) : s.restartReset = s.completeFrame := by
  rw [State.restartReset, busy]
  exact if_pos ⟨restarting, last⟩

end

/-- Settles O36. -/
theorem frameCompletionFreesTheLine : Obligations.FrameCompletionFreesTheLine := by
  intro s f released busy left
  have ran : ∀ g : State → State, event g s = .next (g s).arbitrate := event_of_released released
  have replies : left = repliesAfter f s.link.replies := (repliesAfter_eq f s.link.replies).symm
  rw [replies]
  refine ⟨fun stays => ⟨?_, ?_⟩, fun restarting last c mem => ?_⟩
  · refine (ran State.completeFrame).trans ?_
    rw [State.completeFrame_of_staying busy stays]
    rfl
  · refine (ran State.restartReset).trans ?_
    rw [State.restartReset_of_staying busy stays, State.arbitrate_busy busy]
  · have completed := State.completeFrame_of_restarting busy restarting last
    simp only [List.mem_cons, List.not_mem_nil, or_false] at mem
    rcases mem with rfl | rfl
    · refine (ran State.completeFrame).trans ?_
      rw [completed, started_arbitrate]
    · refine (ran State.restartReset).trans ?_
      rw [State.restartReset_of_restarting busy restarting last, completed, started_arbitrate]

/-! ## The hold and the gap timers (05: R78; 08: R145) -/

theorem exec_holdTimerExpiry_of_released {s : State} (h : s.resetHeld = false) (c : Fin 32) :
    exec (.holdTimerExpiry c) s = .next (s.holdExpiry c).arbitrate :=
  event_of_released h fun s => s.holdExpiry c

theorem exec_gapTimerExpiry_of_released {s : State} (h : s.resetHeld = false) (ch : Fin 8) :
    exec (.gapTimerExpiry ch) s = .next (s.gapExpiry ch).arbitrate :=
  event_of_released h fun s => s.gapExpiry ch

theorem State.holdDue_of_stopped {s : State} {c : Fin 32}
    (h : (s.circuit c).waitStart = none ∨ (s.circuit c).holdNotified = true) : s.holdDue c = none := by
  unfold State.holdDue
  rcases h with noWait | notified
  · simp [noWait]
  · simp [notified]

theorem State.holdDue_of_running {s : State} {c : Fin 32} {w : Nat} (waits : (s.circuit c).waitStart = some w)
    (unnotified : (s.circuit c).holdNotified = false) : s.holdDue c = some (w + Config.seconds s.holdLimit) := by
  simp [State.holdDue, waits, unnotified]

theorem Channel.gapTimer_of_pass {x : Channel} {t : Turn} {p : PassTurn} (turn : x.turn = some t)
    (kind : t.kind = .pass p) : x.gapTimer = p.gapTimer.map fun timer => (p, timer) := by
  simp [Channel.gapTimer, turn, kind]

theorem TextMap.written_empty (o : Nat) : (⟨0, [], 0⟩ : TextMap).written o = false := by
  simp [TextMap.written, TextMap.fill]

/-- Whether the next character of a pass is written; none is where its entry is EMPTY. -/
theorem State.bodyWritten_eq (s : State) (p : PassTurn) :
    s.bodyWritten p = (s.bulletin p.bulletin).any fun b => b.current.written p.bodyOffset := by
  unfold State.bodyWritten State.bulletinText
  cases s.bulletin p.bulletin with
  | none => exact TextMap.written_empty _
  | some b => rfl

/-- Settles O42. -/
theorem holdAndGapTimersExpire : Obligations.HoldAndGapTimersExpire := by
  intro s released
  refine ⟨fun c => ⟨fun stopped => ?_, fun w waits unnotified => ?_⟩, fun ch t p turn kind => ⟨fun stopped => ?_,
    fun timer runs => ?_⟩⟩
  · rw [exec_holdTimerExpiry_of_released released, State.holdExpiry, State.holdDue_of_stopped stopped]
  · rw [exec_holdTimerExpiry_of_released released, State.holdExpiry, State.holdDue_of_running waits unnotified]
    rfl
  · rw [exec_gapTimerExpiry_of_released released, State.gapExpiry, Channel.gapTimer_of_pass turn kind, stopped]
    rfl
  · rw [exec_gapTimerExpiry_of_released released, State.gapExpiry, Channel.gapTimer_of_pass turn kind, runs]
    have turn : ((s.reach timer.due).channel ch).turn = some t := turn
    simp only [Option.map_some, State.mapTurn, State.bodyWritten_eq, turn]
    rfl

/-! ## The reads (11: R183; 06: R110; 05: R89; 02: R39) -/

/-- Settles O11. -/
theorem readsChangeNothing : Obligations.ReadsChangeNothing := by
  intro r s served
  refine ⟨request_of_serves served r 0x03 readStation, fun ch => ?_, fun c => ?_, fun n nonzero => ?_⟩
  · have answer : readChannel ch s = (s, ⟨.ok, channelFields (s.keyokOf ch) (s.channel ch)⟩) := by
      rw [readChannel, reads, channelNumber_val]
    exact (request_of_serves served r 0x13 (readChannel ch)).trans
      (congrArg (fun a : State × Verdict => Host.Outcome.next (a.1.replied r 0x13 a.2)) answer)
  · have answer : readCircuit c s = (s, ⟨.ok, s.circuitFields c⟩) := by
      rw [readCircuit, reads, circuitNumber_val]
    exact (request_of_serves served r 0x25 (readCircuit c)).trans
      (congrArg (fun a : State × Verdict => Host.Outcome.next (a.1.replied r 0x25 a.2)) answer)
  · have answer : readBulletin n s =
        (s, ⟨.ok, match s.bulletin n with | none => [0] | some b => s.bulletinFields n b⟩) := by
      rw [readBulletin, reads, entryNumber_of_ne_zero nonzero]
      dsimp only
      cases s.bulletin n <;> rfl
    exact (request_of_serves served r 0x36 (readBulletin n)).trans
      (congrArg (fun a : State × Verdict => Host.Outcome.next (a.1.replied r 0x36 a.2)) answer)

/-! ## CHANNEL ON (06: R95) -/

theorem channelOn_of_off {s : State} {ch : Fin 8} (h : (s.channel ch).state = .off) : channelOn ch s =
    (s.setChannel ch { s.channel ch with
      state := .locking, lockTimer := some (s.startTimer Config.lockPeriod) }, .ok) := by
  simp [channelOn, channelNumber_val, h]

/-- Settles O14. -/
theorem channelOnStartsTheLockTimer : Obligations.ChannelOnStartsTheLockTimer := by
  intro r ch s served off
  refine (request_of_serves served r 0x11 (channelOn ch)).trans ?_
  rw [channelOn_of_off off]
  rfl

end Sys2Proof.Machine
end

section
/-! PROOFS. What the line carries (10: R167 to R170): every field of a request is read back, so its payload is; and the
octets of a frame, received one after another, come together as that frame. -/

namespace Sys2Proof.Machine

/-! ## The fields of a payload (10: R169) -/

/-- The number that an octet sent for n carries, and the one that two octets carry. -/
def octetValue (n : Nat) : Nat := (BitVec.ofNat 8 n).toNat

def wordValue (n : Nat) : Nat := octetValue (n / 256) * 256 + octetValue n

theorem octetValue_of_fits {n : Nat} (h : oneOctet n = true) : octetValue n = n := by
  have small : n < 256 := by simpa [oneOctet] using h
  rw [octetValue, BitVec.toNat_ofNat, Nat.mod_eq_of_lt small]

theorem wordValue_of_fits {n : Nat} (h : twoOctets n = true) : wordValue n = n := by
  have small : n < 65536 := by simpa [twoOctets] using h
  simp only [wordValue, octetValue, BitVec.toNat_ofNat]
  omega

section

variable {n : Nat} (bs : List Byte)

theorem takeOctet_encodeOctet (h : oneOctet n = true) : takeOctet (encodeOctet n ++ bs) = some (n, bs) := by
  have read : takeOctet (encodeOctet n ++ bs) = some (octetValue n, bs) := rfl
  rw [read, octetValue_of_fits h]

theorem takeWord_encodeWord (h : twoOctets n = true) : takeWord (encodeWord n ++ bs) = some (n, bs) := by
  have read : takeWord (encodeWord n ++ bs) = some (wordValue n, bs) := rfl
  rw [read, wordValue_of_fits h]

theorem takeString_encodeString {t : List Byte} (h : t.length < 256) :
    takeString (encodeString t ++ bs) = some (t, bs) := by
  simp [takeString, takeOctet, encodeString, Nat.mod_eq_of_lt h]

theorem takeOptional_encodeOptional {o : Option Nat} (h : o.all oneOctet = true) :
    takeOptional (encodeOptional o ++ bs) = some (o, bs) := by
  cases o with
  | none => rfl
  | some n =>
    have small : n < 256 := by simpa [oneOctet] using h
    simp [takeOptional, takeOctet, encodeOptional, Nat.mod_eq_of_lt small]

theorem takeWords_encode {ms : List Nat} (h : ms.all twoOctets = true) :
    takeWords ms.length (ms.flatMap encodeWord ++ bs) = some (ms, bs) := by
  induction ms with
  | nil => rfl
  | cons m ms ih =>
    rw [List.all_cons, Bool.and_eq_true] at h
    obtain ⟨first, later⟩ := h
    simp [takeWords, List.append_assoc, takeWord_encodeWord _ first, ih later]

theorem takeStart_encodeStart {f : StartField} (h : f.fits = true) (short : f.octets < 256) :
    takeStart (encodeStart f ++ bs) = some (f, bs) := by
  cases f with
  | now => rfl
  | atMinutes ms =>
    have few : ms.length < 256 := by
      simp only [StartField.octets] at short
      omega
    simp [takeStart, takeOctet, encodeStart, Nat.mod_eq_of_lt few, takeWords_encode bs h]
  | every m =>
    have read := takeWord_encodeWord bs h
    simp [takeStart, takeOctet, encodeStart, read]

theorem takeSchedule_encodeSchedule {f : ScheduleFields} (h : f.fits = true) (short : f.octets < 256) :
    takeSchedule (encodeSchedule f ++ bs) = some (f, bs) := by
  simp only [ScheduleFields.fits, Bool.and_eq_true] at h
  obtain ⟨⟨⟨mask, start⟩, passes⟩, limit⟩ := h
  have startShort : f.start.octets < 256 := by
    simp only [ScheduleFields.octets] at short
    omega
  simp [takeSchedule, encodeSchedule, List.append_assoc, takeOctet_encodeOctet _ mask,
    takeStart_encodeStart _ start startShort, takeOctet_encodeOctet _ passes, takeOptional_encodeOptional _ limit]

theorem takeStation_encodeStation {f : StationFields} (h : f.fits = true) :
    takeStation (encodeStation f ++ bs) = some (f, bs) := by
  simp only [StationFields.fits, Bool.and_eq_true] at h
  obtain ⟨⟨⟨source, hold⟩, gap⟩, reserve⟩ := h
  simp [takeStation, encodeStation, List.append_assoc, takeOctet_encodeOctet _ source, takeWord_encodeWord _ hold,
    takeOctet_encodeOctet _ gap, takeWord_encodeWord _ reserve]

theorem takeProfile_encodeProfile {f : ProfileFields} (h : f.fits = true) :
    takeProfile (encodeProfile f ++ bs) = some (f, bs) := by
  simp only [ProfileFields.fits, Bool.and_eq_true, and_assoc] at h
  obtain ⟨rate, code, lead, phasing, keyHold, permit, retry, quota, grace, telex, bulletin, categories, observe⟩ := h
  have read : takeProfile (encodeProfile f ++ bs) = some (⟨octetValue f.rate, octetValue f.code, octetValue f.lead,
      octetValue f.phasing, octetValue f.keyHold, wordValue f.permitTimeout, octetValue f.retryInterval,
      wordValue f.telexQuota, octetValue f.turnGrace, octetValue f.telexBurst, octetValue f.bulletinBurst,
      octetValue f.categories, octetValue f.observeSilence⟩, bs) := rfl
  rw [read, octetValue_of_fits rate, octetValue_of_fits code, octetValue_of_fits lead, octetValue_of_fits phasing,
    octetValue_of_fits keyHold, wordValue_of_fits permit, octetValue_of_fits retry, wordValue_of_fits quota,
    octetValue_of_fits grace, octetValue_of_fits telex, octetValue_of_fits bulletin, octetValue_of_fits categories,
    octetValue_of_fits observe]

end

/-! ### A field at the end of the payload -/

theorem readOctet_encodeOctet {n : Nat} (h : oneOctet n = true) : readOctet (encodeOctet n) = some n := by
  have read := takeOctet_encodeOctet [] h
  rw [List.append_nil] at read
  rw [readOctet, read]
  rfl

theorem readTwoOctets_encode {m n : Nat} (hm : oneOctet m = true) (hn : oneOctet n = true) :
    readTwoOctets (encodeOctet m ++ encodeOctet n) = some (m, n) := by
  have last := takeOctet_encodeOctet [] hn
  rw [List.append_nil] at last
  simp [readTwoOctets, takeOctet_encodeOctet _ hm, last, atEnd]

/-! ## The payload of a request (10: R168, section 10.8) -/

theorem length_encodeOctet (n : Nat) : (encodeOctet n).length = 1 := rfl

theorem length_encodeWord (n : Nat) : (encodeWord n).length = 2 := rfl

theorem length_encodeString (t : List Byte) : (encodeString t).length = t.length + 1 := rfl

theorem length_encodeOptional (o : Option Nat) : (encodeOptional o).length = optionalOctets o := by
  cases o <;> rfl

theorem length_flatMap_encodeWord (ms : List Nat) : (ms.flatMap encodeWord).length = 2 * ms.length := by
  induction ms with
  | nil => rfl
  | cons m ms ih =>
    rw [List.flatMap_cons, List.length_append, ih, length_encodeWord, List.length_cons]
    omega

theorem length_encodeStart (f : StartField) : (encodeStart f).length = f.octets := by
  cases f with
  | now => rfl
  | atMinutes ms =>
    simp only [encodeStart, List.length_cons, length_flatMap_encodeWord, StartField.octets]
    omega
  | every n => rfl

theorem length_encodeSchedule (f : ScheduleFields) : (encodeSchedule f).length = f.octets := by
  simp only [encodeSchedule, List.length_append, length_encodeOctet, length_encodeStart, length_encodeOptional,
    ScheduleFields.octets]
  omega

theorem length_encodeRequest (q : Request) : (encodeRequest q).length = q.encodeFields.length + 1 := rfl

/-- The reader of one field with nothing after it. -/
theorem take_at_end {α : Type} {take : List Byte → Option (α × List Byte)} {field : List Byte} {a : α}
    (h : take (field ++ []) = some (a, [])) : take field = some (a, []) := by
  rwa [List.append_nil] at h

theorem decodeRequest_encodeRequest {q : Request} (h : q.wellFormed = true) :
    decodeRequest (encodeRequest q) = some q := by
  cases q with
  | setStation f =>
    have read := take_at_end (takeStation_encodeStation [] h)
    show Option.map Request.setStation (atEnd (takeStation (encodeStation f))) = _
    rw [read]
    rfl
  | setClock m =>
    have read := take_at_end (takeWord_encodeWord [] h)
    show Option.map Request.setClock (atEnd (takeWord (encodeWord m))) = _
    rw [read]
    rfl
  | readStation => rfl
  | restart => rfl
  | setProfile ch f =>
    simp only [Request.wellFormed, Bool.and_eq_true] at h
    obtain ⟨channel, fields⟩ := h
    show readSetProfile (encodeOctet ch ++ encodeProfile f) = _
    simp [readSetProfile, takeOctet_encodeOctet _ channel, take_at_end (takeProfile_encodeProfile [] fields), atEnd]
  | channelOn ch => exact congrArg (Option.map _) (readOctet_encodeOctet h)
  | channelOff ch mode =>
    simp only [Request.wellFormed, Bool.and_eq_true] at h
    exact congrArg (Option.map fun p : Nat × Nat => Request.channelOff p.1 p.2) (readTwoOctets_encode h.1 h.2)
  | readChannel ch => exact congrArg (Option.map _) (readOctet_encodeOctet h)
  | openCircuit c ch t =>
    simp only [Request.wellFormed, Bool.and_eq_true, decide_eq_true_eq] at h
    obtain ⟨⟨circuit, channel⟩, short⟩ := h
    have few : t.length < 256 := by simp only [Config.payloadLimit] at short; omega
    show readOpenCircuit (encodeOctet c ++ encodeOctet ch ++ encodeString t) = _
    simp [readOpenCircuit, List.append_assoc, takeOctet_encodeOctet _ circuit, takeOctet_encodeOctet _ channel,
      take_at_end (takeString_encodeString [] few), atEnd]
  | circuitText c t =>
    simp only [Request.wellFormed, Bool.and_eq_true, decide_eq_true_eq] at h
    obtain ⟨circuit, short⟩ := h
    have few : t.length < 256 := by simp only [Config.payloadLimit] at short; omega
    show readCircuitText (encodeOctet c ++ encodeString t) = _
    simp [readCircuitText, takeOctet_encodeOctet _ circuit, take_at_end (takeString_encodeString [] few), atEnd]
  | holdCircuit c x =>
    simp only [Request.wellFormed, Bool.and_eq_true] at h
    exact congrArg (Option.map fun p : Nat × Nat => Request.holdCircuit p.1 p.2) (readTwoOctets_encode h.1 h.2)
  | moveCircuit c ch =>
    simp only [Request.wellFormed, Bool.and_eq_true] at h
    exact congrArg (Option.map fun p : Nat × Nat => Request.moveCircuit p.1 p.2) (readTwoOctets_encode h.1 h.2)
  | closeCircuit c mode =>
    simp only [Request.wellFormed, Bool.and_eq_true] at h
    exact congrArg (Option.map fun p : Nat × Nat => Request.closeCircuit p.1 p.2) (readTwoOctets_encode h.1 h.2)
  | readCircuit c => exact congrArg (Option.map _) (readOctet_encodeOctet h)
  | declareBulletin n ser cat len f =>
    simp only [Request.wellFormed, Bool.and_eq_true, decide_eq_true_eq, and_assoc] at h
    obtain ⟨number, serial, category, length, fields, short⟩ := h
    have few : f.octets < 256 := by simp only [Config.payloadLimit] at short; omega
    show readDeclare (encodeOctet n ++ encodeWord ser ++ encodeOctet cat ++ encodeWord len ++ encodeSchedule f) = _
    simp [readDeclare, List.append_assoc, takeOctet_encodeOctet _ number, takeWord_encodeWord _ serial,
      takeOctet_encodeOctet _ category, takeWord_encodeWord _ length,
      take_at_end (takeSchedule_encodeSchedule [] fields few), atEnd]
  | bulletinText n tgt b t =>
    simp only [Request.wellFormed, Bool.and_eq_true, decide_eq_true_eq, and_assoc] at h
    obtain ⟨number, target, block, short⟩ := h
    have few : t.length < 256 := by simp only [Config.payloadLimit] at short; omega
    show readBulletinText (encodeOctet n ++ encodeOctet tgt ++ encodeOptional b ++ encodeString t) = _
    simp [readBulletinText, List.append_assoc, takeOctet_encodeOctet _ number, takeOctet_encodeOctet _ target,
      takeOptional_encodeOptional _ block, take_at_end (takeString_encodeString [] few), atEnd]
  | amendBulletin n f =>
    simp only [Request.wellFormed, Bool.and_eq_true, decide_eq_true_eq, and_assoc] at h
    obtain ⟨number, fields, short⟩ := h
    have few : f.octets < 256 := by simp only [Config.payloadLimit] at short; omega
    show readAmend (encodeOctet n ++ encodeSchedule f) = _
    simp [readAmend, takeOctet_encodeOctet _ number, take_at_end (takeSchedule_encodeSchedule [] fields few), atEnd]
  | releaseBulletin n => exact congrArg (Option.map _) (readOctet_encodeOctet h)
  | withdrawBulletin n => exact congrArg (Option.map _) (readOctet_encodeOctet h)
  | clearMarks n => exact congrArg (Option.map _) (readOctet_encodeOctet h)
  | readBulletin n => exact congrArg (Option.map _) (readOctet_encodeOctet h)
  | readText n tgt off cnt =>
    simp only [Request.wellFormed, Bool.and_eq_true, and_assoc] at h
    obtain ⟨number, target, offset, count⟩ := h
    show readReadText (encodeOctet n ++ encodeOctet tgt ++ encodeWord off ++ encodeOctet cnt) = _
    simp [readReadText, List.append_assoc, takeOctet_encodeOctet _ number, takeOctet_encodeOctet _ target,
      takeWord_encodeWord _ offset, take_at_end (takeOctet_encodeOctet [] count), atEnd]
  | stageRevision n len =>
    simp only [Request.wellFormed, Bool.and_eq_true] at h
    obtain ⟨number, length⟩ := h
    show readStage (encodeOctet n ++ encodeWord len) = _
    simp [readStage, takeOctet_encodeOctet _ number, take_at_end (takeWord_encodeWord [] length), atEnd]
  | commitRevision n => exact congrArg (Option.map _) (readOctet_encodeOctet h)
  | discardRevision n => exact congrArg (Option.map _) (readOctet_encodeOctet h)

/-- The payload of a request fits a frame. -/
theorem length_encodeRequest_le {q : Request} (h : q.wellFormed = true) : (encodeRequest q).length ≤ 240 := by
  rw [length_encodeRequest]
  cases q with
  | openCircuit c ch t =>
    simp only [Request.wellFormed, Bool.and_eq_true, decide_eq_true_eq] at h
    simp only [Config.payloadLimit] at h
    simp only [Request.encodeFields, List.length_append, length_encodeOctet, length_encodeString]
    omega
  | circuitText c t =>
    simp only [Request.wellFormed, Bool.and_eq_true, decide_eq_true_eq] at h
    simp only [Config.payloadLimit] at h
    simp only [Request.encodeFields, List.length_append, length_encodeOctet, length_encodeString]
    omega
  | declareBulletin n ser cat len f =>
    simp only [Request.wellFormed, Bool.and_eq_true, decide_eq_true_eq] at h
    simp only [Config.payloadLimit] at h
    simp only [Request.encodeFields, List.length_append, length_encodeOctet, length_encodeWord, length_encodeSchedule]
    omega
  | bulletinText n tgt b t =>
    simp only [Request.wellFormed, Bool.and_eq_true, decide_eq_true_eq] at h
    simp only [Config.payloadLimit] at h
    simp only [Request.encodeFields, List.length_append, length_encodeOctet, length_encodeOptional, length_encodeString]
    omega
  | amendBulletin n f =>
    simp only [Request.wellFormed, Bool.and_eq_true, decide_eq_true_eq] at h
    simp only [Config.payloadLimit] at h
    simp only [Request.encodeFields, List.length_append, length_encodeOctet, length_encodeSchedule]
    omega
  | _ => exact Nat.le_of_ble_eq_true rfl

/-- Settles O59. -/
theorem payloadsAreReadBack : Obligations.PayloadsAreReadBack := fun _ wellFormed =>
  ⟨decodeRequest_encodeRequest wellFormed, length_encodeRequest_le wellFormed⟩

/-! ## A frame across the line (10: R167 to R170) -/

theorem State.setAssembly_setAssembly (s : State) (a b : Option Assembly) :
    (s.setAssembly a).setAssembly b = s.setAssembly b := rfl

theorem State.setAssembly_none {s : State} (h : s.link.assembly = none) : s.setAssembly none = s := by
  rw [← h]
  rfl

/-- The octets before the last of a frame are held, whatever the frame is of. -/
theorem State.receive_prefix {s : State} (hunting : s.link.assembly = none) {octets : List Byte}
    (first : octets[0]? = some sync) (announced : announcedLength octets ≤ Config.payloadLimit)
    (length : octets.length = announcedLength octets + 6) (k : Nat) (low : k + 1 < octets.length) :
    (octets.take (k + 1)).foldl State.receiveOctet s =
      s.setAssembly (some ⟨octets.take (k + 1), s.startTimer Config.interOctetPeriod⟩) := by
  induction k with
  | zero =>
    obtain ⟨o, rest, rfl⟩ := List.exists_cons_of_ne_nil (l := octets) (by rintro rfl; cases first)
    obtain rfl : o = sync := by simpa using first
    simp [State.receiveOctet_of_hunting hunting]
  | succ k ih =>
    have here : k + 1 < octets.length := by omega
    have step : octets.take (k + 1 + 1) = octets.take (k + 1) ++ [octets[k + 1]] := by
      rw [List.take_append_getElem]
    rw [step, List.foldl_append, ih (by omega), List.foldl_cons, List.foldl_nil,
      State.receiveOctet_of_assembling (by rfl), ← step]
    refine ((s.setAssembly _).holdOctet_of_unfinished ?_).trans rfl
    have taken : (octets.take (k + 1 + 1)).length = k + 1 + 1 := by rw [List.length_take]; omega
    by_cases short : k + 1 + 1 < 4
    · exact .inl (by omega)
    · refine .inr ?_
      have same : announcedLength (octets.take (k + 1 + 1)) = announcedLength octets := by
        rw [announcedLength, announcedLength, List.getElem?_take_of_lt (by omega)]
      rw [same]
      exact ⟨announced, by omega⟩

/-- The last octet of a frame has it checked. -/
theorem State.receive_frame {s : State} (hunting : s.link.assembly = none) {octets : List Byte}
    (first : octets[0]? = some sync) (announced : announcedLength octets ≤ Config.payloadLimit)
    (length : octets.length = announcedLength octets + 6) :
    octets.foldl State.receiveOctet s =
      s.checkFrame ((octets.drop 1).take (announcedLength octets + 3)) (octets.drop (announcedLength octets + 4)) := by
  obtain ⟨k, last⟩ : ∃ k, octets.length = k + 1 + 1 := ⟨announcedLength octets + 4, by omega⟩
  have split : octets = octets.take (k + 1) ++ [octets[k + 1]] := by
    rw [List.take_append_getElem, List.take_of_length_le (by omega)]
  have received : octets.foldl State.receiveOctet s =
      ((octets.take (k + 1)).foldl State.receiveOctet s).receiveOctet octets[k + 1] := by
    conv_lhs => rw [split]
    rw [List.foldl_append, List.foldl_cons, List.foldl_nil]
  rw [received, State.receive_prefix hunting first announced length k (by omega),
    State.receiveOctet_of_assembling (by rfl), ← split,
    State.holdOctet_of_whole _ (by omega) announced (by omega), State.setAssembly_setAssembly,
    State.setAssembly_none hunting]

/-- The control octet of a request carries its kind, its MORE and its position (10: R168). -/
theorem controlOctet_request (more : Bool) (position : BitVec 4) :
    (controlOctet requestKind more position).extractLsb' 6 2 = requestKind ∧
      (controlOctet requestKind more position).extractLsb' 0 4 = position ∧
      (controlOctet requestKind more position).getLsbD 5 = more := by
  revert more position
  decide

/-- Settles O60. -/
theorem framesCrossTheLine : Obligations.FramesCrossTheLine := by
  intro s f hunting short
  have count : (crcOctets (controlOctet requestKind f.more f.position :: f.tag ::
      BitVec.ofNat 8 f.payload.length :: f.payload)).length = 2 := rfl
  have announced : State.announcedLength f.octets = f.payload.length := by
    have small : f.payload.length < 256 := by omega
    simp [State.announcedLength, Frame.octets, frameOctets, Nat.mod_eq_of_lt small]
  have length : f.octets.length = State.announcedLength f.octets + 6 := by
    rw [announced, Frame.octets, frameOctets]
    simp only [List.length_cons, List.length_append, count]
  rw [State.receive_frame hunting (by rfl) (by rw [announced]; exact short) length, announced]
  have inside : (f.octets.drop 1).take (f.payload.length + 3) = controlOctet requestKind f.more f.position :: f.tag ::
      BitVec.ofNat 8 f.payload.length :: f.payload := by
    simp [Frame.octets, frameOctets]
  have checksum : f.octets.drop (f.payload.length + 4) = crcOctets (controlOctet requestKind f.more f.position :: f.tag ::
      BitVec.ofNat 8 f.payload.length :: f.payload) := by
    simp [Frame.octets, frameOctets]
  obtain ⟨kind, position, more⟩ := controlOctet_request f.more f.position
  have frame : frameOf (controlOctet requestKind f.more f.position) f.tag f.payload = f := by
    rw [frameOf, position, more]
  rw [inside, checksum]
  unfold State.checkFrame
  dsimp only
  rw [if_neg (not_not.mpr rfl), if_pos kind, frame]

end Sys2Proof.Machine
end

section
/-! PROOFS. The broadcast queue and the choice of the turn selector (07: R113 to R120). -/

namespace Sys2Proof.Machine

/-! ## The two places of a queue (07: R114) -/

/-- Settles O47: an entry is put where a test of the classes first fails. -/
theorem entriesStandByClass : Obligations.EntriesStandByClass := by
  intro q e sorted
  refine ⟨⟨_, _, List.takeWhile_append_dropWhile.symm, rfl, fun x mem => ?_, dropWhile_rank sorted⟩,
    ⟨_, _, List.takeWhile_append_dropWhile.symm, rfl, fun x mem => ?_, dropWhile_rank_lt sorted⟩⟩
  · simpa using List.mem_takeWhile_imp mem
  · simpa using List.mem_takeWhile_imp mem

/-! ## The rotation (07: R120) -/

theorem Channel.rotation_of_none {x : Channel} (h : x.lastServed = none) : x.rotation = x.bound := by
  simp [Channel.rotation, h]

theorem Channel.rotation_of_gone {x : Channel} {c : Fin 32} (h : x.lastServed = some c) (gone : c ∉ x.bound) :
    x.rotation = x.bound := by
  simp [Channel.rotation, h, gone]

theorem Channel.rotation_of_served {x : Channel} {c : Fin 32} {before after : List (Fin 32)} (h : x.lastServed = some c)
    (bound : x.bound = before ++ c :: after) (first : c ∉ before) : x.rotation = after ++ before ++ [c] := by
  have place : x.bound.idxOf c = before.length := by
    rw [bound, List.idxOf_append_of_notMem first, List.idxOf_cons_self, Nat.add_zero]
  have listed : c ∈ x.bound := by simp [bound]
  have split : x.bound = (before ++ [c]) ++ after := by simp [bound]
  have count : before.length + 1 = (before ++ [c]).length := by simp
  simp only [Channel.rotation, h, if_pos listed, place]
  rw [split, count, List.drop_left, List.take_left, List.append_assoc]

/-! ## The choice (07: R119) -/

section

variable {s : State} {ch : Fin 8}

theorem State.choose_of_distress {e : Entry} (h : s.headEligible ch 0 = some e) : s.choose ch = .entry e := by
  simp [State.choose, h]

theorem State.choose_of_urgency {e : Entry} (none0 : s.headEligible ch 0 = none) (h : s.headEligible ch 1 = some e) :
    s.choose ch = .entry e := by
  simp [State.choose, none0, h]

/-! With no entry of class 0 or 1: -/

variable (none0 : s.headEligible ch 0 = none) (none1 : s.headEligible ch 1 = none)

include none0 none1

theorem State.choose_of_second {e : Entry} (below : (s.channel ch).bulletinRun < (s.channel ch).settings.bulletinBurst)
    (h : s.headEligible ch 2 = some e) : s.choose ch = .entry e := by
  simp [State.choose, none0, none1, below, h]

theorem State.choose_of_third {e : Entry} (below : (s.channel ch).bulletinRun < (s.channel ch).settings.bulletinBurst)
    (reached : (s.channel ch).settings.telexBurst ≤ (s.channel ch).telexRun) (none2 : s.headEligible ch 2 = none)
    (h : s.headEligible ch 3 = some e) : s.choose ch = .entry e := by
  simp [State.choose, none0, none1, below, reached, none2, h]

variable
  (none2 : (s.channel ch).bulletinRun < (s.channel ch).settings.bulletinBurst → s.headEligible ch 2 = none)
  (none3 : (s.channel ch).settings.telexBurst ≤ (s.channel ch).telexRun →
    (s.channel ch).bulletinRun < (s.channel ch).settings.bulletinBurst → s.headEligible ch 3 = none)

include none2 none3

theorem State.choose_of_next {c : Fin 32} (h : s.nextCircuit ch = some c) : s.choose ch = .circuit c := by
  by_cases below : (s.channel ch).bulletinRun < (s.channel ch).settings.bulletinBurst
  · by_cases reached : (s.channel ch).settings.telexBurst ≤ (s.channel ch).telexRun
    · simp [State.choose, none0, none1, none2 below, none3 reached below, h]
    · simp [State.choose, none0, none1, none2 below, reached, h]
  · simp [State.choose, none0, none1, below, h]

theorem State.choose_of_rest {e : Entry} (noNext : s.nextCircuit ch = none) (h : s.headEligibleAny ch = some e) :
    s.choose ch = .entry e := by
  by_cases below : (s.channel ch).bulletinRun < (s.channel ch).settings.bulletinBurst
  · by_cases reached : (s.channel ch).settings.telexBurst ≤ (s.channel ch).telexRun
    · simp [State.choose, none0, none1, none2 below, none3 reached below, noNext, h]
    · simp [State.choose, none0, none1, none2 below, reached, noNext, h]
  · simp [State.choose, none0, none1, below, noNext, h]

end

section

variable {s : State} {ch : Fin 8}

theorem State.anythingEligible_eq_false (noNext : s.nextCircuit ch = none) (noHead : s.headEligibleAny ch = none) :
    s.anythingEligible ch = false := by
  rw [State.anythingEligible, State.headEligibleAny_none noHead, State.nextCircuit_none noNext]
  rfl

theorem State.choose_circuitEligible {c : Fin 32} (h : s.choose ch = .circuit c) :
    c ∈ (s.channel ch).bound ∧ s.circuitEligible ch c = true :=
  ⟨State.choose_circuit_bound h, State.choose_circuit h⟩

theorem State.anythingEligible_iff : s.anythingEligible ch = true ↔
    (∃ e ∈ (s.channel ch).queue, s.entryEligible ch e = true) ∨
      ∃ c ∈ (s.channel ch).bound, s.circuitEligible ch c = true := by
  simp [State.anythingEligible]

theorem State.choose_nothing_iff : s.choose ch = .nothing ↔ s.anythingEligible ch = false := by
  refine ⟨State.choose_nothing, fun h => ?_⟩
  have none := Bool.eq_false_iff.mp h
  rw [ne_eq, State.anythingEligible_iff, not_or] at none
  cases chosen : s.choose ch with
  | entry e => exact absurd ⟨e, State.choose_entry chosen⟩ none.1
  | circuit c => exact absurd ⟨c, State.choose_circuitEligible chosen⟩ none.2
  | nothing => rfl

theorem State.entryEligible_iff (s : State) (ch : Fin 8) (e : Entry) : s.entryEligible ch e = true ↔
    ∃ b, s.bulletin e.bulletin = some b ∧ b.state = .released ∧ b.commitPending = false ∧
      (s.silenced ch = true → e.rank = 0) := by
  refine ⟨State.entryEligible_spec, fun ⟨b, present, released, settled, silence⟩ => ?_⟩
  rw [State.entryEligible, present]
  cases silenced : s.silenced ch with
  | false => simp [released, settled]
  | true => simp [released, settled, silence silenced]

theorem Channel.carriesCircuit_iff (x : Channel) (c : Fin 32) : x.carriesCircuit c = true ↔
    ∃ t z, x.turn = some t ∧ t.kind = .telex z ∧ z.circuit = c := by
  unfold Channel.carriesCircuit
  cases x.turn with
  | none => simp
  | some t =>
    cases kind : t.kind with
    | telex z => simp [kind, TurnKind.isTurnOf]
    | pass p => simp [kind, TurnKind.isTurnOf]

theorem State.onAir_eq_false_iff (s : State) (c : Fin 32) : s.onAir c = false ↔
    ∀ t z, (s.channel (s.circuit c).channel).turn = some t → t.kind = .telex z → z.circuit ≠ c := by
  rw [State.onAir, Bool.eq_false_iff, ne_eq, Channel.carriesCircuit_iff]
  push Not
  exact Iff.rfl

theorem State.circuitEligible_iff (s : State) (ch : Fin 8) (c : Fin 32) : s.circuitEligible ch c = true ↔
    s.silenced ch = false ∧ (s.circuit c).life ≠ .free ∧ (s.circuit c).hostHold = false ∧
      (s.circuit c).channelHold = false ∧ 1 ≤ (s.circuit c).count ∧
      ∀ t z, (s.channel (s.circuit c).channel).turn = some t → t.kind = .telex z → z.circuit ≠ c := by
  rw [← State.onAir_eq_false_iff]
  simp only [State.circuitEligible, State.waiting, Bool.and_eq_true, Bool.not_eq_true', decide_eq_true_eq]
  tauto

end

/-- Settles O46. -/
theorem selectionTakesTheFirstChoice : Obligations.SelectionTakesTheFirstChoice := by
  intro s ch x first early second third plain
  have heads : ∀ k, first k = s.headEligible ch k := fun _ => rfl
  have plainly : plain = true → s.headEligible ch 0 = none ∧ s.headEligible ch 1 = none := by
    simp only [plain, heads, Bool.and_eq_true, Option.isNone_iff_eq_none]
    exact id
  refine ⟨fun e h => State.choose_of_distress h, fun e none0 h => State.choose_of_urgency none0 h,
    fun e isPlain isSecond h => ?_, fun e isPlain notSecond isThird h => ?_, fun isPlain notSecond notThird => ?_, ?_⟩
  · obtain ⟨none0, none1⟩ := plainly isPlain
    simp only [second, early, Bool.and_eq_true, decide_eq_true_eq] at isSecond
    exact State.choose_of_second none0 none1 isSecond.1 h
  · obtain ⟨none0, none1⟩ := plainly isPlain
    simp only [third, early, Bool.and_eq_true, decide_eq_true_eq] at isThird
    obtain ⟨⟨bulletins, telexes⟩, -⟩ := isThird
    have none2 : s.headEligible ch 2 = none := by
      simpa [second, early, heads, bulletins] using notSecond
    exact State.choose_of_third none0 none1 bulletins telexes none2 h
  · obtain ⟨none0, none1⟩ := plainly isPlain
    have none2 : x.bulletinRun < x.settings.bulletinBurst → s.headEligible ch 2 = none := fun below => by
      simpa [second, early, heads, below] using notSecond
    have none3 : x.settings.telexBurst ≤ x.telexRun → x.bulletinRun < x.settings.bulletinBurst →
        s.headEligible ch 3 = none := fun reached below => by
      simpa [third, early, heads, reached, below] using notThird
    exact ⟨fun c next => State.choose_of_next none0 none1 none2 none3 next, fun noNext =>
      ⟨fun e head => State.choose_of_rest none0 none1 none2 none3 noNext head, fun noHead =>
        State.choose_nothing_iff.mpr (State.anythingEligible_eq_false noNext noHead)⟩⟩
  · intro silenced
    exact ⟨s.entryEligible_iff ch, s.circuitEligible_iff ch, Channel.rotation_of_none,
      fun c => Channel.rotation_of_gone, fun c before after => Channel.rotation_of_served,
      fun e => State.choose_entry, fun c => State.choose_circuitEligible, State.choose_nothing_iff,
      State.anythingEligible_iff⟩

end Sys2Proof.Machine
end

section
/-! PROOFS. The requests on the station, the profile of a channel and the opening of a circuit (11: R182; 06: R92; 05: R73),
and the fields of a record checked in their order. -/

namespace Sys2Proof.Machine

/-- A served request row gives its block's answer (10: R173). -/
theorem exec_answers {i : Instr} {r : ReplyTo} {q : Request} {s u : State} {v : Verdict} (served : s.serves)
    (answer : runRequest q s = (u, v)) (h : i.request = some (r, q) := by rfl) (hq : q ≠ .restart := by nofun) :
    exec i s = .next (u.replied r q.kindCode v) := by
  rw [exec_of_request h hq, request_of_serves served, answer]

/-! ## Fields checked in their order (10: R169) -/

/-- The first check that fails names its field; with none, the record is put in force. -/
def checked {α : Type} : List Bool → Nat → α → Except Verdict α
  | [], _, a => .ok a
  | b :: bs, field, a => if !b then .error (.range field) else checked bs (field + 1) a

theorem checked_of_all {α : Type} {bs : List Bool} (h : bs.all id = true) (field : Nat) (a : α) :
    checked bs field a = .ok a := by
  induction bs generalizing field with
  | nil => rfl
  | cons b bs ih =>
    rw [List.all_cons, Bool.and_eq_true] at h
    obtain ⟨first, later⟩ := h
    have first : b = true := first
    rw [checked, first, if_neg (by decide), ih later]

theorem checked_of_fault {α : Type} {bs : List Bool} {k : Nat} (h : bs.findIdx? (fun b => !b) = some k) (field : Nat)
    (a : α) : checked bs field a = .error (.range (field + k)) := by
  induction bs generalizing field k with
  | nil => cases h
  | cons b bs ih =>
    cases b with
    | false =>
      obtain rfl : 0 = k := by simpa [List.findIdx?_cons] using h
      rfl
    | true =>
      simp only [List.findIdx?_cons, Bool.not_true, Bool.false_eq_true, if_false, Option.map_eq_some_iff] at h
      obtain ⟨j, later, rfl⟩ := h
      rw [checked, Bool.not_true, if_neg (by decide), ih later]
      rw [show field + 1 + j = field + (j + 1) by omega]

/-! ## The profile record (06: R92) -/

theorem codeAt_eq (n : Nat) : codeAt n = if n ≤ 1 then some (if n = 0 then .fiveUnit else .sevenUnit) else none := by
  match n with
  | 0 => rfl
  | 1 => rfl
  | n + 2 => simp [codeAt]

theorem flagAt_eq (n : Nat) : flagAt n = if n ≤ 1 then some (decide (n = 1)) else none := by
  match n with
  | 0 => rfl
  | 1 => rfl
  | n + 2 => simp [flagAt]

theorem mem_allCategories (k : Category) : k ∈ allCategories := by
  cases k <;> decide

/-- The fields of a profile record in their ranges, in the order of the table. -/
def profileChecks (f : ProfileFields) : List Bool := [
  [50, 75, 100, 200].contains f.rate, decide (f.code ≤ 1), decide (f.lead ≤ 32), decide (4 ≤ f.phasing ∧ f.phasing ≤ 64),
  decide (f.keyHold ≤ 255), decide (100 ≤ f.permitTimeout ∧ f.permitTimeout ≤ 5000),
  decide (1 ≤ f.retryInterval ∧ f.retryInterval ≤ 60), decide (64 ≤ f.telexQuota ∧ f.telexQuota ≤ 2048),
  decide (2 ≤ f.turnGrace ∧ f.turnGrace ≤ 64), decide (1 ≤ f.telexBurst ∧ f.telexBurst ≤ 8),
  decide (1 ≤ f.bulletinBurst ∧ f.bulletinBurst ≤ 8), decide (f.categories ≤ 127), decide (f.observeSilence ≤ 1)]

/-- The profile that an accepted record gives. -/
def profileOf (f : ProfileFields) : Profile where
  rate := f.rate
  code := if f.code = 0 then .fiveUnit else .sevenUnit
  lead := f.lead
  phasing := f.phasing
  keyHold := f.keyHold
  permitTimeout := f.permitTimeout
  retryInterval := f.retryInterval
  telexQuota := f.telexQuota
  turnGrace := f.turnGrace
  telexBurst := f.telexBurst
  bulletinBurst := f.bulletinBurst
  categories := allCategories.filter fun k => f.categories.testBit k.place
  observeSilence := decide (f.observeSilence = 1)

theorem within_eq_decide (low high n : Nat) : within low high n = decide (low ≤ n ∧ n ≤ high) := by
  simp [within, Bool.decide_and]

theorem acceptProfile_eq (f : ProfileFields) : acceptProfile f = checked (profileChecks f) 1 (profileOf f) := by
  have categories : categoriesOfMask f.categories =
      if f.categories ≤ 127 then some (allCategories.filter fun k => f.categories.testBit k.place) else none := by
    simp [categoriesOfMask, Nat.lt_succ_iff]
  simp only [acceptProfile, profileChecks, checked, codeAt_eq, flagAt_eq, categories, within_eq_decide,
    Nat.zero_le, true_and]
  by_cases code : f.code ≤ 1
  · by_cases set : f.categories ≤ 127
    · by_cases observe : f.observeSilence ≤ 1
      · simp only [code, set, observe, if_true, decide_true, Bool.not_true, Bool.false_eq_true, if_false]
        rfl
      · simp only [code, set, observe, if_true, decide_true, decide_false, Bool.not_true, Bool.not_false,
          Bool.false_eq_true, if_false]
    · simp only [code, set, if_true, decide_true, decide_false, Bool.not_true, Bool.not_false, Bool.false_eq_true,
        if_false]
  · simp only [code, decide_false, Bool.not_false, if_true, if_false]

theorem setProfile_of_writable {s : State} {ch : Fin 8} (h : (s.channel ch).state ∈ [.unset, .off]) (f : ProfileFields) :
    setProfile ch f s = match acceptProfile f with
      | .error v => (s, v)
      | .ok p => (s.setChannel ch { s.channel ch with profile := some p, state := .off }, .ok) := by
  rw [← Channel.profileWritable_iff] at h
  unfold setProfile
  rw [channelNumber_val]
  dsimp only
  rw [h, Bool.not_true, if_neg (by decide)] <;> rfl

/-- Settles O13. -/
theorem setProfilePutsTheRecordInForce : Obligations.SetProfilePutsTheRecordInForce := by
  intro r ch f s served writable inRange
  have checks : inRange = (profileChecks f) := rfl
  refine ⟨fun k fault => ?_, fun all => ⟨profileOf f, rfl, rfl, rfl, rfl, rfl, rfl, rfl, rfl, rfl, rfl, rfl,
    fun k => ?_, rfl, ?_⟩⟩
  · refine exec_answers (q := .setProfile ch f) served ?_
    rw [runRequest, setProfile_of_writable writable, acceptProfile_eq, checked_of_fault (checks ▸ fault)]
    rw [show 1 + k = k + 1 from Nat.add_comm 1 k]
    rfl
  · simp [profileOf, mem_allCategories]
  · refine exec_answers (q := .setProfile ch f) served ?_
    rw [runRequest, setProfile_of_writable writable, acceptProfile_eq, checked_of_all (checks ▸ all)]

/-! ## OPEN CIRCUIT (05: R73) -/

theorem acceptedCallUp_iff (x : Byte) : acceptedCallUp x = true ↔ 0x20 ≤ x.toNat ∧ x.toNat ≤ 0x7E := by
  simp [acceptedCallUp, BitVec.le_def]

section

variable {s : State} {c : Fin 32} (free : (s.circuit c).life = .free) (callUp : List Byte)

include free

theorem openCircuit_of_bad_channel {n : Nat} (h : 8 ≤ n) : openCircuit c n callUp s = (s, .range 1) := by
  rw [openCircuit, onCircuit_val, if_neg (not_not.mpr free), channelNumber_of_le 1 h]

/-- The checks of an opening in their order, on a channel that is. -/
theorem openCircuit_val (ch : Fin 8) : openCircuit c ch callUp s =
    if !within 1 12 callUp.length then (s, .range 2)
    else if !callUp.all acceptedCallUp then (s, .fail .badCharacter)
    else if (s.channel ch).profile = none then (s, .fail .state)
    else (s.openOn c ch callUp, .ok) := by
  rw [openCircuit, onCircuit_val, if_neg (not_not.mpr free), channelNumber_val]

end

/-- Settles O16. -/
theorem openCircuitBindsTheCircuit : Obligations.OpenCircuitBindsTheCircuit := by
  intro r c n callUp s served free
  refine ⟨fun high => ?_, fun ch same => ?_⟩
  · exact exec_answers (q := .openCircuit c n callUp) served (openCircuit_of_bad_channel free callUp high)
  subst same
  have answers : ∀ u v, openCircuit c ch callUp s = (u, v) → exec (.openCircuit r c ch callUp) s =
      .next (u.replied r 0x20 v) := fun u v answer => exec_answers (q := .openCircuit c ch callUp) served answer
  have opening := openCircuit_val free callUp ch
  refine ⟨fun bad => ?_, fun low high => ⟨fun bad => ?_, fun good => ⟨fun noProfile => ?_, fun profile => ?_⟩⟩⟩
  · refine answers _ _ (opening.trans (if_pos ?_))
    rw [Bool.not_eq_true', Bool.eq_false_iff, ne_eq, within_iff]
    omega
  all_goals
    have count : within 1 12 callUp.length = true := within_iff.mpr ⟨low, high⟩
    rw [count, Bool.not_true, if_neg (by decide)] at opening
  · refine answers _ _ (opening.trans (if_pos ?_))
    obtain ⟨x, mem, out⟩ := bad
    rw [Bool.not_eq_true', List.all_eq_false]
    refine ⟨x, mem, fun accepted => ?_⟩
    rw [acceptedCallUp_iff] at accepted
    omega
  all_goals
    have accepted : callUp.all acceptedCallUp = true :=
      List.all_eq_true.mpr fun x mem => (acceptedCallUp_iff x).mpr (good x mem)
    rw [accepted, Bool.not_true, if_neg (by decide)] at opening
  · exact answers _ _ (opening.trans (if_pos noProfile))
  · exact answers _ _ (opening.trans (if_neg profile))

/-! ## The hold timers under a new limit (05: R78) -/

/-- The record of a circuit once its wait has been tried against the hold limit. -/
def State.expired (s : State) (c : Fin 32) : Circuit :=
  { s.circuit c with holdNotified := (s.circuit c).holdNotified ||
      (s.circuit c).waitStart.any fun w => decide (w + Config.seconds s.holdLimit ≤ s.now) }

theorem State.expireHold_of_none {s : State} {c : Fin 32} (h : s.holdDue c = none) : s.expireHold c = s := by
  simp [State.expireHold, h]

theorem State.expired_eq {s : State} {c : Fin 32} {b : Bool} (h : ((s.circuit c).holdNotified ||
    (s.circuit c).waitStart.any fun w => decide (w + Config.seconds s.holdLimit ≤ s.now)) = b) :
    s.expired c = { s.circuit c with holdNotified := b } := by
  rw [State.expired, h]

theorem State.expireHold_self (s : State) (c : Fin 32) : (s.expireHold c).circuit c = s.expired c ∧
    ((s.circuit c).holdNotified = false → (s.expired c).holdNotified = true →
      (s.expireHold c).reports (.circuit c) .holdExceeded) := by
  cases notified : (s.circuit c).holdNotified with
  | true =>
    rw [State.expireHold_of_none (State.holdDue_of_stopped (.inr notified)), State.expired_eq (b := true) (by simp [notified])]
    exact ⟨by rw [← notified], nofun⟩
  | false =>
    cases waits : (s.circuit c).waitStart with
    | none =>
      rw [State.expireHold_of_none (State.holdDue_of_stopped (.inl waits)),
        State.expired_eq (b := false) (by simp [notified, waits])]
      exact ⟨by rw [← notified], nofun⟩
    | some w =>
      rw [State.expireHold, State.holdDue_of_running waits notified, Option.any_some]
      by_cases due : w + Config.seconds s.holdLimit ≤ s.now
      · rw [if_pos (by simpa using due), State.expired_eq (b := true) (by simp [waits, due])]
        exact ⟨(State.circuit_setCircuit ..).trans (if_pos rfl), fun _ _ => State.reports_raiseEvent ..⟩
      · rw [if_neg (by simpa using due), State.expired_eq (b := false) (by simp [notified, waits, due])]
        exact ⟨by rw [← notified], nofun⟩

theorem State.expireHold_other (s : State) {c d : Fin 32} (h : c ≠ d) : (s.expireHold c).circuit d = s.circuit d := by
  unfold State.expireHold
  split
  · exact (State.circuit_setCircuit ..).trans (if_neg h)
  · rfl

theorem State.expireHold_frame (s : State) (c : Fin 32) : s.expireHold c =
    { s with circuits := (s.expireHold c).circuits, notices := (s.expireHold c).notices } := by
  unfold State.expireHold
  split <;> rfl

theorem State.expireHold_keeps {s : State} {key : NoticeKey} {e : NoticeEvent} (h : s.reports key e) (c : Fin 32) :
    (s.expireHold c).reports key e := by
  unfold State.expireHold
  split
  · exact State.reports_raise h _ _ _
  · exact h

theorem State.expired_congr {s t : State} {c : Fin 32} (circuit : t.circuit c = s.circuit c)
    (limit : t.holdLimit = s.holdLimit) (now : t.now = s.now) : t.expired c = s.expired c := by
  rw [State.expired, State.expired, circuit, limit, now]

/-- What the trial of some waits, each once, has done. -/
theorem State.expireAll_spec {l : List (Fin 32)} (once : l.Nodup) (s : State) :
    l.foldl State.expireHold s = { s with
      circuits := (l.foldl State.expireHold s).circuits, notices := (l.foldl State.expireHold s).notices } ∧
    (∀ key e, s.reports key e → (l.foldl State.expireHold s).reports key e) ∧
    ∀ d, (d ∉ l → (l.foldl State.expireHold s).circuit d = s.circuit d) ∧
      (d ∈ l → (l.foldl State.expireHold s).circuit d = s.expired d ∧
        ((s.circuit d).holdNotified = false → (s.expired d).holdNotified = true →
          (l.foldl State.expireHold s).reports (.circuit d) .holdExceeded)) := by
  induction l generalizing s with
  | nil => exact ⟨rfl, fun _ _ h => h, fun d => ⟨fun _ => rfl, nofun⟩⟩
  | cons c cs ih =>
    obtain ⟨new, onceLater⟩ := List.nodup_cons.mp once
    obtain ⟨frame, keeps, each⟩ := ih onceLater (s.expireHold c)
    have step := s.expireHold_frame c
    have limit : (s.expireHold c).holdLimit = s.holdLimit := by rw [step]
    have now : (s.expireHold c).now = s.now := by rw [step]
    rw [List.foldl_cons]
    refine ⟨?_, fun key e h => keeps key e (State.expireHold_keeps h c), fun d => ⟨fun other => ?_, fun mem => ?_⟩⟩
    · have rest : ∀ x y, ({ s.expireHold c with circuits := x, notices := y } : State) =
          { s with circuits := x, notices := y } := fun _ _ => by rw [step]
      exact frame.trans (rest _ _)
    · rw [List.mem_cons, not_or] at other
      exact ((each d).1 other.2).trans (s.expireHold_other (Ne.symm other.1))
    · by_cases same : d = c
      · subst same
        obtain ⟨self, reported⟩ := s.expireHold_self d
        exact ⟨((each d).1 new).trans self, fun before after => keeps _ _ (reported before after)⟩
      · have later := (each d).2 ((List.mem_cons.mp mem).resolve_left same)
        have here := s.expireHold_other (d := d) (Ne.symm same)
        rw [State.expired_congr here limit now, here] at later
        exact later

/-- The hold limit put in force (05: R78). -/
theorem State.setHoldLimit_spec (s : State) (limit : Nat) :
    s.setHoldLimit limit = { s with
      holdLimit := limit, circuits := (s.setHoldLimit limit).circuits, notices := (s.setHoldLimit limit).notices } ∧
    (∀ key e, s.reports key e → (s.setHoldLimit limit).reports key e) ∧
    ∀ d, (s.setHoldLimit limit).circuit d = { s.circuit d with
        holdNotified := (s.circuit d).holdNotified || (decide (limit ≠ s.holdLimit) &&
          (s.circuit d).waitStart.any fun w => decide (w + Config.seconds limit ≤ s.now)) } ∧
      ((s.circuit d).holdNotified = false → ((s.setHoldLimit limit).circuit d).holdNotified = true →
        (s.setHoldLimit limit).reports (.circuit d) .holdExceeded) := by
  unfold State.setHoldLimit
  split
  · next same =>
    subst same
    refine ⟨rfl, fun _ _ h => h, fun d => ⟨?_, fun before after => ?_⟩⟩
    · simp
    · rw [before] at after
      cases after
  · next other =>
    obtain ⟨frame, keeps, each⟩ := State.expireAll_spec (List.nodup_finRange 32) { s with holdLimit := limit }
    refine ⟨frame, keeps, fun d => ?_⟩
    obtain ⟨expired, reported⟩ := (each d).2 (List.mem_finRange d)
    have changed : decide (limit ≠ s.holdLimit) = true := by simpa using Ne.symm other
    refine ⟨expired.trans ?_, fun before after => reported before (expired ▸ after)⟩
    rw [changed, Bool.true_and]
    rfl

/-! ## SET STATION (11: R182; 04: R60) -/

theorem State.setMarkSource_frame (s : State) (m : MarkSource) : s.setMarkSource m =
    { s with clock := (s.setMarkSource m).clock, notices := (s.setMarkSource m).notices } := by
  unfold State.setMarkSource
  split
  · rfl
  · cases m with
    | external => rfl
    | internal => dsimp only; split <;> rfl

/-- The settings put in force, but for what the new limit makes of the waits. -/
theorem State.putSettings_frame (s : State) (m : MarkSource) (f : StationFields) : s.putSettings m f =
    { s with
      clock := (s.setMarkSource m).clock, holdLimit := f.holdLimit, gapTimeout := f.gapTimeout
      store := { s.store with reserve := f.storeReserve }
      circuits := ((s.setMarkSource m).setHoldLimit f.holdLimit).circuits
      notices := ((s.setMarkSource m).setHoldLimit f.holdLimit).notices } := by
  unfold State.putSettings
  dsimp only
  obtain ⟨frame, -, -⟩ := (s.setMarkSource m).setHoldLimit_spec f.holdLimit
  rw [frame, s.setMarkSource_frame m]

section

variable {s : State} {f : StationFields} (r : ReplyTo) (served : s.serves)

theorem markSourceAt_of_lt {n : Nat} (h : n < 2) :
    markSourceAt n = some (if n = 0 then MarkSource.external else .internal) := by
  match n, h with
  | 0, _ => rfl
  | 1, _ => rfl

theorem markSourceAt_of_le {n : Nat} (h : 2 ≤ n) : markSourceAt n = none := by
  match n, h with
  | n + 2, _ => rfl

theorem setStation_of_source {m : MarkSource} (h : markSourceAt f.markSource = some m) : setStation f s =
    if !within 10 600 f.holdLimit then (s, .range 1)
    else if !within 2 120 f.gapTimeout then (s, .range 2)
    else if !within 0 s.reserveCeiling f.storeReserve then (s, .range 3)
    else (s.putSettings m f, .ok) := by
  rw [setStation, h]

theorem not_within_iff {low high n : Nat} : (!within low high n) = true ↔ n < low ∨ high < n := by
  rw [Bool.not_eq_true', Bool.eq_false_iff, ne_eq, within_iff]
  omega

theorem not_within_of_mem {low high n : Nat} (hl : low ≤ n) (hh : n ≤ high) : ¬ (!within low high n) = true := by
  rw [not_within_iff]
  omega

end

theorem State.setMarkSource_self (s : State) : s.setMarkSource s.clock.source = s := if_pos rfl

theorem State.setMarkSource_internal {s : State} (h : s.clock.source ≠ .internal) :
    (s.setMarkSource .internal).clock = { s.clock with
      source := .internal, status := .drifting, markLatched := false
      advanceTimer := ⟨Config.seconds 60, s.now + Config.seconds 60⟩ } ∧
    (s.clock.status = .locked → (s.setMarkSource .internal).reports .station .clockDrifting) := by
  unfold State.setMarkSource
  rw [if_neg h]
  dsimp only
  by_cases locked : s.clock.status = .locked
  · rw [if_pos locked]
    exact ⟨rfl, fun _ => State.reports_raiseEvent ..⟩
  · rw [if_neg locked]
    exact ⟨rfl, fun h => absurd h locked⟩

theorem State.setMarkSource_external {s : State} (h : s.clock.source ≠ .external) :
    (s.setMarkSource .external).clock = { s.clock with
      source := .external, markLatched := false
      advanceTimer := ⟨Config.seconds 61, s.now + Config.seconds 61⟩ } := by
  unfold State.setMarkSource
  rw [if_neg h]
  rfl

/-- Settles O9. -/
theorem setStationPutsSettingsInForce : Obligations.SetStationPutsSettingsInForce := by
  intro r f s served ceiling
  have answers : ∀ u v, setStation f s = (u, v) → exec (.setStation r f) s = .next (u.replied r 0x01 v) :=
    fun u v answer => exec_answers (q := .setStation f) served answer
  refine ⟨fun bad => ?_, fun source bad => ?_, fun source lowHold highHold bad => ?_,
    fun source lowHold highHold lowGap highGap bad => ?_, fun source lowHold highHold lowGap highGap reserve => ?_⟩
  · exact answers _ _ (by rw [setStation, markSourceAt_of_le bad] <;> rfl)
  all_goals have checks := setStation_of_source (s := s) (f := f) (markSourceAt_of_lt source)
  · exact answers _ _ (checks.trans (if_pos (not_within_iff.mpr bad)))
  all_goals rw [if_neg (not_within_of_mem lowHold highHold)] at checks
  · exact answers _ _ (checks.trans (if_pos (not_within_iff.mpr bad)))
  all_goals rw [if_neg (not_within_of_mem lowGap highGap)] at checks
  · exact answers _ _ (checks.trans (if_pos (not_within_iff.mpr (.inr bad))))
  have reserve : f.storeReserve ≤ s.reserveCeiling := reserve
  rw [if_neg (not_within_of_mem (Nat.zero_le _) reserve)] at checks
  intro m
  refine ⟨s.putSettings m f, answers _ _ checks, ?_⟩
  obtain ⟨-, keeps, each⟩ := (s.setMarkSource m).setHoldLimit_spec f.holdLimit
  have frame := s.setMarkSource_frame m
  have settings := s.putSettings_frame m f
  have circuits : ∀ c, (s.putSettings m f).circuit c = ((s.setMarkSource m).setHoldLimit f.holdLimit).circuit c := fun _ => rfl
  have reports : ∀ key e, ((s.setMarkSource m).setHoldLimit f.holdLimit).reports key e → (s.putSettings m f).reports key e :=
    fun _ _ h => h
  have before : ∀ c, (s.setMarkSource m).circuit c = s.circuit c := fun c => by rw [frame]; rfl
  have limit : (s.setMarkSource m).holdLimit = s.holdLimit := by rw [frame]
  have now : (s.setMarkSource m).now = s.now := by rw [frame]
  have clock : (s.putSettings m f).clock = (s.setMarkSource m).clock := by rw [settings]
  refine ⟨by rw [settings], by rw [settings], by rw [settings], ?_, ?_, fun c => ?_, fun c fresh expired => ?_,
    by rw [settings], by rw [settings], by rw [settings], by rw [settings]⟩
  · rw [clock]
    split
    · next same => rw [same, State.setMarkSource_self]
    · next other =>
      generalize m = source at other
      cases source with
      | internal => exact (State.setMarkSource_internal (Ne.symm other)).1
      | external => exact State.setMarkSource_external (Ne.symm other)
  · intro internal external locked
    rw [internal] at keeps reports ⊢
    exact reports _ _ (keeps _ _ ((State.setMarkSource_internal (by rw [external]; decide)).2 locked))
  · obtain ⟨record, -⟩ := each c
    rw [before, limit, now] at record
    exact (circuits c).trans record
  · obtain ⟨-, reported⟩ := each c
    rw [before] at reported
    exact reports _ _ (reported fresh (circuits c ▸ expired))

end Sys2Proof.Machine
end

section
/-! PROOFS. What a turn that starts, a consultation and a settled wait leave unchanged (05: R77; 06: R96, R97; 07: R122),
and the HOST hold of a circuit (05: R82). -/

namespace Sys2Proof.Machine

/-! ## A turn that starts (07: R121, R122) -/

section

variable {v u : State} {ch : Fin 8} {phase : Phase} {choice : Choice}

theorem State.turnStarted_channel_other (h : v.turnStarted ch phase choice u) {j : Fin 8} (other : j ≠ ch) :
    u.channel j = v.channel j := by
  match choice, h with
  | .entry e, ⟨b, _, same⟩ => simp [same, State.channel_setChannel, other.symm]
  | .circuit c, same => simp [show u = _ from same, State.channel_setChannel, other.symm]

/-- A turn starts under the keying record, the profile and the bound list of its channel. -/
theorem State.turnStarted_channel (h : v.turnStarted ch phase choice u) :
    (u.channel ch).state = (v.channel ch).state ∧ (u.channel ch).keyreq = (v.channel ch).keyreq ∧
      (u.channel ch).bound = (v.channel ch).bound ∧ (u.channel ch).profile = (v.channel ch).profile := by
  match choice, h with
  | .entry e, ⟨b, _, same⟩ => simp [same, State.channel_setChannel]
  | .circuit c, same => simp [show u = _ from same, State.channel_setChannel]

theorem State.turnStarted_frame (h : v.turnStarted ch phase choice u) :
    u.store = v.store ∧ u.clock = v.clock ∧ u.link = v.link ∧ u.notices = v.notices := by
  match choice, h with
  | .entry e, ⟨b, _, same⟩ => simp [same]
  | .circuit c, same => simp [show u = _ from same]

theorem State.turnStarted_circuit (h : v.turnStarted ch phase choice u) (d : Fin 32) :
    u.circuit d = { v.circuit d with waitStart := (u.circuit d).waitStart } := by
  match choice, h with
  | .entry e, ⟨b, _, same⟩ => simp [same]
  | .circuit c, same =>
    by_cases here : c = d
    · simp [show u = _ from same, State.circuit_setCircuit, here]
    · simp [show u = _ from same, State.circuit_setCircuit, here]

end

/-! ## A consultation (06: R96) -/

section

variable {v u : State} {ch : Fin 8}

theorem State.consulted_of_still (h : v.consulted ch u)
    (still : (v.channel ch).state ≠ .idle ∨ v.anythingEligible ch = false) : u = v := by
  rw [State.consulted, if_pos still] at h
  exact h

theorem State.consulted_of_absent (h : v.consulted ch u) (idle : (v.channel ch).state = .idle)
    (eligible : v.anythingEligible ch = true) (absent : v.keyokOf ch = false) :
    u = v.setChannel ch { v.channel ch with
      state := .requesting, keyreq := true
      permitTimer := some ⟨Config.milliseconds (v.channel ch).settings.permitTimeout,
        v.now + Config.milliseconds (v.channel ch).settings.permitTimeout⟩ } := by
  rw [State.consulted, if_neg (by simp [idle, eligible]), if_pos absent] at h
  exact h

/-- The channel as the grant finds it, before its first turn. -/
def State.keyedAt (v : State) (ch : Fin 8) : State :=
  v.setChannel ch { v.channel ch with state := .keyed, keyreq := true, permitTimer := none }

theorem State.consulted_of_present (h : v.consulted ch u) (idle : (v.channel ch).state = .idle)
    (eligible : v.anythingEligible ch = true) (present : v.keyokOf ch = true) :
    (v.keyedAt ch).turnStarted ch (v.channel ch).settings.openingPhase (v.choose ch) u := by
  rw [State.consulted, if_neg (by simp [idle, eligible]), if_neg (by simp [present])] at h
  exact h

/-- A consultation changes nothing, asks for the key, or starts the first turn of a grant. -/
theorem State.consulted_cases (h : v.consulted ch u) :
    u = v ∨ (∃ x : Channel, u = v.setChannel ch x ∧ x.bound = (v.channel ch).bound ∧
      x.profile = (v.channel ch).profile ∧ v.keyokOf ch = false) ∨
      (v.keyokOf ch = true ∧ (v.channel ch).state = .idle ∧
        ∃ phase choice, (v.keyedAt ch).turnStarted ch phase choice u) := by
  by_cases idle : (v.channel ch).state = .idle
  · cases eligible : v.anythingEligible ch with
    | false => exact .inl (consulted_of_still h (.inr eligible))
    | true =>
      cases key : v.keyokOf ch with
      | false => exact .inr (.inl ⟨_, consulted_of_absent h idle eligible key, rfl, rfl, rfl⟩)
      | true => exact .inr (.inr ⟨rfl, idle, _, _, consulted_of_present h idle eligible key⟩)
  · exact .inl (consulted_of_still h (.inl idle))

theorem State.consulted_channel_other (h : v.consulted ch u) {j : Fin 8} (other : j ≠ ch) :
    u.channel j = v.channel j := by
  rcases consulted_cases h with same | ⟨x, same, -⟩ | ⟨-, -, _, _, started⟩
  · rw [same]
  · simp [same, State.channel_setChannel, other.symm]
  · rw [turnStarted_channel_other started other]
    simp [State.keyedAt, State.channel_setChannel, other.symm]

theorem State.consulted_bound (h : v.consulted ch u) (j : Fin 8) : (u.channel j).bound = (v.channel j).bound := by
  by_cases here : j = ch
  · subst here
    rcases consulted_cases h with same | ⟨x, same, bound, -⟩ | ⟨-, -, _, _, started⟩
    · rw [same]
    · simp [same, State.channel_setChannel, bound]
    · rw [(turnStarted_channel started).2.2.1]
      simp [State.keyedAt, State.channel_setChannel]
  · rw [consulted_channel_other h here]

theorem State.consulted_frame (h : v.consulted ch u) :
    u.store = v.store ∧ u.clock = v.clock ∧ u.link = v.link ∧ u.notices = v.notices := by
  rcases consulted_cases h with same | ⟨x, same, -⟩ | ⟨-, -, _, _, started⟩
  · simp [same]
  · simp [same]
  · obtain ⟨store, clock, link, notices⟩ := turnStarted_frame started
    exact ⟨store, clock, link, notices⟩

theorem State.consulted_circuit (h : v.consulted ch u) (d : Fin 32) :
    u.circuit d = { v.circuit d with waitStart := (u.circuit d).waitStart } := by
  rcases consulted_cases h with same | ⟨x, same, -⟩ | ⟨-, -, _, _, started⟩
  · simp [same]
  · simp [same]
  · exact turnStarted_circuit started d

/-- No wait ends unless a turn starts, which takes an IDLE channel with KEYOK present. -/
theorem State.consulted_circuits (h : v.consulted ch u)
    (still : (v.channel ch).state ≠ .idle ∨ v.keyokOf ch = false) : u.circuits = v.circuits := by
  rcases consulted_cases h with same | ⟨x, same, -⟩ | ⟨present, idle, -⟩
  · rw [same]
  · rw [same]; rfl
  · simp [idle, present] at still

theorem State.consulted_keyreq (h : v.consulted ch u) (idle : (v.channel ch).state = .idle)
    (eligible : v.anythingEligible ch = true) :
    (u.channel ch).keyreq = true ∧ (v.keyokOf ch = false → (u.channel ch).state = .requesting) := by
  cases key : v.keyokOf ch with
  | false => simp [consulted_of_absent h idle eligible key, State.channel_setChannel]
  | true =>
    have started := consulted_of_present h idle eligible key
    rw [(turnStarted_channel started).2.1]
    simp [State.keyedAt, State.channel_setChannel]

theorem State.consulted_channels (h : v.consulted ch u) (busy : (v.channel ch).state ≠ .idle) :
    u.channels = v.channels := by
  rw [consulted_of_still h (.inl busy)]

end

/-! ## A settled wait (05: R76, R77) -/

section

variable {s : State} {c : Fin 32}

theorem State.setCircuit_onAir {x : Circuit} (h : x.channel = (s.circuit c).channel) (d : Fin 32) :
    (s.setCircuit c x).onAir d = s.onAir d := by
  simp only [State.onAir, State.setCircuit_channel, State.circuit_setCircuit]
  split
  · next same => rw [h, same]
  · rfl

theorem State.settleWait_of_off (h : (s.circuit c).waits (s.onAir c) = false) :
    s.settleWait c = s.setCircuit c { s.circuit c with waitStart := none } := by
  have waiting : s.waiting c = false := h
  rw [State.settleWait, waiting, Bool.false_and, if_neg (by decide), State.updateWait_eq, Circuit.settledAt, if_pos h]

theorem State.settleWait_of_running (h : (s.circuit c).waits (s.onAir c) = true)
    (running : (s.circuit c).waitStart ≠ none) : s.settleWait c = s := by
  have started : (s.circuit c).waitStart.isNone = false := Option.isNone_eq_false_iff.mpr (Option.isSome_iff_ne_none.mpr running)
  rw [State.settleWait, started, Bool.and_false, if_neg (by decide), State.updateWait_eq, Circuit.settledAt,
    if_neg (by simp [h]), if_neg running, State.setCircuit_circuit]

theorem State.settleWait_of_begun (h : (s.circuit c).waits (s.onAir c) = true)
    (none : (s.circuit c).waitStart = none) : s.settleWait c =
      (s.setCircuit c { s.circuit c with waitStart := some s.now, holdNotified := false }).tellIdle
        (s.circuit c).channel := by
  have waiting : s.waiting c = true := h
  rw [State.settleWait, waiting, none, if_pos (by rfl), State.updateWait_eq, Circuit.settledAt,
    if_neg (by simp [h]), if_pos none]

/-- A circuit that waits on its own channel makes the channel serve something, unless SILENCE is observed. -/
theorem State.anythingEligible_of_waits {ch : Fin 8} (bound : c ∈ (s.channel ch).bound)
    (loud : s.silenced ch = false) (h : (s.circuit c).waits (s.onAir c) = true) : s.anythingEligible ch = true := by
  have waiting : s.waiting c = true := h
  exact State.anythingEligible_iff.mpr (.inr ⟨c, bound, by simp [State.circuitEligible, waiting, loud]⟩)

theorem State.setCircuit_silenced (x : Circuit) (ch : Fin 8) : (s.setCircuit c x).silenced ch = s.silenced ch := rfl

end

/-! ## HOLD CIRCUIT (05: R82) -/

section

variable {s : State} {c : Fin 32}

theorem holdCircuit_of_taken (life : (s.circuit c).life ≠ .free) :
    holdCircuit c 0 s = (s.setHostHold c true, .ok) ∧ holdCircuit c 1 s = (s.setHostHold c false, .ok) := by
  constructor <;> rw [holdCircuit, onCircuit_val, if_neg life] <;> rfl

/-- Whether a circuit that a HOST hold has left waits. -/
theorem Circuit.waits_of_taken {x : Circuit} (life : x.life ≠ .free) (onAir : Bool) :
    x.waits onAir = (!x.hostHold && !x.channelHold && decide (1 ≤ x.count) && !onAir) := by
  simp [Circuit.waits, life]

end

/-- Settles O18: the wait is settled on the record with the hold set or removed. -/
theorem holdCircuitSetsTheHostHold : Obligations.HoldCircuitSetsTheHostHold := by
  intro r c s served life
  obtain ⟨setsOn, setsOff⟩ := holdCircuit_of_taken life
  have on := exec_answers (i := .holdCircuitOn r c) (q := .holdCircuit c 0) served setsOn
  have off := exec_answers (i := .holdCircuitOff r c) (q := .holdCircuit c 1) served setsOff
  have air : ∀ hold : Bool, (s.setCircuit c { s.circuit c with hostHold := hold }).onAir c = s.onAir c :=
    fun hold => State.setCircuit_onAir (x := { s.circuit c with hostHold := hold }) rfl c
  have settled : ∀ hold : Bool, ((s.setCircuit c { s.circuit c with hostHold := hold }).circuit c).waits
      ((s.setCircuit c { s.circuit c with hostHold := hold }).onAir c) =
        (!hold && !(s.circuit c).channelHold && decide (1 ≤ (s.circuit c).count) && !s.onAir c) := fun hold => by
    rw [air, State.circuit_setCircuit, if_pos rfl, Circuit.waits_of_taken (by exact life)]
    rfl
  refine ⟨?_, fun none => ?_, fun waits running => ?_, fun waits begun => ⟨_, off, ?_⟩⟩
  · rw [on, State.setHostHold, State.settleWait_of_off (by rw [settled]; rfl)]
    simp [State.circuit_setCircuit, Request.kindCode]
  · rw [off, State.setHostHold, State.settleWait_of_off (by rw [settled]; exact none)]
    simp [State.circuit_setCircuit, Request.kindCode]
  · rw [off, State.setHostHold, State.settleWait_of_running (by rw [settled]; exact waits)
      (by simpa [State.circuit_setCircuit] using running)]
    simp [Request.kindCode]
  · let x := { s.circuit c with hostHold := false, waitStart := some s.now, holdNotified := false }
    have consults : (s.setCircuit c x).consulted x.channel (s.setHostHold c false) := by
      rw [State.setHostHold, State.settleWait_of_begun (by rw [settled]; exact waits)
        (by simpa [State.circuit_setCircuit] using begun)]
      simpa [State.circuit_setCircuit] using State.tellIdle_consulted (s.setCircuit c x) x.channel
    refine ⟨consults, fun idle bound loud => (State.consulted_keyreq consults idle ?_).1⟩
    refine State.anythingEligible_of_waits (c := c) bound loud ?_
    rw [State.setCircuit_onAir (x := x) rfl, State.circuit_setCircuit, if_pos rfl, Circuit.waits_of_taken (by exact life)]
    exact waits

end Sys2Proof.Machine
end

section
/-! PROOFS. The move of a circuit (05: R83). -/

namespace Sys2Proof.Machine

/-! ## Settling the record of a wait (05: R77) -/

section

variable (x : Circuit) (onAir : Bool) (now : Nat)

theorem Circuit.settledAt_waits : (x.settledAt onAir now).waits onAir = x.waits onAir := by
  unfold Circuit.settledAt
  split
  · rfl
  · split <;> rfl

/-- A settled wait has touched nothing else of the record. -/
theorem Circuit.settledAt_eq : x.settledAt onAir now =
    { x with waitStart := (x.settledAt onAir now).waitStart, holdNotified := (x.settledAt onAir now).holdNotified } := by
  unfold Circuit.settledAt
  split
  · rfl
  · split <;> rfl

theorem Circuit.settledAt_channel : (x.settledAt onAir now).channel = x.channel := by
  rw [Circuit.settledAt_eq]

variable {x onAir}

theorem Circuit.settledAt_of_off (h : x.waits onAir = false) : x.settledAt onAir now = { x with waitStart := none } := by
  rw [Circuit.settledAt, if_pos h]

/-- The wait that stands once a waiting circuit is settled: its own, or a new one. -/
theorem Circuit.settledAt_of_waits (h : x.waits onAir = true) :
    (x.settledAt onAir now).waitStart = some (x.waitStart.getD now) ∧
      (x.settledAt onAir now).holdNotified = (x.waitStart.isSome && x.holdNotified) := by
  rw [Circuit.settledAt, if_neg (by simp [h])]
  split
  · next none => simp [none]
  · next some =>
    obtain ⟨start, started⟩ := Option.ne_none_iff_exists'.mp some
    simp [started]

end

/-! ## The binding that a move makes -/

/-- The circuit at the tail of the target's bound list, before its wait is settled. -/
def State.rebound (s : State) (c : Fin 32) (target : Fin 8) : State :=
  (((s.unbind c).bindTail target c).setCircuit c { s.circuit c with
    channel := target, movePending := none, channelHold := !(s.channel target).isOn }).raiseEvent (.circuit c) .moved

section

variable (s : State) (c : Fin 32) (target : Fin 8)

theorem State.unbind_channel (j : Fin 8) : (s.unbind c).channel j = { s.channel j with
    bound := if (s.circuit c).channel = j then (s.channel j).bound.erase c else (s.channel j).bound } := by
  rw [State.unbind, State.channel_setChannel]
  split
  · next own => rw [own]
  · rfl

theorem State.bindTail_channel (j : Fin 8) : (s.bindTail target c).channel j = { s.channel j with
    bound := if target = j then (s.channel j).bound ++ [c] else (s.channel j).bound } := by
  rw [State.bindTail, State.channel_setChannel]
  split
  · next own => rw [own]
  · rfl

theorem State.rebound_channel (j : Fin 8) : (s.rebound c target).channel j = { s.channel j with
    bound := (if (s.circuit c).channel = j then (s.channel j).bound.erase c else (s.channel j).bound) ++
      if target = j then [c] else [] } := by
  rw [State.rebound, State.raiseEvent_channel, State.setCircuit_channel, State.bindTail_channel, State.unbind_channel]
  by_cases there : target = j <;> simp [there]

theorem State.rebound_circuit : (s.rebound c target).circuit c = { s.circuit c with
    channel := target, movePending := none, channelHold := !(s.channel target).isOn } := by
  simp [State.rebound, State.circuit_setCircuit]

theorem State.rebound_onAir : (s.rebound c target).onAir c = (s.channel target).carriesCircuit c := by
  rw [State.onAir, State.rebound_circuit, State.rebound_channel]
  rfl

theorem State.rebound_waits : ((s.rebound c target).circuit c).waits ((s.rebound c target).onAir c) =
    (decide ((s.circuit c).life ≠ .free) && !(s.circuit c).hostHold && (s.channel target).isOn &&
      decide (1 ≤ (s.circuit c).count) && !(s.channel target).carriesCircuit c) := by
  rw [State.rebound_onAir, State.rebound_circuit]
  simp only [Circuit.waits, Bool.not_not]
  rfl

/-- The wait of a circuit bound to its target, settled there. -/
def State.reboundSettled : State := (s.rebound c target).updateWait c

theorem State.reboundSettled_channel (j : Fin 8) :
    (s.reboundSettled c target).channel j = (s.rebound c target).channel j := by
  rw [State.reboundSettled, State.updateWait_eq, State.setCircuit_channel]

theorem State.reboundSettled_circuit : (s.reboundSettled c target).circuit c =
    ((s.rebound c target).circuit c).settledAt ((s.rebound c target).onAir c) s.now := by
  rw [State.reboundSettled, State.updateWait_eq, State.circuit_setCircuit, if_pos rfl]
  rfl

theorem State.reboundSettled_waits : (s.reboundSettled c target).waiting c =
    ((s.rebound c target).circuit c).waits ((s.rebound c target).onAir c) := by
  have air : (s.reboundSettled c target).onAir c = (s.rebound c target).onAir c := by
    rw [State.reboundSettled, State.updateWait_eq, State.setCircuit_onAir (Circuit.settledAt_channel _ _ _)]
  show ((s.reboundSettled c target).circuit c).waits ((s.reboundSettled c target).onAir c) = _
  rw [air, State.reboundSettled_circuit, Circuit.settledAt_waits]

theorem State.reboundSettled_frame : (s.reboundSettled c target).store = s.store ∧
    (s.reboundSettled c target).clock = s.clock ∧ (s.reboundSettled c target).link = s.link ∧
    (s.reboundSettled c target).reports (.circuit c) .moved := by
  rw [State.reboundSettled, State.updateWait_eq]
  exact ⟨rfl, rfl, rfl, State.reports_raiseEvent _ _ _⟩

theorem State.applyMove_eq : s.applyMove c target =
    if (s.reboundSettled c target).waiting c then (s.reboundSettled c target).tellIdle target
    else s.reboundSettled c target := by
  have on : (((s.unbind c).bindTail target c).channel target).isOn = (s.channel target).isOn := by
    rw [State.bindTail_channel, State.unbind_channel]
    rfl
  rw [State.applyMove, on]
  rfl

/-- A move binds the circuit and settles its wait; a circuit that waits has its target consult. -/
theorem State.applyMove_consulted (waits : (s.reboundSettled c target).waiting c = true) :
    (s.reboundSettled c target).consulted target (s.applyMove c target) := by
  rw [State.applyMove_eq, if_pos waits]
  exact State.tellIdle_consulted _ _

theorem State.applyMove_of_off (off : (s.reboundSettled c target).waiting c = false) :
    s.applyMove c target = s.reboundSettled c target := by
  rw [State.applyMove_eq, if_neg (by simp [off])]

theorem State.applyMove_cases : s.applyMove c target = s.reboundSettled c target ∨
    (s.reboundSettled c target).consulted target (s.applyMove c target) := by
  cases waits : (s.reboundSettled c target).waiting c with
  | false => exact .inl (State.applyMove_of_off s c target waits)
  | true => exact .inr (State.applyMove_consulted s c target waits)

/-! ## What the move has done -/

theorem State.applyMove_frame : (s.applyMove c target).store = s.store ∧ (s.applyMove c target).clock = s.clock ∧
    (s.applyMove c target).link = s.link ∧ (s.applyMove c target).reports (.circuit c) .moved := by
  obtain ⟨store, clock, link, moved⟩ := State.reboundSettled_frame s c target
  rcases State.applyMove_cases s c target with same | consults
  · rw [same]
    exact ⟨store, clock, link, moved⟩
  · obtain ⟨store', clock', link', notices⟩ := State.consulted_frame consults
    exact ⟨store'.trans store, clock'.trans clock, link'.trans link, by rw [State.reports, notices]; exact moved⟩

theorem State.applyMove_bound (j : Fin 8) :
    ((s.applyMove c target).channel j).bound = ((s.rebound c target).channel j).bound := by
  rw [← State.reboundSettled_channel]
  rcases State.applyMove_cases s c target with same | consults
  · rw [same]
  · exact State.consulted_bound consults j

/-- A channel record but for its bound list. -/
theorem State.applyMove_other {j : Fin 8} (other : j ≠ target) :
    { (s.applyMove c target).channel j with bound := [] } = { s.channel j with bound := [] } := by
  have settled : { (s.reboundSettled c target).channel j with bound := [] } = { s.channel j with bound := [] } := by
    rw [State.reboundSettled_channel, State.rebound_channel]
  rcases State.applyMove_cases s c target with same | consults
  · rw [same, settled]
  · rw [State.consulted_channel_other consults other, settled]

theorem State.applyMove_circuit : (s.applyMove c target).circuit c = { s.circuit c with
    channel := target, movePending := none, channelHold := !(s.channel target).isOn
    waitStart := ((s.applyMove c target).circuit c).waitStart
    holdNotified := ((s.applyMove c target).circuit c).holdNotified } := by
  have settled := Circuit.settledAt_eq ((s.rebound c target).circuit c) ((s.rebound c target).onAir c) s.now
  rw [← State.reboundSettled_circuit, State.rebound_circuit] at settled
  rcases State.applyMove_cases s c target with same | consults
  · rw [same]
    exact settled
  · have kept := State.consulted_circuit consults c
    rw [settled] at kept
    rw [kept]

/-! ### A move onto a target that does not carry the circuit -/

variable {s c target}

/-- Nothing but the bound lists has changed where the target is not consulted. -/
theorem State.reboundSettled_bindsOnly (j : Fin 8) :
    { (s.reboundSettled c target).channel j with bound := [] } = { s.channel j with bound := [] } := by
  rw [State.reboundSettled_channel, State.rebound_channel]

theorem State.applyMove_idle_keyreq (waits : (s.reboundSettled c target).waiting c = true)
    (idle : (s.channel target).state = .idle) (loud : s.silenced target = false) :
    ((s.applyMove c target).channel target).keyreq = true := by
  have here : (s.reboundSettled c target).channel target = _ :=
    (State.reboundSettled_channel s c target target).trans (State.rebound_channel s c target target)
  refine (State.consulted_keyreq (State.applyMove_consulted s c target waits) (by rw [here]; exact idle)
    (State.anythingEligible_of_waits (c := c) ?_ ?_ waits)).1
  · rw [here]
    simp
  · have silence : (s.reboundSettled c target).silence = s.silence := by
      rw [State.reboundSettled, State.updateWait_eq]
      rfl
    rw [State.silenced, here, silence]
    exact loud

end

/-! ## MOVE CIRCUIT -/

section

variable {s : State} {c : Fin 32}

theorem moveCircuit_of_bad_target (movable : (s.circuit c).immovable = false) {n : Nat} (high : 8 ≤ n) :
    moveCircuit c n s = (s, .range 1) := by
  rw [moveCircuit, onCircuit_val, if_neg (by simp [movable]), channelNumber_of_le 1 high]

theorem moveCircuit_of_target (movable : (s.circuit c).immovable = false) (target : Fin 8) :
    moveCircuit c target s = if (s.channel target).profile = none then (s, .fail .state)
      else if s.onAir c then (s.setCircuit c { s.circuit c with movePending := some target }, .ok)
      else (s.applyMove c target, .ok) := by
  rw [moveCircuit, onCircuit_val, if_neg (by simp [movable]), channelNumber_val] <;> rfl

end

/-- Settles O19. -/
theorem moveCircuitRebinds : Obligations.MoveCircuitRebinds := by
  intro r c n s served life closing
  have movable : (s.circuit c).immovable = false := by
    rw [Bool.eq_false_iff, ne_eq, Circuit.immovable_iff]
    rintro (free | ⟨isClosing, noDrain⟩)
    · exact life free
    · simp [closing isClosing] at noDrain
  refine ⟨fun high => exec_answers (q := .moveCircuit c n) served (moveCircuit_of_bad_target movable high),
    fun target same => ?_⟩
  subst same
  have answers : ∀ u v, moveCircuit c target s = (u, v) →
      exec (.moveCircuit r c target) s = .next (u.replied r 0x23 v) :=
    fun u v answer => exec_answers (q := .moveCircuit c target) served answer
  have moves := moveCircuit_of_target movable target
  refine ⟨fun absent => answers _ _ (moves.trans (if_pos absent)),
    fun present onAir => answers _ _ (by rw [moves, if_neg present, if_pos onAir]),
    fun present offAir => ⟨s.applyMove c target, answers _ _ (by rw [moves, if_neg present, if_neg (by simp [offAir])]),
      State.applyMove_circuit s c target, ?_, fun other => ?_, ?_⟩⟩
  · rw [State.applyMove_bound, State.rebound_channel]
    simp
  · rw [State.applyMove_bound, State.rebound_channel]
    simp [other.symm]
  · obtain ⟨store, clock, link, moved⟩ := State.applyMove_frame s c target
    refine ⟨moved, store, clock, link, ?_⟩
    intro x waits begun bindsOnly notHere
    have waiting : (s.reboundSettled c target).waiting c = waits := by
      rw [State.reboundSettled_waits, State.rebound_waits, notHere]
      simp [life, waits, x]
    have settled : waits = true →
        ((s.reboundSettled c target).circuit c).waitStart = some (x.waitStart.getD s.now) ∧
        ((s.reboundSettled c target).circuit c).holdNotified = (x.waitStart.isSome && x.holdNotified) := fun on => by
      rw [State.reboundSettled_circuit]
      have record := State.rebound_circuit s c target
      have := Circuit.settledAt_of_waits s.now ((State.reboundSettled_waits s c target).symm.trans (waiting.trans on))
      rwa [record] at this ⊢
    refine ⟨fun off => ?_, fun on busy => ?_, fun on idle => ⟨fun loud => ?_, fun absent => ?_, fun j => ?_⟩⟩
    · have same := State.applyMove_of_off s c target (waiting.trans off)
      refine ⟨?_, fun j => by rw [same, State.reboundSettled_bindsOnly]⟩
      rw [same, State.reboundSettled_circuit, Circuit.settledAt_of_off]
      exact (State.reboundSettled_waits s c target).symm.trans (waiting.trans off)
    · have same : s.applyMove c target = s.reboundSettled c target :=
        State.consulted_of_still (State.applyMove_consulted s c target (waiting.trans on)) (.inl (by
          rw [State.reboundSettled_channel, State.rebound_channel]
          exact busy))
      exact ⟨by rw [← same] at settled; exact settled on, fun j => by rw [same, State.reboundSettled_bindsOnly]⟩
    · exact State.applyMove_idle_keyreq (waiting.trans on) idle loud
    · have kept : (s.applyMove c target).circuits = (s.reboundSettled c target).circuits :=
        State.consulted_circuits (State.applyMove_consulted s c target (waiting.trans on)) (.inr (by
          rw [State.reboundSettled, State.updateWait_eq]
          exact absent))
      have same : (s.applyMove c target).circuit c = (s.reboundSettled c target).circuit c := by
        rw [State.circuit, kept, State.circuit]
      rw [← same] at settled
      exact settled on
    · exact State.applyMove_other s c target

end Sys2Proof.Machine
end

section
/-! PROOFS. What a return of blocks does with its report (01: R18; 05: R81), and the close of a circuit (05: R84, R85). -/

namespace Sys2Proof.Machine

/-! ## The block return report -/

/-- A report reaches the circuits and their notices alone. -/
theorem State.reportTo_only (s : State) (c : Fin 32) :
    ∃ circuits notices, s.reportTo c = { s with circuits := circuits, notices := notices } := by
  unfold State.reportTo
  dsimp only
  split
  · exact ⟨_, _, rfl⟩
  · exact ⟨s.circuits, s.notices, rfl⟩

theorem State.reportAll_only (l : List (Fin 32)) (s : State) :
    ∃ circuits notices, l.foldl State.reportTo s = { s with circuits := circuits, notices := notices } := by
  induction l generalizing s with
  | nil => exact ⟨s.circuits, s.notices, rfl⟩
  | cons c l ih =>
    obtain ⟨circuits, notices, first⟩ := State.reportTo_only s c
    obtain ⟨circuits', notices', rest⟩ := ih (s.reportTo c)
    exact ⟨circuits', notices', by rw [List.foldl_cons, rest, first]⟩

theorem State.returnReport_only (s : State) :
    ∃ circuits notices, s.returnReport = { s with circuits := circuits, notices := notices } :=
  State.reportAll_only allCircuits s

theorem State.returnBlocks_nil (s : State) : s.returnBlocks [] = s := by
  simp [State.returnBlocks, State.setStore]

theorem State.returnAndReport_only (s : State) (bs : List BlockNo) : ∃ circuits notices,
    s.returnAndReport bs = { s.returnBlocks bs with circuits := circuits, notices := notices } := by
  unfold State.returnAndReport
  split
  · next none => exact ⟨s.circuits, s.notices, by rw [none, State.returnBlocks_nil]⟩
  · exact State.returnReport_only _

section

variable (s : State) (bs : List BlockNo)

@[simp] theorem State.returnAndReport_channels : (s.returnAndReport bs).channels = s.channels := by
  obtain ⟨_, _, same⟩ := State.returnAndReport_only s bs
  rw [same]; rfl

@[simp] theorem State.returnAndReport_channel (ch : Fin 8) : (s.returnAndReport bs).channel ch = s.channel ch := by
  rw [State.channel, State.returnAndReport_channels, State.channel]

@[simp] theorem State.returnAndReport_bulletins : (s.returnAndReport bs).bulletins = s.bulletins := by
  obtain ⟨_, _, same⟩ := State.returnAndReport_only s bs
  rw [same]; rfl

@[simp] theorem State.returnAndReport_clock : (s.returnAndReport bs).clock = s.clock := by
  obtain ⟨_, _, same⟩ := State.returnAndReport_only s bs
  rw [same]; rfl

@[simp] theorem State.returnAndReport_link : (s.returnAndReport bs).link = s.link := by
  obtain ⟨_, _, same⟩ := State.returnAndReport_only s bs
  rw [same]; rfl

@[simp] theorem State.returnAndReport_now : (s.returnAndReport bs).now = s.now := by
  obtain ⟨_, _, same⟩ := State.returnAndReport_only s bs
  rw [same]; rfl

theorem State.returnAndReport_store : (s.returnAndReport bs).store = { s.store with free := s.store.free ++ bs } := by
  obtain ⟨_, _, same⟩ := State.returnAndReport_only s bs
  rw [same]; rfl

theorem State.returnAndReport_reported (d : Fin 32) : s.returnReported bs d (s.returnAndReport bs) := by
  unfold State.returnAndReport
  split
  · next none => simp [State.returnReported, none]
  · next some => exact (State.returnReport_spec (s.returnBlocks bs) bs some d).1

theorem State.returnAndReport_keeps {key : NoticeKey} {e : NoticeEvent} (h : s.reports key e) :
    (s.returnAndReport bs).reports key e := by
  unfold State.returnAndReport
  split
  · exact h
  · exact (State.reportAll_spec (List.nodup_finRange 32) (s.returnBlocks bs)).1 key e h

/-- A circuit that is not paused for STORE is left as it is. -/
theorem State.returnAndReport_circuit_of_flowing {d : Fin 32} (h : (s.circuit d).flow ≠ .pausedStore) :
    (s.returnAndReport bs).circuit d = s.circuit d := by
  have reported := State.returnAndReport_reported s bs d
  rw [State.returnReported, if_neg (fun paused => h paused.2.1)] at reported
  rw [State.returnAndReport_circuit, reported]

variable {s bs}

/-- The account of a report reads the circuit's record before, its flow after, and its notice. -/
theorem State.returnReported_of {t u v : State} {d : Fin 32} (h : s.returnReported bs d u)
    (before : t.circuit d = s.circuit d) (after : (v.circuit d).flow = (u.circuit d).flow)
    (keeps : u.reports (.circuit d) .resume → v.reports (.circuit d) .resume) : t.returnReported bs d v := by
  rw [State.returnReported] at h ⊢
  rw [before, after]
  split_ifs at h ⊢ with resumes
  · exact ⟨h.1, keeps h.2⟩
  · exact h

end

/-! ## The causes of a cut (09: R153, R156, R157) -/

/-- A cause other than URGENCY gives way to a pending cut of a cause other than URGENCY, and to a closing turn. -/
theorem Turn.causeCut_eq (t : Turn) {r : CutReason} (h : r ≠ .urgency) : t.causeCut r =
    if t.phase = .trailer ∨ t.phase = .closing then t
    else if t.pendingCut.any fun p => decide (p.reason ≠ .urgency) then t
    else { t with pendingCut := some ⟨r, 0⟩ } := by
  have next : ({ t with pendingCut := nextPending t.pendingCut r } : Turn) =
      if t.pendingCut.any fun p => decide (p.reason ≠ .urgency) then t
      else { t with pendingCut := some ⟨r, 0⟩ } := by
    obtain ⟨kind, phase, count, text, position, held, pending, progress⟩ := t
    cases pending with
    | none => simp [nextPending]
    | some p => by_cases urgent : p.reason = .urgency <;> simp [nextPending, urgent, h]
  rw [← next]
  unfold Turn.causeCut
  cases phase : t.phase <;> simp

/-! ## The finish of a close (05: R84) -/

section

variable (s : State) (c : Fin 32)

theorem State.finishClose_eq : s.finishClose c =
    (((s.setChannel (s.circuit c).channel { s.channel (s.circuit c).channel with
      bound := (s.channel (s.circuit c).channel).bound.erase c }).setCircuit c
        (Circuit.freeOn (s.circuit c).channel)).raise (.circuit c) (some .closed) Counts.zero) := rfl

variable {s c}

theorem closeCircuit_drain (bound : (s.circuit c).life = .bound) : closeCircuit c 0 s = (s.closeDrain c, .ok) := by
  rw [closeCircuit, onCircuit_val]
  simp [bound]

theorem closeCircuit_purge
    (life : (s.circuit c).life = .bound ∨ ((s.circuit c).life = .closing ∧ (s.circuit c).drainPending = true)) :
    closeCircuit c 1 s = (s.closePurge c, .ok) := by
  rw [closeCircuit, onCircuit_val]
  rcases life with bound | ⟨closing, drain⟩ <;> simp [*]

/-- The record of a circuit whose drain has begun. -/
def State.draining (s : State) (c : Fin 32) : State :=
  s.setCircuit c { s.circuit c with life := .closing, drainPending := true }

theorem State.draining_onAir : (s.draining c).onAir c = s.onAir c :=
  State.setCircuit_onAir (x := { s.circuit c with life := .closing, drainPending := true }) rfl c

theorem State.closeDrain_eq : s.closeDrain c =
    if (s.circuit c).count = 0 ∧ s.onAir c = false then (s.draining c).finishClose c else s.draining c := by
  have count : ((s.draining c).circuit c).count = (s.circuit c).count := by
    simp [State.draining, State.circuit_setCircuit, Circuit.count]
  rw [← count, ← State.draining_onAir]
  simp [State.closeDrain, State.draining]

/-- The record of a circuit whose queue is purged. -/
def State.purged (s : State) (c : Fin 32) : State :=
  s.setCircuit c { s.circuit c with chain := Chain.empty, flow := .flowing, life := .closing, drainPending := false }

/-- The same with the blocks of the queue returned. -/
def State.purgedReturned (s : State) (c : Fin 32) : State :=
  (s.purged c).returnAndReport (s.circuit c).chain.blocks

theorem State.purgedReturned_circuit : (s.purgedReturned c).circuit c = { s.circuit c with
    chain := ⟨[], 0, 0⟩, flow := .flowing, life := .closing, drainPending := false } := by
  have here : (s.purged c).circuit c = { s.circuit c with
      chain := Chain.empty, flow := .flowing, life := .closing, drainPending := false } := by
    simp [State.purged, State.circuit_setCircuit]
  rw [State.purgedReturned, State.returnAndReport_circuit_of_flowing _ _ (by simp [here]), here]
  rfl

theorem State.purgedReturned_other {d : Fin 32} (other : d ≠ c) :
    (s.purgedReturned c).circuit d = { s.circuit d with flow := ((s.purgedReturned c).circuit d).flow } ∧
      s.returnReported (s.circuit c).chain.blocks d (s.purgedReturned c) := by
  have before : (s.purged c).circuit d = s.circuit d := by
    simp [State.purged, State.circuit_setCircuit, other.symm]
  exact ⟨before ▸ State.returnAndReport_circuit (s.purged c) _ d,
    State.returnReported_of (State.returnAndReport_reported (s.purged c) _ d) before.symm rfl id⟩

@[simp] theorem State.purgedReturned_channel (ch : Fin 8) : (s.purgedReturned c).channel ch = s.channel ch :=
  State.returnAndReport_channel (s.purged c) _ ch

theorem State.purgedReturned_onAir : (s.purgedReturned c).onAir c = s.onAir c := by
  rw [State.onAir, State.purgedReturned_circuit, State.purgedReturned, State.returnAndReport_channel]
  rfl

theorem State.closePurge_eq : s.closePurge c =
    if s.onAir c = true then (s.purgedReturned c).causeCut (s.circuit c).channel .purge
    else (s.purgedReturned c).finishClose c := by
  rw [← State.purgedReturned_onAir]
  rfl

end

/-- What a PURGE leaves, on air or off. -/
theorem State.closePurge_frame (s : State) (c : Fin 32) :
    (s.closePurge c).store = { s.store with free := s.store.free ++ (s.circuit c).chain.blocks } ∧
    (s.closePurge c).clock = s.clock ∧ (s.closePurge c).link = s.link ∧ (s.closePurge c).bulletins = s.bulletins ∧
    ∀ d, d ≠ c → (s.closePurge c).circuit d = (s.purgedReturned c).circuit d ∧
      ((s.purgedReturned c).reports (.circuit d) .resume → (s.closePurge c).reports (.circuit d) .resume) := by
  have store := State.returnAndReport_store (s.purged c) (s.circuit c).chain.blocks
  have clock := State.returnAndReport_clock (s.purged c) (s.circuit c).chain.blocks
  have link := State.returnAndReport_link (s.purged c) (s.circuit c).chain.blocks
  have bulletins := State.returnAndReport_bulletins (s.purged c) (s.circuit c).chain.blocks
  rw [State.closePurge_eq]
  split
  · exact ⟨store, clock, link, bulletins, fun d _ => ⟨rfl, id⟩⟩
  · refine ⟨store, clock, link, bulletins, fun d other => ⟨?_, fun resumed => ?_⟩⟩
    · simp [State.finishClose_eq, State.circuit_setCircuit, other.symm]
    · exact State.reports_raise resumed _ _ _

/-- Settles O20. -/
theorem closeCircuitFreesTheCircuit : Obligations.CloseCircuitFreesTheCircuit := by
  intro r c s served x freed unbound
  refine ⟨fun bound ends => ?_, fun bound goesOn => ?_, fun life => ?_⟩
  · rw [exec_answers (q := .closeCircuit c 0) served (closeCircuit_drain bound), State.closeDrain_eq, if_pos ends,
      State.finishClose_eq]
    simp [State.draining, State.circuit_setCircuit, State.setCircuit_setChannel, Request.kindCode, freed, unbound, x]
  · rw [exec_answers (q := .closeCircuit c 0) served (closeCircuit_drain bound), State.closeDrain_eq,
      if_neg (by rintro ⟨empty, offAir⟩; simp [x, empty, offAir] at goesOn)]
    rfl
  · obtain ⟨store, clock, link, bulletins, others⟩ := State.closePurge_frame s c
    refine ⟨s.closePurge c, exec_answers (q := .closeCircuit c 1) served (closeCircuit_purge life), store, clock, link,
      bulletins, fun d other => ?_, fun offAir => ?_, fun onAir => ?_⟩
    · obtain ⟨same, keeps⟩ := others d other
      obtain ⟨kept, reported⟩ := State.purgedReturned_other (s := s) other
      exact ⟨same ▸ kept, State.returnReported_of reported rfl (congrArg Circuit.flow same) keeps⟩
    · rw [State.closePurge_eq, if_neg (by simp [offAir]), State.finishClose_eq]
      have record := State.purgedReturned_circuit (s := s) (c := c)
      refine ⟨?_, State.reports_raiseEvent _ _ _, fun ch => ?_⟩
      · simp [State.circuit_setCircuit, record, freed, x]
      · by_cases own : ch = (s.circuit c).channel
        · subst own
          simp [State.channel_setChannel, record, unbound, x]
        · simp [State.channel_setChannel, record, x, own, Ne.symm own]
    · rw [State.closePurge_eq, if_pos onAir, State.causeCut]
      refine ⟨State.purgedReturned_circuit, fun ch => ?_⟩
      have cause : (fun t : Turn => t.causeCut .purge) = _ := funext fun t => t.causeCut_eq (r := .purge) nofun
      rw [cause]
      by_cases own : ch = (s.circuit c).channel
      · subst own
        simp [State.channel_setChannel, x]
      · simp [State.channel_setChannel, x, own, Ne.symm own]

end Sys2Proof.Machine
end

section
/-! PROOFS. The schedule group of a request (02: R22) and the declaration of a bulletin (02: R26). -/

namespace Sys2Proof.Machine

/-! ## The schedule group -/

theorem strictlyAscending_iff (l : List Nat) : strictlyAscending l = true ↔ l.Pairwise (· < ·) := by
  rw [← List.isChain_iff_pairwise]
  induction l with
  | nil => simp [strictlyAscending]
  | cons a l ih =>
    cases l with
    | nil => simp [strictlyAscending]
    | cons b l => simp [strictlyAscending, ih]

def startInRange : StartField → Bool
  | .now => true
  | .atMinutes ms => decide (1 ≤ ms.length ∧ ms.length ≤ 8 ∧ (∀ m ∈ ms, m ≤ 1439) ∧ ms.Pairwise (· < ·))
  | .every i => decide (5 ≤ i ∧ i ≤ 1440)

/-- The start that an accepted field says. -/
def startSaid : StartField → Start
  | .now => .now
  | .atMinutes ms => .atMinutes ms
  | .every i => .every i

theorem acceptStart_eq (x : StartField) : acceptStart x = if startInRange x then some (startSaid x) else none := by
  cases x with
  | now => rfl
  | atMinutes ms =>
    have same : (within 1 8 ms.length && ms.all (fun m => decide (m ≤ 1439)) && strictlyAscending ms) =
        startInRange (.atMinutes ms) := by
      rw [Bool.eq_iff_iff]
      simp [startInRange, within_iff, strictlyAscending_iff, and_assoc]
    exact congrArg (fun b : Bool => if b then some (Start.atMinutes ms) else none) same
  | every i =>
    have same : within 5 1440 i = startInRange (.every i) := within_eq_decide 5 1440 i
    exact congrArg (fun b : Bool => if b then some (Start.every i) else none) same

/-- The fields of a schedule group in their ranges, in the order of the request. -/
def scheduleChecks (f : ScheduleFields) : List Bool := [
  decide (f.mask ≤ 255), startInRange f.start, decide (1 ≤ f.passes ∧ f.passes ≤ 3),
  f.limit.all fun l => decide (1 ≤ l ∧ l ≤ 255)]

/-- The group that accepted fields say. -/
def scheduleSaid (f : ScheduleFields) : Schedule := ⟨channelsOfMask f.mask, startSaid f.start, f.passes, f.limit⟩

theorem acceptSchedule_eq (first : Nat) (f : ScheduleFields) :
    acceptSchedule first f = checked (scheduleChecks f) first (scheduleSaid f) := by
  have limit : f.limit.all (within 1 255) = f.limit.all fun l => decide (1 ≤ l ∧ l ≤ 255) :=
    congrArg f.limit.all (funext (within_eq_decide 1 255))
  have mask : within 0 255 f.mask = decide (f.mask ≤ 255) := by simp [within]
  have passes := within_eq_decide 1 3 f.passes
  rw [acceptSchedule, acceptStart_eq, limit, mask, passes, scheduleChecks]
  cases startInRange f.start <;> rfl

theorem mem_channelsOfMask (mask : Nat) (ch : Fin 8) : ch ∈ channelsOfMask mask ↔ mask.testBit ch.val := by
  simp [channelsOfMask, allChannels]

theorem channelsOfMask_ascending (mask : Nat) : (channelsOfMask mask).Pairwise (· < ·) :=
  (List.pairwise_lt_finRange 8).filter _

/-! ## DECLARE BULLETIN (02: R26) -/

section

variable {s : State} {n : Fin 64} (nonzero : n ≠ 0) (empty : s.bulletin n = none)

include nonzero empty

theorem declareBulletin_of_bad_serial {serial : Nat} (high : 1000 ≤ serial) (category length : Nat)
    (f : ScheduleFields) : declareBulletin n serial category length f s = (s, .range 1) := by
  rw [declareBulletin, entryNumber_of_ne_zero nonzero]
  simp [empty, not_within_iff.mpr (Or.inr (show 999 < serial from high))]

variable {serial : Nat} (low : serial ≤ 999)

include low

theorem declareBulletin_of_bad_category {category : Nat} (unknown : categoryAt category = none) (length : Nat)
    (f : ScheduleFields) : declareBulletin n serial category length f s = (s, .range 2) := by
  rw [declareBulletin, entryNumber_of_ne_zero nonzero]
  simp [empty, within_iff.mpr ⟨Nat.zero_le serial, low⟩, unknown]

variable {category : Nat} {k : Category} (known : categoryAt category = some k)

include known

theorem declareBulletin_of_bad_length {length : Nat} (bad : length < 1 ∨ 2048 < length) (f : ScheduleFields) :
    declareBulletin n serial category length f s = (s, .range 3) := by
  rw [declareBulletin, entryNumber_of_ne_zero nonzero]
  simp [empty, within_iff.mpr ⟨Nat.zero_le serial, low⟩, known, not_within_iff.mpr bad]

variable {length : Nat} (fits : within 1 2048 length = true) {f : ScheduleFields}

include fits

theorem declareBulletin_of_bad_schedule {v : Verdict} (bad : acceptSchedule 4 f = .error v) :
    declareBulletin n serial category length f s = (s, v) := by
  rw [declareBulletin, entryNumber_of_ne_zero nonzero]
  simp [empty, within_iff.mpr ⟨Nat.zero_le serial, low⟩, known, fits, bad]

theorem declareBulletin_of_good {g : Schedule} (good : acceptSchedule 4 f = .ok g) :
    declareBulletin n serial category length f s = s.claim length n fun map => declared serial k map g := by
  rw [declareBulletin, entryNumber_of_ne_zero nonzero]
  simp [empty, within_iff.mpr ⟨Nat.zero_le serial, low⟩, known, fits, good]

end

theorem categoryAt_of_le {category : Nat} (h : category ≤ 6) : ∃ k, categoryAt category = some k :=
  ⟨_, List.getElem?_eq_getElem (show category < allCategories.length by simp [allCategories]; omega)⟩

theorem categoryAt_of_lt {category : Nat} (h : 7 ≤ category) : categoryAt category = none :=
  List.getElem?_eq_none h

/-- Settles O21. -/
theorem declareBulletinAllocates : Obligations.DeclareBulletinAllocates := by
  intro r n serial category length f s served nonzero empty run need inRange
  have checks : inRange = scheduleChecks f := by
    obtain ⟨mask, start, passes, limit⟩ := f
    cases start <;> rfl
  have answers : ∀ u v, declareBulletin n serial category length f s = (u, v) →
      run = .next (u.replied r 0x30 v) := fun u v answer =>
    exec_answers (q := .declareBulletin n serial category length f) served answer
  refine ⟨fun first => ⟨fun k fault => ?_, fun all => ⟨scheduleSaid f, ?_, mem_channelsOfMask f.mask,
      channelsOfMask_ascending f.mask, ?_, rfl, rfl⟩⟩, fun high => ?_, fun low unknown => ?_,
    fun low known bad => ?_, fun low known short long v bad => ?_,
    fun low short long k g known good => ⟨fun few => ?_, fun enough => ?_⟩⟩
  · rw [acceptSchedule_eq, checked_of_fault (checks ▸ fault)]
    rfl
  · rw [acceptSchedule_eq, checked_of_all (checks ▸ all)]
  · cases start : f.start <;> simp [scheduleSaid, startSaid, start]
  · exact answers _ _ (declareBulletin_of_bad_serial nonzero empty high category length f)
  · exact answers _ _ (declareBulletin_of_bad_category nonzero empty low (categoryAt_of_lt unknown) length f)
  · obtain ⟨k, known⟩ := categoryAt_of_le known
    exact answers _ _ (declareBulletin_of_bad_length nonzero empty low known (by omega) f)
  · obtain ⟨k, known⟩ := categoryAt_of_le known
    exact answers _ _ (declareBulletin_of_bad_schedule nonzero empty low known (within_iff.mpr ⟨short, long⟩) bad)
  all_goals have declares := declareBulletin_of_good nonzero empty low known (within_iff.mpr ⟨short, long⟩) good
  · exact answers _ _ (declares.trans (State.claim_of_short few _ _))
  · refine (answers _ _ (declares.trans (State.claim_of_granted enough _ _))).trans ?_
    obtain ⟨mask, start, passes, limit⟩ := g
    cases start <;> rfl

end Sys2Proof.Machine
end

section
/-! PROOFS. WITHDRAW BULLETIN (02: R33, R34), COMMIT REVISION (03: R45 to R47) and READ TEXT (02: R40). -/

namespace Sys2Proof.Machine

/-! ## The same change made to every channel -/

theorem State.setChannel_channel (s : State) (ch : Fin 8) : s.setChannel ch (s.channel ch) = s := by
  simp [State.setChannel, State.channel]

/-- One channel's record changed by a function of itself. -/
def State.changeChannel (g : Channel → Channel) (s : State) (ch : Fin 8) : State := s.setChannel ch (g (s.channel ch))

theorem State.changeChannels_only (g : Channel → Channel) (l : List (Fin 8)) (s : State) :
    ∃ channels, l.foldl (State.changeChannel g) s = { s with channels := channels } := by
  induction l generalizing s with
  | nil => exact ⟨s.channels, rfl⟩
  | cons ch l ih => exact ih (s.changeChannel g ch)

theorem State.changeChannels_channel (g : Channel → Channel) {l : List (Fin 8)} (distinct : l.Nodup) (s : State)
    (j : Fin 8) : (l.foldl (State.changeChannel g) s).channel j = if j ∈ l then g (s.channel j) else s.channel j := by
  induction l generalizing s with
  | nil => rfl
  | cons ch l ih =>
    obtain ⟨fresh, distinct⟩ := List.nodup_cons.mp distinct
    rw [List.foldl_cons, ih distinct, State.changeChannel, State.channel_setChannel]
    by_cases own : ch = j
    · subst own
      simp [fresh]
    · simp [own, Ne.symm own]

theorem State.changeAll_channel (g : Channel → Channel) (s : State) (j : Fin 8) :
    (allChannels.foldl (State.changeChannel g) s).channel j = g (s.channel j) := by
  rw [State.changeChannels_channel g (l := allChannels) (List.nodup_finRange 8), if_pos (show j ∈ allChannels from List.mem_finRange j)]

/-! ## WITHDRAW BULLETIN (02: R33, R34) -/

/-- The record without an entry of the bulletin. -/
def Channel.without (n : Fin 64) (x : Channel) : Channel := { x with queue := x.queue.filter fun e => e.bulletin ≠ n }

theorem State.unqueue_eq (n : Fin 64) : State.unqueue n = State.changeChannel (Channel.without n) := rfl

/-- The record with the WITHDRAW cut caused where it carries a pass of the bulletin. -/
def Channel.cutting (n : Fin 64) (x : Channel) : Channel :=
  if x.carriesPass n then { x with turn := x.turn.map fun t => t.causeCut .withdraw } else x

theorem State.cutPass_eq (n : Fin 64) : State.cutPass n = State.changeChannel (Channel.cutting n) := by
  funext s ch
  unfold State.cutPass State.changeChannel Channel.cutting
  split
  · rfl
  · exact (State.setChannel_channel s ch).symm

/-- The state once no queue holds an entry of the bulletin. -/
def State.unqueued (s : State) (n : Fin 64) : State := allChannels.foldl (State.unqueue n) s

theorem State.unqueued_only (s : State) (n : Fin 64) : ∃ channels, s.unqueued n = { s with channels := channels } :=
  State.changeChannels_only (Channel.without n) allChannels s

theorem State.unqueued_channel (s : State) (n : Fin 64) (j : Fin 8) :
    (s.unqueued n).channel j = (s.channel j).without n := State.changeAll_channel (Channel.without n) s j

theorem State.unqueued_bulletin (s : State) (n i : Fin 64) : (s.unqueued n).bulletin i = s.bulletin i := by
  obtain ⟨_, only⟩ := State.unqueued_only s n
  rw [only]
  rfl

theorem Channel.cutting_without (n : Fin 64) (x : Channel) : (x.without n).cutting n = { x with
    queue := x.queue.filter fun e => decide (e.bulletin ≠ n)
    turn := x.turn.map fun t =>
      if x.carriesPass n = false ∨ t.phase = .trailer ∨ t.phase = .closing then t
      else if t.pendingCut.any fun p => decide (p.reason ≠ .urgency) then t
      else { t with pendingCut := some ⟨.withdraw, 0⟩ } } := by
  have carries : (x.without n).carriesPass n = x.carriesPass n := rfl
  unfold Channel.cutting
  rw [carries]
  cases x.carriesPass n with
  | false => simp [Channel.without]
  | true =>
    have cause : (fun t : Turn => t.causeCut .withdraw) = _ := funext fun t => t.causeCut_eq (r := .withdraw) nofun
    rw [cause]
    simp [Channel.without]

theorem withdrawBulletin_of_some {s : State} {n : Fin 64} {b : Bulletin} (nonzero : n ≠ 0)
    (present : s.bulletin n = some b) (live : b.state ≠ .withdrawing) : withdrawBulletin n s =
      (if b.onAir = 0 then (s.unqueued n).emptyEntry n b else (s.unqueued n).withdrawOnAir n b, .ok) := by
  rw [withdrawBulletin, onBulletin_of_some _ nonzero present, if_neg live]
  rfl

/-- What the return of blocks does to a circuit, from a state whose circuits are those of `s`. -/
theorem State.returnAndReport_circuits {s t : State} (same : t.circuits = s.circuits) (bs : List BlockNo) (d : Fin 32) :
    (t.returnAndReport bs).circuit d = { s.circuit d with flow := ((t.returnAndReport bs).circuit d).flow } ∧
      s.returnReported bs d (t.returnAndReport bs) := by
  have before : t.circuit d = s.circuit d := by rw [State.circuit, same, State.circuit]
  exact ⟨before ▸ State.returnAndReport_circuit t bs d,
    State.returnReported_of (State.returnAndReport_reported t bs d) before.symm rfl id⟩

/-- Settles O25. -/
theorem withdrawBulletinUnqueues : Obligations.WithdrawBulletinUnqueues := by
  intro r n b s served nonzero present live stagedBlocks returned
  refine ⟨_, exec_answers (q := .withdrawBulletin n) served (withdrawBulletin_of_some nonzero present live), ?_⟩
  obtain ⟨channels, only⟩ := State.unqueued_only s n
  by_cases idle : b.onAir = 0
  · let t := (s.unqueued n).setBulletin n none
    have frame : t.circuits = s.circuits ∧ t.store = s.store ∧ t.clock = s.clock ∧ t.link = s.link := by
      simp [t, only]
    obtain ⟨circuits, store, clock, link⟩ := frame
    have bulletin : ∀ i, (t.returnAndReport b.allBlocks).bulletin i = if n = i then none else s.bulletin i := fun i => by
      rw [bulletin_returnAndReport, State.bulletin_setBulletin, State.unqueued_bulletin]
    have returns : returned = b.allBlocks := if_pos idle
    rw [if_pos idle, if_pos idle, returns, State.emptyEntry]
    refine ⟨fun ch => ?_, fun i other => ?_, ?_, ?_, State.returnAndReport_circuits (t := t) circuits _, ?_, ?_⟩
    · rw [State.returnAndReport_channel, State.setBulletin_channel, State.unqueued_channel]
      simp [Channel.without, idle]
    · rw [bulletin, if_neg other.symm]
    · rw [bulletin, if_pos rfl]
    · rw [State.returnAndReport_store, store]
    · rw [State.returnAndReport_clock, clock]
    · rw [State.returnAndReport_link, link]
  · let t := ((s.unqueued n).returnAndReport stagedBlocks).setBulletin n
      (some { b with staged := none, commitPending := false, state := .withdrawing })
    have cuts : (s.unqueued n).withdrawOnAir n b = allChannels.foldl (State.changeChannel (Channel.cutting n)) t := by
      rw [← State.cutPass_eq]
      rfl
    obtain ⟨channels', cut⟩ := State.changeChannels_only (Channel.cutting n) allChannels t
    have returns : returned = stagedBlocks := if_neg idle
    have bulletin : ∀ i, t.bulletin i = if n = i then
        some { b with staged := none, commitPending := false, state := .withdrawing } else s.bulletin i := fun i => by
      rw [State.bulletin_setBulletin, bulletin_returnAndReport, State.unqueued_bulletin]
    rw [if_neg idle, if_neg idle, returns, cuts]
    have circuits := State.returnAndReport_circuits (s := s) (t := s.unqueued n) (by rw [only]) stagedBlocks
    refine ⟨fun ch => ?_, fun i other => ?_, ?_, ?_, ?_, ?_, ?_⟩
    · rw [State.changeAll_channel, State.setBulletin_channel, State.returnAndReport_channel, State.unqueued_channel,
        Channel.cutting_without]
      simp [idle]
    all_goals rw [cut]
    · exact (bulletin i).trans (if_neg other.symm)
    · exact (bulletin n).trans (if_pos rfl)
    · exact (State.returnAndReport_store _ _).trans (by rw [only])
    · exact circuits
    · exact (State.returnAndReport_clock _ _).trans (by rw [only])
    · exact (State.returnAndReport_link _ _).trans (by rw [only])

end Sys2Proof.Machine
end

section
/-! PROOFS. What a report that an entry is eligible does to the channel told and leaves of everything else (07: R117;
09: R153), and DISCARD REVISION (03: R50, R51), COMMIT REVISION (03: R45 to R47). -/

namespace Sys2Proof.Machine

/-! ## What a told channel leaves of the rest -/

/-- Telling channels reaches their records, the waits that a turn ends, and the on-air counts that a pass raises. -/
structure State.Told (s t : State) : Prop where
  store : t.store = s.store
  clock : t.clock = s.clock
  link : t.link = s.link
  now : t.now = s.now
  notices : t.notices = s.notices
  keyok : t.keyok = s.keyok
  silence : t.silence = s.silence
  circuit (d : Fin 32) : t.circuit d = { s.circuit d with waitStart := (t.circuit d).waitStart }
  bulletin (i : Fin 64) : ∃ k, t.bulletin i = (s.bulletin i).map fun b => { b with onAir := k }

namespace State.Told

variable {s t u : State}

theorem bulletin_self (i : Fin 64) : ∃ k, s.bulletin i = (s.bulletin i).map fun b => { b with onAir := k } := by
  cases s.bulletin i with
  | none => exact ⟨0, rfl⟩
  | some b => exact ⟨b.onAir, rfl⟩

theorem refl : s.Told s := ⟨rfl, rfl, rfl, rfl, rfl, rfl, rfl, fun _ => rfl, bulletin_self⟩

theorem trans (h : s.Told t) (h' : t.Told u) : s.Told u := by
  refine ⟨h'.store.trans h.store, h'.clock.trans h.clock, h'.link.trans h.link, h'.now.trans h.now,
    h'.notices.trans h.notices, h'.keyok.trans h.keyok, h'.silence.trans h.silence, fun d => ?_, fun i => ?_⟩
  · have later := h'.circuit d
    rw [h.circuit d] at later
    rw [later]
  · obtain ⟨k, first⟩ := h.bulletin i
    obtain ⟨l, later⟩ := h'.bulletin i
    refine ⟨l, ?_⟩
    rw [later, first]
    cases s.bulletin i <;> rfl

theorem setChannel (h : s.Told t) (ch : Fin 8) (x : Channel) : s.Told (t.setChannel ch x) :=
  ⟨h.store, h.clock, h.link, h.now, h.notices, h.keyok, h.silence, h.circuit, h.bulletin⟩

theorem endWait (h : s.Told t) (c : Fin 32) (w : Option Nat) :
    s.Told (t.setCircuit c { t.circuit c with waitStart := w }) := by
  refine ⟨h.store, h.clock, h.link, h.now, h.notices, h.keyok, h.silence, fun d => ?_, h.bulletin⟩
  rw [State.circuit_setCircuit]
  split
  · next here =>
    subst here
    rw [h.circuit c]
  · exact h.circuit d

theorem putOnAir (h : s.Told t) {n : Fin 64} {b : Bulletin} (present : t.bulletin n = some b) (k : Nat) :
    s.Told (t.setBulletin n (some { b with onAir := k })) := by
  refine ⟨h.store, h.clock, h.link, h.now, h.notices, h.keyok, h.silence, h.circuit, fun i => ?_⟩
  obtain ⟨l, first⟩ := h.bulletin i
  rw [State.bulletin_setBulletin]
  split
  · next here =>
    subst here
    refine ⟨k, ?_⟩
    rw [present] at first
    cases before : s.bulletin n with
    | none => rw [before] at first; cases first
    | some b' => rw [before] at first; cases first; rfl
  · exact ⟨l, first⟩

theorem turnStarted {ch : Fin 8} {phase : Phase} {choice : Choice} (h : s.turnStarted ch phase choice u) :
    s.Told u := by
  match choice, h with
  | .entry e, ⟨b, present, same⟩ => exact same ▸ (refl.setChannel ch _).putOnAir (by exact present) _
  | .circuit c, same => exact (show u = _ from same) ▸ (refl.setChannel ch _).endWait c none

theorem consulted {ch : Fin 8} (h : s.consulted ch u) : s.Told u := by
  rcases State.consulted_cases h with same | ⟨x, same, -⟩ | ⟨-, -, _, _, started⟩
  · exact same ▸ refl
  · exact same ▸ refl.setChannel ch x
  · exact (refl.setChannel ch _).trans (turnStarted started)

theorem tellIdle (s : State) (ch : Fin 8) : s.Told (s.tellIdle ch) := consulted (s.tellIdle_consulted ch)

theorem isSome (h : s.Told t) (i : Fin 64) : (t.bulletin i).isSome = (s.bulletin i).isSome := by
  obtain ⟨k, same⟩ := h.bulletin i
  rw [same, Option.isSome_map]

theorem silenced (h : s.Told t) {ch : Fin 8} (same : t.channel ch = s.channel ch) : t.silenced ch = s.silenced ch := by
  rw [State.silenced, same, h.silence, State.silenced]

theorem keyokOf (h : s.Told t) (ch : Fin 8) : t.keyokOf ch = s.keyokOf ch := by
  rw [State.keyokOf, h.keyok, State.keyokOf]

theorem entryEligible (h : s.Told t) {ch : Fin 8} (same : t.channel ch = s.channel ch) (e : Entry) :
    t.entryEligible ch e = s.entryEligible ch e := by
  obtain ⟨k, bulletin⟩ := h.bulletin e.bulletin
  rw [State.entryEligible, bulletin, h.silenced same, State.entryEligible]
  cases s.bulletin e.bulletin <;> rfl

end State.Told

/-! ## What a told channel does (07: R117) -/

theorem Turn.causeCut_eq_caused (t : Turn) (r : CutReason) : t.causeCut r = t.caused r := by
  obtain ⟨kind, phase, count, text, position, held, pending, progress⟩ := t
  have next : nextPending pending r =
      if pending.any fun p => decide (p.reason ≠ .urgency ∨ r = .urgency) then pending else some ⟨r, 0⟩ := by
    cases pending with
    | none => rfl
    | some p => by_cases urgent : p.reason = .urgency <;> by_cases mild : r = .urgency <;> simp [nextPending, urgent, mild]
  unfold Turn.causeCut Turn.caused
  rw [next]
  cases phase <;> simp <;> split <;> rfl

/-- A turn that does not yield to the class goes on. -/
theorem Turn.told_eq (t : Turn) (k : Rank) : t.told k =
    if t.yieldsTo k then (if k = 0 then t.causeCut .distress else if k = 1 then t.causeCut .urgency else t) else t := by
  rw [Turn.causeCut_eq_caused, Turn.causeCut_eq_caused]
  have told : t.told k = if t.yieldsTo k = true ∧ k = 0 then t.caused .distress
      else if t.yieldsTo k = true ∧ k = 1 then t.caused .urgency else t := by
    obtain ⟨kind, phase, count, text, position, held, pending, progress⟩ := t
    cases kind <;> rfl
  rw [told]
  cases t.yieldsTo k <;> simp

section

variable (s : State) (ch : Fin 8) (k : Rank)

theorem State.tellEntry_of_idle (idle : (s.channel ch).state = .idle) : s.tellEntry ch k = s.tellIdle ch := by
  rw [State.tellEntry, State.tellIdle, idle]
  rfl

theorem State.tellEntry_of_keyed (keyed : (s.channel ch).state = .keyed) : s.tellEntry ch k =
    s.setChannel ch { s.channel ch with turn := (s.channel ch).turn.map fun t => t.told k } := by
  have same : s.setChannel ch { s.channel ch with turn := (s.channel ch).turn } = s := State.setChannel_channel s ch
  rw [State.tellEntry, keyed]
  cases turn : (s.channel ch).turn with
  | none =>
    rw [turn] at same
    exact same.symm
  | some t =>
    rw [turn] at same
    dsimp only
    rw [Option.any_some, Option.map_some, Turn.told_eq]
    cases yields : t.yieldsTo k with
    | false => exact same.symm
    | true =>
      simp only [if_true]
      by_cases first : k = 0
      · simp [first, State.causeCut, turn]
      · by_cases second : k = 1
        · simp [second, State.causeCut, turn]
        · rw [if_neg first, if_neg second, if_neg first, if_neg second, same]

theorem State.tellEntry_of_deaf (notIdle : (s.channel ch).state ≠ .idle) (notKeyed : (s.channel ch).state ≠ .keyed) :
    s.tellEntry ch k = s := by
  unfold State.tellEntry
  cases state : (s.channel ch).state <;> simp_all

end

/-! ## The report that an entry is eligible (03: R50) -/

section

variable (s : State) (n : Fin 64) (ch : Fin 8)

theorem State.tellEntry_told (k : Rank) : s.Told (s.tellEntry ch k) := by
  by_cases idle : (s.channel ch).state = .idle
  · exact State.tellEntry_of_idle s ch k idle ▸ State.Told.tellIdle s ch
  · by_cases keyed : (s.channel ch).state = .keyed
    · exact State.tellEntry_of_keyed s ch k keyed ▸ State.Told.refl.setChannel ch _
    · exact (State.tellEntry_of_deaf s ch k idle keyed).symm ▸ State.Told.refl

theorem State.tellEntry_other (k : Rank) {j : Fin 8} (other : j ≠ ch) :
    (s.tellEntry ch k).channel j = s.channel j := by
  by_cases idle : (s.channel ch).state = .idle
  · rw [State.tellEntry_of_idle s ch k idle, State.consulted_channel_other (s.tellIdle_consulted ch) other]
  · by_cases keyed : (s.channel ch).state = .keyed
    · rw [State.tellEntry_of_keyed s ch k keyed, State.channel_setChannel, if_neg other.symm]
    · rw [State.tellEntry_of_deaf s ch k idle keyed]

/-- The report reaches a channel with an eligible entry alone. -/
theorem State.tellEntryOf_cases : s.tellEntryOf n ch = s ∨
    ∃ e, (s.channel ch).queue.find? (fun e => e.bulletin = n) = some e ∧ s.entryEligible ch e = true ∧
      s.tellEntryOf n ch = s.tellEntry ch e.rank := by
  unfold State.tellEntryOf
  cases found : (s.channel ch).queue.find? (fun e => e.bulletin = n) with
  | none => exact .inl rfl
  | some e =>
    cases eligible : s.entryEligible ch e with
    | false => exact .inl (by simp [eligible])
    | true => exact .inr ⟨e, rfl, eligible, by simp [eligible]⟩

theorem State.tellEntryOf_told : s.Told (s.tellEntryOf n ch) := by
  rcases State.tellEntryOf_cases s n ch with same | ⟨e, -, -, same⟩
  · exact same.symm ▸ State.Told.refl
  · exact same ▸ State.tellEntry_told s ch e.rank

theorem State.tellEntryOf_other {j : Fin 8} (other : j ≠ ch) : (s.tellEntryOf n ch).channel j = s.channel j := by
  rcases State.tellEntryOf_cases s n ch with same | ⟨e, -, -, same⟩
  · rw [same]
  · rw [same, State.tellEntry_other s ch e.rank other]

variable {s n ch}

theorem Channel.holdsEntry_of_found {x : Channel} {e : Entry} (found : x.queue.find? (fun e => e.bulletin = n) = some e) :
    x.holdsEntry n = true :=
  List.any_eq_true.mpr ⟨e, List.mem_of_find?_eq_some found, by simpa using List.find?_some found⟩

theorem State.tellEntryOf_of_absent (absent : (s.channel ch).holdsEntry n = false) : s.tellEntryOf n ch = s := by
  rcases State.tellEntryOf_cases s n ch with same | ⟨e, found, -⟩
  · exact same
  · rw [Channel.holdsEntry_of_found found] at absent
    cases absent

theorem State.tellEntryOf_of_eligible {e : Entry}
    (found : (s.channel ch).queue.find? (fun e => e.bulletin = n) = some e) (eligible : s.entryEligible ch e = true) :
    s.tellEntryOf n ch = s.tellEntry ch e.rank := by
  simp [State.tellEntryOf, found, eligible]

/-- An IDLE channel that is told of an eligible entry raises KEYREQ; a KEYED one has its turn told. -/
theorem State.tellEntry_tells {e : Entry} (queued : e ∈ (s.channel ch).queue) (eligible : s.entryEligible ch e = true) :
    ((s.channel ch).state = .idle → ((s.tellEntry ch e.rank).channel ch).keyreq = true ∧
      (s.keyokOf ch = false → ((s.tellEntry ch e.rank).channel ch).state = .requesting)) ∧
    ∀ t, (s.channel ch).state = .keyed → (s.channel ch).turn = some t →
      ((s.tellEntry ch e.rank).channel ch).turn = some (t.told e.rank) := by
  refine ⟨fun idle => ?_, fun t keyed turn => ?_⟩
  · rw [State.tellEntry_of_idle s ch _ idle]
    exact State.consulted_keyreq (s.tellIdle_consulted ch) idle
      (State.anythingEligible_iff.mpr (.inl ⟨e, queued, eligible⟩))
  · rw [State.tellEntry_of_keyed s ch _ keyed, State.channel_setChannel, if_pos rfl, turn]
    rfl

theorem State.entryTold_of_tellEntryOf {b : Bulletin} (present : s.bulletin n = some b) (released : b.state = .released)
    (settled : b.commitPending = false) : s.entryTold n ch (s.tellEntryOf n ch) := by
  intro e found loud
  have named : e.bulletin = n := by simpa using List.find?_some found
  have eligible : s.entryEligible ch e = true := (State.entryEligible_iff s ch e).mpr
    ⟨b, named ▸ present, released, settled, fun silenced => loud.resolve_left (by simp [silenced])⟩
  rw [State.tellEntryOf_of_eligible found eligible]
  obtain ⟨idle, keyed⟩ := State.tellEntry_tells (List.mem_of_find?_eq_some found) eligible
  exact ⟨fun h => (idle h).1, keyed⟩

/-- What has been told reads the told channel before and after, and what holds it silent. -/
theorem State.entryTold_of {t u v : State} (h : t.entryTold n ch u) (before : t.channel ch = s.channel ch)
    (silence : t.silenced ch = s.silenced ch) (after : v.channel ch = u.channel ch) : s.entryTold n ch v := by
  intro e found loud
  have told := h e (by rw [before]; exact found) (by rw [silence]; exact loud)
  rw [before, ← after] at told
  exact told

end

/-- Channels told one after the other: each of them finds its own record as it was at the start. -/
theorem State.foldl_told {f : State → Fin 8 → State} (told : ∀ (s : State) ch, s.Told (f s ch))
    (others : ∀ (s : State) ch j, j ≠ ch → (f s ch).channel j = s.channel j) {l : List (Fin 8)} (distinct : l.Nodup) (s : State) :
    s.Told (l.foldl f s) ∧ ∀ j, (j ∉ l → (l.foldl f s).channel j = s.channel j) ∧
      (j ∈ l → ∃ t, s.Told t ∧ t.channel j = s.channel j ∧ (l.foldl f s).channel j = (f t j).channel j) := by
  induction l generalizing s with
  | nil => exact ⟨State.Told.refl, fun j => ⟨fun _ => rfl, fun mem => (List.not_mem_nil mem).elim⟩⟩
  | cons ch l ih =>
    obtain ⟨fresh, distinct⟩ := List.nodup_cons.mp distinct
    obtain ⟨later, each⟩ := ih distinct (f s ch)
    rw [List.foldl_cons]
    refine ⟨(told s ch).trans later, fun j => ⟨fun out => ?_, fun mem => ?_⟩⟩
    · rw [List.mem_cons, not_or] at out
      exact ((each j).1 out.2).trans (others s ch j out.1)
    · by_cases own : j = ch
      · subst own
        exact ⟨s, State.Told.refl, rfl, (each j).1 fresh⟩
      · obtain ⟨t, reached, before, after⟩ := (each j).2 ((List.mem_cons.mp mem).resolve_left own)
        exact ⟨t, (told s ch).trans reached, before.trans (others s ch j own), after⟩

theorem State.tellHolders_told (s : State) (n : Fin 64) : s.Told (s.tellHolders n) :=
  (State.foldl_told (fun s => State.tellEntryOf_told s n) (fun s ch _ => State.tellEntryOf_other s n ch)
    (l := allChannels) (List.nodup_finRange 8) s).1

theorem State.tellHolders_entryTold {s : State} {n : Fin 64} {b : Bulletin} (present : s.bulletin n = some b)
    (released : b.state = .released) (settled : b.commitPending = false) (j : Fin 8) :
    s.entryTold n j (s.tellHolders n) ∧
      ((s.channel j).holdsEntry n = false → (s.tellHolders n).channel j = s.channel j) := by
  obtain ⟨t, reached, before, after⟩ := ((State.foldl_told (fun s => State.tellEntryOf_told s n)
    (fun s ch _ => State.tellEntryOf_other s n ch) (l := allChannels) (List.nodup_finRange 8) s).2 j).2
    (List.mem_finRange j)
  obtain ⟨k, bulletin⟩ := reached.bulletin n
  rw [present] at bulletin
  refine ⟨State.entryTold_of (State.entryTold_of_tellEntryOf bulletin released settled) before
    (reached.silenced before) after, fun absent => ?_⟩
  rw [← before] at absent
  exact after.trans ((congrArg (State.channel · j) (State.tellEntryOf_of_absent absent)).trans before)

theorem State.Told.reports {s t : State} (h : s.Told t) {key : NoticeKey} {e : NoticeEvent} (before : s.reports key e) :
    t.reports key e := by
  rw [State.reports, h.notices]
  exact before

/-! ## DISCARD REVISION (03: R51) -/

section

variable {s : State} {n : Fin 64} {b : Bulletin} {m : TextMap}

/-- The record without its staged map. -/
def Bulletin.unstaged (b : Bulletin) : Bulletin := { b with staged := none, commitPending := false }

/-- The state once the staged map has gone back, before the channels are told. -/
def State.stagedReturned (s : State) (n : Fin 64) (b : Bulletin) (m : TextMap) : State :=
  (s.setBulletin n (some b.unstaged)).returnAndReport m.blockNumbers

theorem State.discardStaged_eq (s : State) (n : Fin 64) (b : Bulletin) (m : TextMap) : s.discardStaged n b m =
    if b.commitPending then (s.stagedReturned n b m).tellHolders n else s.stagedReturned n b m := rfl

theorem discardRevision_of_staged (nonzero : n ≠ 0) (present : s.bulletin n = some b) (released : b.state = .released)
    (staged : b.staged = some m) : discardRevision n s = (s.discardStaged n b m, .ok) := by
  rw [discardRevision, onBulletin_of_some _ nonzero present]
  simp [released, staged]

theorem State.stagedReturned_bulletin (i : Fin 64) :
    (s.stagedReturned n b m).bulletin i = if n = i then some b.unstaged else s.bulletin i := by
  rw [State.stagedReturned, bulletin_returnAndReport, State.bulletin_setBulletin]

theorem State.stagedReturned_channels : (s.stagedReturned n b m).channels = s.channels :=
  State.returnAndReport_channels _ _

theorem State.discardStaged_told : (s.stagedReturned n b m).Told (s.discardStaged n b m) := by
  rw [State.discardStaged_eq]
  split
  · exact State.tellHolders_told _ n
  · exact State.Told.refl

end

/-- Settles O30. -/
theorem discardRevisionReturnsTheStagedMap : Obligations.DiscardRevisionReturnsTheStagedMap := by
  intro r n b m s served nonzero present released staged
  have answers := exec_answers (i := .discardRevision r n) (q := .discardRevision n) served
    (discardRevision_of_staged nonzero present released staged)
  have told := State.discardStaged_told (s := s) (n := n) (b := b) (m := m)
  obtain ⟨k, bulletin⟩ := told.bulletin n
  rw [State.stagedReturned_bulletin, if_pos rfl] at bulletin
  have silence : (s.stagedReturned n b m).silence = s.silence := by
    obtain ⟨_, _, same⟩ := State.returnAndReport_only (s.setBulletin n (some b.unstaged)) m.blockNumbers
    rw [State.stagedReturned, same]
    rfl
  refine ⟨_, _, answers, bulletin, rfl, ?_, fun d => ?_, fun settled => ?_, fun pending j => ?_, fun i other => ?_, ?_, ?_⟩
  · exact told.store.trans (State.returnAndReport_store _ _)
  · refine State.returnReported_of (State.returnAndReport_circuits (s := s) (t := s.setBulletin n (some b.unstaged))
      rfl m.blockNumbers d).2 rfl ?_ told.reports
    rw [told.circuit d]
    rfl
  · rw [State.discardStaged_eq, settled, if_neg (by decide)]
    rw [State.discardStaged_eq, settled, if_neg (by decide), State.stagedReturned_bulletin, if_pos rfl] at bulletin
    exact ⟨congrArg (fun x => x.elim 0 Bulletin.onAir) bulletin.symm, State.stagedReturned_channels⟩
  · rw [State.discardStaged_eq, pending, if_pos rfl]
    have same : (s.stagedReturned n b m).channel j = s.channel j := by
      rw [State.channel, State.stagedReturned_channels, State.channel]
    obtain ⟨tells, keeps⟩ := State.tellHolders_entryTold (s := s.stagedReturned n b m) (n := n) (b := b.unstaged)
      (by rw [State.stagedReturned_bulletin, if_pos rfl]) released rfl j
    rw [same] at keeps
    exact ⟨State.entryTold_of tells same (by rw [State.silenced, same, silence, State.silenced]) rfl, keeps⟩
  · rw [told.isSome, State.stagedReturned_bulletin, if_neg other.symm]
  · exact told.clock.trans (State.returnAndReport_clock _ _)
  · exact told.link.trans (State.returnAndReport_link _ _)

end Sys2Proof.Machine
end

section
/-! PROOFS. COMMIT REVISION (03: R45 to R47) and READ TEXT (02: R40). -/

namespace Sys2Proof.Machine

/-! ## The commit (03: R47) -/

theorem TextMap.allPresent_iff (m : TextMap) : m.allPresent = true ↔ ∀ p < m.blocks.length, m.present p = true := by
  simp [TextMap.allPresent]

section

variable {s : State} {n : Fin 64} {b : Bulletin} {m : TextMap}

/-- The descriptor after the commit of a staged map. -/
def Bulletin.committed (b : Bulletin) (m : TextMap) : Bulletin :=
  { b with current := m, staged := none, revision := b.revision + 1, revised := true, commitPending := false }

/-- The state at the commit, before its block return report. -/
def State.committing (s : State) (n : Fin 64) (b : Bulletin) (m : TextMap) : State :=
  ((s.returnBlocks b.current.blockNumbers).setBulletin n (some (b.committed m))).raiseEvent (.bulletin n) .committed

theorem State.commit_eq (s : State) (n : Fin 64) (b : Bulletin) (m : TextMap) : s.commit n b m =
    if b.commitPending then (s.committing n b m).returnReport.tellHolders n else (s.committing n b m).returnReport := rfl

/-- What the block return report leaves of the commit. -/
theorem State.committing_reported (s : State) (n : Fin 64) (b : Bulletin) (m : TextMap) :
    (∀ i, (s.committing n b m).returnReport.bulletin i = if n = i then some (b.committed m) else s.bulletin i) ∧
    (s.committing n b m).returnReport.store = { s.store with free := s.store.free ++ b.current.blockNumbers } ∧
    (s.committing n b m).returnReport.channels = s.channels ∧ (s.committing n b m).returnReport.clock = s.clock ∧
    (s.committing n b m).returnReport.link = s.link ∧
    (s.committing n b m).returnReport.reports (.bulletin n) .committed := by
  have raised : (s.committing n b m).reports (.bulletin n) .committed := State.reports_raiseEvent _ _ _
  have reported := (State.reportAll_spec (List.nodup_finRange 32) (s.committing n b m)).1 _ _ raised
  obtain ⟨_, _, same⟩ := State.returnReport_only (s.committing n b m)
  refine ⟨fun i => ?_, ?_, ?_, ?_, ?_, reported⟩
  · have bulletin : (s.committing n b m).bulletin i = _ := State.bulletin_setBulletin _ n i (some (b.committed m))
    rw [same]
    exact bulletin
  all_goals rw [same]; rfl

theorem State.committing_circuit (s : State) (n : Fin 64) (b : Bulletin) (m : TextMap) (d : Fin 32) :
    (s.committing n b m).returnReport.circuit d =
      { s.circuit d with flow := ((s.committing n b m).returnReport.circuit d).flow } :=
  (State.returnReport_spec (s.committing n b m) [0] (List.cons_ne_nil 0 []) d).2

theorem State.committing_returned (s : State) (n : Fin 64) (b : Bulletin) (m : TextMap)
    (blocks : b.current.blockNumbers ≠ []) (d : Fin 32) :
    s.returnReported b.current.blockNumbers d (s.committing n b m).returnReport :=
  State.returnReported_of (State.returnReport_spec (s.committing n b m) _ blocks d).1 rfl rfl id

theorem commitRevision_of_staged (nonzero : n ≠ 0) (present : s.bulletin n = some b) (released : b.state = .released)
    (staged : b.staged = some m) (settled : b.commitPending = false) : commitRevision n s =
      if !m.allPresent then (s, .fail .incomplete)
      else if b.revision = 999 then (s, .fail .revisionLimit)
      else if b.onAir = 0 then (s.commit n b m, commitVerdict 0 (b.revision + 1))
      else (s.setBulletin n (some { b with commitPending := true }), commitVerdict 1 b.revision) := by
  rw [commitRevision, onBulletin_of_some _ nonzero present]
  simp [released, staged, settled]

end

/-- Settles O29. -/
theorem commitRevisionTakesOrPends : Obligations.CommitRevisionTakesOrPends := by
  intro r n b m s served nonzero present released staged settled run whole number
  have answers : ∀ u v, commitRevision n s = (u, v) → run = .next (u.replied r 0x39 v) := fun u v answer =>
    exec_answers (q := .commitRevision n) served answer
  have commits := commitRevision_of_staged nonzero present released staged settled
  have complete : whole → (!m.allPresent) = false := fun all => by simp [(TextMap.allPresent_iff m).mpr all]
  refine ⟨fun partly => ?_, fun all limit => ?_, fun all below onAir => ?_, fun all below offAir => ?_⟩
  · have missing : (!m.allPresent) = true := by
      rw [Bool.not_eq_true', Bool.eq_false_iff, ne_eq, TextMap.allPresent_iff]
      exact partly
    exact answers _ _ (commits.trans (if_pos missing))
  all_goals rw [complete all, if_neg (by decide)] at commits
  · exact answers _ _ (commits.trans (if_pos limit))
  · exact answers _ _ (commits.trans ((if_neg below).trans (if_neg onAir)))
  · rw [if_neg below, if_pos offAir, State.commit_eq, settled, if_neg (by decide)] at commits
    obtain ⟨bulletin, store, channels, clock, link, reported⟩ := State.committing_reported s n b m
    refine ⟨_, answers _ _ commits, ?_, fun i other => ?_, store, fun d => ?_, reported, channels, clock, link⟩
    · rw [bulletin, if_pos rfl, Bulletin.committed, settled]
    · rw [bulletin, if_neg other.symm]
    · exact ⟨State.committing_circuit s n b m d, fun blocks => State.committing_returned s n b m blocks d⟩

/-! ## READ TEXT (02: R40) -/

/-- What is read: written characters on end, up to the count, the end of the text or a character not written. -/
theorem TextMap.readFrom_spec (m : TextMap) (cells : Memory) {count o : Nat} (inside : o ≤ m.length) :
    (m.readFrom cells count o).length ≤ count ∧
    (∀ i < (m.readFrom cells count o).length, o + i < m.length ∧ m.written (o + i) = true ∧
      (m.readFrom cells count o)[i]? = some (m.charAt cells (o + i))) ∧
    ((m.readFrom cells count o).length = count ∨ o + (m.readFrom cells count o).length = m.length ∨
      m.written (o + (m.readFrom cells count o).length) = false) := by
  induction count generalizing o with
  | zero => simp [TextMap.readFrom]
  | succ count ih =>
    by_cases goesOn : o < m.length ∧ m.written o = true
    · obtain ⟨short, each, stop⟩ := ih (o := o + 1) goesOn.1
      have read : m.readFrom cells (count + 1) o = m.charAt cells o :: m.readFrom cells count (o + 1) :=
        if_pos (by simpa using goesOn)
      rw [read, List.length_cons]
      refine ⟨by omega, fun i below => ?_, ?_⟩
      · cases i with
        | zero => exact ⟨goesOn.1, goesOn.2, rfl⟩
        | succ i =>
          have later := each i (by omega)
          rw [show o + 1 + i = o + (i + 1) by omega] at later
          exact later
      · rw [show o + 1 + (m.readFrom cells count (o + 1)).length =
          o + ((m.readFrom cells count (o + 1)).length + 1) by omega] at stop
        exact stop.imp_left (congrArg (· + 1))
    · have read : m.readFrom cells (count + 1) o = [] := if_neg (by simpa using goesOn)
      rw [read]
      refine ⟨Nat.zero_le _, fun i below => absurd below (Nat.not_lt_zero i), .inr ?_⟩
      rcases Nat.lt_or_eq_of_le inside with more | ends
      · exact .inr (Bool.eq_false_iff.mpr fun written => goesOn ⟨more, written⟩)
      · exact .inl ends

section

variable {s : State} {n : Fin 64} {b : Bulletin} (nonzero : n ≠ 0) (present : s.bulletin n = some b)

include nonzero present

theorem readText_of_some (target offset count : Nat) :
    readText n target offset count s = (s, s.textRead b target offset count) :=
  onBulletin_of_some _ nonzero present

end

section

variable {s : State} {b : Bulletin} {m : TextMap} {target offset count : Nat} (named : b.target target = .ok m)

include named

theorem State.textRead_of_far (far : m.length ≤ offset) : s.textRead b target offset count = .range 2 := by
  simp [State.textRead, named, far]

theorem State.textRead_of_bad_count (near : offset < m.length) (bad : count < 1 ∨ 192 < count) :
    s.textRead b target offset count = .range 3 := by
  simp [State.textRead, named, Nat.not_le.mpr near, not_within_iff.mpr bad]

theorem State.textRead_of_good (near : offset < m.length) (low : 1 ≤ count) (high : count ≤ 192) :
    s.textRead b target offset count = ⟨.ok, encodeString (m.readFrom s.store.cells count offset)⟩ := by
  simp [State.textRead, named, Nat.not_le.mpr near, within_iff.mpr ⟨low, high⟩]

end

theorem Bulletin.target_eq_ok {b : Bulletin} {m : TextMap} {target : Nat} (known : target ≤ 1)
    (h : (if target = 0 then some b.current else b.staged) = some m) : b.target target = .ok m := by
  rcases Nat.le_one_iff_eq_zero_or_eq_one.mp known with rfl | rfl
  · exact congrArg Except.ok (Option.some.inj h)
  · have staged : b.staged = some m := h
    simp [Bulletin.target, staged]

/-- Settles O27. -/
theorem readTextReturnsWrittenCharacters : Obligations.ReadTextReturnsWrittenCharacters := by
  intro r n b target offset count s served nonzero present known run
  have answers : ∀ v, s.textRead b target offset count = v → run = .next (s.replied r 0x37 v) := fun v read =>
    exec_answers (q := .readText n target offset count) served
      ((readText_of_some nonzero present target offset count).trans (congrArg (Prod.mk s) read))
  refine ⟨fun isStaged unstaged => answers _ ?_, fun m named => ?_⟩
  · simp [State.textRead, Bulletin.target, isStaged, unstaged] <;> rfl
  · have named := Bulletin.target_eq_ok known named
    refine ⟨fun far => answers _ (State.textRead_of_far named far),
      fun near bad => answers _ (State.textRead_of_bad_count named near (by omega)), fun near low high => ?_⟩
    obtain ⟨short, each, stop⟩ := m.readFrom_spec s.store.cells (count := count) near.le
    exact ⟨_, _, short, rfl, answers _ (State.textRead_of_good named near low high), each, stop⟩

end Sys2Proof.Machine
end

section
/-! PROOFS. The cells that a list of blocks addresses (01: R4, R10, R14), and what an arrival of characters stores
(01: R15). -/

namespace Sys2Proof.Machine

/-! ## The cells of a list of blocks -/

/-- The character at an offset of the text that these blocks hold, 64 to a block. -/
def readAt (blocks : List BlockNo) (cells : Memory) (o : Nat) : Byte :=
  (blocks[o / 64]?).elim blankByte fun b => cells.read (cellAddress b (o % 64))

theorem cellAddress_inj {a b : BlockNo} {p q : Nat} (hp : p < 64) (hq : q < 64) :
    cellAddress a p = cellAddress b q ↔ a = b ∧ p = q := by
  have size : Config.blockSize = 64 := rfl
  rw [cellAddress, cellAddress, size, Fin.ext_iff]
  omega

section

variable {cells : Memory} (canonical : cells.wf = true) {b : BlockNo} {q : Nat} (inside : q < 64) (c : Byte)

include canonical inside

/-- A write to one block reaches no cell of another. -/
theorem read_write_other {d : BlockNo} (other : d ≠ b) {p : Nat} (hp : p < 64) :
    (cells.write (cellAddress b q) c).read (cellAddress d p) = cells.read (cellAddress d p) := by
  rw [Memory.read_write canonical, if_neg (fun same => other ((cellAddress_inj hp inside).mp same).1)]

variable {blocks : List BlockNo} (distinct : blocks.Nodup)

include distinct

/-- A write at one offset of a text is read there, and every other offset reads as before. -/
theorem readAt_write {p : Nat} (here : blocks[p]? = some b) (o : Nat) :
    readAt blocks (cells.write (cellAddress b q) c) o = if o = 64 * p + q then c else readAt blocks cells o := by
  unfold readAt
  cases there : blocks[o / 64]? with
  | none =>
    have apart : o ≠ 64 * p + q := by
      rintro rfl
      rw [show (64 * p + q) / 64 = p by omega, here] at there
      cases there
    rw [if_neg apart]
    rfl
  | some d =>
    have small : o % 64 < 64 := Nat.mod_lt _ (by decide)
    have same : cellAddress d (o % 64) = cellAddress b q ↔ o = 64 * p + q := by
      rw [cellAddress_inj small inside]
      constructor
      · rintro ⟨rfl, offset⟩
        have position : o / 64 = p := by
          obtain ⟨bound, value⟩ := List.getElem?_eq_some_iff.mp there
          obtain ⟨bound', value'⟩ := List.getElem?_eq_some_iff.mp here
          exact (distinct.getElem_inj_iff).mp (value.trans value'.symm)
        omega
      · rintro rfl
        rw [show (64 * p + q) / 64 = p by omega, here] at there
        exact ⟨(Option.some.inj there).symm, by omega⟩
    rw [Option.elim_some, Option.elim_some, Memory.read_write canonical]
    simp only [same]

end

theorem readAt_append {blocks : List BlockNo} (b : BlockNo) (cells : Memory) {o : Nat} (h : o / 64 < blocks.length) :
    readAt (blocks ++ [b]) cells o = readAt blocks cells o := by
  rw [readAt, List.getElem?_append_left h, readAt]

/-! ## The text of a chain (01: R14) -/

theorem Chain.text_eq (k : Chain) (cells : Memory) :
    k.text cells = (List.range k.count).map fun i => readAt k.blocks cells (k.headOffset + i) := rfl

/-- The offset past the last character of a chain that holds a block. -/
theorem Chain.end_offset {k : Chain} (law : k.law) (blocks : k.blocks ≠ []) :
    k.headOffset + k.count = 64 * (k.blocks.length - 1) + k.tailFill := by
  obtain ⟨-, some⟩ := (Chain.law_iff k).mp law
  have := some blocks
  rcases Chain.length_cases k with ⟨none, -⟩ | ⟨one, count⟩ | ⟨n, more, count⟩
  · exact absurd none blocks
  · omega
  · omega

/-- The head offset of a chain that a claimed block has joined. -/
def Chain.headAfterClaim (k : Chain) : Nat := if k.blocks = [] then 0 else k.headOffset

theorem Chain.end_offset_of_claim {k : Chain} (law : k.law) (wants : k.blocks = [] ∨ k.tailFill = 64) :
    k.headAfterClaim + k.count = 64 * k.blocks.length := by
  unfold Chain.headAfterClaim
  by_cases none : k.blocks = []
  · simp [none, Chain.count_of_nil none]
  · have length := List.length_pos_iff.mpr none
    have full := wants.resolve_left none
    have := Chain.end_offset law none
    rw [if_neg none]
    omega

/-- A character stored at the end of a text, whose blocks are no others but for a block at the end. -/
theorem text_grows {blocks blocks' : List BlockNo} {cells cells' : Memory} {head head' count : Nat} {c : Byte}
    (before : ∀ i < count, readAt blocks' cells' (head' + i) = readAt blocks cells (head + i))
    (stored : readAt blocks' cells' (head' + count) = c) :
    (List.range (count + 1)).map (fun i => readAt blocks' cells' (head' + i)) =
      (List.range count).map (fun i => readAt blocks cells (head + i)) ++ [c] := by
  rw [List.range_succ, List.map_append, List.map_singleton, stored]
  congr 1
  exact List.map_congr_left fun i mem => before i (List.mem_range.mp mem)

theorem Chain.text_claim {k : Chain} (law : k.law) (wants : k.blocks = [] ∨ k.tailFill = 64) {b : BlockNo}
    (distinct : (k.blocks ++ [b]).Nodup) {cells : Memory} (canonical : cells.wf = true) (c : Byte) :
    (⟨k.blocks ++ [b], if k.blocks = [] then 0 else k.headOffset, 1⟩ : Chain).text (cells.write (cellAddress b 0) c) =
      k.text cells ++ [c] := by
  have ends := Chain.end_offset_of_claim law wants
  have reads := readAt_write canonical (q := 0) (by decide) c distinct (p := k.blocks.length) (b := b) (by simp)
  rw [Chain.text_eq, Chain.count_claim law wants b, Chain.text_eq]
  refine text_grows (head' := k.headAfterClaim) (fun i below => ?_) ?_
  · rw [reads, if_neg (by omega), readAt_append b cells (by omega)]
    by_cases none : k.blocks = []
    · rw [Chain.count_of_nil none] at below
      exact absurd below (Nat.not_lt_zero i)
    · rw [Chain.headAfterClaim, if_neg none]
  · rw [reads, if_pos (by omega)]

theorem Chain.text_store {k : Chain} (law : k.law) (distinct : k.blocks.Nodup) {b : BlockNo}
    (last : k.blocks.getLast? = some b) (open_ : k.tailFill ≠ 64) {cells : Memory} (canonical : cells.wf = true)
    (c : Byte) : ({ k with tailFill := k.tailFill + 1 } : Chain).text (cells.write (cellAddress b k.tailFill) c) =
      k.text cells ++ [c] := by
  have blocks := blocks_ne_nil_of_getLast? last
  have ends := Chain.end_offset law blocks
  obtain ⟨-, some⟩ := (Chain.law_iff k).mp law
  have := some blocks
  have reads := readAt_write canonical (q := k.tailFill) (by omega) c distinct (p := k.blocks.length - 1) (b := b)
    (by rw [← List.getLast?_eq_getElem?]; exact last)
  rw [Chain.text_eq, Chain.count_store law blocks, Chain.text_eq]
  refine text_grows (head' := k.headOffset) (head := k.headOffset) (fun i below => ?_) ?_
  · rw [reads, if_neg (by omega)]
  · exact (reads _).trans (if_pos (by omega))

/-! ## An arrival (01: R15) -/

/-- How an arrival of n characters ends, of the k that were stored. -/
def ArrivalEnds (n k count : Nat) (free : List BlockNo) (stop : Option ArrivalStop) : Prop :=
  (k = n ∧ stop = none) ∨ (k < n ∧ 512 ≤ count ∧ stop = some .limit) ∨
    (k < n ∧ count < 512 ∧ free = [] ∧ stop = some .noBlock)

/-- What an arrival has done to a chain and to the store. -/
structure Arrived (cs : List Byte) (k : Chain) (t : TextStore) (k' : Chain) (t' : TextStore) (n : Nat)
    (stop : Option ArrivalStop) : Prop where
  few : n ≤ cs.length
  text : k'.text t'.cells = k.text t.cells ++ cs.take n
  count : k'.count = k.count + n
  ends : ArrivalEnds cs.length n k'.count t'.free stop
  apart : ∀ b, b ∉ k.blocks → b ∉ t.free → ∀ p < 64, t'.cells.read (cellAddress b p) = t.cells.read (cellAddress b p)

section

variable {c : Byte} {cs : List Byte} {k l k' : Chain} {t u t' : TextStore} {n : Nat} {stop : Option ArrivalStop}

/-- One character, and the arrival of the rest. -/
theorem Arrived.cons (rest : Arrived cs l u k' t' n stop) (text : l.text u.cells = k.text t.cells ++ [c])
    (count : l.count = k.count + 1) (blocks : ∀ b, b ∉ k.blocks → b ∉ t.free → b ∉ l.blocks ∧ b ∉ u.free)
    (apart : ∀ b, b ∉ k.blocks → b ∉ t.free → ∀ p < 64, u.cells.read (cellAddress b p) = t.cells.read (cellAddress b p)) :
    Arrived (c :: cs) k t k' t' (n + 1) stop := by
  refine ⟨Nat.succ_le_succ rest.few, ?_, ?_, ?_, fun b out free p hp => ?_⟩
  · rw [rest.text, text, List.take_succ_cons, List.append_assoc, List.singleton_append]
  · rw [rest.count, count]
    omega
  · have ends := rest.ends
    unfold ArrivalEnds at ends ⊢
    rw [List.length_cons]
    rcases ends with ⟨all, none⟩ | ⟨some, full, limit⟩ | ⟨some, room, empty, noBlock⟩
    · exact .inl ⟨by omega, none⟩
    · exact .inr (.inl ⟨by omega, full, limit⟩)
    · exact .inr (.inr ⟨by omega, room, empty, noBlock⟩)
  · obtain ⟨out', free'⟩ := blocks b out free
    rw [rest.apart b out' free' p hp, apart b out free p hp]

theorem Arrived.stopped (ends : ArrivalEnds cs.length 0 k.count t.free stop) : Arrived cs k t k t 0 stop :=
  ⟨Nat.zero_le _, by simp, rfl, ends, fun _ _ _ _ _ => rfl⟩

end

theorem storeArrival_arrived (cs : List Byte) {k : Chain} {t : TextStore} (law : k.law)
    (distinct : (k.blocks ++ t.free).Nodup) (canonical : t.cells.wf = true) :
    Arrived cs k t (storeArrival cs k t).1 (storeArrival cs k t).2.1 (storeArrival cs k t).2.2.1
      (storeArrival cs k t).2.2.2 := by
  induction cs generalizing k t with
  | nil => exact Arrived.stopped (.inl ⟨rfl, rfl⟩)
  | cons c cs ih =>
    unfold storeArrival
    split
    · next full => exact Arrived.stopped (.inr (.inl ⟨Nat.zero_lt_succ _, full, rfl⟩))
    · next room =>
      have room : k.count < 512 := Nat.lt_of_not_le room
      split
      · next wants =>
        split
        · next empty => exact Arrived.stopped (.inr (.inr ⟨Nat.zero_lt_succ _, room, empty, rfl⟩))
        · next b free blocks =>
          rw [blocks] at distinct
          have moved : ((k.blocks ++ [b]) ++ free).Nodup := by simpa using distinct
          rw [Chain.storeAtTail_append]
          refine (ih (Chain.law_claim law b) moved (Memory.wf_write canonical _ _)).cons
            (Chain.text_claim law wants moved.of_append_left canonical c) (Chain.count_claim law wants b) ?_ ?_
          · intro d out notFree
            rw [blocks, List.mem_cons, not_or] at notFree
            exact ⟨by simp [out, notFree.1], notFree.2⟩
          · intro d out notFree p hp
            rw [blocks, List.mem_cons, not_or] at notFree
            exact read_write_other canonical (by decide) c notFree.1 hp
      · next open_ =>
        rw [not_or] at open_
        obtain ⟨b, last⟩ : ∃ b, k.blocks.getLast? = some b := by
          cases last : k.blocks.getLast? with
          | none => exact absurd (List.getLast?_eq_none_iff.mp last) open_.1
          | some b => exact ⟨b, rfl⟩
        have fill : k.tailFill < 64 := by
          have := ((Chain.law_iff k).mp law).2 open_.1
          omega
        rw [Chain.storeAtTail_of_last last]
        refine (ih (t := { t with cells := t.cells.write (cellAddress b k.tailFill) c })
          (Chain.law_store law open_.1 open_.2) distinct (Memory.wf_write canonical _ _)).cons
          (Chain.text_store law distinct.of_append_left last open_.2 canonical c) (Chain.count_store law open_.1)
          (fun d out notFree => ⟨out, notFree⟩) ?_
        intro d out _ p hp
        have other : d ≠ b := by
          rintro rfl
          exact out (List.mem_of_getLast? last)
        exact read_write_other canonical fill c other hp

end Sys2Proof.Machine
end

section
/-! PROOFS. CIRCUIT TEXT (05: R75 to R77, R79). -/

namespace Sys2Proof.Machine

/-! ## The flow after an arrival (05: R79) -/

section

variable (s : State) (c : Fin 32) (flow : Flow)

theorem State.setFlow_only : ∃ notices,
    s.setFlow c flow = { s.setCircuit c { s.circuit c with flow := flow } with notices := notices } := by
  unfold State.setFlow
  dsimp only
  split
  · exact ⟨_, rfl⟩
  · exact ⟨s.notices, rfl⟩

theorem State.setFlow_circuit (d : Fin 32) : (s.setFlow c flow).circuit d =
    if c = d then { s.circuit c with flow := flow } else s.circuit d := by
  obtain ⟨_, only⟩ := State.setFlow_only s c flow
  rw [only]
  exact State.circuit_setCircuit s c d _

theorem State.setFlow_reports (flowing : (s.circuit c).flow = .flowing) (paused : flow ≠ .flowing) :
    (s.setFlow c flow).reports (.circuit c) .pause := by
  rw [State.setFlow, if_pos ⟨flowing, paused⟩]
  exact State.reports_raiseEvent _ _ _

end

/-! ## What a settled wait leaves of the rest (05: R77) -/

/-- Nothing of a circuit but its wait has changed. -/
def Circuit.sameButWait (x y : Circuit) : Prop := y = { x with waitStart := y.waitStart, holdNotified := y.holdNotified }

theorem State.settleWait_cases (s : State) (c : Fin 32) :
    s.settleWait c = s.setCircuit c ((s.circuit c).settledAt (s.onAir c) s.now) ∨
    s.settleWait c = (s.setCircuit c ((s.circuit c).settledAt (s.onAir c) s.now)).tellIdle (s.circuit c).channel := by
  rw [State.settleWait, State.updateWait_eq]
  split
  · exact .inr rfl
  · exact .inl rfl

/-- What an event that settles a wait leaves of the store, the clock, the line, the notices and the circuits. -/
structure State.Waited (s t : State) : Prop where
  store : t.store = s.store
  clock : t.clock = s.clock
  link : t.link = s.link
  notices : t.notices = s.notices
  circuit (d : Fin 32) : (s.circuit d).sameButWait (t.circuit d)

theorem State.Waited.setCircuit {s : State} {c : Fin 32} {x : Circuit} (h : (s.circuit c).sameButWait x) :
    s.Waited (s.setCircuit c x) := by
  refine ⟨rfl, rfl, rfl, rfl, fun d => ?_⟩
  rw [State.circuit_setCircuit]
  split
  · next here => exact here ▸ h
  · rfl

theorem State.Waited.told {s t u : State} (h : s.Waited t) (later : t.Told u) : s.Waited u := by
  refine ⟨later.store.trans h.store, later.clock.trans h.clock, later.link.trans h.link,
    later.notices.trans h.notices, fun d => ?_⟩
  have first := h.circuit d
  have second := later.circuit d
  unfold Circuit.sameButWait at first ⊢
  rw [first] at second
  rw [second]

theorem State.settleWait_waited (s : State) (c : Fin 32) : s.Waited (s.settleWait c) := by
  have settled : s.Waited (s.setCircuit c ((s.circuit c).settledAt (s.onAir c) s.now)) :=
    State.Waited.setCircuit (Circuit.settledAt_eq _ _ _)
  rcases State.settleWait_cases s c with same | same
  · exact same ▸ settled
  · exact same ▸ settled.told (State.Told.tellIdle _ _)

/-! ## The report of an arrival (05: R76) -/

section

variable (s : State) (c : Fin 32)

theorem State.arrivalReport_of_offAir (offAir : s.onAir c = false) : s.arrivalReport c = s.settleWait c := by
  rw [State.arrivalReport, offAir, if_neg (by decide)]

theorem State.arrivalReport_of_onAir (onAir : s.onAir c = true) : s.arrivalReport c =
    s.setChannel (s.circuit c).channel (if (s.channel (s.circuit c).channel).idlesInBody then
      { s.channel (s.circuit c).channel with turn := (s.channel (s.circuit c).channel).turn.map Turn.clearGrace }
    else s.channel (s.circuit c).channel) := by
  rw [State.arrivalReport, onAir, if_pos rfl]
  split
  · rfl
  · exact (State.setChannel_channel s _).symm

theorem State.arrivalReport_waited : s.Waited (s.arrivalReport c) := by
  cases air : s.onAir c with
  | false => exact State.arrivalReport_of_offAir s c air ▸ State.settleWait_waited s c
  | true =>
    rw [State.arrivalReport_of_onAir s c air]
    exact ⟨rfl, rfl, rfl, rfl, fun _ => rfl⟩

end

/-! ## The arrival -/

/-- The state once characters have arrived, before the report: the chain, the store and the flow. -/
def State.arrived (s : State) (c : Fin 32) (chars : List Byte) : State :=
  let a := storeArrival chars (s.circuit c).chain s.store
  ((s.setStore a.2.1).setCircuit c { s.circuit c with chain := a.1 }).setFlow c
    (flowAfter (s.circuit c).flow (s.circuit c).count a.1.count a.2.2.2)

theorem State.arrive_eq (s : State) (c : Fin 32) (chars : List Byte) : s.arrive c chars =
    (if 1 ≤ (storeArrival chars (s.circuit c).chain s.store).2.2.1 then (s.arrived c chars).arrivalReport c
      else s.arrived c chars, arrivalVerdict (storeArrival chars (s.circuit c).chain s.store).2.2.1
        (storeArrival chars (s.circuit c).chain s.store).2.2.2) := rfl

theorem State.arrived_circuit (s : State) (c : Fin 32) (chars : List Byte) (d : Fin 32) :
    (s.arrived c chars).circuit d = if c = d then { s.circuit c with
      chain := (storeArrival chars (s.circuit c).chain s.store).1
      flow := flowAfter (s.circuit c).flow (s.circuit c).count (storeArrival chars (s.circuit c).chain s.store).1.count
        (storeArrival chars (s.circuit c).chain s.store).2.2.2 } else s.circuit d := by
  rw [State.arrived, State.setFlow_circuit, State.circuit_setCircuit, State.circuit_setCircuit, if_pos rfl]
  split <;> rfl

theorem State.arrived_frame (s : State) (c : Fin 32) (chars : List Byte) :
    (s.arrived c chars).channels = s.channels ∧
    (s.arrived c chars).store = (storeArrival chars (s.circuit c).chain s.store).2.1 ∧
    (s.arrived c chars).clock = s.clock ∧ (s.arrived c chars).link = s.link ∧ (s.arrived c chars).now = s.now ∧
    (s.arrived c chars).silence = s.silence ∧ (s.arrived c chars).keyok = s.keyok := by
  unfold State.arrived
  obtain ⟨_, only⟩ := State.setFlow_only ((s.setStore (storeArrival chars (s.circuit c).chain s.store).2.1).setCircuit c
    { s.circuit c with chain := (storeArrival chars (s.circuit c).chain s.store).1 }) c
    (flowAfter (s.circuit c).flow (s.circuit c).count (storeArrival chars (s.circuit c).chain s.store).1.count
      (storeArrival chars (s.circuit c).chain s.store).2.2.2)
  rw [only]
  exact ⟨rfl, rfl, rfl, rfl, rfl, rfl, rfl⟩

theorem State.arrived_reports {s : State} {c : Fin 32} {chars : List Byte} (flowing : (s.circuit c).flow = .flowing)
    (paused : ((s.arrived c chars).circuit c).flow ≠ .flowing) : (s.arrived c chars).reports (.circuit c) .pause := by
  rw [State.arrived, State.setFlow_circuit, if_pos rfl] at paused
  refine State.setFlow_reports _ c _ ?_ paused
  rw [State.circuit_setCircuit, if_pos rfl]
  exact flowing

/-- The answer of the statement to k characters stored of n, on a circuit that held `before`. -/
theorem arrivalVerdict_of_ends {n k before count : Nat} {free : List BlockNo} {stop : Option ArrivalStop}
    (ends : ArrivalEnds n k count free stop) (sum : count = before + k) : arrivalVerdict k stop =
      if k = n then ⟨.ok, [BitVec.ofNat 8 k]⟩
      else if 1 ≤ k then ⟨.partialText, [BitVec.ofNat 8 k]⟩
      else if 512 ≤ before then ⟨.limit, []⟩ else ⟨.storeFull, []⟩ := by
  rcases ends with ⟨all, none⟩ | ⟨few, full, limit⟩ | ⟨few, room, -, noBlock⟩
  · rw [if_pos all, none]
    rfl
  · rw [if_neg few.ne, limit]
    by_cases some : 1 ≤ k
    · rw [if_pos some]
      exact if_pos some
    · rw [if_neg some, if_pos (by omega)]
      exact if_neg some
  · rw [if_neg few.ne, noBlock]
    by_cases some : 1 ≤ k
    · rw [if_pos some]
      exact if_pos some
    · rw [if_neg some, if_neg (by omega)]
      exact if_neg some

theorem flowAfter_of_ends {n k before count : Nat} {free : List BlockNo} {stop : Option ArrivalStop} (flow : Flow)
    (ends : ArrivalEnds n k count free stop) (sum : count = before + k) : flowAfter flow before count stop =
      if k < n ∧ before + k < 512 then .pausedStore
      else if flow = .flowing ∧ before < 384 ∧ 384 ≤ before + k then .pausedThreshold else flow := by
  subst sum
  have stopped : stop = some .noBlock ↔ k < n ∧ before + k < 512 := by
    rcases ends with ⟨all, none⟩ | ⟨few, full, limit⟩ | ⟨few, room, -, noBlock⟩
    · simp [none, all]
    · simp [limit]; omega
    · simp [noBlock, few, room]
  unfold flowAfter
  simp only [stopped]
  rfl

section

variable {s : State} {c : Fin 32} (bound : (s.circuit c).life = .bound) {chars : List Byte}

include bound

theorem circuitText_of_fault {v : Verdict} (bad : textRefused 1 chars v) : circuitText c chars s = (s, v) := by
  rw [circuitText, onCircuit_val, if_neg (by simp [bound])]
  rcases bad with ⟨count, rfl⟩ | ⟨low, high, ⟨x, mem, strange⟩, rfl⟩
  · rw [if_pos (not_within_iff.mpr (by omega))]
    rfl
  · have character : (!chars.all acceptedChar) = true := by
      rw [Bool.not_eq_true', List.all_eq_false]
      exact ⟨x, mem, by rw [acceptedChar_iff]; exact strange⟩
    rw [within_iff.mpr ⟨low, high⟩, if_neg (by decide), if_pos character]
    rfl

theorem circuitText_of_text (good : isText chars) : circuitText c chars s = s.arrive c chars := by
  obtain ⟨count, characters⟩ := (isText_iff chars).mp good
  rw [circuitText, onCircuit_val, if_neg (by simp [bound]), count, if_neg (by decide), characters, if_neg (by decide)]

end

/-! ## The report, on air and off -/

section

variable {v : State} {c : Fin 32}

/-- On air, an IDLE symbol of the body has its grace count at 0 again (05: R76; 08: R136). -/
theorem State.arrivalReport_turn {t : Turn} {z : TelexTurn} (turn : (v.channel (v.circuit c).channel).turn = some t)
    (kind : t.kind = .telex z) (own : z.circuit = c) :
    (v.arrivalReport c).circuits = v.circuits ∧
    (∀ j, j ≠ (v.circuit c).channel → (v.arrivalReport c).channel j = v.channel j) ∧
    (v.arrivalReport c).channel (v.circuit c).channel =
      if t.phase = .body ∧ (v.channel (v.circuit c).channel).output.any (fun e => decide (e.symbol = .idle)) = true then
        { v.channel (v.circuit c).channel with turn := some { t with kind := .telex { z with graceCount := 0 } } }
      else v.channel (v.circuit c).channel := by
  have onAir : v.onAir c = true := (Channel.carriesCircuit_iff _ c).mpr ⟨t, z, turn, kind, own⟩
  rw [State.arrivalReport_of_onAir v c onAir]
  refine ⟨rfl, fun j other => ?_, ?_⟩
  · rw [State.channel_setChannel, if_neg other.symm]
  · rw [State.channel_setChannel, if_pos rfl]
    have idles : (v.channel (v.circuit c).channel).idlesInBody =
        (decide (t.phase = .body) && (v.channel (v.circuit c).channel).output.any fun e => decide (e.symbol = .idle)) := by
      rw [Channel.idlesInBody, turn]
      rfl
    have cleared : t.clearGrace = { t with kind := .telex { z with graceCount := 0 } } := by
      simp [Turn.clearGrace, kind]
    rw [idles, turn, Option.map_some, cleared]
    simp only [Bool.and_eq_true, decide_eq_true_eq]

/-- Off air, a circuit that is held has no wait, one that waits goes on, and another begins to wait and has its channel
consult (05: R76, R77). -/
theorem State.arrivalReport_waits (life : (v.circuit c).life ≠ .free) (holds : 1 ≤ (v.circuit c).count)
    (offAir : v.onAir c = false) :
    (((v.circuit c).hostHold || (v.circuit c).channelHold) = true →
      v.arrivalReport c = v.setCircuit c { v.circuit c with waitStart := none }) ∧
    (((v.circuit c).hostHold || (v.circuit c).channelHold) = false → (v.circuit c).waitStart ≠ none →
      v.arrivalReport c = v) ∧
    (((v.circuit c).hostHold || (v.circuit c).channelHold) = false → (v.circuit c).waitStart = none →
      (v.setCircuit c { v.circuit c with waitStart := some v.now, holdNotified := false }).consulted
        (v.circuit c).channel (v.arrivalReport c)) := by
  have waits : (v.circuit c).waits (v.onAir c) = !((v.circuit c).hostHold || (v.circuit c).channelHold) := by
    rw [Circuit.waits_of_taken life, offAir, decide_eq_true holds, Bool.not_or]
    simp
  rw [State.arrivalReport_of_offAir v c offAir]
  refine ⟨fun held => State.settleWait_of_off (by rw [waits, held]; rfl), fun free running =>
    State.settleWait_of_running (by rw [waits, free]; rfl) running, fun free none => ?_⟩
  rw [State.settleWait_of_begun (by rw [waits, free]; rfl) none]
  exact State.tellIdle_consulted _ _

/-- What a wait that begins does to the channel of the circuit. -/
theorem State.waitBegins_consults {u : State} (life : (v.circuit c).life ≠ .free) (holds : 1 ≤ (v.circuit c).count)
    (offAir : v.onAir c = false) (free : ((v.circuit c).hostHold || (v.circuit c).channelHold) = false)
    (consults : (v.setCircuit c { v.circuit c with waitStart := some v.now, holdNotified := false }).consulted
      (v.circuit c).channel u) :
    (∀ j, j ≠ (v.circuit c).channel → u.channel j = v.channel j) ∧
    ((v.channel (v.circuit c).channel).state ≠ .idle →
      u.channel (v.circuit c).channel = v.channel (v.circuit c).channel) ∧
    ((v.channel (v.circuit c).channel).state = .idle → c ∈ (v.channel (v.circuit c).channel).bound →
      v.silenced (v.circuit c).channel = false → (u.channel (v.circuit c).channel).keyreq = true ∧
        (v.keyokOf (v.circuit c).channel = false → (u.channel (v.circuit c).channel).state = .requesting)) ∧
    ((v.channel (v.circuit c).channel).state ≠ .idle ∨ v.keyokOf (v.circuit c).channel = false →
      (u.circuit c).waitStart = some v.now ∧ (u.circuit c).holdNotified = false) := by
  refine ⟨fun j other => State.consulted_channel_other consults other, fun busy => ?_, fun idle listed loud => ?_,
    fun still => ?_⟩
  · rw [State.consulted_of_still consults (.inl busy), State.setCircuit_channel]
  · let x : Circuit := { v.circuit c with waitStart := some v.now, holdNotified := false }
    have count : 1 ≤ (v.circuit c).chain.count := holds
    have eligible : (v.setCircuit c x).anythingEligible (v.circuit c).channel = true := by
      refine State.anythingEligible_of_waits (c := c) listed loud ?_
      rw [State.setCircuit_onAir (x := x) rfl, State.circuit_setCircuit, if_pos rfl,
        Circuit.waits_of_taken (by exact life), offAir]
      simpa [x, Circuit.count, count] using free
    exact State.consulted_keyreq (v := v.setCircuit c x) consults idle eligible
  · have kept := State.consulted_circuits consults still
    rw [State.circuit, kept, ← State.circuit, State.circuit_setCircuit, if_pos rfl]
    exact ⟨rfl, rfl⟩

end

/-- Settles O17. -/
theorem circuitTextJoinsTheQueue : Obligations.CircuitTextJoinsTheQueue := by
  intro r c chars s served bound
  refine ⟨fun v bad => exec_answers (q := .circuitText c chars) served (circuitText_of_fault bound bad),
    fun good law distinct canonical => ?_⟩
  intro x
  have did := storeArrival_arrived chars law distinct canonical
  have arrives := exec_answers (i := .circuitText r c chars) (q := .circuitText c chars) served
    ((circuitText_of_text bound good).trans (State.arrive_eq s c chars))
  have record := State.arrived_circuit s c chars
  obtain ⟨channels, store, clock, link, now, silence, keyok⟩ := State.arrived_frame s c chars
  have channel : ∀ j, (s.arrived c chars).channel j = s.channel j := fun j => by
    rw [State.channel, channels, State.channel]
  generalize placed : storeArrival chars (s.circuit c).chain s.store = a at did arrives record store
  obtain ⟨chain, store', k, stop⟩ := a
  obtain ⟨few, text, count, ends, apart⟩ := did
  dsimp only at few text count ends apart arrives record store
  have flow := flowAfter_of_ends (s.circuit c).flow ends count
  have here := (record c).trans (if_pos rfl)
  let v := s.arrived c chars
  let u := if 1 ≤ k then v.arrivalReport c else v
  have waited : v.Waited u := by
    show v.Waited (if 1 ≤ k then v.arrivalReport c else v)
    split
    · exact State.arrivalReport_waited v c
    · exact ⟨rfl, rfl, rfl, rfl, fun _ => rfl⟩
  have ours := waited.circuit c
  rw [here] at ours
  have others : ∀ d, d ≠ c → (s.circuit d).sameButWait (u.circuit d) := fun d other => by
    have same := waited.circuit d
    rwa [record d, if_neg other.symm] at same
  have cells : u.store = store' := waited.store.trans store
  have onChannel : (v.circuit c).channel = x.channel := (congrArg Circuit.channel here :)
  have chained : (u.circuit c).chain = chain := congrArg Circuit.chain ours
  have flowing : (u.circuit c).flow = _ := (congrArg Circuit.flow ours).trans flow
  refine ⟨u, k, few, ?_, ?_, ?_, fun short => ?_, flowing, fun was now => ?_, fun b out free p hp => ?_,
    fun d other => ?_, waited.clock.trans clock, waited.link.trans link, ?_⟩
  · rw [arrives, arrivalVerdict_of_ends ends count]
    rfl
  · rw [chained, cells, text]
  · exact (congrArg Chain.count chained).trans count
  · rw [cells]
    rcases ends with ⟨all, -⟩ | ⟨-, full, -⟩ | ⟨-, -, empty, -⟩
    · omega
    · exact .inl (count ▸ full)
    · exact .inr empty
  · have paused : v.reports (.circuit c) .pause :=
      State.arrived_reports was (by rw [waited.circuit c] at now; exact now)
    rw [State.reports, waited.notices]
    exact paused
  · rw [cells]
    exact apart b out free p hp
  · exact (congrArg Circuit.chain (others d other) :)
  · intro ch y held
    have atRest : ∀ j, v.channel j = s.channel j := channel
    have reported : 1 ≤ k → u = v.arrivalReport c := fun stored => if_pos stored
    have life : (v.circuit c).life ≠ .free := by
      rw [show v.circuit c = _ from here]
      simp [bound]
    refine ⟨fun none => ?_, fun t z turn kind own stored => ?_, fun notHere stored => ?_⟩
    · have same : u = v := if_neg (by omega)
      rw [same]
      exact channels
    · obtain ⟨circuits, elsewhere, told⟩ := State.arrivalReport_turn (v := v)
        (by rw [onChannel, atRest]; exact turn) kind own
      rw [onChannel, atRest] at told
      rw [reported stored]
      refine ⟨?_, fun j other => (elsewhere j (by rw [onChannel]; exact other)).trans (atRest j), told⟩
      rw [State.circuit, circuits, ← State.circuit, show v.circuit c = _ from here]
    · have offAir : v.onAir c = false := by rw [State.onAir, onChannel, atRest]; exact notHere
      have holds : 1 ≤ (v.circuit c).count := by
        have counted : (v.circuit c).count = chain.count := (congrArg Circuit.count here :)
        omega
      have heldHere : ((v.circuit c).hostHold || (v.circuit c).channelHold) = held := by
        rw [show v.circuit c = _ from here]
      obtain ⟨stops, goesOn, begins⟩ := State.arrivalReport_waits life holds offAir
      rw [heldHere] at stops goesOn begins
      have start : (v.circuit c).waitStart = x.waitStart := (congrArg Circuit.waitStart here :)
      rw [start] at goesOn begins
      rw [reported stored]
      refine ⟨fun isHeld => ?_, fun free running => ?_, fun free none => ?_⟩
      · rw [stops isHeld]
        exact ⟨by rw [State.circuit_setCircuit, if_pos rfl], channels⟩
      · rw [goesOn free running]
        exact ⟨start, channels⟩
      · obtain ⟨elsewhere, busy, idle, begun⟩ := State.waitBegins_consults life holds offAir (heldHere.trans free)
          (begins free none)
        rw [onChannel] at elsewhere busy idle begun
        have silenced : v.silenced ch = s.silenced ch := by rw [State.silenced, atRest, silence, State.silenced]
        have key : v.keyokOf ch = s.keyokOf ch := by rw [State.keyokOf, keyok, State.keyokOf]
        simp only [atRest] at elsewhere busy idle begun
        rw [silenced, key] at idle
        rw [key, show v.now = s.now from now] at begun
        exact ⟨elsewhere, busy, idle, begun⟩

end Sys2Proof.Machine
end

section
/-! PROOFS. What a map write stores in the rewriting manner (01: R10 to R12). -/

namespace Sys2Proof.Machine

namespace TextMap

/-! ## The positions of a map -/

theorem charAt_eq (m : TextMap) (cells : Memory) (o : Nat) : m.charAt cells o = readAt m.blockNumbers cells o := by
  unfold charAt readAt blockNumbers
  rw [List.getElem?_map]
  cases m.blocks[o / 64]? <;> rfl

theorem length_blockNumbers (m : TextMap) : m.blockNumbers.length = m.blocks.length := List.length_map _

theorem fill_setFill {m : TextMap} {p : Nat} (h : p < m.blocks.length) (fill q : Nat) :
    (m.setFill p fill).fill q = if p = q then fill else m.fill q := by
  unfold TextMap.fill setFill
  rw [List.getElem?_modify]
  by_cases same : p = q
  · subst same
    simp [List.getElem?_eq_getElem h]
  · simp [same]

theorem length_setFill (m : TextMap) (p fill : Nat) : (m.setFill p fill).blocks.length = m.blocks.length := by
  simp [setFill]

theorem size_setFill (m : TextMap) (p fill q : Nat) : (m.setFill p fill).size q = m.size q := by
  rw [size, length_setFill, size]
  rfl

theorem setFill_setFill (m : TextMap) (p fill fill' : Nat) : (m.setFill p fill).setFill p fill' = m.setFill p fill' := by
  unfold setFill
  congr 1
  refine List.ext_getElem? fun i => ?_
  simp only [List.getElem?_modify]
  cases m.blocks[i]? with
  | none => rfl
  | some b => by_cases same : p = i <;> simp [same]

/-- The sizes of the blocks that a text of this length needs (01: R10). -/
theorem law_sizes {m : TextMap} (law : m.law) : 64 * (m.blocks.length - 1) < m.length ∧
    m.length ≤ 64 * m.blocks.length ∧ (∀ p, p + 1 < m.blocks.length → m.size p = 64) ∧
    m.size (m.blocks.length - 1) = m.length - 64 * (m.blocks.length - 1) := by
  obtain ⟨nonempty, blocks, -, pointer, -⟩ := law
  rw [blocksNeeded] at blocks
  refine ⟨by omega, by omega, fun p below => if_pos below, if_neg (by omega)⟩

theorem size_le {m : TextMap} (law : m.law) {p : Nat} (h : p < m.blocks.length) :
    1 ≤ m.size p ∧ m.size p ≤ 64 ∧ 64 * p + m.size p ≤ m.length := by
  obtain ⟨low, high, full, last⟩ := law_sizes law
  by_cases inner : p + 1 < m.blocks.length
  · have := full p inner
    omega
  · obtain rfl : p = m.blocks.length - 1 := by omega
    omega

/-- Where the pointer stands, as an offset of the text (01: R12). -/
def position (m : TextMap) : Nat := 64 * m.pointer + m.fill m.pointer

theorem pointerAtEnd_iff {m : TextMap} (law : m.law) : m.pointerAtEnd = true ↔ m.length ≤ m.position := by
  obtain ⟨low, high, full, last⟩ := law_sizes law
  obtain ⟨-, -, -, pointer, fills⟩ := law
  have fill := fills _ pointer
  unfold pointerAtEnd present position
  rw [Bool.and_eq_true, decide_eq_true_eq, decide_eq_true_eq]
  by_cases inner : m.pointer + 1 < m.blocks.length
  · have := full _ inner
    omega
  · have here : m.pointer = m.blocks.length - 1 := by omega
    rw [here] at fill ⊢
    omega

/-! ## One character stored -/

/-- The map once a character is stored at offset g of block q, with the pointer there. -/
def storedAt (m : TextMap) (q g : Nat) : TextMap := ({ m with pointer := q }).setFill q (g + 1)

theorem storeAtPointer_eq {m : TextMap} {b : BlockNo} (here : m.blockNumbers[m.pointer]? = some b) (cells : Memory)
    (c : Byte) : m.storeAtPointer cells c =
      (m.storedAt m.pointer (m.fill m.pointer), cells.write (cellAddress b (m.fill m.pointer)) c) := by
  unfold blockNumbers at here
  rw [List.getElem?_map, Option.map_eq_some_iff] at here
  obtain ⟨x, found, rfl⟩ := here
  have fill : m.fill m.pointer = x.fill := by simp [TextMap.fill, found]
  rw [storeAtPointer, found, fill]
  rfl

section

variable {m : TextMap} {q g : Nat} (inside : q < m.blocks.length)

include inside

theorem storedAt_fill (p : Nat) : (m.storedAt q g).fill p = if q = p then g + 1 else m.fill p :=
  fill_setFill (m := { m with pointer := q }) inside (g + 1) p

theorem storedAt_written (o : Nat) :
    (m.storedAt q g).written o = if q = o / 64 then decide (o % 64 < g + 1) else m.written o := by
  rw [written, storedAt_fill inside]
  split <;> rfl

theorem storedAt_law (law : m.law) (room : g < m.size q) : (m.storedAt q g).law := by
  obtain ⟨nonempty, blocks, distinct, pointer, fills⟩ := law
  have length : (m.storedAt q g).blocks.length = m.blocks.length := length_setFill _ _ _
  refine ⟨nonempty, length.trans blocks, ?_, length.symm ▸ inside, fun p below => ?_⟩
  · rw [storedAt, blockNumbers_setFill]
    exact distinct
  · rw [length] at below
    rw [storedAt_fill inside, show (m.storedAt q g).size p = m.size p from size_setFill _ _ _ _]
    split
    · next here => exact here ▸ room
    · exact fills p below

end

theorem storedAt_blockNumbers (m : TextMap) (q g : Nat) : (m.storedAt q g).blockNumbers = m.blockNumbers :=
  blockNumbers_setFill _ _ _

theorem storedAt_position {m : TextMap} {q g : Nat} (inside : q < m.blocks.length) :
    (m.storedAt q g).position = 64 * q + g + 1 := by
  have here : (m.storedAt q g).fill q = g + 1 := (storedAt_fill inside q).trans (if_pos rfl)
  show 64 * q + (m.storedAt q g).fill q = _
  rw [here]
  omega

/-- A character stored at or before the fill of its block rewrites the map from there (01: R12). -/
theorem storedAt_rewritten {m : TextMap} {q g : Nat} {b : BlockNo} {cells : Memory} (canonical : cells.wf = true)
    (distinct : m.blockNumbers.Nodup) (here : m.blockNumbers[q]? = some b) (small : g < 64) (reached : g ≤ m.fill q)
    (c : Byte) : m.rewrittenAs cells (m.storedAt q g) (cells.write (cellAddress b g) c) (64 * q + g) 1 [c] := by
  have inside : q < m.blocks.length := by
    rw [← length_blockNumbers]
    exact (List.getElem?_eq_some_iff.mp here).1
  have reads := readAt_write canonical small c distinct here
  have written := storedAt_written (m := m) (g := g) inside
  refine ⟨rfl, storedAt_blockNumbers m q g, ?_, fun i below => ?_, fun i below => ⟨?_, ?_⟩, fun i above => ?_⟩
  · show q = _
    omega
  · obtain rfl : i = 0 := by omega
    rw [Nat.add_zero, charAt_eq, storedAt_blockNumbers, reads, if_pos rfl, written, if_pos (by omega)]
    exact ⟨decide_eq_true (by omega), rfl⟩
  · rw [written]
    split
    · next own =>
      rw [TextMap.written, ← own, decide_eq_true (by omega), decide_eq_true (by omega)]
    · rfl
  · rw [charAt_eq, storedAt_blockNumbers, reads, if_neg (by omega), charAt_eq]
  · rw [Nat.add_sub_cancel]
    by_cases own : i / 64 = (64 * q + g) / 64
    · rw [if_pos own, written, if_pos (by omega)]
      exact decide_eq_false (by omega)
    · rw [if_neg own, written, if_neg (by omega), charAt_eq, storedAt_blockNumbers, reads, if_neg (by omega), charAt_eq]
      exact ⟨rfl, rfl⟩

/-- A rewriting by one character is one by the first of a text. -/
theorem rewrittenAs_one {m m' : TextMap} {cells cells' : Memory} {o : Nat} {c : Byte} (cs : List Byte)
    (h : m.rewrittenAs cells m' cells' o 1 [c]) : m.rewrittenAs cells m' cells' o 1 (c :: cs) := by
  obtain ⟨length, blocks, pointer, stored, rest⟩ := h
  refine ⟨length, blocks, pointer, fun i below => ?_, rest⟩
  obtain rfl : i = 0 := by omega
  exact stored 0 below

/-- One rewriting after another. -/
theorem rewrittenAs_cons {m m' m'' : TextMap} {cells cells' cells'' : Memory} {o k : Nat} {c : Byte} {cs : List Byte}
    (some : 1 ≤ k) (first : m.rewrittenAs cells m' cells' o 1 [c]) (rest : m'.rewrittenAs cells' m'' cells'' (o + 1) k cs) :
    m.rewrittenAs cells m'' cells'' o (k + 1) (c :: cs) := by
  obtain ⟨length, blocks, -, stored, before, after⟩ := first
  obtain ⟨length', blocks', pointer', stored', before', after'⟩ := rest
  refine ⟨length'.trans length, blocks'.trans blocks, ?_, fun i below => ?_, fun i below => ?_, fun i above => ?_⟩
  · rw [pointer', show o + 1 + k - 1 = o + (k + 1) - 1 by omega]
  · cases i with
    | zero =>
      obtain ⟨written, char⟩ := stored 0 (by decide)
      obtain ⟨sameWritten, sameChar⟩ := before' o (by omega)
      exact ⟨sameWritten.trans written, (congrArg Option.some sameChar).trans char⟩
    | succ i =>
      obtain ⟨written, char⟩ := stored' i (by omega)
      rw [show o + (i + 1) = o + 1 + i by omega]
      exact ⟨written, char⟩
  · obtain ⟨written, char⟩ := before i below
    obtain ⟨written', char'⟩ := before' i (by omega)
    exact ⟨written'.trans written, char'.trans char⟩
  · have later := after' i (by omega)
    rw [show o + 1 + k - 1 = o + (k + 1) - 1 by omega] at later
    have earlier := after i (by omega)
    split at later
    · next own => rw [if_pos own]; exact later
    · next other =>
      rw [if_neg (by omega)] at earlier
      rw [if_neg other]
      exact ⟨later.1.trans earlier.1, later.2.trans earlier.2⟩

/-! ## Characters stored in the rewriting manner (01: R12) -/

theorem exists_block {m : TextMap} {q : Nat} (inside : q < m.blocks.length) : ∃ b, m.blockNumbers[q]? = some b :=
  ⟨_, List.getElem?_eq_getElem (by rw [length_blockNumbers]; exact inside)⟩

theorem present_iff (m : TextMap) (p : Nat) : m.present p = true ↔ m.size p ≤ m.fill p := decide_eq_true_iff

/-- One character that has a place, and the characters after it. -/
def storesFirst (how : Manner) (c : Byte) (cs : List Byte) (m : TextMap) (cells : Memory) (q g : Nat) (b : BlockNo) : Prop :=
  storeChars how (c :: cs) m cells =
    ((storeChars how cs (m.storedAt q g) (cells.write (cellAddress b g) c)).1,
      (storeChars how cs (m.storedAt q g) (cells.write (cellAddress b g) c)).2.1,
      (storeChars how cs (m.storedAt q g) (cells.write (cellAddress b g) c)).2.2 + 1)

section

variable {m : TextMap} (law : m.law) (c : Byte) (cs : List Byte) (cells : Memory)

include law

/-- A block with room takes the character at its fill, in either manner. -/
theorem storeChars_here (how : Manner) (room : m.present m.pointer = false) :
    ∃ b, m.blockNumbers[m.pointer]? = some b ∧ m.fill m.pointer < m.size m.pointer ∧
      storesFirst how c cs m cells m.pointer (m.fill m.pointer) b := by
  obtain ⟨b, here⟩ := exists_block law.2.2.2.1
  have below : m.fill m.pointer < m.size m.pointer := by
    rw [Bool.eq_false_iff, ne_eq, present_iff m] at room
    omega
  refine ⟨b, here, below, ?_⟩
  rw [storesFirst, storeChars, room, if_neg (by decide), storeAtPointer_eq here]

theorem storeChars_of_end (full : m.length ≤ m.position) (how : Manner) :
    storeChars how (c :: cs) m cells = (m, cells, 0) := by
  have ends := (pointerAtEnd_iff law).mpr full
  rw [pointerAtEnd, Bool.and_eq_true, decide_eq_true_eq] at ends
  rw [storeChars, if_pos ends.2, if_pos ends.1]

theorem storeChars_rewriting_of_room (room : m.position < m.length) : ∃ q g b, m.blockNumbers[q]? = some b ∧
    64 * q + g = m.position ∧ g < m.size q ∧ g ≤ m.fill q ∧ storesFirst .rewriting c cs m cells q g b := by
  cases present : m.present m.pointer with
  | false =>
    obtain ⟨b, here, below, stores⟩ := storeChars_here law c cs cells .rewriting present
    exact ⟨_, _, b, here, rfl, below, Nat.le_refl _, stores⟩
  | true =>
    have notEnd : ¬ m.blocks.length ≤ m.pointer + 1 := fun last => by
      have ends : m.pointerAtEnd = true := by rw [pointerAtEnd, present, decide_eq_true last]; rfl
      have := (pointerAtEnd_iff law).mp ends
      omega
    have inside : m.pointer + 1 < m.blocks.length := Nat.lt_of_not_le notEnd
    obtain ⟨b, here⟩ := exists_block inside
    have full := (law_sizes law).2.2.1 m.pointer inside
    have fill := law.2.2.2.2 _ law.2.2.2.1
    have filled := (present_iff m m.pointer).mp present
    have next := (size_le law inside).1
    have advanced : (m.advance .rewriting).fill (m.pointer + 1) = 0 :=
      (fill_setFill (m := { m with pointer := m.pointer + 1 }) inside 0 _).trans (if_pos rfl)
    have empty : (m.advance .rewriting).present (m.advance .rewriting).pointer = false := by
      have size : (m.advance .rewriting).size (m.pointer + 1) = m.size (m.pointer + 1) := size_setFill _ _ _ _
      show (m.advance .rewriting).present (m.pointer + 1) = false
      rw [TextMap.present, advanced, size]
      exact decide_eq_false (by omega)
    have stored : (m.advance .rewriting).storeAtPointer cells c =
        (m.storedAt (m.pointer + 1) 0, cells.write (cellAddress b 0) c) := by
      have found : (m.advance .rewriting).blockNumbers[(m.advance .rewriting).pointer]? = some b := by
        rw [blockNumbers_advance]
        exact here
      rw [storeAtPointer_eq found]
      have fill : (m.advance .rewriting).fill (m.advance .rewriting).pointer = 0 := advanced
      rw [fill]
      exact Prod.ext (setFill_setFill { m with pointer := m.pointer + 1 } (m.pointer + 1) 0 1) rfl
    refine ⟨m.pointer + 1, 0, b, here, ?_, by omega, Nat.zero_le _, ?_⟩
    · rw [position]
      omega
    · rw [storesFirst, storeChars, if_pos present, if_neg notEnd]
      dsimp only
      rw [if_neg (by simp [empty]), stored]

end

/-- What a write in the rewriting manner stores from the pointer on. -/
theorem storeChars_rewriting (cs : List Byte) {m : TextMap} (law : m.law) {cells : Memory} (canonical : cells.wf = true) :
    (storeChars .rewriting cs m cells).2.2 = min cs.length (m.length - m.position) ∧
    (1 ≤ (storeChars .rewriting cs m cells).2.2 →
      m.rewrittenAs cells (storeChars .rewriting cs m cells).1 (storeChars .rewriting cs m cells).2.1 m.position
        (storeChars .rewriting cs m cells).2.2 cs) ∧
    ((storeChars .rewriting cs m cells).2.2 = 0 →
      (storeChars .rewriting cs m cells).1 = m ∧ (storeChars .rewriting cs m cells).2.1 = cells) ∧
    ∀ d, d ∉ m.blockNumbers → ∀ p < 64,
      (storeChars .rewriting cs m cells).2.1.read (cellAddress d p) = cells.read (cellAddress d p) := by
  induction cs generalizing m cells with
  | nil => exact ⟨by simp [storeChars], fun some => absurd some (by simp [storeChars]), fun _ => ⟨rfl, rfl⟩, fun _ _ _ _ => rfl⟩
  | cons c cs ih =>
    by_cases room : m.position < m.length
    · obtain ⟨q, g, b, here, offset, below, reached, stores⟩ := storeChars_rewriting_of_room law c cs cells room
      have inside : q < m.blocks.length := by
        rw [← length_blockNumbers]
        exact (List.getElem?_eq_some_iff.mp here).1
      have small : g < 64 := Nat.lt_of_lt_of_le below (size_le law inside).2.1
      have first := storedAt_rewritten canonical law.2.2.1 here small reached c
      obtain ⟨count, rewritten, none, apart⟩ := ih (storedAt_law inside law below) (cells := cells.write (cellAddress b g) c)
        (Memory.wf_write canonical _ _)
      have position := storedAt_position (g := g) inside
      have length : (m.storedAt q g).length = m.length := rfl
      rw [offset] at first position
      rw [stores]
      dsimp only
      rw [position, length] at count
      refine ⟨?_, fun _ => ?_, fun zero => absurd zero (Nat.succ_ne_zero _), fun d out p hp => ?_⟩
      · rw [count, List.length_cons]
        omega
      · by_cases more : 1 ≤ (storeChars .rewriting cs (m.storedAt q g) (cells.write (cellAddress b g) c)).2.2
        · have later := rewritten more
          rw [position] at later
          exact rewrittenAs_cons more first later
        · have zero : (storeChars .rewriting cs (m.storedAt q g) (cells.write (cellAddress b g) c)).2.2 = 0 := by omega
          obtain ⟨sameMap, sameCells⟩ := none zero
          rw [zero, sameMap, sameCells]
          exact rewrittenAs_one cs first
      · have other : d ≠ b := by
          rintro rfl
          exact out (List.mem_of_getElem? here)
        rw [apart d (by rw [storedAt_blockNumbers]; exact out) p hp, read_write_other canonical small c other hp]
    · rw [storeChars_of_end law c cs cells (Nat.le_of_not_lt room)]
      exact ⟨by simp; omega, fun some => absurd some (Nat.not_succ_le_zero 0), fun _ => ⟨rfl, rfl⟩, fun _ _ _ _ => rfl⟩

end TextMap

end Sys2Proof.Machine
end

section
/-! PROOFS. BULLETIN TEXT in the rewriting manner (02: R27, R28; 03: R44). -/

namespace Sys2Proof.Machine

/-! ## The checks of a text to a map (02: R27) -/

section

variable {m : TextMap} {block : Option Nat} {chars : List Byte}

theorem textFault_of_block {p : Nat} (named : block = some p) (past : m.blocks.length ≤ p) :
    textFault m block chars = some (.range 2) := by
  simp [textFault, named, past]

variable (inside : ∀ p, block = some p → p < m.blocks.length)

include inside

theorem block_inside : block.any (fun p => decide (m.blocks.length ≤ p)) = false := by
  cases named : block with
  | none => rfl
  | some p =>
    rw [Option.any_some, decide_eq_false_iff_not, Nat.not_le]
    exact inside p named

theorem textFault_of_refused {v : Verdict} (bad : textRefused 3 chars v) : textFault m block chars = some v := by
  rw [textFault, block_inside inside, if_neg (by decide)]
  rcases bad with ⟨count, rfl⟩ | ⟨low, high, ⟨x, mem, strange⟩, rfl⟩
  · rw [if_pos (not_within_iff.mpr (by omega))]
    rfl
  · have character : (!chars.all acceptedChar) = true := by
      rw [Bool.not_eq_true', List.all_eq_false]
      exact ⟨x, mem, by rw [acceptedChar_iff]; exact strange⟩
    rw [within_iff.mpr ⟨low, high⟩, if_neg (by decide), if_pos character]
    rfl

theorem textFault_of_text (good : isText chars) : textFault m block chars = none := by
  obtain ⟨count, characters⟩ := (isText_iff chars).mp good
  rw [textFault, block_inside inside, if_neg (by decide), count, if_neg (by decide), characters, if_neg (by decide)]

end

section

variable {s : State} {n : Fin 64} {m : TextMap} {how : Manner} {block : Option Nat} {chars : List Byte}
  {put : TextMap → Bulletin}

theorem State.writeText_of_fault {v : Verdict} (fault : textFault m block chars = some v) :
    s.writeText n m how block chars put = (s, v) := by
  simp [State.writeText, fault]

theorem State.writeText_of_error {st : Status} (sound : textFault m block chars = none)
    (fails : m.beginWrite how block = .error st) : s.writeText n m how block chars put = (s, .fail st) := by
  simp [State.writeText, sound, fails]

theorem State.writeText_of_start {start : TextMap} (sound : textFault m block chars = none)
    (begins : m.beginWrite how block = .ok start) : s.writeText n m how block chars put =
      (({ s with store := { s.store with cells := (TextMap.storeChars how chars start s.store.cells).2.1 } }).setBulletin n
        (some (put (TextMap.storeChars how chars start s.store.cells).1)),
        storedVerdict chars (TextMap.storeChars how chars start s.store.cells).2.2) := by
  simp [State.writeText, sound, begins, State.setStore]

end

/-! ## Where a write in the rewriting manner begins (01: R12) -/

namespace TextMap

/-- The offset at which a write in the rewriting manner begins. -/
def rewriteStart (m : TextMap) (block : Option Nat) : Nat := block.elim m.position fun p => 64 * p

/-- The map with a block cleared and the pointer there. -/
def cleared (m : TextMap) (p : Nat) : TextMap := ({ m with pointer := p }).setFill p 0

section

variable {m : TextMap} {p : Nat} (inside : p < m.blocks.length)

include inside

theorem cleared_fill (q : Nat) : (m.cleared p).fill q = if p = q then 0 else m.fill q :=
  fill_setFill (m := { m with pointer := p }) inside 0 q

theorem cleared_law (law : m.law) : (m.cleared p).law := by
  obtain ⟨nonempty, blocks, distinct, pointer, fills⟩ := law
  have length : (m.cleared p).blocks.length = m.blocks.length := length_setFill _ _ _
  refine ⟨nonempty, length.trans blocks, ?_, length.symm ▸ inside, fun q below => ?_⟩
  · rw [cleared, blockNumbers_setFill]
    exact distinct
  · rw [length] at below
    rw [cleared_fill inside, show (m.cleared p).size q = m.size q from size_setFill _ _ _ _]
    split
    · exact Nat.zero_le _
    · exact fills q below

theorem cleared_position : (m.cleared p).position = 64 * p := by
  have here : (m.cleared p).fill p = 0 := (cleared_fill inside p).trans (if_pos rfl)
  show 64 * p + (m.cleared p).fill p = _
  rw [here, Nat.add_zero]

/-- What is written over the map with a block cleared, from that block on, is written over the map. -/
theorem rewrittenAs_of_cleared {m' : TextMap} {cells cells' : Memory} {k : Nat} {chars : List Byte} (some : 1 ≤ k)
    (h : (m.cleared p).rewrittenAs cells m' cells' (64 * p) k chars) :
    m.rewrittenAs cells m' cells' (64 * p) k chars := by
  have blockNumbers : (m.cleared p).blockNumbers = m.blockNumbers := blockNumbers_setFill _ _ _
  have chars : ∀ i, (m.cleared p).charAt cells i = m.charAt cells i := fun i => by
    rw [charAt_eq, blockNumbers, charAt_eq]
  have written : ∀ i, i / 64 ≠ p → (m.cleared p).written i = m.written i := fun i other => by
    rw [TextMap.written, cleared_fill inside, if_neg other.symm, TextMap.written]
  obtain ⟨length, blocks, pointer, stored, before, after⟩ := h
  refine ⟨length, blocks.trans blockNumbers, pointer, stored, fun i below => ?_, fun i above => ?_⟩
  · have same := before i below
    rw [chars, written i (by omega)] at same
    exact same
  · have same := after i above
    split at same
    · next last => rw [if_pos last]; exact same
    · next other =>
      rw [chars, written i (by omega)] at same
      rw [if_neg other]
      exact same

end

theorem beginWrite_rewriting_some (m : TextMap) (p : Nat) : m.beginWrite .rewriting (some p) = .ok (m.cleared p) := rfl

theorem beginWrite_rewriting_none {m : TextMap} (law : m.law) : m.beginWrite .rewriting none =
    if m.length ≤ m.position then .error .limit else .ok m := by
  have ends := pointerAtEnd_iff law
  rw [beginWrite]
  simp only [ends]

/-- A text begins in the rewriting manner at its offset, and its characters are written over the map from there. -/
theorem rewriting_writes {m : TextMap} (law : m.law) {block : Option Nat}
    (inside : ∀ p, block = some p → p < m.blocks.length) (room : m.rewriteStart block < m.length) {chars : List Byte}
    (good : isText chars) {cells : Memory} (canonical : cells.wf = true) : ∃ start, m.beginWrite .rewriting block = .ok start ∧
      (storeChars .rewriting chars start cells).2.2 = min chars.length (m.length - m.rewriteStart block) ∧
      m.rewrittenAs cells (storeChars .rewriting chars start cells).1 (storeChars .rewriting chars start cells).2.1
        (m.rewriteStart block) (min chars.length (m.length - m.rewriteStart block)) chars ∧
      ∀ d, d ∉ m.blockNumbers → ∀ p < 64,
        (storeChars .rewriting chars start cells).2.1.read (cellAddress d p) = cells.read (cellAddress d p) := by
  have some : 1 ≤ min chars.length (m.length - m.rewriteStart block) := by
    have := good.1
    omega
  cases named : block with
  | none =>
    have start : m.rewriteStart none = m.position := rfl
    rw [named, start] at room some
    obtain ⟨count, rewritten, -, apart⟩ := storeChars_rewriting chars law canonical
    refine ⟨m, (beginWrite_rewriting_none law).trans (if_neg (by omega)), count, ?_, apart⟩
    rw [start, ← count]
    exact rewritten (by omega)
  | some p =>
    have start : m.rewriteStart (Option.some p) = 64 * p := rfl
    have below := inside p named
    rw [named, start] at room some
    obtain ⟨count, rewritten, -, apart⟩ := storeChars_rewriting chars (cleared_law below law) canonical
    rw [cleared_position below] at count rewritten
    have length : (m.cleared p).length = m.length := rfl
    rw [length] at count
    refine ⟨m.cleared p, rfl, count, ?_, fun d out => apart d (by rw [cleared, blockNumbers_setFill]; exact out)⟩
    rw [start, ← count]
    exact rewrittenAs_of_cleared below (by omega) (rewritten (by omega))

theorem beginWrite_rewriting_full {m : TextMap} (law : m.law) {block : Option Nat}
    (inside : ∀ p, block = some p → p < m.blocks.length) (full : m.length ≤ m.rewriteStart block) :
    m.beginWrite .rewriting block = .error .limit := by
  cases named : block with
  | none =>
    rw [named] at full
    exact (beginWrite_rewriting_none law).trans (if_pos full)
  | some p =>
    have start : m.rewriteStart (some p) = 64 * p := rfl
    rw [named, start] at full
    have below := inside p named
    have := (size_le law below).2.2
    have := (size_le law below).1
    omega

end TextMap

/-! ## BULLETIN TEXT (02: R27; 03: R44) -/

section

variable {s : State} {n : Fin 64} {b : Bulletin} {m : TextMap} (nonzero : n ≠ 0) (present : s.bulletin n = some b)

include nonzero present

theorem bulletinText_composing (composing : b.state = .composing) (block : Option Nat) (chars : List Byte) :
    bulletinText n 0 block chars s =
      s.writeText n b.current .rewriting block chars fun map => { b with current := map } := by
  rw [bulletinText, onBulletin_of_some _ nonzero present]
  simp [State.currentText, composing]

theorem bulletinText_released (released : b.state = .released) (block : Option Nat) (chars : List Byte) :
    bulletinText n 0 block chars s =
      s.writeText n b.current .extending block chars fun map => { b with current := map } := by
  rw [bulletinText, onBulletin_of_some _ nonzero present]
  simp [State.currentText, released]

theorem bulletinText_staged (released : b.state = .released) (staged : b.staged = some m)
    (settled : b.commitPending = false) (block : Option Nat) (chars : List Byte) : bulletinText n 1 block chars s =
      s.writeText n m .rewriting block chars fun map => { b with staged := some map } := by
  rw [bulletinText, onBulletin_of_some _ nonzero present]
  simp [State.stagedText, released, staged, settled]

end

/-- Settles O22. -/
theorem textRewritesAMap : Obligations.TextRewritesAMap := by
  intro r n b m staged block chars s served nonzero present target o k run
  let put : TextMap → Bulletin := fun map => if staged then { b with staged := some map } else { b with current := map }
  have answers : ∀ u v, s.writeText n m .rewriting block chars put = (u, v) → run = .next (u.replied r 0x31 v) := by
    intro u v writes
    cases staged with
    | true =>
      obtain ⟨released, isStaged, settled⟩ := target
      exact exec_answers (q := .bulletinText n 1 block chars) served
        ((bulletinText_staged nonzero present released isStaged settled block chars).trans writes)
    | false =>
      obtain ⟨composing, current⟩ := target
      refine exec_answers (q := .bulletinText n 0 block chars) served
        ((bulletinText_composing nonzero present composing block chars).trans ?_)
      rw [current]
      exact writes
  refine ⟨fun p named past => answers _ _ (State.writeText_of_fault (textFault_of_block named past)),
    fun inside v bad => answers _ _ (State.writeText_of_fault (textFault_of_refused inside bad)),
    fun law canonical good inside => ⟨fun full => ?_, fun room => ?_⟩⟩
  · exact answers _ _ (State.writeText_of_error (textFault_of_text inside good)
      (TextMap.beginWrite_rewriting_full law inside full))
  · obtain ⟨start, begins, count, rewritten, apart⟩ := TextMap.rewriting_writes law inside room good canonical
    refine ⟨_, _, ?_, rewritten, apart⟩
    rw [answers _ _ (State.writeText_of_start (textFault_of_text inside good) begins), count]
    rfl

end Sys2Proof.Machine
end

section
/-! PROOFS. What a map write stores in the extending manner (01: R13), and BULLETIN TEXT to a RELEASED bulletin
(02: R27). -/

namespace Sys2Proof.Machine

namespace TextMap

/-! ## The open blocks and their free positions -/

/-- The blocks not present that follow each other from a place on. -/
def openRun (m : TextMap) (p : Nat) : List Nat := ((List.range m.blocks.length).drop p).takeWhile fun p => !m.present p

/-- The free positions of one block. -/
def freshIn (m : TextMap) (p : Nat) : List Nat := ((List.range (m.size p)).drop (m.fill p)).map fun i => 64 * p + i

theorem room_eq_flatMap (m : TextMap) (p : Nat) : m.room p = (m.openRun p).flatMap m.freshIn := rfl

theorem openRun_of_open {m : TextMap} {p : Nat} (inside : p < m.blocks.length) (isOpen : m.present p = false) :
    m.openRun p = p :: m.openRun (p + 1) := by
  have first : (List.range m.blocks.length).drop p = p :: (List.range m.blocks.length).drop (p + 1) := by
    rw [List.drop_eq_getElem_cons (by simpa using inside), List.getElem_range]
  rw [openRun, first, List.takeWhile_cons, isOpen]
  rfl

theorem openRun_of_present {m : TextMap} {p : Nat} (present : m.present p = true) : m.openRun p = [] := by
  by_cases inside : p < m.blocks.length
  · rw [openRun, List.drop_eq_getElem_cons (by simpa using inside), List.getElem_range, List.takeWhile_cons, present]
    rfl
  · rw [openRun, List.drop_eq_nil_of_le (by simpa using Nat.le_of_not_lt inside), List.takeWhile_nil]

theorem openRun_of_past {m : TextMap} {p : Nat} (past : m.blocks.length ≤ p) : m.openRun p = [] := by
  rw [openRun, List.drop_eq_nil_of_le (by simpa using past), List.takeWhile_nil]

/-- What is open from a place on reads the blocks from there on. -/
theorem openRun_congr {m m' : TextMap} (blocks : m'.blocks.length = m.blocks.length) {p : Nat}
    (same : ∀ q, p ≤ q → m'.present q = m.present q) : m'.openRun p = m.openRun p := by
  by_cases inside : p < m.blocks.length
  · have later := openRun_congr blocks (p := p + 1) fun q h => same q (by omega)
    cases present : m.present p with
    | true => rw [openRun_of_present ((same p (Nat.le_refl p)).trans present), openRun_of_present present]
    | false =>
      rw [openRun_of_open (blocks.symm ▸ inside) ((same p (Nat.le_refl p)).trans present),
        openRun_of_open inside present, later]
  · rw [openRun_of_past (by omega), openRun_of_past (by omega)]
termination_by m.blocks.length - p

theorem le_of_mem_openRun {m : TextMap} {p q : Nat} (mem : q ∈ m.openRun p) : p ≤ q := by
  have listed := (List.takeWhile_sublist _).mem mem
  rw [List.mem_iff_getElem?] at listed
  obtain ⟨i, found⟩ := listed
  rw [List.getElem?_drop, List.getElem?_eq_some_iff] at found
  obtain ⟨_, value⟩ := found
  rw [List.getElem_range] at value
  omega

theorem room_congr {m m' : TextMap} (blocks : m'.blocks.length = m.blocks.length) {p : Nat}
    (size : ∀ q, m'.size q = m.size q) (fill : ∀ q, p ≤ q → m'.fill q = m.fill q) : m'.room p = m.room p := by
  have run : m'.openRun p = m.openRun p := openRun_congr blocks fun q h => by
    rw [TextMap.present, size, fill q h, TextMap.present]
  rw [room_eq_flatMap, room_eq_flatMap, run]
  refine List.flatMap_congr fun q mem => ?_
  rw [freshIn, size, fill q (le_of_mem_openRun mem), freshIn]

theorem room_of_open {m : TextMap} {p : Nat} (inside : p < m.blocks.length) (isOpen : m.present p = false) :
    m.room p = m.freshIn p ++ m.room (p + 1) := by
  rw [room_eq_flatMap, openRun_of_open inside isOpen, List.flatMap_cons, room_eq_flatMap]

/-- No free position is written. -/
theorem written_of_mem_room {m : TextMap} (law : m.law) {p o : Nat} (mem : o ∈ m.room p) : m.written o = false := by
  rw [room_eq_flatMap, List.mem_flatMap] at mem
  obtain ⟨q, run, fresh⟩ := mem
  rw [freshIn, List.mem_map] at fresh
  obtain ⟨i, free, rfl⟩ := fresh
  have inside : q < m.blocks.length := by
    have listed := List.mem_of_mem_drop ((List.takeWhile_sublist _).mem run)
    exact List.mem_range.mp listed
  have size := (size_le law inside).2.1
  rw [List.mem_iff_getElem?] at free
  obtain ⟨j, found⟩ := free
  rw [List.getElem?_drop, List.getElem?_eq_some_iff] at found
  obtain ⟨bound, value⟩ := found
  rw [List.getElem_range] at value
  rw [List.length_range] at bound
  rw [TextMap.written, show (64 * q + i) / 64 = q by omega]
  exact decide_eq_false (by omega)

/-! ## One character stored in the extending manner -/

/-- The block that takes the next character, if it is not present. -/
def frontier (m : TextMap) : Nat := if m.present m.pointer then m.pointer + 1 else m.pointer

/-- The place at which a write that finds no more room stops, if the map does not end before it. -/
def stopBlock (m : TextMap) : Nat := m.frontier + (m.openRun m.frontier).length

theorem frontier_storedAt {m : TextMap} {q : Nat} (inside : q < m.blocks.length) (isOpen : m.present q = false) :
    m.room q = (64 * q + m.fill q) :: (m.storedAt q (m.fill q)).room (m.storedAt q (m.fill q)).frontier ∧
      (m.storedAt q (m.fill q)).stopBlock = q + (m.openRun q).length := by
  have room : m.fill q < m.size q := by
    rw [Bool.eq_false_iff, ne_eq, present_iff m] at isOpen
    omega
  have blocks : (m.storedAt q (m.fill q)).blocks.length = m.blocks.length := length_setFill _ _ _
  have size : ∀ p, (m.storedAt q (m.fill q)).size p = m.size p := fun p => size_setFill _ _ _ p
  have fill : ∀ p, (m.storedAt q (m.fill q)).fill p = if q = p then m.fill q + 1 else m.fill p :=
    storedAt_fill inside
  have pointer : (m.storedAt q (m.fill q)).pointer = q := rfl
  have later : ∀ p, q + 1 ≤ p → (m.storedAt q (m.fill q)).fill p = m.fill p := fun p h => by
    rw [fill, if_neg (by omega)]
  have run : (m.storedAt q (m.fill q)).openRun (q + 1) = m.openRun (q + 1) := openRun_congr blocks fun p h => by
    rw [TextMap.present, size, later p h, TextMap.present]
  have rest : (m.storedAt q (m.fill q)).room (q + 1) = m.room (q + 1) := room_congr blocks size later
  have fresh : m.freshIn q = (64 * q + m.fill q) :: (m.storedAt q (m.fill q)).freshIn q := by
    rw [freshIn, List.drop_eq_getElem_cons (by simpa using room), List.getElem_range, List.map_cons, freshIn, size,
      fill, if_pos rfl]
  rw [room_of_open inside isOpen, fresh, stopBlock, frontier, pointer, openRun_of_open inside isOpen]
  cases present : (m.storedAt q (m.fill q)).present q with
  | true =>
    have none : (m.storedAt q (m.fill q)).freshIn q = [] := by
      have full := (present_iff _ q).mp present
      rw [freshIn, List.drop_eq_nil_of_le (by simpa using full), List.map_nil]
    rw [if_pos rfl, none, rest, run]
    refine ⟨rfl, ?_⟩
    rw [List.length_cons]
    omega
  | false =>
    rw [if_neg (by decide), room_of_open (by omega) present, rest, openRun_of_open (by omega) present, run]
    exact ⟨rfl, rfl⟩

section

variable {m : TextMap} (law : m.law) (c : Byte) (cs : List Byte) (cells : Memory)

include law

/-- With room the character goes to the fill of the frontier. -/
theorem storeChars_extending_of_room (inside : m.frontier < m.blocks.length) (isOpen : m.present m.frontier = false) :
    ∃ b, m.blockNumbers[m.frontier]? = some b ∧
      storesFirst .extending c cs m cells m.frontier (m.fill m.frontier) b := by
  cases present : m.present m.pointer with
  | false =>
    have here : m.frontier = m.pointer := by rw [frontier, present, if_neg (by decide)]
    obtain ⟨b, found, -, stores⟩ := storeChars_here law c cs cells .extending present
    rw [here]
    exact ⟨b, found, stores⟩
  | true =>
    have next : m.frontier = m.pointer + 1 := by rw [frontier, present, if_pos rfl]
    rw [next] at inside isOpen ⊢
    obtain ⟨b, here⟩ := exists_block inside
    refine ⟨b, here, ?_⟩
    have empty : (m.advance .extending).present (m.advance .extending).pointer = false := isOpen
    have stored : (m.advance .extending).storeAtPointer cells c =
        (m.storedAt (m.pointer + 1) (m.fill (m.pointer + 1)),
          cells.write (cellAddress b (m.fill (m.pointer + 1))) c) :=
      storeAtPointer_eq (m := m.advance .extending) here cells c
    rw [storesFirst, storeChars, if_pos present, if_neg (by omega)]
    dsimp only
    rw [if_neg (by simp [empty]), stored]

/-- Without room the write stops, at the present block or at the end of the text. -/
theorem storeChars_extending_of_full (full : m.blocks.length ≤ m.frontier ∨ m.present m.frontier = true) :
    storeChars .extending (c :: cs) m cells =
      ({ m with pointer := min (m.blocks.length - 1) m.stopBlock }, cells, 0) := by
  have pointer := law.2.2.2.1
  have present : m.present m.pointer = true := by
    by_contra notPresent
    have isOpen : m.present m.pointer = false := by simpa using notPresent
    rw [frontier, isOpen, if_neg (by decide), isOpen] at full
    rcases full with past | present
    · omega
    · cases present
  have next : m.frontier = m.pointer + 1 := by rw [frontier, present, if_pos rfl]
  have none : m.openRun m.frontier = [] := full.elim openRun_of_past openRun_of_present
  rw [stopBlock, none, List.length_nil, Nat.add_zero, next]
  rw [next] at full
  rw [storeChars, if_pos present]
  by_cases last : m.blocks.length ≤ m.pointer + 1
  · rw [if_pos last, show min (m.blocks.length - 1) (m.pointer + 1) = m.pointer by omega]
  · have stops : (m.advance .extending).present (m.advance .extending).pointer = true := full.resolve_left last
    rw [if_neg last]
    dsimp only
    rw [if_pos stops, show min (m.blocks.length - 1) (m.pointer + 1) = m.pointer + 1 by omega]
    rfl

end

/-! ## Characters stored in the extending manner (01: R13) -/

/-- The characters have grown the map by k of the positions listed, in their order. -/
structure Grown (m : TextMap) (cells : Memory) (m' : TextMap) (cells' : Memory) (places : List Nat) (k : Nat)
    (chars : List Byte) : Prop where
  length : m'.length = m.length
  blockNumbers : m'.blockNumbers = m.blockNumbers
  written (o : Nat) : m'.written o = true ↔ m.written o = true ∨ o ∈ places.take k
  kept (o : Nat) : o ∉ places.take k → m'.charAt cells' o = m.charAt cells o
  stored (i o : Nat) : i < k → places[i]? = some o → some (m'.charAt cells' o) = chars[i]?
  sum : (m'.blocks.map fun x => x.fill).sum = (m.blocks.map fun x => x.fill).sum + k
  apart (d : BlockNo) : d ∉ m.blockNumbers → ∀ p < 64,
    cells'.read (cellAddress d p) = cells.read (cellAddress d p)

theorem Grown.none (m : TextMap) (cells : Memory) (p : Nat) (places : List Nat) (chars : List Byte) :
    Grown m cells { m with pointer := p } cells places 0 chars :=
  ⟨rfl, rfl, fun o => (or_iff_left (by simp)).symm, fun _ _ => rfl, fun i _ below => absurd below (Nat.not_lt_zero i), rfl,
    fun _ _ _ _ => rfl⟩

/-- What has grown reads nothing of the pointer. -/
theorem Grown.of_pointer {m m' : TextMap} {cells cells' : Memory} {p k : Nat} {places : List Nat} {chars : List Byte}
    (h : Grown { m with pointer := p } cells m' cells' places k chars) : Grown m cells m' cells' places k chars :=
  ⟨h.length, h.blockNumbers, h.written, h.kept, h.stored, h.sum, h.apart⟩

theorem sum_fills_setFill {m : TextMap} {p : Nat} (inside : p < m.blocks.length) (fill : Nat) :
    ((m.setFill p fill).blocks.map fun x => x.fill).sum + m.fill p = (m.blocks.map fun x => x.fill).sum + fill := by
  obtain ⟨length, blocks, pointer⟩ := m
  have here : TextMap.fill ⟨length, blocks, pointer⟩ p = blocks[p].fill := by
    simp [TextMap.fill, List.getElem?_eq_getElem (show p < blocks.length from inside)]
  rw [here]
  show ((blocks.modify p fun b => { b with fill := fill }).map fun x => x.fill).sum + _ = (blocks.map fun x => x.fill).sum + _
  have split : blocks = blocks.take p ++ blocks[p] :: blocks.drop (p + 1) := by
    rw [← List.drop_eq_getElem_cons (show p < blocks.length from inside), List.take_append_drop]
  rw [List.modify_eq_take_cons_drop (show p < blocks.length from inside)]
  conv_rhs => rw [split]
  simp only [List.map_append, List.map_cons, List.sum_append, List.sum_cons]
  omega

/-- One character at a free position, and the growth of the rest. -/
theorem Grown.cons {m m' : TextMap} {cells cells' : Memory} {q k : Nat} {b : BlockNo} {places : List Nat} {c : Byte}
    {cs : List Byte} (canonical : cells.wf = true) (law : m.law) (here : m.blockNumbers[q]? = some b)
    (room : m.fill q < m.size q) (later : ∀ o ∈ places, (m.storedAt q (m.fill q)).written o = false)
    (rest : Grown (m.storedAt q (m.fill q)) (cells.write (cellAddress b (m.fill q)) c) m' cells' places k cs) :
    Grown m cells m' cells' ((64 * q + m.fill q) :: places) (k + 1) (c :: cs) := by
  have inside : q < m.blocks.length := by
    rw [← length_blockNumbers]
    exact (List.getElem?_eq_some_iff.mp here).1
  have small : m.fill q < 64 := Nat.lt_of_lt_of_le room (size_le law inside).2.1
  have blocks := storedAt_blockNumbers m q (m.fill q)
  have reads := readAt_write canonical small c law.2.2.1 here
  have chars : ∀ o, (m.storedAt q (m.fill q)).charAt (cells.write (cellAddress b (m.fill q)) c) o =
      if o = 64 * q + m.fill q then c else m.charAt cells o := fun o => by
    rw [charAt_eq, blocks, reads, charAt_eq]
  have written : ∀ o, (m.storedAt q (m.fill q)).written o = true ↔ m.written o = true ∨ o = 64 * q + m.fill q := fun o => by
    rw [storedAt_written inside]
    by_cases own : q = o / 64
    · rw [if_pos own, TextMap.written, ← own, decide_eq_true_eq, decide_eq_true_eq]
      omega
    · rw [if_neg own]
      exact (or_iff_left (by omega)).symm
  have fresh : 64 * q + m.fill q ∉ places.take k := fun mem => by
    have unwritten := later _ (List.mem_of_mem_take mem)
    rw [(written _).mpr (.inr rfl)] at unwritten
    cases unwritten
  refine ⟨rest.length, rest.blockNumbers.trans blocks, fun o => ?_, fun o out => ?_, fun i o below found => ?_, ?_,
    fun d out p hp => ?_⟩
  · rw [rest.written, written, List.take_succ_cons, List.mem_cons, or_assoc]
  · rw [List.take_succ_cons, List.mem_cons, not_or] at out
    rw [rest.kept o out.2, chars, if_neg out.1]
  · cases i with
    | zero =>
      obtain rfl : 64 * q + m.fill q = o := Option.some.inj found
      rw [rest.kept _ fresh, chars, if_pos rfl]
      rfl
    | succ i => exact rest.stored i o (by omega) found
  · have sum : ((m.storedAt q (m.fill q)).blocks.map fun x => x.fill).sum + m.fill q = _ :=
      sum_fills_setFill (m := { m with pointer := q }) inside (m.fill q + 1)
    have total := rest.sum
    have same : (({ m with pointer := q } : TextMap).blocks.map fun x => x.fill).sum = (m.blocks.map fun x => x.fill).sum := rfl
    omega
  · have other : d ≠ b := by
      rintro rfl
      exact out (List.mem_of_getElem? here)
    rw [rest.apart d (by rw [blocks]; exact out) p hp, read_write_other canonical small c other hp]

/-- What a write in the extending manner stores from the pointer on, and where the pointer then is. -/
theorem storeChars_extending (cs : List Byte) {m : TextMap} (law : m.law) {cells : Memory} (canonical : cells.wf = true) :
    (storeChars .extending cs m cells).2.2 = min cs.length (m.room m.frontier).length ∧
    Grown m cells (storeChars .extending cs m cells).1 (storeChars .extending cs m cells).2.1 (m.room m.frontier)
      (storeChars .extending cs m cells).2.2 cs ∧
    (storeChars .extending cs m cells).1.pointer =
      if (storeChars .extending cs m cells).2.2 = cs.length then
        if cs = [] then m.pointer else ((m.room m.frontier)[(storeChars .extending cs m cells).2.2 - 1]?.getD 0) / 64
      else min (m.blocks.length - 1) m.stopBlock := by
  induction cs generalizing m cells with
  | nil => exact ⟨by simp [storeChars], Grown.none m cells m.pointer _ _, rfl⟩
  | cons c cs ih =>
    by_cases hasRoom : m.frontier < m.blocks.length ∧ m.present m.frontier = false
    · obtain ⟨inside, isOpen⟩ := hasRoom
      obtain ⟨b, here, stores⟩ := storeChars_extending_of_room law c cs cells inside isOpen
      obtain ⟨places, stop⟩ := frontier_storedAt inside isOpen
      have room : m.fill m.frontier < m.size m.frontier := by
        rw [Bool.eq_false_iff, ne_eq, present_iff m] at isOpen
        omega
      have lawful := storedAt_law inside law room
      obtain ⟨count, grown, pointer⟩ := ih lawful
        (cells := cells.write (cellAddress b (m.fill m.frontier)) c) (Memory.wf_write canonical _ _)
      rw [stores, places]
      dsimp only
      refine ⟨?_, Grown.cons canonical law here room (fun o mem => written_of_mem_room lawful mem) grown, ?_⟩
      · rw [count, List.length_cons, List.length_cons, Nat.succ_min_succ]
      · rw [pointer, stop, show (m.storedAt m.frontier (m.fill m.frontier)).blocks.length = m.blocks.length from
          length_setFill _ _ _, List.length_cons, Nat.add_sub_cancel, if_neg (List.cons_ne_nil c cs)]
        simp only [Nat.add_right_cancel_iff]
        split
        · next all =>
          rw [all]
          cases cs with
          | nil =>
            show m.frontier = (64 * m.frontier + m.fill m.frontier) / 64
            have := (size_le law inside).2.1
            omega
          | cons c' cs => rfl
        · rfl
    · have full : m.blocks.length ≤ m.frontier ∨ m.present m.frontier = true := by
        by_cases inside : m.frontier < m.blocks.length
        · exact .inr (by simpa [inside] using hasRoom)
        · exact .inl (by omega)
      have none : m.room m.frontier = [] := by
        rw [room_eq_flatMap, full.elim openRun_of_past openRun_of_present, List.flatMap_nil]
      rw [storeChars_extending_of_full law c cs cells full, none]
      exact ⟨by simp, Grown.none m cells _ _ _, by simp⟩

/-! ## Where a write in the extending manner begins (01: R13) -/

/-- The block at which a write in the extending manner begins. -/
def extendStart (m : TextMap) (block : Option Nat) : Nat := block.elim m.frontier id

section

variable {m : TextMap} {block : Option Nat}

theorem beginWrite_extending_end (unnamed : block = none) (last : m.pointer + 1 = m.blocks.length)
    (present : m.present m.pointer = true) : m.beginWrite .extending block = .error .limit := by
  have ends : m.pointerAtEnd = true := by rw [pointerAtEnd, present, decide_eq_true last.ge]; rfl
  rw [unnamed, beginWrite, ends, if_pos rfl]

theorem beginWrite_extending_present (inside : m.extendStart block < m.blocks.length)
    (present : m.present (m.extendStart block) = true) : m.beginWrite .extending block = .error .readOnly := by
  cases block with
  | some p => exact if_pos present
  | none =>
    have start : m.extendStart none = m.frontier := rfl
    rw [start] at inside present
    cases here : m.present m.pointer with
    | false =>
      rw [frontier, here, if_neg (by decide), here] at present
      cases present
    | true =>
      rw [frontier, here, if_pos rfl] at inside present
      have notEnd : m.pointerAtEnd = false := by rw [pointerAtEnd, decide_eq_false (by omega)]; rfl
      rw [beginWrite, notEnd, if_neg (by decide), here, present]
      rfl

/-- A write that finds an open block grows the map from there. -/
theorem extending_grows (law : m.law) (inside : m.extendStart block < m.blocks.length)
    (isOpen : m.present (m.extendStart block) = false) {chars : List Byte} (good : isText chars) {cells : Memory}
    (canonical : cells.wf = true) : ∃ start k, m.beginWrite .extending block = .ok start ∧
      (storeChars .extending chars start cells).2.2 = k ∧
      k = min chars.length (m.room (m.extendStart block)).length ∧
      Grown m cells (storeChars .extending chars start cells).1 (storeChars .extending chars start cells).2.1
        (m.room (m.extendStart block)) k chars ∧
      (storeChars .extending chars start cells).1.pointer =
        if k = chars.length then ((m.room (m.extendStart block))[k - 1]?.getD 0) / 64
        else min (m.blocks.length - 1) (m.extendStart block + (m.openRun (m.extendStart block)).length) := by
  have some : chars ≠ [] := by
    rintro rfl
    exact absurd good.1 (by decide)
  cases block with
  | none =>
    have start : m.extendStart none = m.frontier := rfl
    rw [start] at inside isOpen ⊢
    have begins : m.beginWrite .extending none = .ok m := by
      have notEnd : m.pointerAtEnd = false := by
        rw [pointerAtEnd]
        cases here : m.present m.pointer with
        | false => exact Bool.and_false _
        | true =>
          rw [frontier, here, if_pos rfl] at inside
          rw [decide_eq_false (by omega)]
          rfl
      have next : (m.present m.pointer && m.present (m.pointer + 1)) = false := by
        cases here : m.present m.pointer with
        | false => rfl
        | true =>
          rw [frontier, here, if_pos rfl] at isOpen
          exact isOpen
      rw [beginWrite, notEnd, if_neg (by decide), next, if_neg (by decide)]
    obtain ⟨count, grown, pointer⟩ := storeChars_extending chars law canonical
    rw [if_neg some, stopBlock] at pointer
    exact ⟨m, _, begins, rfl, count, grown, pointer⟩
  | some p =>
    have start : m.extendStart (Option.some p) = p := rfl
    rw [start] at inside isOpen ⊢
    have lawful : ({ m with pointer := p } : TextMap).law := by
      obtain ⟨nonempty, blocks, distinct, -, fills⟩ := law
      exact ⟨nonempty, blocks, distinct, inside, fills⟩
    have front : ({ m with pointer := p } : TextMap).frontier = p := if_neg (by
      have same : ({ m with pointer := p } : TextMap).present p = m.present p := rfl
      simp [same, isOpen])
    obtain ⟨count, grown, pointer⟩ := storeChars_extending chars lawful canonical
    rw [if_neg some, stopBlock, front] at pointer
    rw [front] at count grown
    exact ⟨{ m with pointer := p }, _, if_neg (by simp [isOpen]), rfl, count, grown.of_pointer, pointer⟩

end

end TextMap

/-- Settles O23. -/
theorem releasedTextOnlyGrows : Obligations.ReleasedTextOnlyGrows := by
  intro r n b block chars s served nonzero present released m run start
  have answers : ∀ u v, (s.writeText n m .extending block chars fun map => { b with current := map }) = (u, v) →
      run = .next (u.replied r 0x31 v) := fun u v writes =>
    exec_answers (q := .bulletinText n 0 block chars) served
      ((bulletinText_released nonzero present released block chars).trans writes)
  refine ⟨fun p named past => answers _ _ (State.writeText_of_fault (textFault_of_block named past)),
    fun inside v bad => answers _ _ (State.writeText_of_fault (textFault_of_refused inside bad)),
    fun law canonical good inside => ?_⟩
  have sound := textFault_of_text inside good
  refine ⟨fun unnamed last full => ?_, fun below full => ?_, fun below isOpen => ?_⟩
  · exact answers _ _ (State.writeText_of_error sound (TextMap.beginWrite_extending_end unnamed last full))
  · exact answers _ _ (State.writeText_of_error sound (TextMap.beginWrite_extending_present below full))
  · obtain ⟨from', k, begins, stores, count, grown, pointer⟩ := TextMap.extending_grows law below isOpen good canonical
    have room : m.room start = (64 * start + m.fill start) :: _ := (TextMap.frontier_storedAt below isOpen).1
    have characters := good.1
    have count : k = min chars.length (m.room start).length := count
    have roomy : 1 ≤ (m.room start).length := by rw [room]; simp
    have some : 1 ≤ k := by omega
    have first : (64 * start + m.fill start) ∈ (m.room start).take k := by
      obtain ⟨k, rfl⟩ : ∃ j, k = j + 1 := ⟨k - 1, by omega⟩
      rw [room, List.take_succ_cons]
      exact List.mem_cons_self
    refine ⟨_, _, k, some, by omega, ?_, grown.length, grown.blockNumbers, fun o written => ?_,
      ⟨(grown.written _).mpr (.inr first), ?_⟩, grown.sum, count, grown.stored, grown.written, pointer, grown.apart⟩
    · rw [answers _ _ (State.writeText_of_start sound begins), stores]
      rfl
    · refine ⟨(grown.written o).mpr (.inl written), grown.kept o fun mem => ?_⟩
      rw [TextMap.written_of_mem_room law (List.mem_of_mem_take mem)] at written
      cases written
    · rw [List.head?_eq_getElem?]
      exact grown.stored 0 _ some (show (m.room start)[0]? = _ by rw [room]; rfl)

end Sys2Proof.Machine
end

section
/-! PROOFS. The grant and the channel timers (06: R94 to R99, R101; 07: R112, R123), and the CHANNEL hold of the bound
circuits (05: R74). -/

namespace Sys2Proof.Machine

/-! ## A selection (07: R112, R123) -/

/-- A selection starts the turn that it names, and with nothing eligible the channel enters HOLD. -/
theorem State.selected_of_select (v : State) (g : Bool) (ch : Fin 8) :
    v.selected ch (firstPhase g (v.channel ch).settings) ((v.selectTurn g ch).getD (v.enterHold ch)) := by
  unfold State.selected
  cases eligible : v.anythingEligible ch with
  | true =>
    obtain ⟨u, selects, started⟩ := State.selectTurn_started g eligible
    rw [selects]
    exact started
  | false =>
    have none : v.selectTurn g ch = Option.none := by
      rw [State.selectTurn, State.choose_nothing_iff.mpr eligible]
    rw [none, if_neg (by decide), Option.getD_none, State.enterHold, State.release]
    by_cases releases : (v.channel ch).settings.keyHold = 0 ∨ v.silenced ch = true
    · rw [if_pos (by simpa using releases), if_pos releases]
    · rw [if_neg (by simpa using releases), if_neg releases, State.emit, State.setChannel_setChannel,
        State.channel_setChannel, if_pos rfl]
      rfl

/-! ## KEYOK (06: R94, R97) -/

theorem exec_keyokGrant_of_rise {s : State} {ch : Fin 8} (released : s.resetHeld = false) (low : s.keyokOf ch = false) :
    exec (.keyokGrant ch) s = .next (s.riseKeyok ch).arbitrate := by
  have rises : exec (.keyokGrant ch) s =
      event (fun s => if s.keyokOf ch then s else s.riseKeyok ch) s := if_neg (by simp [released])
  rw [rises, event_of_released released, low, if_neg (by decide)]

/-- Settles O43. -/
theorem keyokRiseIsAGrant : Obligations.KeyokRiseIsAGrant := by
  intro ch s released low x
  have level : s.riseKeyok ch = if x.state = .requesting then (s.setKeyok ch true).grant ch else s.setKeyok ch true := rfl
  rw [exec_keyokGrant_of_rise released low, level]
  refine ⟨fun other => by rw [if_neg other]; rfl, fun requesting => ?_⟩
  intro granted
  refine ⟨_, by rw [if_pos requesting], ?_⟩
  have selected := State.selected_of_select granted true ch
  have settings : (granted.channel ch).settings = x.settings := by
    rw [State.channel_setChannel, if_pos rfl]
    rfl
  rw [settings, (firstPhase_eq x.settings).1] at selected
  exact selected

/-! ## The CHANNEL hold (05: R74) -/

/-- The record of a circuit with the CHANNEL hold set or lifted, and its wait settled. -/
def Circuit.holding (x : Circuit) (on onAir : Bool) (now : Nat) : Circuit :=
  ({ x with channelHold := on } : Circuit).settledAt onAir now

theorem Circuit.holding_channel (x : Circuit) (on onAir : Bool) (now : Nat) :
    (x.holding on onAir now).channel = x.channel := Circuit.settledAt_channel { x with channelHold := on } onAir now

section

variable (on : Bool) (s : State)

theorem State.setChannelHold_eq (c : Fin 32) : State.setChannelHold on s c =
    s.setCircuit c ((s.circuit c).holding on (s.onAir c) s.now) := by
  rw [State.setChannelHold, State.updateWait_eq, State.setCircuit_setCircuit, State.circuit_setCircuit, if_pos rfl,
    State.setCircuit_onAir (x := { s.circuit c with channelHold := on }) rfl]
  rfl

theorem State.setChannelHolds_only (l : List (Fin 32)) :
    ∃ circuits, l.foldl (State.setChannelHold on) s = { s with circuits := circuits } := by
  induction l generalizing s with
  | nil => exact ⟨s.circuits, rfl⟩
  | cons c l ih =>
    obtain ⟨circuits, rest⟩ := ih (State.setChannelHold on s c)
    exact ⟨circuits, by rw [List.foldl_cons, rest, State.setChannelHold_eq]; rfl⟩

theorem State.setChannelHold_onAir (c d : Fin 32) : (State.setChannelHold on s c).onAir d = s.onAir d := by
  rw [State.setChannelHold_eq]
  exact State.setCircuit_onAir (Circuit.holding_channel _ on _ _) d

theorem State.setChannelHolds_circuit {l : List (Fin 32)} (distinct : l.Nodup) (d : Fin 32) :
    (l.foldl (State.setChannelHold on) s).circuit d = if d ∈ l then
      (s.circuit d).holding on (s.onAir d) s.now else s.circuit d := by
  induction l generalizing s with
  | nil => rfl
  | cons c l ih =>
    obtain ⟨fresh, distinct⟩ := List.nodup_cons.mp distinct
    have now : (State.setChannelHold on s c).now = s.now := by rw [State.setChannelHold_eq]; rfl
    have first : (State.setChannelHold on s c).circuit d = if c = d then
        (s.circuit c).holding on (s.onAir c) s.now else s.circuit d := by
      rw [State.setChannelHold_eq, State.circuit_setCircuit]
    rw [List.foldl_cons, ih _ distinct, State.setChannelHold_onAir, now, first]
    by_cases own : c = d
    · subst own
      simp [fresh]
    · simp [own, Ne.symm own]

theorem State.holdBound_only (ch : Fin 8) : ∃ circuits, s.holdBound ch on = { s with circuits := circuits } :=
  State.setChannelHolds_only on s _

theorem State.holdBound_circuit (ch : Fin 8) (d : Fin 32) : (s.holdBound ch on).circuit d =
    if d ∈ (s.channel ch).bound then
      (s.circuit d).holding on (s.onAir d) s.now else s.circuit d := by
  have distinct : (allCircuits.filter fun c => c ∈ (s.channel ch).bound).Nodup := (List.nodup_finRange 32).filter _
  rw [State.holdBound, State.setChannelHolds_circuit on s distinct]
  have listed : d ∈ allCircuits := List.mem_finRange d
  simp [listed]

end

/-! ## The channel timers (06: R95, R98, R99) -/

section

variable {s : State} {ch : Fin 8} {t : Timer}

theorem State.lockExpiry_of_none (h : (s.channel ch).lockTimer = none) : s.lockExpiry ch = s := by
  rw [State.lockExpiry, h]

theorem State.permitExpiry_of_none (h : (s.channel ch).permitTimer = none) : s.permitExpiry ch = s := by
  rw [State.permitExpiry, h]

theorem State.retryExpiry_of_none (h : (s.channel ch).retryTimer = none) : s.retryExpiry ch = s := by
  rw [State.retryExpiry, h]

/-- The channel IDLE once its lock timer has run out, before the holds are lifted. -/
def State.lockEnded (s : State) (ch : Fin 8) (t : Timer) : State :=
  (s.reach t.due).setChannel ch { s.channel ch with state := .idle, lockTimer := none }

/-- The same with the holds lifted and LOCKED raised. -/
def State.locked (s : State) (ch : Fin 8) (t : Timer) : State :=
  ((s.lockEnded ch t).holdBound ch false).raiseEvent (.channel ch) .locked

theorem State.lockExpiry_of_some (h : (s.channel ch).lockTimer = some t) : s.lockExpiry ch = (s.locked ch t).consult ch := by
  rw [State.lockExpiry, h]
  rfl

theorem State.lockEnded_onAir (d : Fin 32) : (s.lockEnded ch t).onAir d = s.onAir d := by
  show ((s.lockEnded ch t).channel (s.circuit d).channel).carriesCircuit d = _
  rw [State.lockEnded, State.channel_setChannel, State.onAir]
  split
  · next here => rw [← here]; rfl
  · rfl

/-- The channel IDLE once its retry timer has run out. -/
def State.retryEnded (s : State) (ch : Fin 8) (t : Timer) : State :=
  (s.reach t.due).setChannel ch { s.channel ch with state := .idle, retryTimer := none }

/-- The end of BACKOFF is the consultation of an IDLE channel. -/
theorem State.retryExpiry_of_some (h : (s.channel ch).retryTimer = some t) :
    s.retryExpiry ch = (s.retryEnded ch t).tellIdle ch := by
  let waiting := (s.reach t.due).setChannel ch { s.channel ch with retryTimer := none }
  have expires : s.retryExpiry ch = if waiting.anythingEligible ch then waiting.requestKey ch
      else waiting.setChannel ch { waiting.channel ch with state := .idle } := by
    rw [State.retryExpiry, h]
    rfl
  have here : waiting.channel ch = { s.channel ch with retryTimer := none } := by simp [waiting, State.channel_setChannel]
  have ended : s.retryEnded ch t = waiting.setChannel ch { waiting.channel ch with state := .idle } := by
    rw [here]
    simp [waiting, State.retryEnded]
  have eligible : (s.retryEnded ch t).anythingEligible ch = waiting.anythingEligible ch := by
    rw [ended]
    exact (State.choose_keying waiting ch { waiting.channel ch with state := .idle } rfl rfl rfl rfl rfl rfl rfl).2
  have idle : ((s.retryEnded ch t).channel ch).state = .idle := by simp [State.retryEnded, State.channel_setChannel]
  have requests : (s.retryEnded ch t).requestKey ch = waiting.requestKey ch := by
    rw [ended]
    simp [State.requestKey, State.channel_setChannel]
    rfl
  rw [expires, State.tellIdle, if_pos idle, State.consult, eligible, requests, ended]

end

/-- Settles O45. -/
theorem channelTimersExpire : Obligations.ChannelTimersExpire := by
  intro ch s released x
  have lock := event_of_released released (fun s => s.lockExpiry ch)
  have permit := event_of_released released (fun s => s.permitExpiry ch)
  have retry := event_of_released released (fun s => s.retryExpiry ch)
  refine ⟨fun none => lock.trans ?_, fun none => permit.trans ?_, fun none => retry.trans ?_, fun t runs => ?_,
    fun t runs => permit.trans ?_, fun t runs => ⟨_, retry, ?_⟩⟩
  · rw [State.lockExpiry_of_none none]
  · rw [State.permitExpiry_of_none none]
  · rw [State.retryExpiry_of_none none]
  · have consults := (s.locked ch t).tellIdle_consulted ch
    obtain ⟨circuits, only⟩ := State.holdBound_only false (s.lockEnded ch t) ch
    have here : (s.locked ch t).channel ch = { x with state := .idle, lockTimer := none } := by
      rw [State.locked, only]
      exact (State.channel_setChannel _ _ _ _).trans (if_pos rfl)
    have idle : ((s.locked ch t).channel ch).state = .idle := by rw [here]
    have expires : s.lockExpiry ch = (s.locked ch t).tellIdle ch := by
      rw [State.lockExpiry_of_some runs, State.tellIdle, if_pos idle]
    refine ⟨s.locked ch t, _, lock.trans (by rw [expires]), ?_, fun c => ?_, State.reports_raiseEvent _ _ _, consults,
      fun low => ⟨fun key => ?_, fun eligible => (State.consulted_keyreq consults idle eligible).1⟩⟩
    · rw [State.locked, only]
      rfl
    · have bound : ((s.lockEnded ch t).channel ch).bound = x.bound := by simp [State.lockEnded, State.channel_setChannel, x]
      rw [State.locked, State.raiseEvent_circuit, State.holdBound_circuit, bound, State.lockEnded_onAir, State.raiseEvent_now,
        only]
      rfl
    · by_contra notEligible
      rw [State.consulted_of_still consults (.inr (by simpa using notEligible)), here] at key
      rw [show x.keyreq = true from key] at low
      cases low
  · rw [State.permitExpiry, runs]
    rfl
  · rw [State.retryExpiry_of_some runs]
    exact State.tellIdle_consulted _ ch

end Sys2Proof.Machine
end

section
/-! PROOFS. A consultation beside a write to another channel, and the end of a telex turn (05: R83, R84, R87). -/

namespace Sys2Proof.Machine

/-! ## What every move keeps -/

theorem State.Moves.reports {s t : State} (h : s.Moves t) {key : NoticeKey} {e : NoticeEvent} (before : s.reports key e) :
    t.reports key e := by
  induction h with
  | refl => exact before
  | raise k e' a _ ih => exact State.reports_raise ih k e' a
  | channel _ _ _ ih | circuit _ _ _ ih | bulletin _ _ _ ih | free _ _ ih => exact ih

/-- A move reaches the free list, the records and the notices alone. -/
theorem State.Moves.only {s t : State} (h : s.Moves t) : t = { s with
    store := { s.store with free := t.store.free }, bulletins := t.bulletins, circuits := t.circuits,
    channels := t.channels, notices := t.notices } := by
  induction h with
  | refl => rfl
  | raise k e' a _ ih => rw [ih]; rfl
  | channel _ _ _ ih | circuit _ _ _ ih | bulletin _ _ _ ih | free _ _ ih => rw [ih]; rfl

/-! ## What is eligible beside a write to another channel -/

theorem State.setChannel_comm (s : State) {i j : Fin 8} (apart : i ≠ j) (x y : Channel) :
    (s.setChannel i x).setChannel j y = (s.setChannel j y).setChannel i x := by
  have places : i.val ≠ j.val := fun same => apart (Fin.ext same)
  unfold State.setChannel
  simp only [State.mk.injEq, true_and, and_true]
  exact Vector.set_comm x y places

theorem State.setChannel_onAir {s : State} {ch : Fin 8} {y : Channel} (turn : y.turn = (s.channel ch).turn) (c : Fin 32) :
    (s.setChannel ch y).onAir c = s.onAir c := by
  rw [State.onAir, State.setChannel_circuit, State.channel_setChannel, State.onAir]
  split
  · next own => rw [← own, Channel.carriesCircuit_congr turn]
  · rfl

section

variable {s t : State} {j : Fin 8} (channel : t.channel j = s.channel j) (bulletins : t.bulletins = s.bulletins)
  (silence : t.silence = s.silence) (waiting : ∀ c, t.waiting c = s.waiting c)

include channel bulletins silence

theorem State.entryEligible_congr (e : Entry) : t.entryEligible j e = s.entryEligible j e := by
  rw [State.entryEligible, State.bulletin, bulletins, State.silenced, channel, silence]
  rfl

include waiting

omit bulletins in
theorem State.circuitEligible_congr (c : Fin 32) : t.circuitEligible j c = s.circuitEligible j c := by
  rw [State.circuitEligible, waiting, State.silenced, channel, silence]
  rfl

theorem State.choose_congr : t.choose j = s.choose j ∧ t.anythingEligible j = s.anythingEligible j := by
  have entries : t.entryEligible j = s.entryEligible j :=
    funext (State.entryEligible_congr channel bulletins silence)
  have circuits : t.circuitEligible j = s.circuitEligible j :=
    funext (State.circuitEligible_congr channel silence waiting)
  simp only [State.choose, State.anythingEligible, State.headEligible, State.headEligibleAny, State.nextCircuit, channel,
    entries, circuits, and_self]

end

/-- A turn starts in the same way beside a write to another channel. -/
theorem State.turnStarted_setChannel {v u : State} {ch j : Fin 8} {phase : Phase} {choice : Choice} (apart : j ≠ ch)
    (y : Channel) (h : v.turnStarted j phase choice u) :
    (v.setChannel ch y).turnStarted j phase choice (u.setChannel ch y) := by
  have here : (v.setChannel ch y).channel j = v.channel j := by rw [State.channel_setChannel, if_neg apart.symm]
  match choice, h with
  | .entry e, ⟨b, present, same⟩ =>
    refine ⟨b, present, ?_⟩
    rw [same, State.setBulletin_setChannel, State.setChannel_comm _ apart, here]
    rfl
  | .circuit c, same =>
    rw [State.turnStarted, show u = _ from same, State.setCircuit_setChannel, State.setChannel_comm _ apart, here]
    rfl

theorem State.consulted_setChannel {v u : State} {ch j : Fin 8} (apart : j ≠ ch) {y : Channel}
    (turn : y.turn = (v.channel ch).turn) (h : v.consulted j u) :
    (v.setChannel ch y).consulted j (u.setChannel ch y) := by
  have here : (v.setChannel ch y).channel j = v.channel j := by rw [State.channel_setChannel, if_neg apart.symm]
  obtain ⟨choice, eligible⟩ := State.choose_congr (s := v) (t := v.setChannel ch y) here rfl rfl fun c => by
    rw [State.waiting, State.setChannel_onAir turn]
    rfl
  unfold State.consulted at h ⊢
  rw [here, choice, eligible, State.setChannel_keyokOf]
  dsimp only at h ⊢
  split_ifs at h ⊢ with still absent
  · rw [h]
  · rw [h, State.setChannel_comm _ apart]
    rfl
  · rw [State.setChannel_comm _ apart.symm]
    exact State.turnStarted_setChannel apart y h

/-! ## The end of a telex turn (05: R87) -/

/-- The state at which a turn ends differs from the one a statement speaks of in the record of the turn's own channel,
which is on the air, and in notices begun since. -/
structure State.Beside (s a : State) (ch : Fin 8) : Prop where
  only : a = { s with channels := a.channels, notices := a.notices }
  others (j : Fin 8) : j ≠ ch → a.channel j = s.channel j
  state : (a.channel ch).state = (s.channel ch).state
  queue : (a.channel ch).queue = (s.channel ch).queue
  bound : (a.channel ch).bound = (s.channel ch).bound
  profile : (a.channel ch).profile = (s.channel ch).profile
  reports (key : NoticeKey) (e : NoticeEvent) : s.reports key e → a.reports key e

/-- A channel that a report of eligible traffic leaves as it is while it has no turn. -/
def Channel.deaf (x : Channel) : Prop := x.state = .keyed ∨ x.state = .stopping

theorem Channel.deaf.not_idle {x : Channel} (h : x.deaf) : x.state ≠ .idle := by
  rcases h with keyed | stopping <;> simp [*]

/-- The state once the turn record is clear, with the resume flag settled. -/
def State.telexCleared (a : State) (ch : Fin 8) (c : Fin 32) (resume : Bool) : State :=
  (a.setCircuit c { a.circuit c with resume := resume }).clearTurn ch

section

variable {s a : State} {ch : Fin 8}

theorem State.Beside.circuits (h : s.Beside a ch) (d : Fin 32) : a.circuit d = s.circuit d := by
  rw [h.only]
  rfl

variable {c : Fin 32} {resume : Bool}

theorem State.telexCleared_circuit (h : s.Beside a ch) (d : Fin 32) : (a.telexCleared ch c resume).circuit d =
    if c = d then { s.circuit c with resume := resume } else s.circuit d := by
  rw [← h.circuits, ← h.circuits]
  exact State.circuit_setCircuit a c d _

theorem State.telexCleared_channel (j : Fin 8) : (a.telexCleared ch c resume).channel j =
    if ch = j then { a.channel ch with turn := none, output := none } else a.channel j :=
  State.channel_setChannel _ ch j _

theorem State.telexCleared_only (h : s.Beside a ch) : a.telexCleared ch c resume = { s with
    circuits := (a.telexCleared ch c resume).circuits, channels := (a.telexCleared ch c resume).channels
    notices := a.notices } := by
  rw [State.telexCleared, h.only]
  rfl

theorem State.telexCleared_reports (h : s.Beside a ch) {key : NoticeKey} {e : NoticeEvent} (before : s.reports key e) :
    (a.telexCleared ch c resume).reports key e := h.reports key e before

end

/-- A later write to the channel of the turn that ended, which keeps its queue, its bound list and its profile. -/
theorem State.telexEnded_setChannel {s v : State} {ch : Fin 8} {c : Fin 32} {resume : Bool} {y : Channel}
    (h : s.telexEnded ch c resume v) (turn : y.turn = (v.channel ch).turn) (queue : y.queue = (v.channel ch).queue)
    (bound : y.bound = (v.channel ch).bound) (profile : y.profile = (v.channel ch).profile) :
    s.telexEnded ch c resume (v.setChannel ch y) := by
  obtain ⟨reports, closed, moved, w, only, circuit, circuits, bound', queue', profile', others, last⟩ := h
  refine ⟨reports, closed, moved, w.setChannel ch y, by rw [only]; rfl, circuit, circuits, ?_⟩
  have written : (w.setChannel ch y).channel ch = y := (State.channel_setChannel _ _ _ _).trans (if_pos rfl)
  have elsewhere : ∀ j, j ≠ ch → (w.setChannel ch y).channel j = w.channel j := fun j other =>
    (State.channel_setChannel _ _ _ _).trans (if_neg other.symm)
  have last := ite_prop_iff_or.mp last
  have same : v.channel ch = w.channel ch := by
    rcases last with ⟨moves, consults⟩ | ⟨-, stays⟩
    · exact State.consulted_channel_other consults moves.2.1.symm
    · rw [stays]
  rw [same] at turn queue bound profile
  refine ⟨by rw [written, bound, bound'], by rw [written, queue, queue'], by rw [written, profile, profile'],
    fun j other => by rw [elsewhere j other]; exact others j other, ite_prop_iff_or.mpr ?_⟩
  exact last.imp (fun ⟨moves, consults⟩ => ⟨moves, State.consulted_setChannel moves.2.1 turn consults⟩)
    (fun ⟨still, stays⟩ => ⟨still, by rw [stays]⟩)

theorem State.finishClose_circuit (s : State) (c d : Fin 32) : (s.finishClose c).circuit d =
    if c = d then Circuit.freeOn (s.circuit c).channel else s.circuit d := by
  rw [State.finishClose_eq]
  exact State.circuit_setCircuit _ c d _

theorem State.finishClose_channel (s : State) (c : Fin 32) (j : Fin 8) : (s.finishClose c).channel j =
    if (s.circuit c).channel = j then { s.channel j with bound := (s.channel j).bound.erase c } else s.channel j := by
  rw [State.finishClose_eq, State.raise_channel, State.setCircuit_channel, State.channel_setChannel]
  split
  · next own => rw [own]
  · rfl

section

variable {s a : State} {ch : Fin 8} {c : Fin 32} {resume : Bool} (beside : s.Beside a ch)
  (own : (s.circuit c).channel = ch)

include beside own

/-- A CLOSING circuit with an empty queue is freed (05: R84). -/
theorem State.telexEnded_of_freed (empty : (s.circuit c).life = .closing ∧ (s.circuit c).count = 0) :
    s.telexEnded ch c resume ((a.telexCleared ch c resume).finishClose c) := by
  unfold State.telexEnded
  intro x target kept elsewhere freed bound
  have isFreed : freed = true := by simp [freed, x, empty.1, empty.2]
  have here : ((a.telexCleared ch c resume).circuit c).channel = ch := by
    rw [State.telexCleared_circuit beside, if_pos rfl]
    exact own
  have record := State.telexCleared_circuit beside (c := c) (resume := resume)
  have channel := State.telexCleared_channel (a := a) (ch := ch) (c := c) (resume := resume)
  have moves : (a.telexCleared ch c resume).Moves ((a.telexCleared ch c resume).finishClose c) :=
    State.Moves.refl.finishClose c
  refine ⟨fun key e before => moves.reports (State.telexCleared_reports beside before), fun _ => ?_, fun notFreed => ?_,
    (a.telexCleared ch c resume).finishClose c, ?_, ?_, fun d other => ?_, ?_, ?_, ?_, fun j other => ?_, ?_⟩
  · exact State.reports_raiseEvent _ _ _
  · rw [isFreed] at notFreed
    cases notFreed
  · rw [State.finishClose_eq, State.telexCleared_only beside]
    rfl
  · rw [if_pos isFreed, State.finishClose_circuit, if_pos rfl, here, own]
  · rw [State.finishClose_circuit, if_neg other.symm]
    exact (record d).trans (if_neg other.symm)
  · rw [State.finishClose_channel, here, if_pos rfl, channel, if_pos rfl]
    simp [bound, isFreed, beside.bound]
  · rw [State.finishClose_channel, here, if_pos rfl, channel, if_pos rfl]
    exact beside.queue
  · rw [State.finishClose_channel, here, if_pos rfl, channel, if_pos rfl]
    exact beside.profile
  · rw [State.finishClose_channel, here, if_neg other.symm, channel, if_neg other.symm, beside.others j other]
    simp [bound, isFreed, other]
  · rw [if_neg (by simp [isFreed])]

/-- Without a move the circuit stays on its channel, which a wait that begins does not reach while it is on the air. -/
theorem State.telexEnded_of_stays (full : ¬ ((s.circuit c).life = .closing ∧ (s.circuit c).count = 0))
    (unmoved : (s.circuit c).movePending = none) (deaf : (s.channel ch).deaf) :
    s.telexEnded ch c resume ((a.telexCleared ch c resume).settleWait c) := by
  unfold State.telexEnded
  intro x target kept elsewhere freed bound
  have notFreed : freed = false := by simpa [freed, x] using full
  have home : target = ch := by simp [target, x, unmoved]
  have away : elsewhere = false := by simp [elsewhere, home]
  have record := State.telexCleared_circuit beside (c := c) (resume := resume)
  have channel := State.telexCleared_channel (a := a) (ch := ch) (c := c) (resume := resume)
  have here : (a.telexCleared ch c resume).circuit c = kept := by
    rw [record, if_pos rfl]
    simp [kept, x, unmoved, home, own]
  have offAir : (a.telexCleared ch c resume).onAir c = false := by
    rw [State.onAir, here, show kept.channel = ch from home, channel, if_pos rfl]
    rfl
  have now : (a.telexCleared ch c resume).now = s.now := by rw [State.telexCleared_only beside]
  have settles : (a.telexCleared ch c resume).settleWait c =
      (a.telexCleared ch c resume).setCircuit c (kept.settledAt elsewhere s.now) := by
    have busy : ((a.telexCleared ch c resume).channel ch).state ≠ .idle := by
      rw [channel, if_pos rfl]
      exact beside.state ▸ deaf.not_idle
    rcases State.settleWait_cases (a.telexCleared ch c resume) c with same | same
    · rw [same, here, offAir, now, away]
    · rw [same, here, offAir, now, away, show kept.channel = ch from home, State.tellIdle, State.setCircuit_channel,
        if_neg busy]
  rw [settles]
  refine ⟨fun key e before => beside.reports key e before, fun isFreed => ?_, fun _ moves => ?_,
    (a.telexCleared ch c resume).setCircuit c (kept.settledAt elsewhere s.now), ?_, ?_, fun d other => ?_, ?_, ?_, ?_,
    fun j other => ?_, ?_⟩
  · rw [notFreed] at isFreed
    cases isFreed
  · exact absurd unmoved moves
  · rw [State.telexCleared_only beside]
    rfl
  · rw [if_neg (by simp [notFreed]), State.circuit_setCircuit, if_pos rfl]
  · rw [State.circuit_setCircuit, if_neg other.symm, record, if_neg other.symm]
  · rw [State.setCircuit_channel, channel, if_pos rfl]
    simp [bound, notFreed, x, unmoved, beside.bound]
  · rw [State.setCircuit_channel, channel, if_pos rfl]
    exact beside.queue
  · rw [State.setCircuit_channel, channel, if_pos rfl]
    exact beside.profile
  · rw [State.setCircuit_channel, channel, if_neg other.symm, beside.others j other]
    simp [bound, notFreed, x, unmoved]
  · rw [if_neg (by simp [home])]

/-- A pending move is applied, and a target that is not the channel of the turn is told of a circuit that waits. -/
theorem State.telexEnded_of_moves (full : ¬ ((s.circuit c).life = .closing ∧ (s.circuit c).count = 0)) {dest : Fin 8}
    (moved : (s.circuit c).movePending = some dest) (deaf : (s.channel ch).deaf) :
    s.telexEnded ch c resume ((a.telexCleared ch c resume).applyMove c dest) := by
  unfold State.telexEnded
  intro x target kept elsewhere freed bound
  have notFreed : freed = false := by simpa [freed, x] using full
  have there : target = dest := by simp [target, x, moved]
  have record := State.telexCleared_circuit beside (c := c) (resume := resume)
  have channel := State.telexCleared_channel (a := a) (ch := ch) (c := c) (resume := resume)
  have now : (a.telexCleared ch c resume).now = s.now := by rw [State.telexCleared_only beside]
  have on : ((a.telexCleared ch c resume).channel dest).isOn = (s.channel dest).isOn := by
    rw [channel]
    split
    · next own => rw [← own, Channel.isOn, Channel.isOn, ← beside.state]
    · next other => rw [beside.others dest (Ne.symm other)]
  have air : ((a.telexCleared ch c resume).channel dest).carriesCircuit c = elsewhere := by
    rw [channel]
    by_cases same : ch = dest
    · rw [if_pos same]
      simp [elsewhere, there, same, Channel.carriesCircuit]
    · rw [if_neg same, beside.others dest (Ne.symm same)]
      simp [elsewhere, there, Ne.symm same]
  have here : ((a.telexCleared ch c resume).rebound c dest).circuit c = kept := by
    rw [State.rebound_circuit, record, if_pos rfl, on]
    simp [kept, x, moved, there]
  have waits : ((a.telexCleared ch c resume).reboundSettled c dest).waiting c = kept.waits elsewhere := by
    rw [State.reboundSettled_waits, here, State.rebound_onAir, air]
  have home : ((a.telexCleared ch c resume).circuit c).channel = ch := by
    rw [record, if_pos rfl]
    exact own
  have placed : ∀ j, ((a.telexCleared ch c resume).reboundSettled c dest).channel j =
      { (a.telexCleared ch c resume).channel j with
        bound := (if ch = j then ((a.telexCleared ch c resume).channel j).bound.erase c
          else ((a.telexCleared ch c resume).channel j).bound) ++ if dest = j then [c] else [] } := fun j => by
    rw [State.reboundSettled_channel, State.rebound_channel, home]
  have reached : ∀ j, bound j = (if j = ch then (s.channel j).bound.erase c else (s.channel j).bound) ++
      if j = dest then [c] else [] := fun j => by
    simp [bound, notFreed, x, moved, there]
  obtain ⟨-, -, -, moves⟩ := State.applyMove_frame (a.telexCleared ch c resume) c dest
  have keeps : (a.telexCleared ch c resume).Moves ((a.telexCleared ch c resume).applyMove c dest) :=
    State.Moves.refl.applyMove c dest
  refine ⟨fun key e before => keeps.reports (State.telexCleared_reports beside before), fun isFreed => ?_,
    fun _ _ => moves, (a.telexCleared ch c resume).reboundSettled c dest, ?_, ?_, fun d other => ?_, ?_, ?_, ?_,
    fun j other => ?_, ite_prop_iff_or.mpr ?_⟩
  · rw [notFreed] at isFreed
    cases isFreed
  · rw [State.reboundSettled, State.updateWait_eq, State.rebound, State.unbind, State.bindTail,
      State.telexCleared_only beside]
    rfl
  · rw [if_neg (by simp [notFreed]), State.reboundSettled_circuit, here, State.rebound_onAir, air, now]
  · rw [State.reboundSettled, State.updateWait_eq, State.circuit_setCircuit, if_neg other.symm]
    have apart : ((a.telexCleared ch c resume).rebound c dest).circuit d = (a.telexCleared ch c resume).circuit d :=
      (State.circuit_setCircuit _ c d _).trans (if_neg other.symm)
    rw [apart, record, if_neg other.symm]
  · rw [placed, reached, channel, if_pos rfl, if_pos rfl, if_pos rfl]
    simp only [beside.bound, eq_comm]
  · rw [placed, channel, if_pos rfl]
    exact beside.queue
  · rw [placed, channel, if_pos rfl]
    exact beside.profile
  · rw [placed, reached, channel, if_neg other.symm, if_neg other.symm, if_neg other, beside.others j other]
    simp only [eq_comm]
  · cases going : kept.waits elsewhere with
    | false => exact .inr ⟨by simp, State.applyMove_of_off _ c dest (waits.trans going)⟩
    | true =>
      by_cases same : dest = ch
      · refine .inr ⟨by simp [there, same], State.consulted_of_still
          (State.applyMove_consulted _ c dest (waits.trans going)) (.inl ?_)⟩
        rw [placed, same, channel, if_pos rfl]
        exact beside.state ▸ deaf.not_idle
      · refine .inl ⟨⟨notFreed, by rw [there]; exact same, rfl⟩, ?_⟩
        rw [there]
        exact State.applyMove_consulted _ c dest (waits.trans going)

/-- The end of a telex turn, as its statement has it (05: R87). -/
theorem State.telexEnded_of_turnEnd (deaf : (s.channel ch).deaf) :
    s.telexEnded ch c resume ((a.telexCleared ch c resume).circuitTurnEnd c) := by
  have record : (a.telexCleared ch c resume).circuit c = { s.circuit c with resume := resume } :=
    (State.telexCleared_circuit beside c).trans (if_pos rfl)
  unfold State.circuitTurnEnd
  rw [record]
  by_cases freed : (s.circuit c).life = .closing ∧ (s.circuit c).count = 0
  · rw [if_pos (by exact freed)]
    exact State.telexEnded_of_freed beside own freed
  · rw [if_neg (by exact freed)]
    cases moved : (s.circuit c).movePending with
    | none => exact State.telexEnded_of_stays beside own freed moved deaf
    | some dest => exact State.telexEnded_of_moves beside own freed moved deaf

end

end Sys2Proof.Machine
end

section
/-! PROOFS. The end of a pass (02: R24, R25, R35 to R37; 03: R47; 08: R148, R150; 09: R160). -/

namespace Sys2Proof.Machine

/-! ## The outcome of a pass (02: R24) -/

/-- The event that an outcome has in its bulletin's notice. -/
def PassOutcome.event : PassOutcome → Option NoticeEvent
  | .completed => some .completed
  | .abandoned => some .abandoned
  | .interrupted => some .interrupted
  | .withdrawn => none
  | .aborted => some .missed

/-- The outcome of a pass that ends without a cut in progress. -/
def Ending.plain : Ending → NoticeEvent
  | .own => .completed
  | .broken _ => .interrupted
  | .stopped .abort => .missed
  | .stopped .permit | .stopped .silence => .interrupted

theorem PassTurn.outcome_event_of_cut (p : PassTurn) {t : Turn} {r : CutReason} (cut : t.cutInProgress = some r)
    (without : NoticeEvent) : (p.outcome (.broken r)).event = t.outcomeOf p without := by
  unfold PassTurn.outcome Turn.outcomeOf
  rw [cut]
  cases p.abandoned <;> cases r <;> rfl

theorem PassTurn.outcome_event_of_none (p : PassTurn) {t : Turn} {e : Ending} (uncut : t.cutInProgress = none)
    (plain : ∀ r, e ≠ .broken r) : (p.outcome e).event = t.outcomeOf p e.plain := by
  unfold PassTurn.outcome Turn.outcomeOf
  rw [uncut]
  cases e with
  | own => cases p.abandoned <;> rfl
  | broken r => exact absurd rfl (plain r)
  | stopped r => cases p.abandoned <;> cases r <;> rfl

theorem PassTurn.outcome_stopEnding (p : PassTurn) (t : Turn) (r : StopReason) :
    (p.outcome (t.stopEnding r)).event = t.outcomeOf p (Ending.stopped r).plain := by
  unfold Turn.stopEnding
  cases cut : t.cutInProgress with
  | some c => exact p.outcome_event_of_cut cut _
  | none => exact p.outcome_event_of_none cut nofun

theorem PassTurn.outcome_naturalEnding (p : PassTurn) (t : Turn) :
    (p.outcome t.naturalEnding).event = t.outcomeOf p .completed := by
  unfold Turn.naturalEnding
  cases cut : t.cutInProgress with
  | some c => exact p.outcome_event_of_cut cut _
  | none => exact p.outcome_event_of_none (e := .own) cut nofun

theorem Bulletin.account_eq (b : Bulletin) (o : PassOutcome) : b.account o = b.countedFor o.event := by
  cases o <;> simp [Bulletin.account, Bulletin.countedFor, PassOutcome.event, saturate, Config.counterMax]

theorem PassTurn.requeue_eq (s : State) (p : PassTurn) (o : PassOutcome) (q : List Entry) :
    p.requeue (s.isReleased p.bulletin) o q = s.queueAfterPass p o.event q := by
  unfold PassTurn.requeue State.queueAfterPass State.isReleased
  cases released : (s.bulletin p.bulletin).any fun b => decide (b.state = .released) with
  | false => rfl
  | true =>
    cases o with
    | completed => simp [PassOutcome.event, PassTurn.entry, Nat.lt_iff_add_one_le]
    | interrupted => simp [PassOutcome.event, PassTurn.entry, saturate, Config.runMax]
    | abandoned => rfl
    | withdrawn => rfl
    | aborted => rfl

/-! ## Notices (11: R180) -/

theorem State.raise_notice (s : State) (key : NoticeKey) (e : Option NoticeEvent) (a : Counts) :
    ∃ x ∈ (s.raise key e a).notices, x.key = key := by
  have raised : ∀ es : List NoticeEntry, ∃ x ∈ raiseInto es key e a, x.key = key := fun es => by
    induction es with
    | nil => exact ⟨_, List.mem_cons_self, rfl⟩
    | cons z zs ih =>
      unfold raiseInto
      split
      · next same => exact ⟨_, List.mem_cons_self, same⟩
      · obtain ⟨x, mem, named⟩ := ih
        exact ⟨x, List.mem_cons_of_mem _ mem, named⟩
  exact raised s.notices

theorem State.raiseOutcome_only (s : State) (n : Fin 64) (o : PassOutcome) :
    ∃ notices, s.raiseOutcome n o = { s with notices := notices } := by
  cases o with
  | withdrawn => exact ⟨s.notices, rfl⟩
  | completed | abandoned | interrupted | aborted => exact ⟨_, rfl⟩

theorem State.raiseOutcome_reports (s : State) (n : Fin 64) (o : PassOutcome) {e : NoticeEvent} (h : o.event = some e) :
    (s.raiseOutcome n o).reports (.bulletin n) e := by
  have raised : ∀ add, (s.raise (.bulletin n) (some e) add).reports (.bulletin n) e := fun add => by
    obtain ⟨y, mem, key, event⟩ := raiseInto_has s.notices (.bulletin n) e add
    exact ⟨y, mem, key, event⟩
  cases o with
  | withdrawn => cases h
  | completed | abandoned | interrupted | aborted =>
    cases h
    exact raised _

/-! ## An entry that becomes EMPTY (02: R37) -/

/-- The bulletin's entry has become EMPTY, and its blocks are at the tail of the free list, with their report. -/
structure State.Emptied (s : State) (n : Fin 64) (blocks : List BlockNo) (u : State) : Prop where
  only : u = { s with store := u.store, bulletins := u.bulletins, circuits := u.circuits, notices := u.notices }
  store : u.store = { s.store with free := s.store.free ++ blocks }
  bulletin (i : Fin 64) : u.bulletin i = if n = i then none else s.bulletin i
  circuit (d : Fin 32) : u.circuit d = { s.circuit d with flow := (u.circuit d).flow }
  returned (d : Fin 32) : s.returnReported blocks d u
  reports {key : NoticeKey} {e : NoticeEvent} : s.reports key e → u.reports key e

theorem State.emptyEntry_emptied (s : State) (n : Fin 64) (b : Bulletin) : s.Emptied n b.allBlocks (s.emptyEntry n b) := by
  obtain ⟨circuits, notices, only⟩ := State.returnAndReport_only (s.setBulletin n none) b.allBlocks
  have reached := State.returnAndReport_circuits (s := s) (t := s.setBulletin n none) rfl b.allBlocks
  refine ⟨?_, ?_, fun i => ?_, fun d => (reached d).1, fun d => (reached d).2, fun before => ?_⟩
  · rw [State.emptyEntry, only]
    rfl
  · rw [State.emptyEntry, only]
    rfl
  · rw [State.emptyEntry, bulletin_returnAndReport, State.bulletin_setBulletin]
  · exact State.returnAndReport_keeps (s.setBulletin n none) b.allBlocks before

theorem State.Emptied.raise {s u : State} {n : Fin 64} {blocks : List BlockNo} (h : s.Emptied n blocks u)
    (key : NoticeKey) (e : Option NoticeEvent) (a : Counts) : s.Emptied n blocks (u.raise key e a) := by
  refine ⟨?_, h.store, h.bulletin, h.circuit, fun d => ?_, fun before => State.reports_raise (h.reports before) key e a⟩
  · rw [h.only]
    rfl
  · exact State.returnReported_of (h.returned d) rfl rfl fun resumed => State.reports_raise resumed key e a

theorem State.Emptied.channel {s u : State} {n : Fin 64} {blocks : List BlockNo} (h : s.Emptied n blocks u) (j : Fin 8) :
    u.channel j = s.channel j := by
  rw [h.only]
  rfl

section

variable {s : State} {n : Fin 64} {b : Bulletin} (present : s.bulletin n = some b)

include present

/-- The retirement test passes over a bulletin that some of the three conditions spares (02: R36). -/
theorem State.retirementTest_of_stays (stays : s.retires n b = false) : s.retirementTest n = s := by
  rw [State.retirementTest, present]
  simp [stays]

theorem State.retirementTest_of_retires (retires : s.retires n b = true) :
    s.Emptied n b.allBlocks (s.retirementTest n) ∧ (s.retirementTest n).reports (.bulletin n) .retired := by
  have tests : s.retirementTest n = (s.emptyEntry n b).raiseEvent (.bulletin n) .retired := by
    rw [State.retirementTest, present]
    simp [retires]
  rw [tests]
  exact ⟨(State.emptyEntry_emptied s n b).raise _ _ _, State.reports_raiseEvent _ _ _⟩

end

/-- The three conditions of retirement, the queues asked last (02: R36). -/
theorem State.retires_iff (s : State) (n : Fin 64) (b : Bulletin) : s.retires n b = true ↔
    b.state = .released ∧ b.schedule.limit = some 0 ∧ b.onAir = 0 ∧ ∀ j, (s.channel j).holdsEntry n = false := by
  simp [State.retires, allChannels, and_assoc]

end Sys2Proof.Machine
end

section
/-! PROOFS. The account of a pass and what its end brings about (02: R25; 03: R47). -/

namespace Sys2Proof.Machine

/-- The descriptor once a pass of it has ended. -/
def Bulletin.passLeft (b : Bulletin) (o : Option NoticeEvent) : Bulletin := { b.countedFor o with onAir := b.onAir - 1 }

/-- The state once a pass is accounted: its entry put back or dropped, its event raised, the on-air count one lower, and
the turn record of its channel clear. -/
structure State.PassAccounted (s : State) (ch : Fin 8) (p : PassTurn) (o : Option NoticeEvent) (b : Bulletin) (w : State) :
    Prop where
  only : w = { s with bulletins := w.bulletins, channels := w.channels, notices := w.notices }
  bulletin (i : Fin 64) : w.bulletin i = if p.bulletin = i then some (b.passLeft o) else s.bulletin i
  others (j : Fin 8) : j ≠ ch → w.channel j = s.channel j
  queue : (w.channel ch).queue = s.queueAfterPass p o (s.channel ch).queue
  bound : (w.channel ch).bound = (s.channel ch).bound
  profile : (w.channel ch).profile = (s.channel ch).profile
  turn : (w.channel ch).turn = none
  deaf : (w.channel ch).deaf
  reports {key : NoticeKey} {e : NoticeEvent} : s.reports key e → w.reports key e
  event {e : NoticeEvent} : o = some e → w.reports (.bulletin p.bulletin) e

section

variable {s w : State} {ch : Fin 8} {p : PassTurn} {o : Option NoticeEvent} {b : Bulletin}

/-- The test of the statement, made before the entry is put back, is the retirement test at the accounted state. -/
theorem State.PassAccounted.retires (h : s.PassAccounted ch p o b w) :
    (s.retiresWithout ch p.bulletin (b.passLeft o) &&
      !(s.queueAfterPass p o (s.channel ch).queue).any fun e => decide (e.bulletin = p.bulletin)) =
      w.retires p.bulletin (b.passLeft o) := by
  rw [Bool.eq_iff_iff, State.retires_iff, Bool.and_eq_true, ← h.queue, Bool.not_eq_true']
  simp only [State.retiresWithout, Bool.and_eq_true, decide_eq_true_eq, List.all_eq_true, Bool.or_eq_true,
    Bool.not_eq_true', and_assoc]
  refine and_congr_right fun _ => and_congr_right fun _ => and_congr_right fun _ => ?_
  constructor
  · rintro ⟨others, own⟩ j
    by_cases here : j = ch
    · exact here ▸ own
    · rw [h.others j here]
      exact (others j (List.mem_finRange j)).resolve_left here
  · refine fun none => ⟨fun j _ => ?_, none ch⟩
    by_cases here : j = ch
    · exact .inl here
    · exact .inr (h.others j here ▸ none j)

theorem State.PassAccounted.circuit (h : s.PassAccounted ch p o b w) (d : Fin 32) : w.circuit d = s.circuit d := by
  rw [h.only]
  rfl

/-- What the end of the pass leaves of the rest of the state, and keeps of the channels. -/
structure State.PassAfter (s w v : State) : Prop where
  only : v = { s with
    store := v.store, bulletins := v.bulletins, circuits := v.circuits, channels := v.channels, notices := v.notices }
  reports {key : NoticeKey} {e : NoticeEvent} : w.reports key e → v.reports key e

variable {v : State} (present : s.bulletin p.bulletin = some b)

include present

/-- The end of a pass without a commit, by whether the entry becomes EMPTY. -/
theorem State.passEnded_of_unstaged (h : s.PassAccounted ch p o b w) (after : s.PassAfter w v)
    (channels : v.channels = w.channels) {gone : Bool}
    (unstaged : (if (b.passLeft o).onAir = 0 ∧ b.state = .released ∧ b.commitPending = true then b.staged else none) = none)
    (isGone : (w.retires p.bulletin (b.passLeft o) || decide ((b.passLeft o).onAir = 0 ∧ b.state = .withdrawing)) = gone)
    (retired : w.retires p.bulletin (b.passLeft o) = true → v.reports (.bulletin p.bulletin) .retired)
    (noticed : gone = true → ∃ e ∈ v.notices, e.key = .bulletin p.bulletin)
    (bulletin : ∀ i, v.bulletin i =
      if p.bulletin = i then (if gone = true then none else some (b.passLeft o)) else s.bulletin i)
    (store : v.store = { s.store with free := s.store.free ++ if gone = true then (b.passLeft o).allBlocks else [] })
    (circuits : ∀ d, v.circuit d = { s.circuit d with flow := (v.circuit d).flow } ∧
      s.returnReported (if gone = true then (b.passLeft o).allBlocks else []) d v) : s.passEnded ch p o v := by
  have channel : ∀ j, v.channel j = w.channel j := fun j => by rw [State.channel, channels, State.channel]
  rw [← h.retires] at isGone retired
  unfold State.passEnded
  refine ⟨fun _ _ before => after.reports (h.reports before), after.only, by rw [channel, h.queue],
    by rw [channel, h.bound], by rw [channel, h.profile], ?_⟩
  rw [present]
  dsimp only
  refine ⟨fun e outcome => after.reports (h.event outcome), retired, ?_⟩
  rw [show (if b.onAir - 1 = 0 ∧ b.state = .released ∧ b.commitPending = true then b.staged else none) = none from unstaged]
  dsimp only
  rw [show (s.retiresWithout ch p.bulletin { b.countedFor o with onAir := b.onAir - 1 } &&
    !(s.queueAfterPass p o (s.channel ch).queue).any (fun e => decide (e.bulletin = p.bulletin)) ||
    decide (b.onAir - 1 = 0 ∧ b.state = .withdrawing)) = gone from isGone]
  refine ⟨noticed, (bulletin _).trans (if_pos rfl), fun i other => (bulletin i).trans (if_neg other.symm), store,
    circuits, fun j other => (channel j).trans (h.others j other)⟩

/-- A pass whose bulletin then stands as it is. -/
theorem State.passEnded_of_stands (h : s.PassAccounted ch p o b w)
    (unstaged : (if (b.passLeft o).onAir = 0 ∧ b.state = .released ∧ b.commitPending = true then b.staged else none) = none)
    (stays : w.retires p.bulletin (b.passLeft o) = false)
    (unfinished : ¬ ((b.passLeft o).onAir = 0 ∧ b.state = .withdrawing)) : s.passEnded ch p o w := by
  refine State.passEnded_of_unstaged (gone := false) present h ⟨by rw [h.only], id⟩ rfl unstaged ?_ ?_ nofun h.bulletin
    ?_ fun d => ⟨?_, ?_⟩
  · rw [stays, decide_eq_false unfinished]
    rfl
  · rw [stays]
    nofun
  · rw [h.only]
    simp
  · rw [h.circuit]
  · rw [State.returnReported, if_neg (by simp), h.circuit]

/-- A pass whose bulletin's entry becomes EMPTY. -/
theorem State.passEnded_of_gone (h : s.PassAccounted ch p o b w) (emptied : w.Emptied p.bulletin (b.passLeft o).allBlocks v)
    (unstaged : (if (b.passLeft o).onAir = 0 ∧ b.state = .released ∧ b.commitPending = true then b.staged else none) = none)
    (isGone : (w.retires p.bulletin (b.passLeft o) ||
      decide ((b.passLeft o).onAir = 0 ∧ b.state = .withdrawing)) = true)
    (retired : w.retires p.bulletin (b.passLeft o) = true → v.reports (.bulletin p.bulletin) .retired)
    (noticed : ∃ e ∈ v.notices, e.key = .bulletin p.bulletin) : s.passEnded ch p o v := by
  refine State.passEnded_of_unstaged (gone := true) present h ⟨by rw [emptied.only, h.only], emptied.reports⟩
    (by rw [emptied.only]) unstaged isGone retired (fun _ => noticed) (fun i => ?_) ?_ fun d => ⟨?_, ?_⟩
  · rw [emptied.bulletin, h.bulletin]
    split <;> rfl
  · rw [emptied.store, h.only]
    rfl
  · rw [emptied.circuit d, h.circuit]
  · exact State.returnReported_of (emptied.returned d) (h.circuit d).symm rfl id

end

end Sys2Proof.Machine
end

section
/-! PROOFS. The commit that the end of the last pass brings about (02: R25; 03: R47, R50). -/

namespace Sys2Proof.Machine

/-! ## Two block return reports in a row (01: R18) -/

/-- A report that follows another one finds flowing what the first has resumed. -/
theorem State.returnReported_append {s w v : State} {d : Fin 32} {xs ys : List BlockNo} (first : s.returnReported xs d w)
    (last : w.returnReported ys d v) (count : (w.circuit d).count = (s.circuit d).count)
    (keeps : w.reports (.circuit d) .resume → v.reports (.circuit d) .resume) : s.returnReported (xs ++ ys) d v := by
  unfold State.returnReported at first last ⊢
  rw [count] at last
  by_cases paused : (s.circuit d).flow = .pausedStore ∧ (s.circuit d).count ≤ 128
  · by_cases some : xs = []
    · subst some
      rw [if_neg (by simp)] at first
      rw [first] at last
      simpa using last
    · rw [if_pos ⟨some, paused⟩] at first
      rw [if_neg (by simp [first.1])] at last
      rw [if_pos ⟨by simp [some], paused⟩]
      exact ⟨last.trans first.1, keeps first.2⟩
  · rw [if_neg fun resumes => paused resumes.2] at first ⊢
    rw [first, if_neg fun resumes => paused resumes.2] at last
    exact last

/-! ## What telling the holders of a bulletin leaves of its entries -/

/-- The bulletin is on a channel's air, or a queue holds an entry of it. -/
def State.spares (s : State) (n : Fin 64) : Prop :=
  (∃ b, s.bulletin n = some b ∧ b.onAir ≠ 0) ∨ ∃ j, (s.channel j).holdsEntry n = true

theorem State.spares_of {s t : State} {n : Fin 64} (h : s.spares n) (bulletin : t.bulletin n = s.bulletin n)
    (queue : ∀ j, (t.channel j).queue = (s.channel j).queue) : t.spares n := by
  refine h.imp (fun ⟨b, present, air⟩ => ⟨b, bulletin.trans present, air⟩) fun ⟨j, held⟩ => ⟨j, ?_⟩
  rw [Channel.holdsEntry, queue, ← Channel.holdsEntry]
  exact held

theorem State.not_retires_of_spares {s : State} {n : Fin 64} {b : Bulletin} (h : s.spares n)
    (present : s.bulletin n = some b) : s.retires n b = false := by
  rw [Bool.eq_false_iff]
  intro retires
  obtain ⟨-, -, offAir, none⟩ := (State.retires_iff s n b).mp retires
  rcases h with ⟨b', same, air⟩ | ⟨j, held⟩
  · rw [present] at same
    cases same
    exact air offAir
  · rw [none j] at held
    cases held

theorem State.setChannel_queue {s : State} {ch : Fin 8} {x : Channel} (same : x.queue = (s.channel ch).queue) (j : Fin 8) :
    ((s.setChannel ch x).channel j).queue = (s.channel j).queue := by
  rw [State.channel_setChannel]
  split
  · next here => rw [same, here]
  · rfl

/-- The entry that a pass takes out of a queue is on the air. -/
theorem State.spares_turnStarted {s u : State} {ch : Fin 8} {phase : Phase} {choice : Choice} {n : Fin 64} (h : s.spares n)
    (started : s.turnStarted ch phase choice u) : u.spares n := by
  match choice, started with
  | .circuit c, same =>
    rw [show u = _ from same]
    exact State.spares_of h rfl (State.setChannel_queue (s := s) (ch := ch) rfl)
  | .entry e, ⟨b, present, same⟩ =>
    rw [same]
    by_cases own : e.bulletin = n
    · exact .inl ⟨_, (State.bulletin_setBulletin _ _ _ _).trans (if_pos own), Nat.succ_ne_zero _⟩
    · refine h.imp (fun ⟨b', present', air⟩ => ⟨b', ?_, air⟩) fun ⟨j, held⟩ => ⟨j, ?_⟩
      · rw [State.bulletin_setBulletin, if_neg own]
        exact present'
      · rw [State.setBulletin_channel, State.channel_setChannel]
        split
        · next here =>
          rw [← here] at held
          obtain ⟨y, mem, named⟩ := List.any_eq_true.mp held
          have other : ¬ decide (y.bulletin = e.bulletin) = true := by
            rw [of_decide_eq_true named, decide_eq_true_eq]
            exact Ne.symm own
          exact List.any_eq_true.mpr ⟨y, (List.mem_eraseP_of_neg (p := fun y => decide (y.bulletin = e.bulletin)) other).mpr mem, named⟩
        · exact held

theorem State.spares_consulted {s u : State} {ch : Fin 8} {n : Fin 64} (h : s.spares n) (consulted : s.consulted ch u) :
    u.spares n := by
  unfold State.consulted at consulted
  dsimp only at consulted
  split_ifs at consulted with still absent
  · rw [consulted]
    exact h
  · rw [consulted]
    exact State.spares_of h rfl (State.setChannel_queue rfl)
  · refine State.spares_turnStarted (State.spares_of (t := s.setChannel ch
      { s.channel ch with state := .keyed, keyreq := true, permitTimer := none }) h rfl ?_) consulted
    exact State.setChannel_queue rfl

theorem State.spares_tellEntryOf {s : State} {n : Fin 64} (h : s.spares n) (i : Fin 64) (ch : Fin 8) :
    (s.tellEntryOf i ch).spares n := by
  rcases State.tellEntryOf_cases s i ch with same | ⟨e, -, -, same⟩
  · exact same.symm ▸ h
  · rw [same]
    by_cases idle : (s.channel ch).state = .idle
    · rw [State.tellEntry_of_idle s ch _ idle]
      exact State.spares_consulted h (s.tellIdle_consulted ch)
    · by_cases keyed : (s.channel ch).state = .keyed
      · rw [State.tellEntry_of_keyed s ch _ keyed]
        exact State.spares_of h rfl (State.setChannel_queue rfl)
      · rw [State.tellEntry_of_deaf s ch _ idle keyed]
        exact h

theorem State.spares_tellHolders {s : State} {n : Fin 64} (h : s.spares n) (i : Fin 64) : (s.tellHolders i).spares n := by
  have folds : ∀ (l : List (Fin 8)) (t : State), t.spares n → (l.foldl (fun s ch => s.tellEntryOf i ch) t).spares n := fun l => by
    induction l with
    | nil => exact fun _ h => h
    | cons ch l ih => exact fun t h => ih _ (State.spares_tellEntryOf h i ch)
  exact folds _ s h

/-- No channel holds an entry: none is told. -/
theorem State.tellHolders_of_absent {s : State} {n : Fin 64} (absent : ∀ j, (s.channel j).holdsEntry n = false) :
    s.tellHolders n = s := by
  have folds : ∀ l : List (Fin 8), l.foldl (fun s ch => s.tellEntryOf n ch) s = s := fun l => by
    induction l with
    | nil => rfl
    | cons ch l ih => rw [List.foldl_cons, State.tellEntryOf_of_absent (absent ch), ih]
  exact folds _

/-- A channel without a turn that is on the air has nothing to be told. -/
theorem State.tellEntryOf_of_deaf {s : State} {n : Fin 64} {ch : Fin 8} (deaf : (s.channel ch).deaf)
    (turn : (s.channel ch).turn = none) : s.tellEntryOf n ch = s := by
  rcases State.tellEntryOf_cases s n ch with same | ⟨e, -, -, same⟩
  · exact same
  · rw [same]
    rcases deaf with keyed | stopping
    · rw [State.tellEntry_of_keyed s ch _ keyed, turn, Option.map_none, ← turn]
      exact State.setChannel_channel s ch
    · exact State.tellEntry_of_deaf s ch _ (by simp [stopping]) (by simp [stopping])

theorem State.tellHolders_of_deaf {s : State} {n : Fin 64} {ch : Fin 8} (deaf : (s.channel ch).deaf)
    (turn : (s.channel ch).turn = none) : (s.tellHolders n).channel ch = s.channel ch := by
  obtain ⟨t, -, before, after⟩ := ((State.foldl_told (fun s => State.tellEntryOf_told s n)
    (fun s ch _ => State.tellEntryOf_other s n ch) (l := allChannels) (List.nodup_finRange 8) s).2 ch).2
    (List.mem_finRange ch)
  rw [← before] at deaf turn
  exact after.trans ((congrArg (State.channel · ch) (State.tellEntryOf_of_deaf deaf turn)).trans before)

end Sys2Proof.Machine
end

section
/-! PROOFS. The end of a pass, whatever it brings about (02: R24, R25, R35 to R37; 03: R47, R50; 08: R148). -/

namespace Sys2Proof.Machine

section

variable {s w v : State} {ch : Fin 8} {p : PassTurn} {o : Option NoticeEvent} {b : Bulletin} {m : TextMap}

theorem State.PassAfter.of_moves (h : s.PassAccounted ch p o b w) (moves : w.Moves v) : s.PassAfter w v := by
  refine ⟨?_, moves.reports⟩
  rw [moves.only, h.only]

theorem Circuit.count_of_flow {x y : Circuit} {f : Flow} (h : x = { y with flow := f }) : x.count = y.count := by
  rw [h]
  rfl

theorem State.PassAccounted.store (h : s.PassAccounted ch p o b w) : w.store = s.store := by
  rw [h.only]

/-! ## The commit at the end of the last pass -/

section

variable (present : s.bulletin p.bulletin = some b) (h : s.PassAccounted ch p o b w)

include present h

/-- The end of a pass with a commit, by whether the committed bulletin retires. -/
theorem State.passEnded_of_staged (after : s.PassAfter w v) (own : v.channel ch = w.channel ch) {gone : Bool}
    (staged : (if (b.passLeft o).onAir = 0 ∧ b.state = .released ∧ b.commitPending = true then b.staged else none) = some m)
    (isGone : w.retires p.bulletin (b.passLeft o) = gone)
    (retired : gone = true → v.reports (.bulletin p.bulletin) .retired)
    (committed : v.reports (.bulletin p.bulletin) .committed)
    (store : v.store = { s.store with
      free := s.store.free ++ (b.current.blockNumbers ++ if gone = true then m.blockNumbers else []) })
    (returned : b.current.blockNumbers ≠ [] →
      ∀ d, s.returnReported (b.current.blockNumbers ++ if gone = true then m.blockNumbers else []) d v)
    (others : ∀ i, i ≠ p.bulletin → (v.bulletin i).isSome = (s.bulletin i).isSome)
    (bulletin : if gone = true then v.bulletin p.bulletin = none
      else ∃ k, v.bulletin p.bulletin = some { (b.passLeft o).committed m with onAir := k })
    (told : ∀ j, j ≠ ch → s.entryTold p.bulletin j v ∧
      ((s.channel j).holdsEntry p.bulletin = false → v.channel j = s.channel j)) : s.passEnded ch p o v := by
  rw [← h.retires] at isGone
  unfold State.passEnded
  refine ⟨fun _ _ before => after.reports (h.reports before), after.only, by rw [own, h.queue], by rw [own, h.bound],
    by rw [own, h.profile], ?_⟩
  rw [present]
  dsimp only
  rw [show (s.retiresWithout ch p.bulletin { b.countedFor o with onAir := b.onAir - 1 } &&
    !(s.queueAfterPass p o (s.channel ch).queue).any (fun e => decide (e.bulletin = p.bulletin))) = gone from isGone]
  refine ⟨fun e outcome => after.reports (h.event outcome), retired, ?_⟩
  rw [show (if b.onAir - 1 = 0 ∧ b.state = .released ∧ b.commitPending = true then b.staged else none) = some m from staged]
  exact ⟨committed, store, returned, others, bulletin, told⟩

omit present in
theorem State.PassAccounted.entryTold_of_absent {j : Fin 8} (absent : (w.channel j).holdsEntry p.bulletin = false)
    (other : j ≠ ch) : s.entryTold p.bulletin j v := by
  rw [h.others j other] at absent
  intro e found
  rw [Channel.holdsEntry_of_found found] at absent
  cases absent

/-- The bulletin of a commit retires: no channel holds an entry of it that would have to be told. -/
theorem State.passEnded_of_commit_retired
    (staged : (if (b.passLeft o).onAir = 0 ∧ b.state = .released ∧ b.commitPending = true then b.staged else none) = some m)
    (retires : w.retires p.bulletin (b.passLeft o) = true) :
    s.passEnded ch p o ((w.commit p.bulletin (b.passLeft o) m).retirementTest p.bulletin) := by
  obtain ⟨released, limit, offAir, absent⟩ := (State.retires_iff _ _ _).mp retires
  obtain ⟨bulletin, store, channels, -, -, committed⟩ := State.committing_reported w p.bulletin (b.passLeft o) m
  have moves : w.Moves ((w.commit p.bulletin (b.passLeft o) m).retirementTest p.bulletin) :=
    (State.Moves.refl.commit _ _ _).retirementTest _
  have channel : ∀ j, (w.committing p.bulletin (b.passLeft o) m).returnReport.channel j = w.channel j := fun j => by
    rw [State.channel, channels, State.channel]
  have same : w.commit p.bulletin (b.passLeft o) m = (w.committing p.bulletin (b.passLeft o) m).returnReport := by
    rw [State.commit_eq, State.tellHolders_of_absent fun j => (channel j).symm ▸ absent j, ite_self]
  have test : (w.committing p.bulletin (b.passLeft o) m).returnReport.retires p.bulletin
      ((b.passLeft o).committed m) = true :=
    (State.retires_iff _ _ _).mpr ⟨released, limit, offAir, fun j => (channel j).symm ▸ absent j⟩
  obtain ⟨emptied, retired⟩ := State.retirementTest_of_retires ((bulletin p.bulletin).trans (if_pos rfl)) test
  rw [same] at moves ⊢
  have after : ∀ j, ((w.committing p.bulletin (b.passLeft o) m).returnReport.retirementTest p.bulletin).channel j =
      w.channel j := fun j => (emptied.channel j).trans (channel j)
  have blocks : ((b.passLeft o).committed m).allBlocks = m.blockNumbers := List.append_nil _
  refine State.passEnded_of_staged (gone := true) present h (.of_moves h moves) (after ch) staged retires (fun _ => retired)
    (emptied.reports committed) ?_ (fun some d => ?_) (fun i other => ?_) ?_ fun j other => ⟨?_, fun _ => ?_⟩
  · rw [emptied.store, store, blocks, h.store, if_pos rfl, ← List.append_assoc]
    rfl
  · have first := State.committing_returned w p.bulletin (b.passLeft o) m some d
    have last := emptied.returned d
    rw [blocks] at last
    have both := State.returnReported_append first last (Circuit.count_of_flow (State.committing_circuit w _ _ _ d)) emptied.reports
    exact State.returnReported_of both (h.circuit d).symm rfl id
  · rw [emptied.bulletin, if_neg other.symm, bulletin, if_neg other.symm, h.bulletin, if_neg other.symm]
  · rw [if_pos rfl, emptied.bulletin, if_pos rfl]
  · exact h.entryTold_of_absent (absent j) other
  · rw [after, h.others j other]

/-- The bulletin of a commit stays, and every other channel that holds an entry of it is told. -/
theorem State.passEnded_of_commit_stays
    (staged : (if (b.passLeft o).onAir = 0 ∧ b.state = .released ∧ b.commitPending = true then b.staged else none) = some m)
    (stays : w.retires p.bulletin (b.passLeft o) = false) :
    s.passEnded ch p o ((w.commit p.bulletin (b.passLeft o) m).retirementTest p.bulletin) := by
  obtain ⟨offAir, released, pending⟩ : (b.passLeft o).onAir = 0 ∧ b.state = .released ∧ b.commitPending = true := by
    by_contra none
    rw [if_neg none] at staged
    cases staged
  obtain ⟨bulletin, store, channels, -, -, committed⟩ := State.committing_reported w p.bulletin (b.passLeft o) m
  have present' : (w.committing p.bulletin (b.passLeft o) m).returnReport.bulletin p.bulletin =
      some ((b.passLeft o).committed m) := (bulletin p.bulletin).trans (if_pos rfl)
  have channel : ∀ j, (w.committing p.bulletin (b.passLeft o) m).returnReport.channel j = w.channel j := fun j => by
    rw [State.channel, channels, State.channel]
  have told := State.tellHolders_told (w.committing p.bulletin (b.passLeft o) m).returnReport p.bulletin
  have moves : w.Moves (w.commit p.bulletin (b.passLeft o) m) := State.Moves.refl.commit _ _ _
  have commits : w.commit p.bulletin (b.passLeft o) m =
      (w.committing p.bulletin (b.passLeft o) m).returnReport.tellHolders p.bulletin :=
    (State.commit_eq w _ _ _).trans (if_pos pending)
  obtain ⟨k, left⟩ := told.bulletin p.bulletin
  rw [present', Option.map_some] at left
  have silence : ∀ j, (w.committing p.bulletin (b.passLeft o) m).returnReport.silenced j = w.silenced j := fun j => by
    obtain ⟨_, _, same⟩ := State.returnReport_only (w.committing p.bulletin (b.passLeft o) m)
    rw [State.silenced, channel, State.silenced, same]
    rfl
  have spared : ((w.committing p.bulletin (b.passLeft o) m).returnReport.tellHolders p.bulletin).retires p.bulletin
      { (b.passLeft o).committed m with onAir := k } = false := by
    by_cases limit : b.schedule.limit = some 0
    · refine State.not_retires_of_spares (State.spares_tellHolders (.inr ?_) _) left
      by_contra absent
      refine Bool.eq_false_iff.mp stays ((State.retires_iff _ _ _).mpr ⟨released, limit, offAir, fun j => ?_⟩)
      rw [← channel j]
      exact Bool.eq_false_iff.mpr fun held => absent ⟨j, held⟩
    · exact Bool.eq_false_iff.mpr fun retires => limit ((State.retires_iff _ _ _).mp retires).2.1
  rw [commits] at moves
  rw [commits, State.retirementTest_of_stays left spared]
  refine State.passEnded_of_staged (gone := false) present h (.of_moves h moves) ?_ staged stays nofun
    (told.reports committed) ?_ (fun some d => ?_) (fun i other => ?_) ⟨k, left⟩ fun j other => ?_
  · have deaf := h.deaf
    have turn := h.turn
    rw [← channel ch] at deaf turn
    exact (State.tellHolders_of_deaf deaf turn).trans (channel ch)
  · rw [told.store, store, h.store]
    simp [Bulletin.passLeft, Bulletin.countedFor]
  · have first := State.committing_returned w p.bulletin (b.passLeft o) m some d
    rw [if_neg (by simp), List.append_nil]
    refine State.returnReported_of first (h.circuit d).symm ?_ told.reports
    rw [told.circuit]
  · rw [told.isSome, bulletin, if_neg other.symm, h.bulletin, if_neg other.symm]
  · obtain ⟨tells, keeps⟩ := State.tellHolders_entryTold present' released rfl j
    have before : (w.committing p.bulletin (b.passLeft o) m).returnReport.channel j = s.channel j :=
      (channel j).trans (h.others j other)
    rw [before] at keeps
    refine ⟨State.entryTold_of tells before ?_ rfl, keeps⟩
    rw [silence, State.silenced, h.others j other, State.silenced, h.only]

end

end

end Sys2Proof.Machine
end

section
/-! PROOFS. The end of a pass at the state a turn ends in (02: R24, R25; 08: R148, R150; 09: R160). -/

namespace Sys2Proof.Machine

theorem State.reports_notice {s : State} {key : NoticeKey} {e : NoticeEvent} (h : s.reports key e) :
    ∃ x ∈ s.notices, x.key = key := by
  obtain ⟨x, mem, named, -⟩ := h
  exact ⟨x, mem, named⟩

/-! ## What the last pass brings about (02: R25, R35) -/

section

variable {s w : State} {ch : Fin 8} {p : PassTurn} {o : Option NoticeEvent} {b : Bulletin}
  (present : s.bulletin p.bulletin = some b) (h : s.PassAccounted ch p o b w)

include present h

/-- Another pass of the bulletin is on the air. -/
theorem State.passEnded_of_onAir (onAir : (b.passLeft o).onAir ≠ 0) : s.passEnded ch p o w := by
  refine State.passEnded_of_stands present h (if_neg fun last => onAir last.1) (Bool.eq_false_iff.mpr fun retires => ?_)
    fun last => onAir last.1
  exact onAir ((State.retires_iff _ _ _).mp retires).2.2.1

/-- A WITHDRAWING bulletin has ended with its last pass. -/
theorem State.passEnded_of_withdrawing (offAir : (b.passLeft o).onAir = 0) (withdrawing : b.state = .withdrawing) :
    s.passEnded ch p o ((w.emptyEntry p.bulletin (b.passLeft o)).raise (.bulletin p.bulletin) none Counts.zero) := by
  have stays : w.retires p.bulletin (b.passLeft o) = false := Bool.eq_false_iff.mpr fun retires => by
    have released : b.state = .released := ((State.retires_iff _ _ _).mp retires).1
    rw [withdrawing] at released
    cases released
  refine State.passEnded_of_gone present h ((State.emptyEntry_emptied w _ _).raise _ _ _)
    (if_neg (by simp [withdrawing])) ?_ ?_ (State.raise_notice _ _ _ _)
  · rw [decide_eq_true ⟨offAir, withdrawing⟩, Bool.or_true]
  · rw [stays]
    nofun

/-- A bulletin without a commit to take is tested for retirement where it is RELEASED. -/
theorem State.passEnded_of_tested
    (unstaged : (if (b.passLeft o).onAir = 0 ∧ b.state = .released ∧ b.commitPending = true then b.staged else none) = none)
    (alive : b.state ≠ .withdrawing) : s.passEnded ch p o (w.retirementTest p.bulletin) := by
  have left : w.bulletin p.bulletin = some (b.passLeft o) := (h.bulletin _).trans (if_pos rfl)
  cases retires : w.retires p.bulletin (b.passLeft o) with
  | false =>
    rw [State.retirementTest_of_stays left retires]
    exact State.passEnded_of_stands present h unstaged retires fun last => alive last.2
  | true =>
    obtain ⟨emptied, retired⟩ := State.retirementTest_of_retires left retires
    exact State.passEnded_of_gone present h emptied unstaged (by rw [retires, Bool.true_or]) (fun _ => retired)
      (State.reports_notice retired)

theorem State.passEnded_of_last (offAir : (b.passLeft o).onAir = 0) :
    s.passEnded ch p o (w.lastPassEnded p.bulletin) := by
  have left : w.bulletin p.bulletin = some (b.passLeft o) := (h.bulletin _).trans (if_pos rfl)
  have state : (b.passLeft o).state = b.state := rfl
  have pending : (b.passLeft o).commitPending = b.commitPending := rfl
  have staged : (b.passLeft o).staged = b.staged := rfl
  rw [State.lastPassEnded, left]
  dsimp only
  cases life : b.state with
  | withdrawing =>
    rw [state, life]
    exact State.passEnded_of_withdrawing present h offAir life
  | composing =>
    rw [state, life]
    have stays : w.retires p.bulletin (b.passLeft o) = false := Bool.eq_false_iff.mpr fun retires => by
      have released : b.state = .released := ((State.retires_iff _ _ _).mp retires).1
      rw [life] at released
      cases released
    exact State.passEnded_of_stands present h (if_neg (by simp [life])) stays (by simp [life])
  | released =>
    rw [state, life, pending, staged]
    have unfinished : b.state ≠ .withdrawing := by simp [life]
    cases commits : b.commitPending with
    | false => exact State.passEnded_of_tested present h (if_neg (by simp [commits])) unfinished
    | true =>
      cases map : b.staged with
      | none => exact State.passEnded_of_tested present h (by simp [map]) unfinished
      | some m =>
        have commit : (if (b.passLeft o).onAir = 0 ∧ b.state = .released ∧ b.commitPending = true then b.staged
            else none) = some m := (if_pos ⟨offAir, life, commits⟩).trans map
        cases retires : w.retires p.bulletin (b.passLeft o) with
        | false => exact State.passEnded_of_commit_stays present h commit retires
        | true => exact State.passEnded_of_commit_retired present h commit retires

end

/-! ## The end of a pass -/

/-- The state once the entry is put back or dropped and the turn record is clear. -/
def State.passCleared (a : State) (ch : Fin 8) (p : PassTurn) (o : PassOutcome) : State :=
  a.setChannel ch { a.channel ch with
    queue := p.requeue (a.isReleased p.bulletin) o (a.channel ch).queue, turn := none, output := none }

theorem State.endPass_eq (a : State) (ch : Fin 8) (p : PassTurn) (e : Ending) :
    a.endPass ch p e = (a.passCleared ch p (p.outcome e)).passEndReport p.bulletin (p.outcome e) := by
  rw [State.endPass, State.clearTurn, State.channel_setChannel, if_pos rfl, State.setChannel_setChannel,
    State.passCleared]

/-- The state once the pass is accounted. -/
def State.passCounted (r : State) (n : Fin 64) (b : Bulletin) (o : PassOutcome) : State :=
  ((r.setBulletin n (some (b.account o))).raiseOutcome n o).mapBulletin n fun b => { b with onAir := b.onAir - 1 }

theorem State.passCounted_only (r : State) (n : Fin 64) (b : Bulletin) (o : PassOutcome) :
    ∃ notices, r.passCounted n b o =
      { r.setBulletin n (some (b.passLeft o.event)) with notices := notices } := by
  obtain ⟨notices, same⟩ := State.raiseOutcome_only (r.setBulletin n (some (b.account o))) n o
  refine ⟨notices, ?_⟩
  have read : ({ r.setBulletin n (some (b.account o)) with notices := notices } : State).bulletin n =
      some (b.account o) := (State.bulletin_setBulletin _ _ _ _).trans (if_pos rfl)
  rw [State.passCounted, same, State.mapBulletin, read, Option.map_some, Bulletin.account_eq]
  simp [State.setBulletin, Bulletin.passLeft, Bulletin.countedFor]

section

variable {s a : State} {ch : Fin 8} (beside : s.Beside a ch)

include beside

theorem State.Beside.bulletin (n : Fin 64) : a.bulletin n = s.bulletin n := by
  rw [beside.only]
  rfl

theorem State.passCleared_channel (p : PassTurn) (o : PassOutcome) :
    (∀ j, j ≠ ch → (a.passCleared ch p o).channel j = s.channel j) ∧
    ((a.passCleared ch p o).channel ch).queue = s.queueAfterPass p o.event (s.channel ch).queue ∧
    ((a.passCleared ch p o).channel ch).bound = (s.channel ch).bound ∧
    ((a.passCleared ch p o).channel ch).profile = (s.channel ch).profile ∧
    ((a.passCleared ch p o).channel ch).turn = none ∧
    ((a.passCleared ch p o).channel ch).state = (s.channel ch).state := by
  have written : (a.passCleared ch p o).channel ch = _ := (State.channel_setChannel _ _ _ _).trans (if_pos rfl)
  refine ⟨fun j other => ?_, ?_⟩
  · exact (State.channel_setChannel _ _ _ _).trans ((if_neg other.symm).trans (beside.others j other))
  · rw [written]
    refine ⟨?_, beside.bound, beside.profile, rfl, beside.state⟩
    rw [PassTurn.requeue_eq, beside.queue, State.queueAfterPass, beside.bulletin, State.queueAfterPass]

/-- A pass that is on record is accounted (02: R23 to R25). -/
theorem State.passAccounted_of_beside (deaf : (s.channel ch).deaf) {p : PassTurn} (o : PassOutcome) {b : Bulletin} :
    s.PassAccounted ch p o.event b ((a.passCleared ch p o).passCounted p.bulletin b o) := by
  obtain ⟨others, queue, bound, profile, turn, state⟩ := State.passCleared_channel beside p o
  obtain ⟨notices, same⟩ := State.passCounted_only (a.passCleared ch p o) p.bulletin b o
  have channels : ∀ j, ((a.passCleared ch p o).passCounted p.bulletin b o).channel j = (a.passCleared ch p o).channel j :=
    fun j => by
      rw [same]
      rfl
  refine ⟨?_, fun i => ?_, fun j other => (channels j).trans (others j other), by rw [channels, queue],
    by rw [channels, bound], by rw [channels, profile], by rw [channels, turn], ?_, fun {key e} before => ?_,
    fun {e} event => ?_⟩
  · rw [same, State.passCleared, beside.only]
    rfl
  · rw [same]
    refine (State.bulletin_setBulletin (a.passCleared ch p o) p.bulletin i _).trans ?_
    rw [← beside.bulletin i]
    rfl
  · unfold Channel.deaf
    rw [channels, state]
    exact deaf
  · exact ((State.Moves.refl.raiseOutcome _ _).mapBulletin _ _ :
      ((a.passCleared ch p o).setBulletin p.bulletin (some (b.account o))).Moves _).reports (beside.reports key e before)
  · exact (State.raiseOutcome_reports ((a.passCleared ch p o).setBulletin p.bulletin (some (b.account o)))
      p.bulletin o event :)

/-- A pass of no bulletin has no account. -/
theorem State.passEnded_of_absent {p : PassTurn} (o : PassOutcome) (absent : s.bulletin p.bulletin = none) :
    s.passEnded ch p o.event (a.passCleared ch p o) := by
  obtain ⟨others, queue, bound, profile, -, -⟩ := State.passCleared_channel beside p o
  unfold State.passEnded
  refine ⟨fun key e before => beside.reports key e before, ?_, queue, bound, profile, ?_⟩
  · rw [State.passCleared, beside.only]
    rfl
  · rw [absent]
    have store : (a.passCleared ch p o).store = s.store ∧ (a.passCleared ch p o).bulletins = s.bulletins ∧
        (a.passCleared ch p o).circuits = s.circuits := by
      rw [State.passCleared, beside.only]
      exact ⟨rfl, rfl, rfl⟩
    exact ⟨store.1, store.2.1, store.2.2, others⟩

/-- The end of a pass, as its statement has it (02: R24, R25; 08: R148). -/
theorem State.passEnded_of_endPass (deaf : (s.channel ch).deaf) (p : PassTurn) (e : Ending) :
    s.passEnded ch p (p.outcome e).event (a.endPass ch p e) := by
  have read : (a.passCleared ch p (p.outcome e)).bulletin p.bulletin = s.bulletin p.bulletin :=
    (State.setChannel_bulletin _ _ _ _).trans (beside.bulletin _)
  rw [State.endPass_eq, State.passEndReport, read]
  cases present : s.bulletin p.bulletin with
  | none => exact State.passEnded_of_absent beside _ present
  | some b =>
    have accounted := State.passAccounted_of_beside beside deaf (p := p) (p.outcome e) (b := b)
    have left : (b.passLeft (p.outcome e).event).onAir = b.onAir - 1 := rfl
    dsimp only
    rw [← State.passCounted]
    split
    · next last => exact State.passEnded_of_last present accounted (by omega)
    · next more => exact State.passEnded_of_onAir present accounted (by omega)

end

end Sys2Proof.Machine
end

section
/-! PROOFS. A channel enters OFF (01: R18; 02: R23, R36, R37; 05: R74; 06: R105). -/

namespace Sys2Proof.Machine

/-! ## Blocks given up (01: R18; 02: R37) -/

/-- The blocks are at the tail of the free list, with their reports; else bulletins and notices alone may differ. -/
structure State.GaveUp (s : State) (blocks : List BlockNo) (u : State) : Prop where
  only : u = { s with store := u.store, bulletins := u.bulletins, circuits := u.circuits, notices := u.notices }
  store : u.store = { s.store with free := s.store.free ++ blocks }
  circuit (d : Fin 32) : u.circuit d = { s.circuit d with flow := (u.circuit d).flow }
  returned (d : Fin 32) : s.returnReported blocks d u
  reports {key : NoticeKey} {e : NoticeEvent} : s.reports key e → u.reports key e

namespace State.GaveUp

variable {s t u : State} {xs ys : List BlockNo}

theorem refl (s : State) : s.GaveUp [] s := by
  refine ⟨rfl, by rw [List.append_nil], fun _ => rfl, fun d => ?_, id⟩
  rw [State.returnReported, if_neg (by simp)]

theorem trans (h : s.GaveUp xs t) (h' : t.GaveUp ys u) : s.GaveUp (xs ++ ys) u := by
  refine ⟨?_, ?_, fun d => ?_, fun d => ?_, fun before => h'.reports (h.reports before)⟩
  · rw [h'.only, h.only]
  · rw [h'.store, h.store, List.append_assoc]
  · rw [h'.circuit d, h.circuit d]
  · exact State.returnReported_append (h.returned d) (h'.returned d) (Circuit.count_of_flow (h.circuit d)) h'.reports

theorem channels (h : s.GaveUp xs u) : u.channels = s.channels := by
  rw [h.only]

theorem channel (h : s.GaveUp xs u) (j : Fin 8) : u.channel j = s.channel j := by
  rw [h.only]
  rfl

end State.GaveUp

theorem State.Emptied.gaveUp {s u : State} {n : Fin 64} {blocks : List BlockNo} (h : s.Emptied n blocks u) :
    s.GaveUp blocks u := ⟨h.only, h.store, h.circuit, h.returned, h.reports⟩

/-! ## The retirement test of a list of bulletins (02: R36, R37) -/

/-- The blocks that the retirement test of the bulletin gives up. -/
def State.retirementBlocks (s : State) (n : Fin 64) : List BlockNo :=
  (s.bulletin n).elim [] fun b => if s.retires n b = true then b.allBlocks else []

theorem State.retires_of_channels {s t : State} (channels : t.channels = s.channels) (n : Fin 64) (b : Bulletin) :
    t.retires n b = s.retires n b := by
  simp only [State.retires, State.channel, channels]

theorem State.retirementTest_gaveUp (s : State) (n : Fin 64) :
    s.GaveUp (s.retirementBlocks n) (s.retirementTest n) ∧
    (∀ i, (s.retirementTest n).bulletin i =
      if n = i then (s.bulletin n).filter fun b => !s.retires n b else s.bulletin i) ∧
    ∀ b, s.bulletin n = some b → s.retires n b = true → (s.retirementTest n).reports (.bulletin n) .retired := by
  unfold State.retirementBlocks
  cases present : s.bulletin n with
  | none =>
    have same : s.retirementTest n = s := by rw [State.retirementTest, present]
    rw [same]
    refine ⟨State.GaveUp.refl s, fun i => ?_, nofun⟩
    split
    · next here => rw [← here, present]; rfl
    · rfl
  | some b =>
    cases retires : s.retires n b with
    | false =>
      rw [State.retirementTest_of_stays present retires]
      refine ⟨by simpa [retires] using State.GaveUp.refl s, fun i => ?_, fun b' same retired => ?_⟩
      · split
        · next here => rw [← here, present, Option.filter_some, retires]; rfl
        · rfl
      · cases same
        rw [retires] at retired
        cases retired
    | true =>
      obtain ⟨emptied, retired⟩ := State.retirementTest_of_retires present retires
      refine ⟨by simpa [retires] using emptied.gaveUp, fun i => ?_, fun _ _ _ => retired⟩
      rw [emptied.bulletin, Option.filter_some, retires]
      rfl

theorem State.retireAll_gaveUp (l : List (Fin 64)) (s : State) :
    ∃ blocks, s.GaveUp blocks (l.foldl State.retirementTest s) := by
  induction l generalizing s with
  | nil => exact ⟨[], State.GaveUp.refl s⟩
  | cons n l ih =>
    obtain ⟨blocks, rest⟩ := ih (s.retirementTest n)
    exact ⟨_, (s.retirementTest_gaveUp n).1.trans rest⟩

/-- Tests of different bulletins do not reach one another. -/
theorem State.retireAll {l : List (Fin 64)} (distinct : l.Nodup) (s : State) :
    s.GaveUp (l.flatMap s.retirementBlocks) (l.foldl State.retirementTest s) ∧
    (∀ i, (l.foldl State.retirementTest s).bulletin i =
      if i ∈ l then (s.bulletin i).filter fun b => !s.retires i b else s.bulletin i) ∧
    ∀ i ∈ l, ∀ b, s.bulletin i = some b → s.retires i b = true →
      (l.foldl State.retirementTest s).reports (.bulletin i) .retired := by
  induction l generalizing s with
  | nil => exact ⟨State.GaveUp.refl s, fun _ => rfl, nofun⟩
  | cons n l ih =>
    obtain ⟨fresh, distinct⟩ := List.nodup_cons.mp distinct
    obtain ⟨first, bulletin, retired⟩ := s.retirementTest_gaveUp n
    obtain ⟨rest, bulletins, reports⟩ := ih distinct (s.retirementTest n)
    have retires : (s.retirementTest n).retires = s.retires :=
      funext₂ (State.retires_of_channels first.channels)
    have others : ∀ i ∈ l, (s.retirementTest n).bulletin i = s.bulletin i := fun i mem =>
      (bulletin i).trans (if_neg fun same : n = i => fresh (same ▸ mem))
    have blocks : l.flatMap (s.retirementTest n).retirementBlocks = l.flatMap s.retirementBlocks :=
      List.flatMap_congr fun i mem => by rw [State.retirementBlocks, others i mem, retires, State.retirementBlocks]
    rw [List.foldl_cons, List.flatMap_cons, ← blocks]
    refine ⟨first.trans rest, fun i => ?_, fun i mem b present retiring => ?_⟩
    · rw [bulletins]
      by_cases later : i ∈ l
      · rw [if_pos later, if_pos (List.mem_cons_of_mem n later), others i later, retires]
      · rw [if_neg later, bulletin]
        by_cases here : n = i
        · simp [here]
        · simp [here, later, Ne.symm here]
    · rcases List.mem_cons.mp mem with here | later
      · subst here
        exact rest.reports (retired b present retiring)
      · exact reports i later b ((others i later).trans present) (by rw [retires]; exact retiring)

/-! ## The misses of the entries removed (02: R23) -/

def Bulletin.missedOnce (b : Bulletin) : Bulletin := { b with missed := min 65535 (b.missed + 1) }

theorem State.missed_only (s : State) (n : Fin 64) :
    ∃ notices, s.missed n = { s.setBulletin n ((s.bulletin n).map Bulletin.missedOnce) with notices := notices } := by
  have count : (fun b : Bulletin => { b with missed := saturate Config.counterMax (b.missed + 1) }) =
      Bulletin.missedOnce := funext fun b => by
    simp [Bulletin.missedOnce, saturate, Config.counterMax]
  exact ⟨(s.missed n).notices, by rw [State.missed, State.mapBulletin, count]; rfl⟩

theorem State.missed_reports (s : State) (n : Fin 64) : (s.missed n).reports (.bulletin n) .missed := by
  obtain ⟨y, mem, key, event⟩ := raiseInto_has s.notices (.bulletin n) .missed { Counts.zero with missed := 1 }
  exact ⟨y, mem, key, event⟩

/-- The entries removed are misses of their bulletins, and nothing else has changed but notices. -/
theorem State.missAll (l : List (Fin 64)) (s : State) :
    (∃ bulletins notices, l.foldl State.missed s = { s with bulletins := bulletins, notices := notices }) ∧
    (∀ i ∈ l, (l.foldl State.missed s).reports (.bulletin i) .missed) ∧
    (l.Nodup → ∀ i, (l.foldl State.missed s).bulletin i =
      if i ∈ l then (s.bulletin i).map Bulletin.missedOnce else s.bulletin i) := by
  induction l generalizing s with
  | nil => exact ⟨⟨s.bulletins, s.notices, rfl⟩, nofun, fun _ _ => rfl⟩
  | cons n l ih =>
    obtain ⟨notices, first⟩ := s.missed_only n
    obtain ⟨⟨bulletins, notices', rest⟩, reports, each⟩ := ih (s.missed n)
    have moves : (s.missed n).Moves (l.foldl State.missed (s.missed n)) :=
      State.Moves.refl.foldl (fun r i => State.Moves.refl.missed i) l
    have bulletin : ∀ i, (s.missed n).bulletin i =
        if n = i then (s.bulletin n).map Bulletin.missedOnce else s.bulletin i := fun i => by
      rw [first]
      exact State.bulletin_setBulletin s n i _
    rw [List.foldl_cons]
    refine ⟨⟨bulletins, notices', ?_⟩, fun i mem => ?_, fun distinct i => ?_⟩
    · rw [rest, first]
      rfl
    · rcases List.mem_cons.mp mem with here | later
      · subst here
        exact moves.reports (s.missed_reports i)
      · exact reports i later
    · obtain ⟨fresh, distinct⟩ := List.nodup_cons.mp distinct
      rw [each distinct, bulletin]
      by_cases here : n = i
      · subst here
        simp [fresh]
      · simp [here, Ne.symm here]

end Sys2Proof.Machine
end

section
/-! PROOFS. What entering OFF leaves (06: R105), at any state. -/

namespace Sys2Proof.Machine

/-! ## The steps -/

/-- The numbers of the bulletins with an entry in the queue of the channel, from head to tail. -/
def Channel.queued (x : Channel) : List (Fin 64) := x.queue.map Entry.bulletin

/-- The state once the channel is OFF and its entries are removed, before they are misses. -/
def State.switchedOff (v : State) (ch : Fin 8) : State :=
  v.setChannel ch { (v.channel ch).switchOff with queue := [] }

/-- The state once the entries removed are misses. -/
def State.missedQueue (v : State) (ch : Fin 8) : State := (v.channel ch).queued.foldl State.missed (v.switchedOff ch)

/-- The state once the bulletins of which nothing is left have retired. -/
def State.retiredQueue (v : State) (ch : Fin 8) : State :=
  (v.channel ch).queued.foldl State.retirementTest (v.missedQueue ch)

/-- The state once the bound circuits are held. -/
def State.heldOff (v : State) (ch : Fin 8) : State := (v.retiredQueue ch).holdBound ch true

theorem State.enterOff_eq (v : State) (ch : Fin 8) : v.enterOff ch =
    ((v.heldOff ch).setChannel ch ((v.heldOff ch).channel ch).forgetRotation).raiseEvent (.channel ch) .off := by
  have dropped : (v.setChannel ch (v.channel ch).switchOff).dropQueue ch = v.retiredQueue ch := by
    rw [State.dropQueue, State.channel_setChannel, if_pos rfl, State.setChannel_setChannel, State.retiredQueue,
      State.missedQueue, Channel.queued, List.foldl_map, List.foldl_map]
    rfl
  rw [State.enterOff, dropped, State.heldOff]

section

variable (v : State) (ch : Fin 8)

theorem State.switchedOff_channel (j : Fin 8) : (v.switchedOff ch).channel j =
    if ch = j then { (v.channel ch).switchOff with queue := [] } else v.channel j :=
  State.channel_setChannel _ _ _ _

theorem State.missedQueue_only : ∃ bulletins notices,
    v.missedQueue ch = { v.switchedOff ch with bulletins := bulletins, notices := notices } :=
  (State.missAll _ _).1

theorem State.missedQueue_channel (j : Fin 8) : (v.missedQueue ch).channel j = (v.switchedOff ch).channel j := by
  obtain ⟨_, _, same⟩ := v.missedQueue_only ch
  rw [same]
  rfl

/-- With its own queue empty, the channel has no part in the test. -/
theorem State.missedQueue_retires (n : Fin 64) (b : Bulletin) :
    (v.missedQueue ch).retires n b = v.retiresWithout ch n b := by
  rw [Bool.eq_iff_iff, State.retires_iff]
  simp only [State.retiresWithout, Bool.and_eq_true, decide_eq_true_eq, List.all_eq_true, Bool.or_eq_true,
    Bool.not_eq_true', and_assoc]
  refine and_congr_right fun _ => and_congr_right fun _ => and_congr_right fun _ => ?_
  have held : ∀ j, ((v.missedQueue ch).channel j).holdsEntry n = false ↔ j = ch ∨ (v.channel j).holdsEntry n = false :=
    fun j => by
      rw [State.missedQueue_channel, State.switchedOff_channel]
      by_cases here : ch = j
      · rw [if_pos here]
        exact ⟨fun _ => .inl here.symm, fun _ => rfl⟩
      · rw [if_neg here]
        exact ⟨.inr, fun own => own.resolve_left (Ne.symm here)⟩
  exact ⟨fun none j _ => (held j).mp (none j), fun each j => (held j).mpr (each j (List.mem_finRange j))⟩

theorem State.missedQueue_bulletin (distinct : (v.channel ch).queued.Nodup) (i : Fin 64) :
    (v.missedQueue ch).bulletin i =
      if i ∈ (v.channel ch).queued then (v.bulletin i).map Bulletin.missedOnce else v.bulletin i :=
  (State.missAll _ _).2.2 distinct i

/-- What the retirements of the queue give back is what the statement names. -/
theorem State.missedQueue_returns (distinct : (v.channel ch).queued.Nodup) :
    (v.channel ch).queued.flatMap (v.missedQueue ch).retirementBlocks = v.offReturns ch := by
  rw [State.offReturns, Channel.queued, List.flatMap_map]
  refine List.flatMap_congr fun e mem => ?_
  have listed : e.bulletin ∈ (v.channel ch).queued := List.mem_map_of_mem mem
  rw [State.retirementBlocks, State.missedQueue_bulletin v ch distinct, if_pos listed]
  cases v.bulletin e.bulletin with
  | none => rfl
  | some b => simp only [Option.map_some, Option.elim_some, State.missedQueue_retires]; rfl

theorem State.retiredQueue_gaveUp : ∃ blocks, (v.missedQueue ch).GaveUp blocks (v.retiredQueue ch) :=
  State.retireAll_gaveUp _ _

theorem State.retiredQueue_channel (j : Fin 8) : (v.retiredQueue ch).channel j = (v.switchedOff ch).channel j := by
  obtain ⟨_, gave⟩ := v.retiredQueue_gaveUp ch
  rw [gave.channel, State.missedQueue_channel]

theorem State.retiredQueue_circuit (d : Fin 32) :
    (v.retiredQueue ch).circuit d = { v.circuit d with flow := ((v.retiredQueue ch).circuit d).flow } := by
  obtain ⟨_, gave⟩ := v.retiredQueue_gaveUp ch
  obtain ⟨_, _, same⟩ := v.missedQueue_only ch
  have before : (v.missedQueue ch).circuit d = v.circuit d := by
    rw [same]
    rfl
  exact before ▸ gave.circuit d

theorem State.heldOff_only : ∃ circuits, v.heldOff ch = { v.retiredQueue ch with circuits := circuits } :=
  State.holdBound_only true _ ch

theorem State.heldOff_channel (j : Fin 8) : (v.heldOff ch).channel j = (v.switchedOff ch).channel j := by
  obtain ⟨_, same⟩ := v.heldOff_only ch
  rw [same]
  exact v.retiredQueue_channel ch j

/-- A hold for CHANNEL ends every wait. -/
theorem Circuit.holding_true (x : Circuit) (onAir : Bool) (now : Nat) :
    x.holding true onAir now = { x with channelHold := true, waitStart := none } := by
  rw [Circuit.holding, Circuit.settledAt, if_pos]
  simp [Circuit.waits]

theorem State.heldOff_circuit (d : Fin 32) : (v.heldOff ch).circuit d =
    if d ∈ (v.channel ch).bound then
      { (v.retiredQueue ch).circuit d with channelHold := true, waitStart := none }
    else (v.retiredQueue ch).circuit d := by
  have bound : ((v.retiredQueue ch).channel ch).bound = (v.channel ch).bound := by
    rw [State.retiredQueue_channel, State.switchedOff_channel, if_pos rfl]
    rfl
  rw [State.heldOff, State.holdBound_circuit, bound, Circuit.holding_true]

theorem State.heldOff_flow (d : Fin 32) : ((v.heldOff ch).circuit d).flow = ((v.retiredQueue ch).circuit d).flow := by
  rw [State.heldOff_circuit]
  split <;> rfl

theorem State.enterOff_circuit (d : Fin 32) : (v.enterOff ch).circuit d = (v.heldOff ch).circuit d := by
  rw [State.enterOff_eq]
  rfl

theorem State.enterOff_bulletin (n : Fin 64) : (v.enterOff ch).bulletin n = (v.retiredQueue ch).bulletin n := by
  obtain ⟨_, held⟩ := v.heldOff_only ch
  rw [State.enterOff_eq, held]
  rfl

theorem State.enterOff_channel (j : Fin 8) : (v.enterOff ch).channel j =
    if ch = j then { Channel.reset with
      profile := (v.channel ch).profile, state := .off, bound := (v.channel ch).bound
      substitutions := (v.channel ch).substitutions }
    else v.channel j := by
  have own : (v.heldOff ch).channel ch = { (v.channel ch).switchOff with queue := [] } :=
    (State.heldOff_channel v ch ch).trans ((State.switchedOff_channel v ch ch).trans (if_pos rfl))
  rw [State.enterOff_eq, State.raiseEvent, State.raise_channel, State.channel_setChannel, own]
  split
  · rfl
  · next other => rw [State.heldOff_channel, State.switchedOff_channel, if_neg other]

theorem State.enterOff_reports {key : NoticeKey} {e : NoticeEvent} (before : (v.retiredQueue ch).reports key e) :
    (v.enterOff ch).reports key e := by
  obtain ⟨_, held⟩ := v.heldOff_only ch
  rw [State.enterOff_eq]
  refine State.reports_raise ?_ _ _ _
  rw [State.reports, State.setChannel_notices, held]
  exact before

section

variable (distinct : (v.channel ch).queued.Nodup)

include distinct

/-- What the retirements leave of the store and of the flow of the circuits. -/
theorem State.enterOff_returned :
    (v.enterOff ch).store = { v.store with free := v.store.free ++ v.offReturns ch } ∧
    ∀ d, v.returnReported (v.offReturns ch) d (v.enterOff ch) := by
  obtain ⟨_, _, missed⟩ := v.missedQueue_only ch
  obtain ⟨_, held⟩ := v.heldOff_only ch
  obtain ⟨gave, -, -⟩ := State.retireAll distinct (v.missedQueue ch)
  rw [← State.missedQueue_returns v ch distinct]
  constructor
  · have store : (v.enterOff ch).store = (v.retiredQueue ch).store := by
      rw [State.enterOff_eq, held]
      rfl
    rw [store, State.retiredQueue, gave.store, missed]
    rfl
  · intro d
    refine State.returnReported_of (gave.returned d) ?_ ?_ (State.enterOff_reports v ch)
    · rw [missed]
      rfl
    · rw [State.enterOff_circuit, State.heldOff_flow]
      rfl

/-- What becomes of a bulletin, by whether it had an entry in the queue. -/
theorem State.enterOff_bulletin_cases (n : Fin 64) : (v.enterOff ch).bulletin n =
    if (v.channel ch).holdsEntry n = false then v.bulletin n
    else ((v.bulletin n).map Bulletin.missedOnce).filter fun b => !v.retiresWithout ch n b := by
  obtain ⟨-, bulletins, -⟩ := State.retireAll distinct (v.missedQueue ch)
  have listed : n ∈ (v.channel ch).queued ↔ (v.channel ch).holdsEntry n = true := by
    simp [Channel.queued, Channel.holdsEntry]
  rw [State.enterOff_bulletin, State.retiredQueue, bulletins, State.missedQueue_bulletin v ch distinct]
  simp only [State.missedQueue_retires]
  cases holds : (v.channel ch).holdsEntry n with
  | false =>
    have out : n ∉ (v.channel ch).queued := by rw [listed, holds]; decide
    rw [if_neg out, if_neg out, if_pos rfl]
  | true => rw [if_pos (listed.mpr holds), if_pos (listed.mpr holds), if_neg (by decide)]

theorem State.enterOff_retired {n : Fin 64} {b : Bulletin} (present : v.bulletin n = some b)
    (holds : (v.channel ch).holdsEntry n = true) (retires : v.retiresWithout ch n b = true) :
    (v.enterOff ch).reports (.bulletin n) .retired := by
  obtain ⟨-, -, retired⟩ := State.retireAll distinct (v.missedQueue ch)
  have listed : n ∈ (v.channel ch).queued := by
    simpa [Channel.queued, Channel.holdsEntry] using holds
  refine State.enterOff_reports v ch (retired n listed b.missedOnce ?_ ?_)
  · rw [State.missedQueue_bulletin v ch distinct, if_pos listed, present]
    rfl
  · rw [State.missedQueue_retires]
    exact retires

end

/-- A channel enters OFF, as its statement has it (06: R105). -/
theorem State.wentOff_of_enterOff : v.wentOff ch (v.enterOff ch) := by
  obtain ⟨-, reported, -⟩ := State.missAll (v.channel ch).queued (v.switchedOff ch)
  have after : (v.missedQueue ch).Moves (v.enterOff ch) := by
    rw [State.enterOff_eq]
    refine State.Moves.raiseEvent (State.Moves.channel ch _ ?_) _ _
    exact State.Moves.holdBound (State.Moves.refl.foldl (fun r i => State.Moves.refl.retirementTest i) _) ch true
  have moves : v.Moves (v.enterOff ch) := State.Moves.refl.enterOff ch
  unfold State.wentOff
  refine ⟨?_, ?_, fun j other => ?_, fun key e before => moves.reports before, ?_, fun e mem => ?_, fun d => ?_,
    fun distinct => ⟨(State.enterOff_returned v ch distinct).1, (State.enterOff_returned v ch distinct).2, fun n => ?_⟩⟩
  · rw [moves.only]
  · rw [State.enterOff_channel, if_pos rfl]
  · rw [State.enterOff_channel, if_neg other.symm]
  · rw [State.enterOff_eq]
    exact State.reports_raiseEvent _ _ _
  · exact after.reports (reported _ (List.mem_map_of_mem mem))
  · have flow := State.retiredQueue_circuit v ch d
    rw [State.enterOff_circuit, State.heldOff_circuit]
    split <;> rw [flow]
  · have bulletin := State.enterOff_bulletin_cases v ch distinct n
    cases present : v.bulletin n with
    | none =>
      rw [present] at bulletin
      simpa using bulletin
    | some b =>
      rw [present] at bulletin
      dsimp only
      cases holds : (v.channel ch).holdsEntry n with
      | false =>
        rw [holds] at bulletin
        rw [if_pos rfl, bulletin, if_pos rfl]
      | true =>
        have once : v.retiresWithout ch n b.missedOnce = v.retiresWithout ch n b := rfl
        rw [holds, if_neg (by decide), Option.map_some, Option.filter_some, once] at bulletin
        rw [if_neg (by decide)]
        cases retires : v.retiresWithout ch n b with
        | false =>
          rw [if_neg (by decide), bulletin, retires]
          rfl
        | true =>
          rw [if_pos rfl, bulletin, retires]
          exact ⟨rfl, State.enterOff_retired v ch distinct present holds retires⟩

end

end Sys2Proof.Machine
end

section
/-! PROOFS. The record of the channel whose turn ends, and a turn that is stopped (09: R158 to R160). -/

namespace Sys2Proof.Machine

/-! ## What a report at another channel leaves of a channel on the air -/

theorem State.consulted_busy {s u : State} {j ch : Fin 8} (h : s.consulted j u) (busy : (s.channel ch).state ≠ .idle) :
    u.channel ch = s.channel ch := by
  by_cases here : ch = j
  · subst here
    rw [State.consulted_of_still h (.inl busy)]
  · exact State.consulted_channel_other h here

theorem State.settleWait_busy {s : State} (c : Fin 32) {ch : Fin 8} (busy : (s.channel ch).state ≠ .idle) :
    (s.settleWait c).channel ch = s.channel ch := by
  rcases State.settleWait_cases s c with same | same
  · rw [same]
    rfl
  · rw [same]
    exact (State.consulted_busy (State.tellIdle_consulted _ _) (by exact busy)).trans rfl

/-- The end of a telex turn reaches the bound list of a channel that is on the air, and nothing else of it. -/
theorem State.circuitTurnEnd_busy (s : State) (c : Fin 32) {ch : Fin 8} (busy : (s.channel ch).state ≠ .idle) :
    ∃ bound, (s.circuitTurnEnd c).channel ch = { s.channel ch with bound := bound } := by
  unfold State.circuitTurnEnd
  dsimp only
  split
  · rw [State.finishClose_channel]
    split
    · next here => exact ⟨_, rfl⟩
    · exact ⟨_, rfl⟩
  · cases (s.circuit c).movePending with
    | none => exact ⟨_, State.settleWait_busy c busy⟩
    | some dest =>
      have placed : (s.reboundSettled c dest).channel ch =
          { s.channel ch with bound := ((s.reboundSettled c dest).channel ch).bound } := by
        rw [State.reboundSettled_channel, State.rebound_channel]
      rcases State.applyMove_cases s c dest with same | consults
      · exact ⟨_, (congrArg (State.channel · ch) same).trans placed⟩
      · refine ⟨_, (State.consulted_busy consults ?_).trans placed⟩
        rw [placed]
        exact busy

/-- The pass end report leaves a channel without a turn as it is while it is on the air. -/
theorem State.passEndReport_deaf {s : State} (n : Fin 64) (o : PassOutcome) {ch : Fin 8} (deaf : (s.channel ch).deaf)
    (turn : (s.channel ch).turn = none) : (s.passEndReport n o).channel ch = s.channel ch := by
  have tested : ∀ t : State, (t.retirementTest n).channel ch = t.channel ch := fun t =>
    (t.retirementTest_gaveUp n).1.channel ch
  unfold State.passEndReport
  cases s.bulletin n with
  | none => rfl
  | some b =>
    obtain ⟨notices, same⟩ := State.passCounted_only s n b o
    have channel : (s.passCounted n b o).channel ch = s.channel ch := by
      rw [same]
      rfl
    dsimp only
    rw [← State.passCounted]
    split
    · rw [← channel] at deaf turn ⊢
      unfold State.lastPassEnded
      cases (s.passCounted n b o).bulletin n with
      | none => rfl
      | some left =>
        dsimp only
        cases left.state with
        | composing => rfl
        | withdrawing => exact (State.emptyEntry_emptied _ n left).gaveUp.channel ch
        | released =>
          have commits : ∀ m, ((s.passCounted n b o).commit n left m).channel ch = (s.passCounted n b o).channel ch :=
            fun m => by
              obtain ⟨-, -, channels, -⟩ := State.committing_reported (s.passCounted n b o) n left m
              have reported : ((s.passCounted n b o).committing n left m).returnReport.channel ch =
                  (s.passCounted n b o).channel ch := by rw [State.channel, channels, State.channel]
              rw [State.commit_eq]
              split
              · rw [← reported] at deaf turn ⊢
                exact State.tellHolders_of_deaf deaf turn
              · exact reported
          cases left.commitPending with
          | false => exact tested _
          | true =>
            cases left.staged with
            | none => exact tested _
            | some m => exact (tested _).trans (commits m)
    · exact channel

/-- A turn that ends leaves its channel without a turn and an output, and changes its two lists alone besides. -/
theorem State.endTurn_own {s : State} {ch : Fin 8} (deaf : (s.channel ch).deaf) {t : Turn}
    (turn : (s.channel ch).turn = some t) (e : Ending) : ∃ queue bound, (s.endTurn ch e).channel ch =
      { s.channel ch with queue := queue, bound := bound, turn := none, output := none } := by
  unfold State.endTurn
  rw [turn]
  dsimp only
  cases t.kind with
  | telex c =>
    have cleared := State.telexCleared_channel (a := s) (ch := ch) (c := c.circuit)
      (resume := resumeAfter (s.circuit c.circuit).resume c.bodyCount e) ch
    rw [if_pos rfl] at cleared
    have busy : ((s.telexCleared ch c.circuit
        (resumeAfter (s.circuit c.circuit).resume c.bodyCount e)).channel ch).state ≠ .idle := by
      rw [cleared]
      exact deaf.not_idle
    obtain ⟨bound, after⟩ := State.circuitTurnEnd_busy _ c.circuit busy
    rw [cleared] at after
    exact ⟨_, bound, after⟩
  | pass p =>
    have cleared : (s.passCleared ch p (p.outcome e)).channel ch = _ := (State.channel_setChannel _ _ _ _).trans (if_pos rfl)
    have after := State.passEndReport_deaf p.bulletin (p.outcome e) (s := s.passCleared ch p (p.outcome e)) (ch := ch)
      (by rw [cleared]; exact deaf) (by rw [cleared])
    exact ⟨_, _, (congrArg (State.channel · ch) (State.endPass_eq s ch p e)).trans (after.trans cleared)⟩

theorem State.stopTurn_of_turn {s : State} {ch : Fin 8} {t : Turn} (turn : (s.channel ch).turn = some t) (r : StopReason) :
    s.stopTurn ch r = s.endTurn ch (t.stopEnding r) := by
  rw [State.stopTurn, turn]

/-! ## A turn that ends, as the statements have it -/

section

variable {s a : State} {ch : Fin 8} (beside : s.Beside a ch) (deaf : (s.channel ch).deaf) {t : Turn}
  (turn : (a.channel ch).turn = some t)

include beside deaf turn

theorem State.passEnded_of_endTurn {p : PassTurn} (kind : t.kind = .pass p) (e : Ending) :
    s.passEnded ch p (p.outcome e).event (a.endTurn ch e) := by
  rw [State.endTurn, turn]
  dsimp only
  rw [kind]
  exact State.passEnded_of_endPass beside deaf p e

theorem State.telexEnded_of_endTurn {c : TelexTurn} (kind : t.kind = .telex c)
    (own : (s.circuit c.circuit).channel = ch) (e : Ending) :
    s.telexEnded ch c.circuit (resumeAfter (s.circuit c.circuit).resume c.bodyCount e) (a.endTurn ch e) := by
  rw [State.endTurn, turn]
  dsimp only
  rw [kind, ← beside.circuits]
  exact State.telexEnded_of_turnEnd beside own deaf

theorem State.passEnded_of_stopTurn {p : PassTurn} (kind : t.kind = .pass p) (r : StopReason) :
    s.passEnded ch p (t.outcomeOf p (Ending.stopped r).plain) (a.stopTurn ch r) := by
  rw [State.stopTurn_of_turn turn, ← PassTurn.outcome_stopEnding]
  exact State.passEnded_of_endTurn beside deaf turn kind _

theorem State.telexEnded_of_stopTurn {c : TelexTurn} (kind : t.kind = .telex c)
    (own : (s.circuit c.circuit).channel = ch) (r : StopReason) :
    s.telexEnded ch c.circuit ((s.circuit c.circuit).resume || decide (1 ≤ c.bodyCount)) (a.stopTurn ch r) := by
  have marks : resumeAfter (s.circuit c.circuit).resume c.bodyCount (t.stopEnding r) =
      ((s.circuit c.circuit).resume || decide (1 ≤ c.bodyCount)) := by
    rw [Turn.stopEnding]
    cases t.cutInProgress <;> rfl
  rw [State.stopTurn_of_turn turn, ← marks]
  exact State.telexEnded_of_endTurn beside deaf turn kind own _

end

theorem State.Beside.refl (s : State) (ch : Fin 8) : s.Beside s ch :=
  ⟨rfl, fun _ _ => rfl, rfl, rfl, rfl, rfl, fun _ _ before => before⟩

/-- A later write to the channel of the pass that ended, which keeps its two lists and its profile. -/
theorem State.passEnded_setChannel {s v : State} {ch : Fin 8} {p : PassTurn} {o : Option NoticeEvent} {y : Channel}
    (h : s.passEnded ch p o v) (queue : y.queue = (v.channel ch).queue) (bound : y.bound = (v.channel ch).bound)
    (profile : y.profile = (v.channel ch).profile) : s.passEnded ch p o (v.setChannel ch y) := by
  have written : (v.setChannel ch y).channel ch = y := (State.channel_setChannel _ _ _ _).trans (if_pos rfl)
  have elsewhere : ∀ j, j ≠ ch → (v.setChannel ch y).channel j = v.channel j := fun j other =>
    (State.channel_setChannel _ _ _ _).trans (if_neg other.symm)
  unfold State.passEnded at h ⊢
  obtain ⟨reports, only, queue', bound', profile', account⟩ := h
  refine ⟨reports, by rw [only]; rfl, by rw [written, queue, queue'], by rw [written, bound, bound'],
    by rw [written, profile, profile'], ?_⟩
  cases present : s.bulletin p.bulletin with
  | none =>
    rw [present] at account
    obtain ⟨store, bulletins, circuits, others⟩ := account
    exact ⟨store, bulletins, circuits, fun j other => (elsewhere j other).trans (others j other)⟩
  | some b =>
    rw [present] at account
    obtain ⟨event, retired, account⟩ := account
    refine ⟨event, retired, ?_⟩
    dsimp only at account ⊢
    split
    · next unstaged =>
      rw [unstaged] at account
      obtain ⟨noticed, bulletin, bulletins, store, circuits, others⟩ := account
      exact ⟨noticed, bulletin, bulletins, store, circuits, fun j other => (elsewhere j other).trans (others j other)⟩
    · next m staged =>
      rw [staged] at account
      obtain ⟨committed, store, returned, bulletins, bulletin, others⟩ := account
      refine ⟨committed, store, returned, bulletins, bulletin, fun j other => ?_⟩
      obtain ⟨told, keeps⟩ := others j other
      exact ⟨State.entryTold_of told rfl rfl (elsewhere j other), fun absent => (elsewhere j other).trans (keeps absent)⟩

end Sys2Proof.Machine
end

section
/-! PROOFS. CHANNEL OFF (06: R102, R104, R105) and the fall of KEYOK (06: R94, R100). -/

namespace Sys2Proof.Machine

/-! ## CHANNEL OFF -/

section

variable {s : State} {ch : Fin 8}

/-- Without a turn either mode enters OFF. -/
theorem channelOff_of_none (turn : (s.channel ch).turn = none)
    (state : (s.channel ch).state ∈ [.locking, .idle, .requesting, .backoff, .keyed]) :
    s.offGraceful ch = (s.enterOff ch, .ok) ∧ s.offAbort ch = (s.enterOff ch, .ok) := by
  have stops : s.stopTurn ch .abort = s := by rw [State.stopTurn, turn]
  unfold State.offGraceful State.offAbort
  dsimp only
  cases here : (s.channel ch).state <;> simp_all

theorem offGraceful_of_turn {t : Turn} (turn : (s.channel ch).turn = some t) (keyed : (s.channel ch).state = .keyed) :
    s.offGraceful ch = (s.setChannel ch { s.channel ch with state := .stopping }, .ok) := by
  unfold State.offGraceful
  dsimp only
  rw [keyed, turn]
  rfl

theorem offAbort_of_deaf (deaf : (s.channel ch).deaf) : s.offAbort ch = ((s.stopTurn ch .abort).enterOff ch, .ok) := by
  unfold State.offAbort
  rcases deaf with keyed | stopping
  · rw [keyed]
  · rw [stopping]

end

/-- Settles O15. -/
theorem channelOffEntersOff : Obligations.ChannelOffEntersOff := by
  intro r ch s served x
  have graceful {u : State} (answer : s.offGraceful ch = (u, .ok)) :
      exec (.channelOffGraceful r ch) s = .next (u.replied r 0x12 .ok) :=
    exec_answers (q := .channelOff ch 0) served ((channelOff_graceful s ch).trans answer)
  have abort {u : State} (answer : s.offAbort ch = (u, .ok)) :
      exec (.channelOffAbort r ch) s = .next (u.replied r 0x12 .ok) :=
    exec_answers (q := .channelOff ch 1) served ((channelOff_abort s ch).trans answer)
  refine ⟨fun turn state i mem => ⟨s.enterOff ch, ?_, s.wentOff_of_enterOff ch⟩,
    fun t turn keyed => graceful (offGraceful_of_turn turn keyed), fun t turn state => ?_⟩
  · obtain ⟨offGraceful, offAbort⟩ := channelOff_of_none turn state
    rcases List.mem_pair.mp mem with first | second
    · rw [first]
      exact graceful offGraceful
    · rw [second]
      exact abort offAbort
  · have deaf : (s.channel ch).deaf := List.mem_pair.mp state
    have beside := State.Beside.refl s ch
    have moves : s.Moves ((s.stopTurn ch .abort).enterOff ch) := (State.Moves.refl.stopTurn ch .abort).enterOff ch
    obtain ⟨queue, bound, own⟩ := State.endTurn_own deaf turn (t.stopEnding .abort)
    rw [← State.stopTurn_of_turn turn] at own
    refine ⟨s.stopTurn ch .abort, (s.stopTurn ch .abort).enterOff ch, abort (offAbort_of_deaf deaf),
      State.wentOff_of_enterOff _ ch, ?_, by rw [moves.only], by rw [moves.only], by rw [moves.only], by rw [moves.only],
      fun p kind => State.passEnded_of_stopTurn beside deaf turn kind .abort,
      fun c kind own => State.telexEnded_of_stopTurn beside deaf turn kind own .abort⟩
    rw [State.enterOff_channel, if_pos rfl, own]

/-! ## The fall of KEYOK -/

section

variable {s t : State} {ch : Fin 8}

/-- What is eligible is read from the queue, the bound list, the profile and the turn of the channel. -/
theorem State.anythingEligible_of_same (queue : (t.channel ch).queue = (s.channel ch).queue)
    (bound : (t.channel ch).bound = (s.channel ch).bound) (profile : (t.channel ch).profile = (s.channel ch).profile)
    (bulletins : t.bulletins = s.bulletins) (silence : t.silence = s.silence) (waiting : ∀ c, t.waiting c = s.waiting c) :
    t.anythingEligible ch = s.anythingEligible ch := by
  have silenced : t.silenced ch = s.silenced ch := by
    rw [State.silenced, profile, silence, State.silenced]
  rw [Bool.eq_iff_iff, State.anythingEligible_iff, State.anythingEligible_iff, queue, bound]
  simp only [State.entryEligible, State.circuitEligible, State.bulletin, bulletins, silenced, waiting]

end

/-- The state once the permit is lost, before what it brings about. -/
def State.permitFallen (s : State) (ch : Fin 8) : State := (s.setKeyok ch false).permitLost ch

section

variable (s : State) (ch : Fin 8)

theorem State.permitFallen_channel (j : Fin 8) : (s.permitFallen ch).channel j =
    if ch = j then { s.channel ch with silenceStop := false, output := none } else s.channel j :=
  State.channel_setChannel (s.setKeyok ch false) ch j _

theorem State.permitFallen_beside : (s.setKeyok ch false).Beside (s.permitFallen ch) ch := by
  have own : (s.permitFallen ch).channel ch = { s.channel ch with silenceStop := false, output := none } :=
    (s.permitFallen_channel ch ch).trans (if_pos rfl)
  refine ⟨rfl, fun j other => (s.permitFallen_channel ch j).trans (if_neg other.symm), by rw [own]; rfl, by rw [own]; rfl,
    by rw [own]; rfl, by rw [own]; rfl, fun key e before => ?_⟩
  exact State.reports_raise (s := (s.setKeyok ch false).setChannel ch _) before _ _ _

theorem State.permitFallen_reports : (s.permitFallen ch).reports (.channel ch) .permitLost := State.reports_raiseEvent _ _ _

theorem State.permitFallen_anythingEligible : (s.permitFallen ch).anythingEligible ch = s.anythingEligible ch := by
  have own : (s.permitFallen ch).channel ch = { s.channel ch with silenceStop := false, output := none } :=
    (s.permitFallen_channel ch ch).trans (if_pos rfl)
  refine State.anythingEligible_of_same (by rw [own]) (by rw [own]) (by rw [own]) rfl rfl fun c => ?_
  have onAir : (s.permitFallen ch).onAir c = s.onAir c :=
    (State.setChannel_onAir (s := s.setKeyok ch false) (y := { s.channel ch with silenceStop := false, output := none })
      rfl c).trans rfl
  rw [State.waiting, onAir]
  rfl

variable {s ch}

/-- The channel once its turn, if it has one, is stopped. -/
theorem State.permitStopped_own (deaf : (s.channel ch).deaf) : ∃ queue bound,
    ((s.permitFallen ch).stopTurn ch .permit).channel ch = { s.channel ch with
      queue := queue, bound := bound, turn := none, output := none, silenceStop := false } := by
  have own : (s.permitFallen ch).channel ch = { s.channel ch with silenceStop := false, output := none } :=
    (s.permitFallen_channel ch ch).trans (if_pos rfl)
  cases turn : (s.channel ch).turn with
  | none =>
    have stops : (s.permitFallen ch).stopTurn ch .permit = s.permitFallen ch := by rw [State.stopTurn, own, turn]
    refine ⟨(s.channel ch).queue, (s.channel ch).bound, ?_⟩
    rw [stops, own, ← turn]
  | some t =>
    have turn' : ((s.permitFallen ch).channel ch).turn = some t := by rw [own, turn]
    obtain ⟨queue, bound, ended⟩ := State.endTurn_own (s := s.permitFallen ch) (by rw [own]; exact deaf) turn'
      (t.stopEnding .permit)
    refine ⟨queue, bound, ?_⟩
    rw [State.stopTurn_of_turn turn', ended, own]

theorem State.fallKeyok_of_still (still : (s.channel ch).state ∉ [.keyed, .stopping]) :
    s.fallKeyok ch = s.setKeyok ch false := by
  have level : (s.setKeyok ch false).channel ch = s.channel ch := rfl
  unfold State.fallKeyok
  dsimp only
  rw [level]
  cases here : (s.channel ch).state <;> simp_all

theorem State.fallKeyok_of_stopping (stopping : (s.channel ch).state = .stopping) :
    s.fallKeyok ch = ((s.permitFallen ch).stopTurn ch .permit).enterOff ch := by
  have level : (s.setKeyok ch false).channel ch = s.channel ch := rfl
  unfold State.fallKeyok
  dsimp only
  rw [level, stopping, ← State.permitFallen]

/-- A KEYED channel requests again, or is IDLE where it had no turn and nothing is eligible. -/
theorem State.fallKeyok_of_keyed (keyed : (s.channel ch).state = .keyed) : s.fallKeyok ch =
    if (s.channel ch).turn.isSome = true ∨ s.anythingEligible ch = true then
      ((s.permitFallen ch).stopTurn ch .permit).requestAgain ch
    else ((s.permitFallen ch).stopTurn ch .permit).release ch := by
  have level : (s.setKeyok ch false).channel ch = s.channel ch := rfl
  have own : (s.permitFallen ch).channel ch = { s.channel ch with silenceStop := false, output := none } :=
    (s.permitFallen_channel ch ch).trans (if_pos rfl)
  unfold State.fallKeyok
  dsimp only
  rw [level, keyed, ← State.permitFallen, State.permitFallen_anythingEligible, own]
  dsimp only
  cases turn : (s.channel ch).turn with
  | some t => simp
  | none =>
    have stops : (s.permitFallen ch).stopTurn ch .permit = s.permitFallen ch := by rw [State.stopTurn, own, turn]
    rw [stops]
    simp

theorem exec_permitLoss_of_fall (released : s.resetHeld = false) (high : s.keyokOf ch = true) :
    exec (.permitLoss ch) s = .next (s.fallKeyok ch).arbitrate := by
  have falls : exec (.permitLoss ch) s =
      event (fun s => if s.keyokOf ch then s.fallKeyok ch else s) s := if_neg (by simp [released])
  rw [falls, event_of_released released, high, if_pos rfl]

end

end Sys2Proof.Machine
end

section
/-! PROOFS. The fall of KEYOK is a permit loss (06: R94, R100, R105; 09: R158 to R160). -/

namespace Sys2Proof.Machine

section

variable {s : State} {ch : Fin 8}

theorem State.requestAgain_moves (s : State) (ch : Fin 8) : s.Moves (s.requestAgain ch) := State.Moves.refl.requestAgain ch

/-- What the loss of the permit and its stop leave of the rest. -/
theorem State.permitStopped_moves (s : State) (ch : Fin 8) :
    (s.permitFallen ch).Moves ((s.permitFallen ch).stopTurn ch .permit) := State.Moves.refl.stopTurn ch .permit

/-- The whole of the frame, from any later move. -/
theorem State.permitFallen_frame {u : State} (moves : (s.permitFallen ch).Moves u) :
    u.keyok = s.keyok.set ch.val false ∧ u.reports (.channel ch) .permitLost ∧ u.now = s.now ∧ u.clock = s.clock ∧
      u.link = s.link ∧ u.store.cells = s.store.cells := by
  refine ⟨?_, moves.reports (s.permitFallen_reports ch), ?_⟩
  · rw [moves.only]
    rfl
  · rw [moves.only]
    exact ⟨rfl, rfl, rfl, rfl⟩

/-- A KEYED channel's turn ended by the loss, and a later write to the channel that keeps its lists and its profile. -/
theorem State.permitLost_ended (deaf : (s.channel ch).deaf) {y : Channel}
    (written : ∃ queue bound, ((s.permitFallen ch).stopTurn ch .permit).channel ch = { s.channel ch with
      queue := queue, bound := bound, turn := none, output := none, silenceStop := false } ∧
      y.queue = queue ∧ y.bound = bound) (turn : y.turn = none) (profile : y.profile = (s.channel ch).profile) :
    (∀ t p, (s.channel ch).turn = some t → t.kind = .pass p →
      (s.setKeyok ch false).passEnded ch p (t.outcomeOf p .interrupted)
        (((s.permitFallen ch).stopTurn ch .permit).setChannel ch y)) ∧
    ∀ t c, (s.channel ch).turn = some t → t.kind = .telex c → (s.circuit c.circuit).channel = ch →
      (s.setKeyok ch false).telexEnded ch c.circuit ((s.circuit c.circuit).resume || decide (1 ≤ c.bodyCount))
        (((s.permitFallen ch).stopTurn ch .permit).setChannel ch y) := by
  obtain ⟨queue, bound, own, queued, listed⟩ := written
  have beside := s.permitFallen_beside ch
  have deaf : ((s.setKeyok ch false).channel ch).deaf := deaf
  have same : ((s.permitFallen ch).channel ch).turn = (s.channel ch).turn := by
    rw [State.permitFallen_channel, if_pos rfl]
  refine ⟨fun t p had kind => ?_, fun t c had kind home => ?_⟩
  · refine State.passEnded_setChannel (State.passEnded_of_stopTurn beside deaf (same.trans had) kind .permit) ?_ ?_ ?_
    · rw [own, queued]
    · rw [own, listed]
    · rw [own, profile]
  · refine State.telexEnded_setChannel (State.telexEnded_of_stopTurn beside deaf (same.trans had) kind home .permit)
      ?_ ?_ ?_ ?_
    · rw [own, turn]
    · rw [own, queued]
    · rw [own, listed]
    · rw [own, profile]

end

/-- Settles O44. -/
theorem keyokFallIsAPermitLoss : Obligations.KeyokFallIsAPermitLoss := by
  intro ch s released high x period lost
  have exec := exec_permitLoss_of_fall released high
  refine ⟨fun still => by rw [exec, State.fallKeyok_of_still still]; rfl, fun state => ?_⟩
  have deaf : (s.channel ch).deaf := List.mem_pair.mp state
  obtain ⟨queue, bound, own⟩ := State.permitStopped_own deaf
  have now : ((s.permitFallen ch).stopTurn ch .permit).now = s.now := by
    rw [(s.permitStopped_moves ch).only]
    rfl
  have beside := s.permitFallen_beside ch
  have same : ((s.permitFallen ch).channel ch).turn = (s.channel ch).turn := by
    rw [State.permitFallen_channel, if_pos rfl]
  rcases deaf with keyed | stopping
  · by_cases goesOn : (s.channel ch).turn.isSome = true ∨ s.anythingEligible ch = true
    · have falls := (State.fallKeyok_of_keyed keyed).trans (if_pos goesOn)
      rw [falls] at exec
      obtain ⟨keyok, permitLost, now', clock, link, cells⟩ := State.permitFallen_frame
        ((s.permitStopped_moves ch).requestAgain ch)
      have after : (((s.permitFallen ch).stopTurn ch .permit).requestAgain ch).channel ch = { s.channel ch with
          queue := queue, bound := bound, turn := none, output := none, silenceStop := false
          state := .requesting, keyreq := true, holdCount := 0, permitTimer := some ⟨period, s.now + period⟩ } := by
        rw [State.requestAgain, State.channel_setChannel, if_pos rfl, own, State.startTimer, now]
        rfl
      obtain ⟨pass, telex⟩ := State.permitLost_ended (s := s) (.inl keyed)
        (y := (((s.permitFallen ch).stopTurn ch .permit).requestAgain ch).channel ch)
        ⟨queue, bound, own, by rw [after], by rw [after]⟩ (by rw [after]) (by rw [after])
      have writes : ((s.permitFallen ch).stopTurn ch .permit).setChannel ch
          ((((s.permitFallen ch).stopTurn ch .permit).requestAgain ch).channel ch) =
          ((s.permitFallen ch).stopTurn ch .permit).requestAgain ch := by
        rw [State.requestAgain, State.channel_setChannel, if_pos rfl]
      rw [writes] at pass telex
      refine ⟨_, _, exec, keyok, permitLost, by rw [after], by rw [after], by rw [after], now', clock, link, cells,
        by rw [after], fun stopping => ?_, fun _ => rfl, fun _ _ => by rw [after]; exact ⟨rfl, rfl, rfl⟩,
        fun _ absent nothing => ?_, pass, telex⟩
      · rw [show x.state = .keyed from keyed] at stopping
        cases stopping
      · rcases goesOn with present | eligible
        · rw [show (s.channel ch).turn = none from absent] at present
          cases present
        · rw [nothing] at eligible
          cases eligible
    · have falls := (State.fallKeyok_of_keyed keyed).trans (if_neg goesOn)
      rw [falls] at exec
      obtain ⟨keyok, permitLost, now', clock, link, cells⟩ := State.permitFallen_frame ((s.permitStopped_moves ch).release ch)
      have after : (((s.permitFallen ch).stopTurn ch .permit).release ch).channel ch = { s.channel ch with
          queue := queue, bound := bound, turn := none, output := none, silenceStop := false
          state := .idle, keyreq := false, holdCount := 0 } := by
        rw [State.release, State.channel_setChannel, if_pos rfl, own]
      have idle : ∀ t, ¬ (s.channel ch).turn = some t := fun t turn => goesOn (.inl (by rw [turn]; rfl))
      refine ⟨_, _, exec, keyok, permitLost, by rw [after], by rw [after], by rw [after], now', clock, link, cells,
        by rw [after], fun stopping => ?_, fun _ => rfl, fun _ some => absurd some goesOn, fun _ _ _ => by
          rw [after]; exact ⟨rfl, rfl⟩, fun t _ turn => absurd turn (idle t), fun t _ turn => absurd turn (idle t)⟩
      rw [show x.state = .keyed from keyed] at stopping
      cases stopping
  · rw [State.fallKeyok_of_stopping stopping] at exec
    have deaf : ((s.setKeyok ch false).channel ch).deaf := .inr stopping
    obtain ⟨keyok, permitLost, now', clock, link, cells⟩ := State.permitFallen_frame ((s.permitStopped_moves ch).enterOff ch)
    have after := State.enterOff_channel ((s.permitFallen ch).stopTurn ch .permit) ch ch
    rw [if_pos rfl] at after
    have other : x.state ≠ .keyed := by
      rw [show x.state = .stopping from stopping]
      decide
    refine ⟨(s.permitFallen ch).stopTurn ch .permit, _, exec, keyok, permitLost, by rw [after]; rfl, by rw [after]; rfl,
      by rw [after]; rfl, now', clock, link, cells, by rw [after, own], fun _ => State.wentOff_of_enterOff _ ch,
      fun keyed => absurd keyed other, fun keyed => absurd keyed other, fun keyed => absurd keyed other,
      fun t p turn kind => State.passEnded_of_stopTurn beside deaf (same.trans turn) kind .permit,
      fun t c turn kind home => State.telexEnded_of_stopTurn beside deaf (same.trans turn) kind home .permit⟩

end Sys2Proof.Machine
end

section
/-! PROOFS. The completion of a symbol (06: R93, R108, R109), and the last symbol of a turn (08: R140, R148, R150). -/

namespace Sys2Proof.Machine

/-! ## The symbol that completes (06: R108, R109) -/

theorem Channel.finishSymbol_eq (x : Channel) (y : Symbol) : x.finishSymbol y =
    { x with shift := x.shiftAfter y, substitutions := x.substitutionsAfter y } := by
  cases y with
  | data sent source =>
    unfold Channel.finishSymbol Channel.substitutionsAfter
    dsimp only
    split <;> simp [Channel.shiftAfter, saturate, Config.counterMax]
  | idle | phase | shiftLetters | shiftFigures => rfl

/-- The record once the symbol is complete and a pending stop is taken up. -/
def Channel.symbolDone (x : Channel) (y : Symbol) : Channel :=
  { x with shift := x.shiftAfter y, substitutions := x.substitutionsAfter y, silenceStop := false }

/-- The state once the symbol in progress is complete, before the work of its completion. -/
def State.symbolDone (s : State) (ch : Fin 8) (e : Emission) : State :=
  ({ s with now := max s.now e.due } : State).setChannel ch ((s.channel ch).symbolDone e.symbol)

section

variable {s : State} {ch : Fin 8} {e : Emission}

theorem State.symbolDone_channel (s : State) (ch : Fin 8) (e : Emission) (j : Fin 8) : (s.symbolDone ch e).channel j =
    if ch = j then (s.channel ch).symbolDone e.symbol else s.channel j := State.channel_setChannel _ _ _ _

theorem State.symbolDone_own (s : State) (ch : Fin 8) (e : Emission) :
    (s.symbolDone ch e).channel ch = (s.channel ch).symbolDone e.symbol := (s.symbolDone_channel ch e ch).trans (if_pos rfl)

theorem State.completeSymbol_eq (output : (s.channel ch).output = some e) : s.completeSymbol ch =
    match (s.channel ch).turn with
    | none => (s.symbolDone ch e).completeHold ch (s.channel ch).silenceStop
    | some t => ((s.symbolDone ch e).completeTurn ch t e.symbol).1.goOn ch (s.channel ch).silenceStop
        ((s.symbolDone ch e).completeTurn ch t e.symbol).2 := by
  have done : (s.reach e.due).setChannel ch { ((s.reach e.due).channel ch).finishSymbol e.symbol with silenceStop := false } =
      s.symbolDone ch e := by
    rw [Channel.finishSymbol_eq]
    rfl
  have turn : ((s.symbolDone ch e).channel ch).turn = (s.channel ch).turn := by
    rw [State.symbolDone_own]
    rfl
  unfold State.completeSymbol
  rw [output]
  dsimp only
  rw [done, turn]
  cases (s.channel ch).turn <;> rfl

theorem State.completeSymbol_of_turn (output : (s.channel ch).output = some e) {t : Turn}
    (turn : (s.channel ch).turn = some t) : s.completeSymbol ch =
      ((s.symbolDone ch e).completeTurn ch t e.symbol).1.goOn ch (s.channel ch).silenceStop
        ((s.symbolDone ch e).completeTurn ch t e.symbol).2 := by
  rw [State.completeSymbol_eq output, turn]

theorem State.completeSymbol_of_hold (output : (s.channel ch).output = some e) (turn : (s.channel ch).turn = none) :
    s.completeSymbol ch = (s.symbolDone ch e).completeHold ch (s.channel ch).silenceStop := by
  rw [State.completeSymbol_eq output, turn]

theorem exec_symbolCompletion (released : s.resetHeld = false) (ch : Fin 8) :
    exec (.symbolCompletion ch) s = .next (s.completeSymbol ch).arbitrate :=
  event_of_released released fun s => s.completeSymbol ch

end

/-! ## Writes to the turn -/

section

variable (s : State) (ch : Fin 8) (x : Channel) (f : Turn → Turn)

/-- A write to the turn of a channel just written. -/
theorem State.mapTurn_setChannel : (s.setChannel ch x).mapTurn ch f = s.setChannel ch { x with turn := x.turn.map f } := by
  rw [State.mapTurn, State.channel_setChannel, if_pos rfl, State.setChannel_setChannel]

theorem State.mapTurn_own {t : Turn} (turn : (s.channel ch).turn = some t) : (s.mapTurn ch f).channel ch =
    { s.channel ch with turn := some (f t) } := by
  rw [State.mapTurn, State.channel_setChannel, if_pos rfl, turn]
  rfl

theorem State.symbolDone_mapTurn (e : Emission) : (s.symbolDone ch e).mapTurn ch f =
    ({ s with now := max s.now e.due } : State).setChannel ch
      { (s.channel ch).symbolDone e.symbol with turn := (s.channel ch).turn.map f } := by
  rw [State.symbolDone, State.mapTurn_setChannel]
  rfl

end

/-! ## The last symbol of a turn -/

section

variable {s : State} {ch : Fin 8} {t : Turn} {e : Emission}

/-- The state at which a turn ends after the work of a symbol that has left the queue of its circuit alone. -/
theorem State.symbolDone_beside (e : Emission) {y : Channel} (state : y.state = (s.channel ch).state)
    (queue : y.queue = (s.channel ch).queue) (bound : y.bound = (s.channel ch).bound)
    (profile : y.profile = (s.channel ch).profile) :
    ({ s with now := max s.now e.due } : State).Beside (({ s with now := max s.now e.due } : State).setChannel ch y) ch := by
  have own : (({ s with now := max s.now e.due } : State).setChannel ch y).channel ch = y :=
    (State.channel_setChannel _ _ _ _).trans (if_pos rfl)
  exact ⟨rfl, fun j other => (State.channel_setChannel _ _ _ _).trans (if_neg other.symm), by rw [own, state]; rfl,
    by rw [own, queue]; rfl, by rw [own, bound]; rfl, by rw [own, profile]; rfl, fun key e before => before⟩

/-- The completion of a character of a trailer or of a closing sequence. -/
theorem State.completeTurn_of_closing (s : State) (ch : Fin 8) (phase : t.phase ∈ [.trailer, .closing]) (sent source : Byte) :
    s.completeTurn ch t (.data sent source) = s.completeClosing ch t := by
  have phase := List.mem_pair.mp phase
  rw [State.completeTurn, State.completePhase]
  rcases phase with trailer | closing
  · rw [trailer]
  · rw [closing]

/-- Settles O51. -/
theorem lastSymbolEndsTheTurn : Obligations.LastSymbolEndsTheTurn := by
  intro ch t sent source due s released turn phase last output state later
  have deaf : (later.channel ch).deaf := List.mem_pair.mp state
  obtain ⟨a, isA⟩ : ∃ a, a = later.setChannel ch { (s.channel ch).symbolDone (.data sent source) with
      turn := some { t with textPosition := t.textPosition + 1 } } := ⟨_, rfl⟩
  have own : a.channel ch = { (s.channel ch).symbolDone (.data sent source) with
      turn := some { t with textPosition := t.textPosition + 1 } } := by
    rw [isA]
    exact (State.channel_setChannel _ _ _ _).trans (if_pos rfl)
  have beside : later.Beside a ch := by
    rw [isA]
    exact State.symbolDone_beside ⟨.data sent source, due⟩ rfl rfl rfl rfl
  have turn' : (a.channel ch).turn = some { t with textPosition := t.textPosition + 1 } := by rw [own]
  have ends : s.completeSymbol ch = (a.endTurn ch t.naturalEnding).afterTurnEnd ch := by
    have written : (s.symbolDone ch ⟨.data sent source, due⟩).mapTurn ch
        (fun t => { t with textPosition := t.textPosition + 1 }) = a := by
      rw [State.symbolDone_mapTurn, turn, isA]
      rfl
    have works : (s.symbolDone ch ⟨.data sent source, due⟩).completeClosing ch t = (a, .turnEnds) := by
      rw [State.completeClosing, if_pos last, ← written, State.symbolDone_mapTurn, State.symbolDone_mapTurn, turn]
      rfl
    rw [State.completeSymbol_of_turn output turn, State.completeTurn_of_closing _ ch phase, works]
    dsimp only
    rw [State.goOn, turn']
    rfl
  obtain ⟨queue, bound, ended⟩ := State.endTurn_own (s := a) (by rw [own]; exact deaf) turn' t.naturalEnding
  rw [own] at ended
  have moves : a.Moves (a.endTurn ch t.naturalEnding) := State.Moves.refl.endTurn ch t.naturalEnding
  have after : a.Moves ((a.endTurn ch t.naturalEnding).afterTurnEnd ch) := moves.afterTurnEnd ch
  have silence : (a.endTurn ch t.naturalEnding).silence = a.silence ∧ (a.endTurn ch t.naturalEnding).keyok = a.keyok := by
    rw [moves.only]
    exact ⟨rfl, rfl⟩
  have frame : ((a.endTurn ch t.naturalEnding).afterTurnEnd ch).now = a.now ∧
      ((a.endTurn ch t.naturalEnding).afterTurnEnd ch).clock = a.clock ∧
      ((a.endTurn ch t.naturalEnding).afterTurnEnd ch).link = a.link ∧
      ((a.endTurn ch t.naturalEnding).afterTurnEnd ch).store.cells = a.store.cells := by
    rw [after.only]
    exact ⟨rfl, rfl, rfl, rfl⟩
  obtain ⟨now, clock, link, cells⟩ := frame
  refine ⟨a.endTurn ch t.naturalEnding, (a.endTurn ch t.naturalEnding).afterTurnEnd ch,
    by rw [exec_symbolCompletion released, ends], by rw [now, isA]; rfl, by rw [clock, isA]; rfl, by rw [link, isA]; rfl,
    by rw [cells, isA]; rfl, ⟨by rw [silence.1, isA]; rfl, by rw [silence.2, isA]; rfl, by rw [ended]; rfl⟩,
    fun keyed => ?_, fun stopping => ?_, fun p kind => ?_, fun c kind home => ?_⟩
  · have state : ((a.endTurn ch t.naturalEnding).channel ch).state = .keyed := by
      rw [ended]
      exact keyed
    rw [State.afterTurnEnd, state]
    exact State.selected_of_select _ false ch
  · have state : ((a.endTurn ch t.naturalEnding).channel ch).state = .stopping := by
      rw [ended]
      exact stopping
    rw [State.afterTurnEnd, state]
    exact State.wentOff_of_enterOff _ ch
  · rw [← PassTurn.outcome_naturalEnding]
    exact State.passEnded_of_endTurn beside deaf turn' kind _
  · have marks : resumeAfter (s.circuit c.circuit).resume c.bodyCount t.naturalEnding =
        ((s.circuit c.circuit).resume || (t.cutInProgress.isSome && decide (1 ≤ c.bodyCount))) := by
      rw [Turn.naturalEnding]
      cases t.cutInProgress with
      | none => exact (Bool.or_false _).symm
      | some r => rfl
    have telex := State.telexEnded_of_endTurn beside deaf turn' kind home t.naturalEnding
    rw [← marks]
    exact telex

end

end Sys2Proof.Machine
end

section
/-! PROOFS. The work of a completion, phase by phase (08: R129 to R149). -/

namespace Sys2Proof.Machine

/-! ## A state by what it is beside the turn of one channel -/

/-- The state with this record and this turn on the channel. -/
def State.inTurn (w : State) (ch : Fin 8) (x : Channel) (t : Turn) : State := w.setChannel ch { x with turn := some t }

section

variable (w : State) (ch : Fin 8) (x : Channel) (t : Turn)

theorem State.inTurn_channel (j : Fin 8) :
    (w.inTurn ch x t).channel j = if ch = j then { x with turn := some t } else w.channel j :=
  State.channel_setChannel _ _ _ _

theorem State.inTurn_own : (w.inTurn ch x t).channel ch = { x with turn := some t } :=
  (w.inTurn_channel ch x t ch).trans (if_pos rfl)

theorem State.inTurn_other {j : Fin 8} (other : j ≠ ch) : (w.inTurn ch x t).channel j = w.channel j :=
  (w.inTurn_channel ch x t j).trans (if_neg other.symm)

theorem State.inTurn_settings : ((w.inTurn ch x t).channel ch).settings = x.settings := by
  rw [State.inTurn_own]
  rfl

theorem State.inTurn_circuit (d : Fin 32) : (w.inTurn ch x t).circuit d = w.circuit d := rfl

theorem State.inTurn_bulletin (n : Fin 64) : (w.inTurn ch x t).bulletin n = w.bulletin n := rfl

theorem State.inTurn_mapTurn (f : Turn → Turn) : (w.inTurn ch x t).mapTurn ch f = w.inTurn ch x (f t) :=
  State.mapTurn_setChannel w ch _ f

theorem State.inTurn_raise (key : NoticeKey) (e : Option NoticeEvent) (a : Counts) :
    (w.inTurn ch x t).raise key e a = (w.raise key e a).inTurn ch x t := rfl

theorem State.inTurn_setCircuit (c : Fin 32) (y : Circuit) :
    (w.inTurn ch x t).setCircuit c y = (w.setCircuit c y).inTurn ch x t := rfl

end

/-- The state once the symbol is complete, before the work of its completion. -/
theorem State.symbolDone_inTurn {s : State} {ch : Fin 8} {t : Turn} (turn : (s.channel ch).turn = some t) (e : Emission) :
    s.symbolDone ch e = ({ s with now := max s.now e.due } : State).inTurn ch ((s.channel ch).symbolDone e.symbol) t := by
  rw [State.inTurn, State.symbolDone, ← turn]
  rfl

/-! ## LEAD, PREAMBLE, HEADER, and the texts that close a turn -/

section

variable (w : State) (ch : Fin 8) (x : Channel) (t : Turn)

theorem State.completeLead_inTurn : (w.inTurn ch x t).completeLead ch t =
    if t.pendingCut.isSome then (w.inTurn ch x { t with phaseCount := t.phaseCount + 1 }, .cutFalls)
    else if x.settings.lead ≤ t.phaseCount + 1 then
      (w.inTurn ch x { t with phase := .preamble, phaseCount := 0 }, .goOn)
    else (w.inTurn ch x { t with phaseCount := t.phaseCount + 1 }, .goOn) := by
  rw [State.completeLead]
  simp only [State.inTurn_mapTurn, State.inTurn_settings]

theorem State.completePreamble_inTurn : (w.inTurn ch x t).completePreamble ch t =
    if t.pendingCut.isSome then (w.inTurn ch x { t with phaseCount := t.phaseCount + 1 }, .cutFalls)
    else if x.settings.phasing ≤ t.phaseCount + 1 then
      (w.inTurn ch x ({ t with phaseCount := t.phaseCount + 1 }.enterText .header (w.headerText t.kind)), .goOn)
    else (w.inTurn ch x { t with phaseCount := t.phaseCount + 1 }, .goOn) := by
  have header : ∀ t', (w.inTurn ch x t').headerText t.kind = w.headerText t.kind := fun t' => by cases t.kind <;> rfl
  rw [State.completePreamble]
  simp only [State.inTurn_mapTurn, State.inTurn_settings, header]

theorem State.enterGap_inTurn (p : PassTurn) : (w.inTurn ch x t).enterGap ch p =
    (w.raiseEvent (.channel ch) .gapStart).inTurn ch x { t with
      phase := .gap, kind := .pass { p with gapTimer := some (w.startTimer (Config.seconds w.gapTimeout)) } } := by
  rw [State.enterGap]
  simp only [State.inTurn_mapTurn]
  rfl

theorem State.enterBody_telex {c : TelexTurn} (kind : t.kind = .telex c) (t' : Turn) :
    (w.inTurn ch x t').enterBody ch t =
      (w.setCircuit c.circuit { w.circuit c.circuit with resume := false }).inTurn ch x
        { t' with phase := .body, kind := .telex { c with bodyCount := 0, graceCount := 0 } } := by
  rw [State.enterBody, kind]
  dsimp only
  rw [State.inTurn_setCircuit, State.inTurn_mapTurn]
  rfl

theorem State.enterBody_pass {p : PassTurn} (kind : t.kind = .pass p) (t' : Turn) :
    (w.inTurn ch x t').enterBody ch t =
      if w.bodyWritten { p with bodyOffset := 0 } then
        w.inTurn ch x { t' with phase := .body, kind := .pass { p with bodyOffset := 0 } }
      else (w.raiseEvent (.channel ch) .gapStart).inTurn ch x { t' with
        phase := .gap, kind := .pass { p with
          bodyOffset := 0, gapTimer := some (w.startTimer (Config.seconds w.gapTimeout)) } } := by
  have written : ∀ t', (w.inTurn ch x t').bodyWritten { p with bodyOffset := 0 } =
      w.bodyWritten { p with bodyOffset := 0 } := fun t' => rfl
  rw [State.enterBody, kind]
  simp only [State.inTurn_mapTurn, State.enterGap_inTurn, written]

theorem State.completeHeader_inTurn : (w.inTurn ch x t).completeHeader ch t =
    if t.pendingCut.isSome then (w.inTurn ch x { t with textPosition := t.textPosition + 1 }, .cutFalls)
    else if t.text.length ≤ t.textPosition + 1 then
      ((w.inTurn ch x { t with textPosition := t.textPosition + 1 }).enterBody ch t, .goOn)
    else (w.inTurn ch x { t with textPosition := t.textPosition + 1 }, .goOn) := by
  rw [State.completeHeader]
  simp only [State.inTurn_mapTurn]

theorem State.completeClosing_inTurn : (w.inTurn ch x t).completeClosing ch t =
    (w.inTurn ch x { t with textPosition := t.textPosition + 1 },
      if t.text.length ≤ t.textPosition + 1 then .turnEnds else .goOn) := by
  rw [State.completeClosing]
  simp only [State.inTurn_mapTurn]

/-! ## The body and the gap of a pass -/

theorem State.completePassChar_inTurn (p : PassTurn) (source : Byte) :
    (w.inTurn ch x t).completePassChar ch t p source =
      let next : Turn := { t.countUrgency with kind := .pass { p with bodyOffset := p.bodyOffset + 1 } }
      if p.length ≤ p.bodyOffset + 1 then (w.inTurn ch x next.enterTrailer, .goOn)
      else if next.cutInBody (isBreakChar source) then (w.inTurn ch x next, .cutFalls)
      else if w.bodyWritten { p with bodyOffset := p.bodyOffset + 1 } then (w.inTurn ch x next, .goOn)
      else ((w.raiseEvent (.channel ch) .gapStart).inTurn ch x { next with
        phase := .gap, kind := .pass { p with
          bodyOffset := p.bodyOffset + 1, gapTimer := some (w.startTimer (Config.seconds w.gapTimeout)) } }, .goOn) := by
  have written : ∀ t', (w.inTurn ch x t').bodyWritten { p with bodyOffset := p.bodyOffset + 1 } =
      w.bodyWritten { p with bodyOffset := p.bodyOffset + 1 } := fun t' => rfl
  rw [State.completePassChar]
  simp only [State.inTurn_mapTurn, State.enterGap_inTurn, written]

theorem State.completeGap_inTurn (p : PassTurn) : (w.inTurn ch x t).completeGap ch t p =
    if p.abandoned then (w.inTurn ch x t.enterBreak, .goOn)
    else if t.pendingCut.isSome then (w.inTurn ch x t, .cutFalls)
    else if w.bodyWritten p then
      ((w.raiseEvent (.channel ch) .gapEnd).inTurn ch x { t with phase := .body, kind := t.kind.stopGapTimer }, .goOn)
    else (w.inTurn ch x t, .goOn) := by
  have written : (w.inTurn ch x t).bodyWritten p = w.bodyWritten p := rfl
  rw [State.completeGap]
  simp only [State.inTurn_mapTurn, written]
  rfl

/-! ## The body of a telex turn -/

theorem State.testTelexBody_inTurn {c : TelexTurn} (kind : t.kind = .telex c) (boundary : Bool) :
    (w.inTurn ch x t).testTelexBody ch boundary =
      if t.cutInBody boundary then (w.inTurn ch x t, .cutFalls)
      else if bodyEnds x.settings (w.circuit c.circuit) c boundary then (w.inTurn ch x t.enterTrailer, .goOn)
      else (w.inTurn ch x t, .goOn) := by
  rw [State.testTelexBody, State.inTurn_own]
  dsimp only
  rw [kind]
  dsimp only
  rw [State.inTurn_mapTurn]
  rfl

/-- What leaves the queue of a circuit does not concern the channels. -/
theorem State.reportTo_setChannel (y : Channel) (c : Fin 32) :
    (w.setChannel ch y).reportTo c = (w.reportTo c).setChannel ch y := by
  rw [State.reportTo, State.reportTo, State.setChannel_circuit]
  split <;> rfl

theorem State.returnReport_setChannel (y : Channel) :
    (w.setChannel ch y).returnReport = w.returnReport.setChannel ch y := by
  have reports : ∀ (l : List (Fin 32)) (v : State),
      l.foldl State.reportTo (v.setChannel ch y) = (l.foldl State.reportTo v).setChannel ch y := fun l => by
    induction l with
    | nil => exact fun _ => rfl
    | cons c l ih => exact fun v => by rw [List.foldl_cons, State.reportTo_setChannel, ih, List.foldl_cons]
  exact reports _ w

theorem State.emissionTest_setChannel (y : Channel) (c : Fin 32) :
    (w.setChannel ch y).emissionTest c = (w.emissionTest c).setChannel ch y := by
  unfold State.emissionTest
  rw [State.setChannel_circuit]
  dsimp only
  split
  · cases (w.circuit c).flow with
    | flowing | pausedThreshold => rfl
    | pausedStore =>
      dsimp only
      rw [show (w.setChannel ch y).freeCount = w.freeCount from rfl]
      split <;> rfl
  · rfl

theorem State.leaveQueue_inTurn (c : Fin 32) : (w.inTurn ch x t).leaveQueue c = (w.leaveQueue c).inTurn ch x t := by
  have left : ((w.inTurn ch x t).setCircuit c { w.circuit c with chain := (w.circuit c).chain.leave.1 }).returnBlocks
      (w.circuit c).chain.leave.2 = ((w.setCircuit c { w.circuit c with chain := (w.circuit c).chain.leave.1 }).returnBlocks
        (w.circuit c).chain.leave.2).setChannel ch { x with turn := some t } := rfl
  unfold State.leaveQueue
  rw [State.inTurn_circuit]
  dsimp only
  rw [left, State.emissionTest_setChannel, State.returnReport_setChannel]
  split <;> rfl

theorem State.completeTelexChar_inTurn {c : TelexTurn} (source : Byte) :
    (w.inTurn ch x t).completeTelexChar ch c source =
      if (w.circuit c.circuit).count = 0 then (w.inTurn ch x t).testTelexBody ch true
      else ((w.leaveQueue c.circuit).inTurn ch x { t.countUrgency with
        kind := .telex { c with bodyCount := c.bodyCount + 1, graceCount := 0 } }).testTelexBody ch
          (isBreakChar source || ((w.leaveQueue c.circuit).circuit c.circuit).count = 0) := by
  unfold State.completeTelexChar
  rw [State.inTurn_circuit]
  split
  · next empty =>
    dsimp only
    rw [State.inTurn_circuit, empty, decide_eq_true rfl, Bool.or_true]
  · rw [State.inTurn_mapTurn, State.leaveQueue_inTurn]
    rfl

theorem State.completeTelexIdle_inTurn {c : TelexTurn} :
    (w.inTurn ch x t).completeTelexIdle ch t c =
      if (w.circuit c.circuit).count = 0 then
        (w.inTurn ch x { t with kind := .telex { c with graceCount := c.graceCount + 1 } }).testTelexBody ch true
      else (w.inTurn ch x { t with kind := .telex { c with graceCount := 0 } },
        if t.cutInBody false then .cutFalls else .goOn) := by
  unfold State.completeTelexIdle
  rw [State.inTurn_circuit, State.inTurn_mapTurn, State.inTurn_mapTurn]

end

end Sys2Proof.Machine
end

section
/-! PROOFS. How a symbol begins (06: R108, R109; 08: R129), and the texts of a turn (08: R132, R134, R140, R149; 09:
R157). -/

namespace Sys2Proof.Machine

/-! ## Texts -/

theorem decimal_eq (n : Nat) : decimal n = revisionOctets n := by
  unfold decimal revisionOctets
  split
  · next one => rw [if_neg (by omega), if_neg (by omega)]; rfl
  · next several =>
    rw [if_pos (show 10 ≤ n by omega)]
    split
    · next two => rw [if_neg (by omega)]; rfl
    · next three => rw [if_pos (by omega)]; rfl

theorem Category.code_eq (k : Category) : k.code = categoryOctets k := by cases k <;> rfl

theorem State.headerText_eq (s : State) (k : TurnKind) : s.headerText k = s.headerOctets k := by
  cases k with
  | telex c => rfl
  | pass p =>
    rw [State.headerText, State.headerOctets, passHeader, Category.code_eq, decimal_eq]
    rfl

theorem trailerText_eq (k : TurnKind) : trailerText k = trailerOctets k := by cases k <;> rfl

theorem closingSequence_eq (k : TurnKind) (r : CutReason) : closingSequence k r = closingOctets k r := by
  cases k <;> cases r <;> rfl

theorem closingOctets_head (k : TurnKind) (r : CutReason) : ∃ rest, closingOctets k r = 0x0D :: rest := by
  cases k <;> cases r <;> exact ⟨_, rfl⟩

theorem trailerOctets_head (k : TurnKind) : ∃ rest, trailerOctets k = 0x0D :: rest := by
  cases k <;> exact ⟨_, rfl⟩

/-- Every header, which ends in CR LF, has a first character. -/
theorem State.headerOctets_head (s : State) (k : TurnKind) : ∃ c, (s.headerOctets k).head? = some c := by
  have filled : s.headerOctets k ≠ [] := by
    cases k <;> simp [State.headerOctets]
  exact ⟨_, List.head?_eq_some_head filled⟩

/-! ## A character begins (06: R108) -/

theorem convert_need (code : Code) (c : Byte) : (convert code c).need ≠ some .unknown := by
  unfold convert
  cases code with
  | sevenUnit => nofun
  | fiveUnit => dsimp only; split_ifs <;> nofun

/-- CR needs no shift, under either code. -/
theorem Channel.opening_cr (x : Channel) :
    x.opening 0x0D = (.data (convert x.settings.code 0x0D).sent 0x0D, none) := by
  unfold Channel.opening
  have plain : (convert x.settings.code 0x0D).need = none := by cases x.settings.code <;> decide
  exact if_pos (.inl plain)

/-- The record once the next symbol has begun: a character, or IDLE where there is none. -/
def Channel.begun (x : Channel) (now : Nat) (t : Turn) (c : Option Byte) : Channel :=
  { x with
    output := some ⟨(c.elim (Symbol.idle, none) x.opening).1, now + x.settings.symbolTicks⟩
    turn := some { t with held := (c.elim (Symbol.idle, none) x.opening).2 } }

/-- What begins depends on the profile and the shift state of the channel. -/
theorem Channel.begins_begun {x y : Channel} (profile : y.profile = x.profile) (shift : y.shift = x.shift) (now : Nat)
    (t : Turn) (c : Option Byte) : x.begins now c (y.begun now t c) := by
  have settings : y.settings = x.settings := by rw [Channel.settings, profile, ← Channel.settings]
  have opening : y.opening = x.opening := funext fun c => by rw [Channel.opening, settings, shift, ← Channel.opening]
  refine ⟨?_, ?_⟩
  · rw [Channel.begun, opening, settings]
  · rw [Channel.begun, opening]
    rfl

/-- CR begins in the same way in every shift. -/
theorem Channel.begins_begun_cr {x y : Channel} (profile : y.profile = x.profile) (now : Nat) (t : Turn) :
    x.begins now (some 0x0D) (y.begun now t (some 0x0D)) := by
  have settings : y.settings = x.settings := by rw [Channel.settings, profile, ← Channel.settings]
  refine ⟨?_, ?_⟩
  · simp only [Channel.begun, Option.elim_some, Channel.opening_cr, settings]
  · simp only [Channel.begun, Option.elim_some, Channel.opening_cr, Option.map_some]

section

variable (w : State) (ch : Fin 8) (x : Channel) {t : Turn}

theorem State.emit_inTurn (t : Turn) (y : Symbol) : (w.inTurn ch x t).emit ch y =
    w.setChannel ch { x with output := some ⟨y, w.now + x.settings.symbolTicks⟩, turn := some t } := by
  rw [State.emit, State.inTurn_own, State.inTurn, State.setChannel_setChannel]
  rfl

/-- A data character goes through the conversion (06: R108). -/
theorem State.sendChar_inTurn (held : t.held = none) (c : Byte) :
    (w.inTurn ch x t).sendChar ch c = w.setChannel ch (x.begun w.now t (some c)) := by
  have same : { t with held := none } = t := by rw [← held]
  have known := convert_need x.settings.code c
  unfold State.sendChar
  rw [State.inTurn_own]
  dsimp only
  rw [show ({ x with turn := some t } : Channel).settings = x.settings from rfl]
  simp only [State.inTurn_mapTurn, State.emit_inTurn]
  rw [Channel.begun, Option.elim_some, Channel.opening]
  cases need : (convert x.settings.code c).need with
  | none => simp [same]
  | some shift =>
    cases shift with
    | unknown => exact absurd need known
    | letters | figures => cases x.shift <;> simp [same]

/-! ## The next symbol begins (08: R129) -/

/-- The character that the turn sends next, none where it sends IDLE; a preamble sends PHASE instead. -/
def State.nextChar (w : State) (t : Turn) : Option Byte :=
  match t.phase with
  | .lead | .preamble | .gap => none
  | .header | .closing | .trailer => some (t.text[t.textPosition]?.getD 0x20)
  | .body =>
    match t.kind with
    | .telex c => (w.circuit c.circuit).chain.head? w.store.cells
    | .pass p => some (w.bodyChar p)

theorem State.emit_idle_inTurn (held : t.held = none) :
    (w.inTurn ch x t).emit ch .idle = w.setChannel ch (x.begun w.now t none) := by
  have same : { t with held := none } = t := by rw [← held]
  rw [State.emit_inTurn, Channel.begun, Option.elim_none, same]

theorem State.beginSymbol_inTurn (held : t.held = none) (phase : t.phase ≠ .preamble) :
    (w.inTurn ch x t).beginSymbol ch = w.setChannel ch (x.begun w.now t (w.nextChar t)) := by
  have sends := fun c => State.sendChar_inTurn w ch x held c
  have idles := State.emit_idle_inTurn w ch x held
  unfold State.beginSymbol State.nextChar
  rw [State.inTurn_own]
  dsimp only
  rw [held]
  unfold State.phaseSymbol
  dsimp only
  cases here : t.phase with
  | preamble => exact absurd here phase
  | lead | gap => exact idles
  | header | closing | trailer => exact sends _
  | body =>
    cases kind : t.kind with
    | pass p => exact sends _
    | telex c =>
      dsimp only
      rw [State.inTurn_circuit, show (w.inTurn ch x t).store = w.store from rfl]
      cases (w.circuit c.circuit).chain.head? w.store.cells with
      | none => exact idles
      | some c => exact sends c

theorem State.beginSymbol_inTurn_preamble (held : t.held = none) (phase : t.phase = .preamble) :
    (w.inTurn ch x t).beginSymbol ch =
      w.setChannel ch { x with output := some ⟨.phase, w.now + x.settings.symbolTicks⟩, turn := some t } := by
  unfold State.beginSymbol
  rw [State.inTurn_own]
  dsimp only
  rw [held]
  unfold State.phaseSymbol
  dsimp only
  rw [phase]
  exact State.emit_inTurn w ch x t .phase

/-- A held character begins once its shift is sent (06: R108). -/
theorem State.beginSymbol_inTurn_held {c : Byte} (held : t.held = some c) : (w.inTurn ch x t).beginSymbol ch =
    w.setChannel ch { x with
      output := some ⟨.data (convert x.settings.code c).sent c, w.now + x.settings.symbolTicks⟩
      turn := some { t with held := none } } := by
  unfold State.beginSymbol
  rw [State.inTurn_own]
  dsimp only
  rw [held]
  dsimp only
  rw [State.inTurn_mapTurn, State.emit_inTurn]
  rfl

/-! ## A cut falls (09: R155, R157) -/

theorem State.fallCut_inTurn {p : PendingCut} (pending : t.pendingCut = some p) : (w.inTurn ch x t).fallCut ch =
    w.setChannel ch (x.begun w.now (t.fall p.reason) (some 0x0D)) := by
  have falls : (w.inTurn ch x t).fallCut ch = (w.inTurn ch x (t.fall p.reason)).beginSymbol ch := by
    rw [State.fallCut, State.inTurn_mapTurn, pending]
    rfl
  obtain ⟨rest, text⟩ := closingOctets_head t.kind p.reason
  have first : w.nextChar (t.fall p.reason) = some 0x0D := by
    show some (((closingSequence t.kind p.reason)[0]?).getD 0x20) = some 0x0D
    rw [closingSequence_eq, text]
    rfl
  rw [falls, State.beginSymbol_inTurn _ _ _ (by rfl) (by rintro ⟨⟩), first]

/-- The cut has fallen, as the statements have it. -/
theorem Channel.cutFallen_begun {x y : Channel} (profile : y.profile = x.profile) (now : Nat) {t t' : Turn} {r : CutReason}
    (kind : closingOctets t'.kind r = closingOctets t.kind r) :
    x.cutFallen now t r (y.begun now (t'.fall r) (some 0x0D)) (t'.fall r) := by
  refine ⟨⟨rfl, ?_, rfl, rfl, rfl⟩, Channel.begins_begun_cr profile now _⟩
  show closingSequence t'.kind r = closingOctets t.kind r
  rw [closingSequence_eq, kind]

end

end Sys2Proof.Machine
end

section
/-! PROOFS. The head character leaves the queue of a circuit (01: R16, R18; 05: R80, R81). -/

namespace Sys2Proof.Machine

/-! ## The chain (01: R16) -/

theorem Chain.text_length (k : Chain) (cells : Memory) : (k.text cells).length = k.count := by
  rw [Chain.text_eq, List.length_map, List.length_range]

theorem Chain.text_tail (k : Chain) (cells : Memory) : (k.text cells).tail =
    (List.range (k.count - 1)).map fun i => readAt k.blocks cells (k.headOffset + 1 + i) := by
  rw [Chain.text_eq]
  refine List.ext_getElem (by simp) fun i below _ => ?_
  rw [List.getElem_tail]
  simp only [List.getElem_map, List.getElem_range]
  rw [show k.headOffset + (i + 1) = k.headOffset + 1 + i by omega]

theorem readAt_tail (blocks : List BlockNo) (cells : Memory) (o : Nat) :
    readAt blocks.tail cells o = readAt blocks cells (64 + o) := by
  unfold readAt
  rw [List.getElem?_tail, show (64 + o) / 64 = o / 64 + 1 by omega, show (64 + o) % 64 = o % 64 by omega]

section

variable {k : Chain} (law : k.law)

include law

/-- The head of the queue is the first character of its text. -/
theorem Chain.head?_eq (cells : Memory) : k.head? cells = (k.text cells).head? := by
  by_cases none : k.count = 0
  · have empty : k.text cells = [] := List.length_eq_zero_iff.mp ((Chain.text_length k cells).trans none)
    rw [Chain.head?, Chain.blocks_of_count_zero law none, empty]
    rfl
  · obtain ⟨first, rest, blocks⟩ : ∃ first rest, k.blocks = first :: rest := by
      cases held : k.blocks with
      | nil => exact absurd (Chain.count_of_nil held) none
      | cons first rest => exact ⟨first, rest, rfl⟩
    obtain ⟨-, filled⟩ := (Chain.law_iff k).mp law
    obtain ⟨head, -⟩ := filled (by rw [blocks]; exact List.cons_ne_nil _ _)
    have character : (k.text cells).head? = some (readAt k.blocks cells k.headOffset) := by
      rw [List.head?_eq_getElem?, Chain.text_eq, List.getElem?_map, List.getElem?_range (by omega), Option.map_some]
      rfl
    rw [character, Chain.head?, readAt, blocks, show k.headOffset / 64 = 0 by omega,
      show k.headOffset % 64 = k.headOffset by omega]
    rfl

theorem Chain.leave_count : k.leave.1.count = k.count - 1 := by
  obtain ⟨-, some⟩ := (Chain.law_iff k).mp law
  unfold Chain.leave
  split
  · next few =>
    rw [show k.count - 1 = 0 by omega]
    rfl
  · next many =>
    rcases Chain.length_cases k with ⟨none, count⟩ | ⟨one, count⟩ | ⟨n, more, count⟩
    · omega
    · obtain ⟨head, filled, full, order⟩ := some (by rintro none; simp [none] at one)
      split
      · next last => omega
      · rw [Chain.count_of_one (k := ⟨k.blocks, k.headOffset + 1, k.tailFill⟩) one, count]
        dsimp only
        omega
    · obtain ⟨head, filled, full, -⟩ := some (by rintro none; simp [none] at more)
      split
      · next last =>
        rcases n with _ | n
        · rw [Chain.count_of_one (by simp [more]), count]
          dsimp only
          omega
        · rw [Chain.count_of_more (n := n) (by simp [more]), count]
          dsimp only
          omega
      · rw [Chain.count_of_more (k := ⟨k.blocks, k.headOffset + 1, k.tailFill⟩) more, count]
        dsimp only
        omega

omit law in
/-- The block that this empties is the first one, or the last one of all. -/
theorem Chain.leave_returned (filled : k.count ≠ 0) :
    k.leave.2 = k.blocks.take (k.blocks.length - k.leave.1.blocks.length) := by
  have blocks : k.blocks.length ≠ 0 := fun none => filled (Chain.count_of_nil (List.length_eq_zero_iff.mp none))
  unfold Chain.leave
  split
  · simp [Chain.empty]
  · split
    · rw [List.length_tail, show k.blocks.length - (k.blocks.length - 1) = 1 by omega]
    · rw [Nat.sub_self, List.take_zero]

theorem Chain.leave_text (cells : Memory) : k.leave.1.text cells = (k.text cells).tail := by
  rw [Chain.text_tail, Chain.text_eq, Chain.leave_count law]
  refine List.map_congr_left fun i mem => ?_
  have below := List.mem_range.mp mem
  unfold Chain.leave
  split
  · next few => omega
  · split
    · next last => rw [Nat.zero_add, readAt_tail, show 64 + i = k.headOffset + 1 + i by omega]
    · rfl

end

/-! ## The circuit (05: R80, R81) -/

section

variable {s : State} {c : Fin 32}

theorem State.emissionTest_eq (s : State) (c : Fin 32) : s.emissionTest c =
    if (s.circuit c).count ≤ 128 ∧ ((s.circuit c).flow = .pausedThreshold ∨
      (s.circuit c).flow = .pausedStore ∧ s.store.free ≠ []) then s.resumeFlow c else s := by
  have free : 1 ≤ s.freeCount ↔ s.store.free ≠ [] := by rw [State.freeCount, Nat.one_le_iff_ne_zero, ne_eq, List.length_eq_zero_iff]
  unfold State.emissionTest
  dsimp only
  split
  · next few =>
    have few : (s.circuit c).count ≤ 128 := few
    cases flow : (s.circuit c).flow with
    | flowing => simp
    | pausedThreshold => simp [few]
    | pausedStore => simp [few, free]
  · next many =>
    have many : ¬ (s.circuit c).count ≤ 128 := many
    rw [if_neg fun resumes => many resumes.1]

theorem State.resumeFlow_circuit (s : State) (c d : Fin 32) : (s.resumeFlow c).circuit d =
    if c = d then { s.circuit c with flow := .flowing } else s.circuit d := by
  rw [State.resumeFlow, State.raiseEvent, State.raise_circuit]
  exact State.circuit_setCircuit s c d _

/-- What the emission test has done to the circuits. -/
theorem State.emissionTest_circuit (s : State) (c d : Fin 32) : (s.emissionTest c).circuit d =
    if c = d ∧ (s.circuit c).count ≤ 128 ∧ ((s.circuit c).flow = .pausedThreshold ∨
      (s.circuit c).flow = .pausedStore ∧ s.store.free ≠ []) then { s.circuit d with flow := .flowing }
    else s.circuit d := by
  rw [State.emissionTest_eq]
  by_cases resumes : (s.circuit c).count ≤ 128 ∧ ((s.circuit c).flow = .pausedThreshold ∨
      (s.circuit c).flow = .pausedStore ∧ s.store.free ≠ [])
  · rw [if_pos resumes, State.resumeFlow_circuit]
    by_cases here : c = d
    · rw [if_pos here, if_pos ⟨here, resumes⟩, here]
    · rw [if_neg here, if_neg fun h => here h.1]
  · rw [if_neg resumes, if_neg fun h => resumes h.2]

theorem State.emissionTest_reports (resumes : (s.circuit c).count ≤ 128 ∧ ((s.circuit c).flow = .pausedThreshold ∨
    (s.circuit c).flow = .pausedStore ∧ s.store.free ≠ [])) : (s.emissionTest c).reports (.circuit c) .resume := by
  rw [State.emissionTest_eq, if_pos resumes]
  exact State.reports_raiseEvent _ _ _

/-- The state once the head character has left, before the tests that follow. -/
def State.headGone (s : State) (c : Fin 32) : State :=
  (s.setCircuit c { s.circuit c with chain := (s.circuit c).chain.leave.1 }).returnBlocks (s.circuit c).chain.leave.2

theorem State.leaveQueue_eq (s : State) (c : Fin 32) : s.leaveQueue c =
    if (s.circuit c).chain.leave.2 = [] then (s.headGone c).emissionTest c
    else ((s.headGone c).emissionTest c).returnReport := rfl

theorem State.headGone_circuit (s : State) (c d : Fin 32) : (s.headGone c).circuit d =
    if c = d then { s.circuit c with chain := (s.circuit c).chain.leave.1 } else s.circuit d :=
  State.circuit_setCircuit s c d _

theorem State.emissionTest_only (s : State) (c : Fin 32) :
    ∃ circuits notices, s.emissionTest c = { s with circuits := circuits, notices := notices } := by
  rw [State.emissionTest_eq]
  split
  · exact ⟨_, _, rfl⟩
  · exact ⟨s.circuits, s.notices, rfl⟩

theorem State.leaveQueue_only (s : State) (c : Fin 32) : ∃ circuits notices,
    s.leaveQueue c = { s with
      store := { s.store with free := s.store.free ++ (s.circuit c).chain.leave.2 }, circuits := circuits
      notices := notices } := by
  obtain ⟨circuits, notices, tested⟩ := State.emissionTest_only (s.headGone c) c
  rw [State.leaveQueue_eq]
  split
  · exact ⟨circuits, notices, tested⟩
  · obtain ⟨circuits', notices', reported⟩ := State.returnReport_only ((s.headGone c).emissionTest c)
    refine ⟨circuits', notices', ?_⟩
    rw [reported, tested]
    rfl

/-- The last block that is returned frees the circuit from its own pause for STORE, so the report passes it over. -/
theorem State.leaveQueue_circuit (s : State) (c d : Fin 32) : (s.leaveQueue c).circuit d =
    { (s.headGone c).circuit d with flow := ((s.leaveQueue c).circuit d).flow } := by
  have tested : ((s.headGone c).emissionTest c).circuit d =
      { (s.headGone c).circuit d with flow := (((s.headGone c).emissionTest c).circuit d).flow } := by
    rw [State.emissionTest_circuit]
    split <;> rfl
  rw [State.leaveQueue_eq]
  split
  · exact tested
  · next some =>
    have reported := (State.returnReport_spec ((s.headGone c).emissionTest c) (s.circuit c).chain.leave.2 some d).2
    rw [reported, tested]

/-- Which circuit resumes. -/
def State.resumesAt (s : State) (c d : Fin 32) : Prop :=
  if d = c then (s.circuit c).count ≤ 129 ∧ ((s.circuit c).flow = .pausedThreshold ∨
    (s.circuit c).flow = .pausedStore ∧ s.store.free ++ (s.circuit c).chain.leave.2 ≠ [])
  else (s.circuit c).chain.leave.2 ≠ [] ∧ (s.circuit d).flow = .pausedStore ∧ (s.circuit d).count ≤ 128

theorem State.leaveQueue_flow (law : (s.circuit c).chain.law) (d : Fin 32) :
    (s.resumesAt c d → ((s.leaveQueue c).circuit d).flow = .flowing ∧ (s.leaveQueue c).reports (.circuit d) .resume) ∧
    (¬ s.resumesAt c d → ((s.leaveQueue c).circuit d).flow = (s.circuit d).flow) := by
  have gone := State.headGone_circuit s c
  have count : ((s.headGone c).circuit c).count ≤ 128 ↔ (s.circuit c).count ≤ 129 := by
    rw [gone, if_pos rfl, Circuit.count, Chain.leave_count law, Circuit.count]
    omega
  have flow : ((s.headGone c).circuit d).flow = (s.circuit d).flow := by
    rw [gone]
    split
    · next here => rw [here]
    · rfl
  have free : (s.headGone c).store.free = s.store.free ++ (s.circuit c).chain.leave.2 := rfl
  have tested := State.emissionTest_circuit (s.headGone c) c d
  have moves : ((s.headGone c).emissionTest c).Moves (((s.headGone c).emissionTest c).returnReport) :=
    State.Moves.refl.returnReport
  rw [State.leaveQueue_eq]
  unfold State.resumesAt
  by_cases own : d = c
  · subst own
    rw [if_pos rfl, ← count]
    rw [flow] at tested
    by_cases resumes : ((s.headGone d).circuit d).count ≤ 128 ∧ ((s.circuit d).flow = .pausedThreshold ∨
        (s.circuit d).flow = .pausedStore ∧ s.store.free ++ (s.circuit d).chain.leave.2 ≠ [])
    · rw [if_pos ⟨rfl, by rw [free]; exact resumes⟩] at tested
      have reports := State.emissionTest_reports (s := s.headGone d) (c := d) (by rw [flow, free]; exact resumes)
      refine ⟨fun _ => ?_, fun still => absurd resumes still⟩
      split
      · exact ⟨by rw [tested], reports⟩
      · next some =>
        have reported := (State.returnReport_spec ((s.headGone d).emissionTest d) _ some d).1
        rw [State.returnReported, if_neg (by simp [tested])] at reported
        exact ⟨reported.trans (by rw [tested]), moves.reports reports⟩
    · rw [if_neg fun h => resumes (by rw [← free]; exact h.2)] at tested
      refine ⟨fun h => absurd h resumes, fun _ => ?_⟩
      split
      · rw [tested, flow]
      · next some =>
        have reported := (State.returnReport_spec ((s.headGone d).emissionTest d) _ some d).1
        rw [State.returnReported, tested, flow, if_neg] at reported
        · exact reported
        · rintro ⟨-, paused, few⟩
          exact resumes ⟨few, .inr ⟨paused, by simp [some]⟩⟩
  · have same : (s.headGone c).circuit d = s.circuit d := (gone d).trans (if_neg (Ne.symm own))
    rw [if_neg own]
    rw [if_neg fun h => own h.1.symm, same] at tested
    split
    · next none => exact ⟨fun h => absurd none h.1, fun _ => by rw [tested]⟩
    · next some =>
      have reported := (State.returnReport_spec ((s.headGone c).emissionTest c) _ some d).1
      rw [State.returnReported, tested] at reported
      refine ⟨fun resumes => ?_, fun still => ?_⟩
      · rw [if_pos resumes] at reported
        exact reported
      · rw [if_neg still] at reported
        exact reported

/-- The head character has left the queue, as the statements have it. -/
theorem State.headLeft_leaveQueue (law : (s.circuit c).chain.law) (filled : (s.circuit c).count ≠ 0) :
    s.headLeft c (s.leaveQueue c) := by
  obtain ⟨circuits, notices, only⟩ := State.leaveQueue_only s c
  have store : (s.leaveQueue c).store = { s.store with free := s.store.free ++ (s.circuit c).chain.leave.2 } := by
    rw [only]
  have circuit : (s.leaveQueue c).circuit c =
      { s.circuit c with chain := (s.circuit c).chain.leave.1, flow := ((s.leaveQueue c).circuit c).flow } := by
    have left := State.leaveQueue_circuit s c c
    rw [State.headGone_circuit, if_pos rfl] at left
    exact left
  have chain : ((s.leaveQueue c).circuit c).chain = (s.circuit c).chain.leave.1 := by rw [circuit]
  unfold State.headLeft
  refine ⟨?_, ?_, ?_, ?_, fun d => ?_⟩
  · rw [chain, store]
    exact Chain.leave_text law s.store.cells
  · rw [chain]
    exact Chain.leave_count law
  · rw [chain, store, ← Chain.leave_returned filled]
  · rw [chain]
    exact circuit
  · obtain ⟨resumes, still⟩ := State.leaveQueue_flow law d
    have same : (if d = c then (s.circuit c).count ≤ 129 ∧ ((s.circuit c).flow = .pausedThreshold ∨
          (s.circuit c).flow = .pausedStore ∧ (s.leaveQueue c).store.free ≠ [])
        else (s.leaveQueue c).store.free.length ≠ s.store.free.length ∧ (s.circuit d).flow = .pausedStore ∧
          (s.circuit d).count ≤ 128) ↔ s.resumesAt c d := by
      rw [store, State.resumesAt]
      simp only [List.length_append, ne_eq, Nat.add_eq_left, List.length_eq_zero_iff]
    refine ⟨fun other => ?_, fun h => resumes (same.mp h), fun h => still fun h' => h (same.mpr h')⟩
    have left := State.leaveQueue_circuit s c d
    rw [State.headGone_circuit, if_neg other.symm] at left
    exact left

end

end Sys2Proof.Machine
end

section
/-! PROOFS. What the completion of a symbol has done to the turn, before a stop (06: R106; 08: R129; 09: R158). -/

namespace Sys2Proof.Machine

/-- Nothing has changed but that notices have begun. -/
def State.Noted (s w : State) : Prop :=
  w = { s with notices := w.notices } ∧ ∀ key e, s.reports key e → w.reports key e

theorem State.Noted.refl (s : State) : s.Noted s := ⟨rfl, fun _ _ => id⟩

theorem State.Noted.raiseEvent (s : State) (key : NoticeKey) (e : NoticeEvent) : s.Noted (s.raiseEvent key e) :=
  ⟨rfl, fun _ _ before => State.reports_raise before _ _ _⟩

/-! ## A pass -/

/-- The turn goes on as the turn of the same entry, in a state where nothing has changed but notices. -/
def State.passStep (s : State) (ch : Fin 8) (x : Channel) (t : Turn) (p : PassTurn) (r : State) : Prop :=
  ∃ w t' offset timer, r = w.inTurn ch x t' ∧ s.Noted w ∧ t'.cutInProgress = t.cutInProgress ∧
    t'.kind = .pass { p with bodyOffset := offset, gapTimer := timer }

section

variable {s : State} {ch : Fin 8} {x : Channel} {t : Turn} {p : PassTurn} (kind : t.kind = .pass p)

include kind

theorem State.passStep_of_same {t' : Turn} (cut : t'.cutInProgress = t.cutInProgress) (same : t'.kind = t.kind) :
    s.passStep ch x t p (s.inTurn ch x t') :=
  ⟨s, t', p.bodyOffset, p.gapTimer, rfl, .refl s, cut, same.trans kind⟩

theorem State.enterBody_passStep {t' : Turn} (cut : t'.cutInProgress = t.cutInProgress) :
    s.passStep ch x t p ((s.inTurn ch x t').enterBody ch t) := by
  rw [State.enterBody_pass s ch x t kind]
  split
  · exact ⟨s, _, 0, p.gapTimer, rfl, .refl s, cut, rfl⟩
  · exact ⟨_, _, 0, _, rfl, .raiseEvent s _ _, cut, rfl⟩

omit kind in
theorem State.completePassChar_passStep (source : Byte) :
    s.passStep ch x t p ((s.inTurn ch x t).completePassChar ch t p source).1 := by
  have stays : ∀ t', t'.cutInProgress = t.cutInProgress → t'.kind = .pass { p with bodyOffset := p.bodyOffset + 1 } →
      s.passStep ch x t p (s.inTurn ch x t') :=
    fun t' cut kind => ⟨s, t', p.bodyOffset + 1, p.gapTimer, rfl, .refl s, cut, kind⟩
  rw [State.completePassChar_inTurn]
  dsimp only
  split_ifs
  · exact stays _ rfl rfl
  · exact stays _ rfl rfl
  · exact stays _ rfl rfl
  · exact ⟨_, _, p.bodyOffset + 1, _, rfl, .raiseEvent s _ _, rfl, rfl⟩

theorem State.completeGap_passStep : s.passStep ch x t p ((s.inTurn ch x t).completeGap ch t p).1 := by
  have stopped : t.kind.stopGapTimer = .pass { p with gapTimer := none } := by rw [kind]; rfl
  rw [State.completeGap_inTurn]
  split_ifs
  · exact ⟨s, _, p.bodyOffset, none, rfl, .refl s, rfl, stopped⟩
  · exact State.passStep_of_same kind rfl rfl
  · exact ⟨_, _, p.bodyOffset, none, rfl, .raiseEvent s _ _, rfl, stopped⟩
  · exact State.passStep_of_same kind rfl rfl

theorem State.completePhase_passStep (y : Symbol) : s.passStep ch x t p ((s.inTurn ch x t).completePhase ch t y).1 := by
  have same : ∀ t', t'.cutInProgress = t.cutInProgress → t'.kind = t.kind → s.passStep ch x t p (s.inTurn ch x t') :=
    fun t' cut same => State.passStep_of_same kind cut same
  unfold State.completePhase
  cases phase : t.phase with
  | lead =>
    dsimp only
    rw [State.completeLead_inTurn]
    split_ifs
    all_goals exact same _ rfl rfl
  | preamble =>
    dsimp only
    rw [State.completePreamble_inTurn]
    split_ifs
    all_goals exact same _ rfl rfl
  | header =>
    dsimp only
    rw [State.completeHeader_inTurn]
    split_ifs
    · exact same _ rfl rfl
    · exact State.enterBody_passStep kind rfl
    · exact same _ rfl rfl
  | body =>
    dsimp only
    unfold State.completeBody
    rw [kind]
    cases y with
    | data sent source => exact State.completePassChar_passStep source
    | idle | phase | shiftLetters | shiftFigures => exact same t rfl rfl
  | gap =>
    dsimp only
    rw [kind]
    exact State.completeGap_passStep kind
  | closing | trailer =>
    dsimp only
    rw [State.completeClosing_inTurn]
    exact same _ rfl rfl

theorem State.completeTurn_passStep (y : Symbol) : s.passStep ch x t p ((s.inTurn ch x t).completeTurn ch t y).1 := by
  unfold State.completeTurn
  cases y with
  | shiftLetters | shiftFigures => exact State.passStep_of_same kind rfl rfl
  | idle | phase | data => exact State.completePhase_passStep kind _

end

/-! ## A telex turn -/

/-- The turn goes on as the turn of the same circuit, which the symbol has worked on. -/
def State.telexStep (s : State) (ch : Fin 8) (x : Channel) (t : Turn) (c : TelexTurn) (y : Symbol) (r : State) : Prop :=
  ∃ w t' c', r = w.inTurn ch x t' ∧ t'.cutInProgress = t.cutInProgress ∧ t'.kind = .telex c' ∧
    c'.circuit = c.circuit ∧ (w.circuit c.circuit).channel = (s.circuit c.circuit).channel ∧
    s.telexWorked t c y w c'.bodyCount

section

variable {s : State} {ch : Fin 8} {x : Channel} {t : Turn} {c : TelexTurn} {y : Symbol}

/-- A symbol that neither takes a character out of the queue nor opens the body. -/
theorem State.telexWorked_of_still
    (leaves : ¬ (t.phase = .body ∧ (∃ sent source, y = .data sent source) ∧ (s.circuit c.circuit).count ≠ 0))
    (opens : ¬ (t.phase = .header ∧ y ≠ .shiftLetters ∧ y ≠ .shiftFigures ∧ t.pendingCut = none ∧
      t.text.length ≤ t.textPosition + 1)) : s.telexWorked t c y s c.bodyCount :=
  ⟨rfl, fun h => absurd h leaves, fun h => absurd h opens, fun _ _ => ⟨rfl, rfl⟩, fun _ _ => id⟩

/-- The state after a test of the end of the body. -/
theorem State.testTelexBody_step {w : State} {t' : Turn} {c' : TelexTurn} (kind : t'.kind = .telex c')
    (boundary : Bool) : ∃ t'', ((w.inTurn ch x t').testTelexBody ch boundary).1 = w.inTurn ch x t'' ∧
      t''.cutInProgress = t'.cutInProgress ∧ t''.kind = .telex c' := by
  rw [State.testTelexBody_inTurn w ch x t' kind]
  split_ifs
  · exact ⟨t', rfl, rfl, kind⟩
  · exact ⟨t'.enterTrailer, rfl, rfl, kind⟩
  · exact ⟨t', rfl, rfl, kind⟩

variable (kind : t.kind = .telex c)

include kind

theorem State.telexStep_of_same {t' : Turn} (cut : t'.cutInProgress = t.cutInProgress) (same : t'.kind = t.kind)
    (leaves : ¬ (t.phase = .body ∧ (∃ sent source, y = .data sent source) ∧ (s.circuit c.circuit).count ≠ 0))
    (opens : ¬ (t.phase = .header ∧ y ≠ .shiftLetters ∧ y ≠ .shiftFigures ∧ t.pendingCut = none ∧
      t.text.length ≤ t.textPosition + 1)) : s.telexStep ch x t c y (s.inTurn ch x t') :=
  ⟨s, t', c, rfl, cut, same.trans kind, rfl, rfl, State.telexWorked_of_still leaves opens⟩

theorem State.completeTelexChar_step (phase : t.phase = .body) (sent source : Byte) :
    s.telexStep ch x t c (.data sent source) ((s.inTurn ch x t).completeTelexChar ch c source).1 := by
  have shut : t.phase ≠ .header := by rw [phase]; decide
  rw [State.completeTelexChar_inTurn]
  split
  · next empty =>
    obtain ⟨t'', same, cut, kind'⟩ := State.testTelexBody_step (w := s) (ch := ch) (x := x) kind true
    rw [same]
    exact ⟨s, t'', c, rfl, cut, kind', rfl, rfl, State.telexWorked_of_still (fun h => h.2.2 empty) fun h => shut h.1⟩
  · next filled =>
    obtain ⟨t'', same, cut, kind'⟩ := State.testTelexBody_step (w := s.leaveQueue c.circuit) (ch := ch) (x := x)
      (t' := { t.countUrgency with kind := .telex { c with bodyCount := c.bodyCount + 1, graceCount := 0 } }) rfl
      (isBreakChar source || ((s.leaveQueue c.circuit).circuit c.circuit).count = 0)
    have moves : s.Moves (s.leaveQueue c.circuit) := State.Moves.refl.leaveQueue _
    obtain ⟨circuits, notices, only⟩ := State.leaveQueue_only s c.circuit
    rw [same]
    have home : ((s.leaveQueue c.circuit).circuit c.circuit).channel = (s.circuit c.circuit).channel := by
      rw [State.leaveQueue_circuit, State.headGone_circuit, if_pos rfl]
    refine ⟨s.leaveQueue c.circuit, t'', _, rfl, cut, kind', rfl, home, ?_, fun _ => ⟨rfl, fun law =>
      State.headLeft_leaveQueue law filled⟩, fun h => absurd h.1 shut, fun still => absurd ⟨phase, ⟨sent, source, rfl⟩, filled⟩
        still, fun key e => moves.reports⟩
    rw [only]

omit kind in
theorem State.completeTelexIdle_step (phase : t.phase = .body) :
    s.telexStep ch x t c .idle ((s.inTurn ch x t).completeTelexIdle ch t c).1 := by
  have shut : t.phase ≠ .header := by rw [phase]; decide
  have worked : s.telexWorked t c .idle s c.bodyCount :=
    State.telexWorked_of_still (fun ⟨_, ⟨_, _, data⟩, _⟩ => nomatch data) fun h => shut h.1
  rw [State.completeTelexIdle_inTurn]
  split
  · obtain ⟨t'', same, cut, kind'⟩ := State.testTelexBody_step (w := s) (ch := ch) (x := x)
      (t' := { t with kind := .telex { c with graceCount := c.graceCount + 1 } }) rfl true
    rw [same]
    exact ⟨s, t'', _, rfl, cut, kind', rfl, rfl, worked⟩
  · exact ⟨s, _, { c with graceCount := 0 }, rfl, rfl, rfl, rfl, rfl, worked⟩

theorem State.completeHeader_step (phase : t.phase = .header) (letters : y ≠ .shiftLetters) (figures : y ≠ .shiftFigures) :
    s.telexStep ch x t c y ((s.inTurn ch x t).completeHeader ch t).1 := by
  have closed : ¬ (t.phase = .body ∧ (∃ sent source, y = .data sent source) ∧ (s.circuit c.circuit).count ≠ 0) := by
    rintro ⟨body, -⟩
    rw [phase] at body
    cases body
  rw [State.completeHeader_inTurn]
  split_ifs with pending last
  · exact State.telexStep_of_same kind rfl rfl closed fun h => by rw [h.2.2.2.1] at pending; cases pending
  · have none : t.pendingCut = none := by simpa using pending
    dsimp only
    rw [State.enterBody_telex s ch x t kind]
    have home : ((s.setCircuit c.circuit { s.circuit c.circuit with resume := false }).circuit c.circuit).channel =
        (s.circuit c.circuit).channel := by rw [State.circuit_setCircuit, if_pos rfl]
    exact ⟨_, _, _, rfl, rfl, rfl, rfl, home, rfl, fun h => absurd h closed, fun _ => ⟨rfl, rfl⟩,
      fun _ still => absurd ⟨phase, letters, figures, none, last⟩ still, fun _ _ => id⟩
  · exact State.telexStep_of_same kind rfl rfl closed fun h => last h.2.2.2.2

theorem State.completePhase_step (letters : y ≠ .shiftLetters) (figures : y ≠ .shiftFigures) :
    s.telexStep ch x t c y ((s.inTurn ch x t).completePhase ch t y).1 := by
  have same : t.phase ≠ .body → t.phase ≠ .header → ∀ t', t'.cutInProgress = t.cutInProgress → t'.kind = t.kind →
      s.telexStep ch x t c y (s.inTurn ch x t') := fun body header t' cut same =>
    State.telexStep_of_same kind cut same (fun h => body h.1) fun h => header h.1
  unfold State.completePhase
  cases phase : t.phase with
  | lead =>
    dsimp only
    rw [State.completeLead_inTurn]
    split_ifs
    all_goals exact same (by simp [phase]) (by simp [phase]) _ rfl rfl
  | preamble =>
    dsimp only
    rw [State.completePreamble_inTurn]
    split_ifs
    all_goals exact same (by simp [phase]) (by simp [phase]) _ rfl rfl
  | header => exact State.completeHeader_step kind phase letters figures
  | body =>
    dsimp only
    unfold State.completeBody
    rw [kind]
    cases y with
    | data sent source => exact State.completeTelexChar_step kind phase sent source
    | idle => exact State.completeTelexIdle_step phase
    | phase => exact State.telexStep_of_same kind rfl rfl (fun ⟨_, ⟨_, _, data⟩, _⟩ => nomatch data) fun h => by simp [phase] at h
    | shiftLetters => exact absurd rfl letters
    | shiftFigures => exact absurd rfl figures
  | gap =>
    dsimp only
    rw [kind]
    exact same (by simp [phase]) (by simp [phase]) t rfl rfl
  | closing | trailer =>
    dsimp only
    rw [State.completeClosing_inTurn]
    exact same (by simp [phase]) (by simp [phase]) _ rfl rfl

theorem State.completeTurn_step (y : Symbol) : s.telexStep ch x t c y ((s.inTurn ch x t).completeTurn ch t y).1 := by
  unfold State.completeTurn
  cases y with
  | shiftLetters =>
    exact State.telexStep_of_same kind rfl rfl (fun ⟨_, ⟨_, _, data⟩, _⟩ => nomatch data) fun h => h.2.1 rfl
  | shiftFigures =>
    exact State.telexStep_of_same kind rfl rfl (fun ⟨_, ⟨_, _, data⟩, _⟩ => nomatch data) fun h => h.2.2.1 rfl
  | idle | phase | data => exact State.completePhase_step kind nofun nofun

end

/-! ## What ends a turn by its own ending -/

section

variable {s : State} {ch : Fin 8} {x : Channel} {t : Turn}

theorem State.testTelexBody_goesOn (s : State) (ch : Fin 8) (boundary : Bool) :
    (s.testTelexBody ch boundary).2 ≠ .turnEnds := by
  unfold State.testTelexBody
  split
  · nofun
  · split
    · nofun
    · split_ifs <;> nofun

/-- Only the last character of a trailer or of a closing sequence ends a turn (08: R140, R150). -/
theorem State.completeTurn_ends {y : Symbol} (ends : ((s.inTurn ch x t).completeTurn ch t y).2 = .turnEnds) :
    (t.phase = .trailer ∨ t.phase = .closing) ∧ t.text.length ≤ t.textPosition + 1 := by
  have phases : ((s.inTurn ch x t).completePhase ch t y).2 = .turnEnds := by
    unfold State.completeTurn at ends
    cases y with
    | shiftLetters | shiftFigures =>
      dsimp only at ends
      split_ifs at ends
    | idle | phase | data => exact ends
  unfold State.completePhase at phases
  cases phase : t.phase with
  | lead =>
    rw [phase] at phases
    dsimp only at phases
    rw [State.completeLead_inTurn] at phases
    split_ifs at phases
  | preamble =>
    rw [phase] at phases
    dsimp only at phases
    rw [State.completePreamble_inTurn] at phases
    split_ifs at phases
  | header =>
    rw [phase] at phases
    dsimp only at phases
    rw [State.completeHeader_inTurn] at phases
    split_ifs at phases
  | body =>
    rw [phase] at phases
    dsimp only at phases
    unfold State.completeBody at phases
    split at phases
    · exact absurd phases (State.testTelexBody_goesOn _ ch _)
    · unfold State.completeTelexIdle at phases
      split at phases
      · exact absurd phases (State.testTelexBody_goesOn _ ch _)
      · dsimp only at phases
        split_ifs at phases
    · rw [State.completePassChar_inTurn] at phases
      dsimp only at phases
      split_ifs at phases
    all_goals cases phases
  | gap =>
    rw [phase] at phases
    dsimp only at phases
    split at phases
    · rw [State.completeGap_inTurn] at phases
      split_ifs at phases
    · cases phases
  | closing =>
    rw [phase] at phases
    dsimp only at phases
    rw [State.completeClosing_inTurn] at phases
    dsimp only at phases
    split_ifs at phases with last
    exact ⟨.inr rfl, last⟩
  | trailer =>
    rw [phase] at phases
    dsimp only at phases
    rw [State.completeClosing_inTurn] at phases
    dsimp only at phases
    split_ifs at phases with last
    exact ⟨.inl rfl, last⟩

/-- A stop takes the place of whatever does not end the turn (09: R158). -/
theorem State.goOn_stop (s : State) (ch : Fin 8) {g : Progress} (goes : g ≠ .turnEnds) :
    s.goOn ch true g = (s.stopTurn ch .silence).afterSilence ch := by
  cases g with
  | goOn | cutFalls => rfl
  | turnEnds => exact absurd rfl goes

end

end Sys2Proof.Machine
end

section
/-! PROOFS. SILENCE (06: R106, R107), and a turn that stops for it (09: R158). -/

namespace Sys2Proof.Machine

/-! ## The assertion -/

section

variable (s : State) (ch : Fin 8)

/-- The record of a channel once SILENCE is asserted: `s` is the state with the level raised. -/
def State.hushed : Channel :=
  if (s.channel ch).settings.observeSilence = false then s.channel ch
  else match (s.channel ch).state with
    | .keyed | .stopping =>
      if (s.channel ch).turn.any Turn.isDistress then s.channel ch else { s.channel ch with silenceStop := true }
    | .requesting =>
      if s.anythingEligible ch then s.channel ch
      else { s.channel ch with state := .idle, keyreq := false, permitTimer := none }
    | .unset | .off | .locking | .idle | .backoff => s.channel ch

theorem State.silenceChannel_eq : s.silenceChannel ch = s.setChannel ch (s.hushed ch) := by
  have same : s.setChannel ch (s.channel ch) = s := State.setChannel_channel s ch
  unfold State.silenceChannel State.hushed
  dsimp only
  cases (s.channel ch).settings.observeSilence with
  | false => exact same.symm
  | true =>
    rw [if_pos rfl, if_neg (show ¬ true = false by decide)]
    cases state : (s.channel ch).state with
    | requesting =>
      dsimp only
      rw [apply_ite (s.setChannel ch), same]
    | keyed | stopping =>
      dsimp only
      rw [apply_ite (s.setChannel ch), same, ← state]
    | unset | off | locking | idle | backoff => exact same.symm

theorem State.hushed_turn : (s.hushed ch).turn = (s.channel ch).turn := by
  unfold State.hushed
  cases (s.channel ch).settings.observeSilence with
  | false => rfl
  | true =>
    rw [if_neg (show ¬ true = false by decide)]
    cases (s.channel ch).state with
    | keyed | stopping => dsimp only; split <;> rfl
    | requesting => dsimp only; split <;> rfl
    | unset | off | locking | idle | backoff => rfl

/-- What another channel does at the assertion does not concern this one. -/
theorem State.hushed_silenceChannel {j : Fin 8} (apart : j ≠ ch) : (s.silenceChannel j).hushed ch = s.hushed ch := by
  have channel : (s.silenceChannel j).channel ch = s.channel ch := by
    rw [State.silenceChannel_eq, State.channel_setChannel, if_neg apart]
  have waiting : ∀ c, (s.silenceChannel j).waiting c = s.waiting c := fun c => by
    rw [State.silenceChannel_eq, State.waiting, State.setChannel_onAir (State.hushed_turn s j), State.setChannel_circuit,
      ← State.waiting]
  have eligible : (s.silenceChannel j).anythingEligible ch = s.anythingEligible ch :=
    State.anythingEligible_of_same (by rw [channel]) (by rw [channel]) (by rw [channel])
      (by rw [State.silenceChannel_eq]; rfl) (by rw [State.silenceChannel_eq]; rfl) waiting
  rw [State.hushed, channel, eligible, ← State.hushed]

end

theorem State.silenceAll {l : List (Fin 8)} (distinct : l.Nodup) (s : State) :
    l.foldl State.silenceChannel s = { s with channels := (l.foldl State.silenceChannel s).channels } ∧
    ∀ j, (l.foldl State.silenceChannel s).channel j = if j ∈ l then s.hushed j else s.channel j := by
  induction l generalizing s with
  | nil => exact ⟨rfl, fun _ => rfl⟩
  | cons ch l ih =>
    obtain ⟨fresh, distinct⟩ := List.nodup_cons.mp distinct
    obtain ⟨only, each⟩ := ih distinct (s.silenceChannel ch)
    rw [List.foldl_cons]
    refine ⟨?_, fun j => ?_⟩
    · rw [only, State.silenceChannel_eq]
      rfl
    · rw [each]
      by_cases later : j ∈ l
      · have apart : ch ≠ j := fun same => fresh (same ▸ later)
        rw [if_pos later, if_pos (List.mem_cons_of_mem _ later), State.hushed_silenceChannel s j apart]
      · rw [if_neg later, State.silenceChannel_eq, State.channel_setChannel]
        by_cases here : ch = j
        · subst here
          rw [if_pos rfl, if_pos List.mem_cons_self]
        · rw [if_neg here, if_neg (by simp [later, Ne.symm here])]

/-! ## The release -/

section

variable (s : State) (ch : Fin 8)

theorem State.unsilenceChannel_of_observing (observes : (s.channel ch).settings.observeSilence = true) :
    ((s.channel ch).state = .idle → s.unsilenceChannel ch = s.consult ch) ∧
    ((s.channel ch).state = .keyed → s.unsilenceChannel ch =
      if (s.headEligible ch 1).isSome then s.tellEntry ch 1 else s) ∧
    ((s.channel ch).state ∉ [.idle, .keyed] → s.unsilenceChannel ch = s) := by
  unfold State.unsilenceChannel
  dsimp only
  rw [if_pos observes]
  cases state : (s.channel ch).state <;> simp

theorem State.unsilenceChannel_of_deaf (deaf : (s.channel ch).settings.observeSilence = false) :
    s.unsilenceChannel ch = s := by
  unfold State.unsilenceChannel
  dsimp only
  rw [if_neg (by rw [deaf]; decide)]

/-- The channel is told, or it stays as it is. -/
theorem State.unsilenceChannel_cases : s.unsilenceChannel ch = s ∨ s.unsilenceChannel ch = s.tellIdle ch ∨
    s.unsilenceChannel ch = s.tellEntry ch 1 := by
  cases observes : (s.channel ch).settings.observeSilence with
  | false => exact .inl (State.unsilenceChannel_of_deaf s ch observes)
  | true =>
    obtain ⟨idle, keyed, other⟩ := State.unsilenceChannel_of_observing s ch observes
    by_cases isIdle : (s.channel ch).state = .idle
    · exact .inr (.inl ((idle isIdle).trans (by rw [State.tellIdle, if_pos isIdle])))
    · by_cases isKeyed : (s.channel ch).state = .keyed
      · rw [keyed isKeyed]
        split
        · exact .inr (.inr rfl)
        · exact .inl rfl
      · exact .inl (other (by simp [isIdle, isKeyed]))

theorem State.unsilenceChannel_told : s.Told (s.unsilenceChannel ch) := by
  rcases State.unsilenceChannel_cases s ch with same | same | same
  · exact same.symm ▸ State.Told.refl
  · exact same ▸ State.Told.tellIdle s ch
  · exact same ▸ State.tellEntry_told s ch 1

theorem State.unsilenceChannel_other {j : Fin 8} (other : j ≠ ch) : (s.unsilenceChannel ch).channel j = s.channel j := by
  rcases State.unsilenceChannel_cases s ch with same | same | same
  · rw [same]
  · rw [same, State.consulted_channel_other (s.tellIdle_consulted ch) other]
  · rw [same, State.tellEntry_other s ch 1 other]

theorem State.headEligible_isSome (k : Rank) : (s.headEligible ch k).isSome = true ↔
    ∃ e ∈ (s.channel ch).queue, e.rank = k ∧ s.entryEligible ch e = true := by
  rw [State.headEligible, List.find?_isSome]
  simp

end

/-- Under the binding law a telex turn elsewhere is none of a circuit bound here. -/
theorem State.Told.anythingEligible {s t : State} (h : s.Told t) {ch : Fin 8} (same : t.channel ch = s.channel ch)
    (law : s.bindingLaw) : t.anythingEligible ch = s.anythingEligible ch := by
  have silenced := h.silenced same
  have entries : ∀ e, t.entryEligible ch e = s.entryEligible ch e := h.entryEligible same
  have circuits : ∀ c ∈ (s.channel ch).bound, t.circuitEligible ch c = s.circuitEligible ch c := fun c bound => by
    have home : (s.circuit c).channel = ch := by
      by_contra away
      have count := (law c ch).1
      rw [if_neg fun h => away h.2] at count
      exact absurd bound (List.count_eq_zero.mp count)
    have record := h.circuit c
    have channel : (t.circuit c).channel = ch := by rw [record, home]
    have onAir : t.onAir c = s.onAir c := by rw [State.onAir, channel, same, State.onAir, home]
    rw [State.circuitEligible, State.waiting, onAir, silenced, record]
    rfl
  rw [Bool.eq_iff_iff, State.anythingEligible_iff, State.anythingEligible_iff, same]
  refine or_congr ?_ ⟨fun ⟨c, bound, eligible⟩ => ⟨c, bound, (circuits c bound) ▸ eligible⟩,
    fun ⟨c, bound, eligible⟩ => ⟨c, bound, (circuits c bound).symm ▸ eligible⟩⟩
  simp only [entries]

/-- What a turn does when an URGENCY entry becomes eligible (09: R153). -/
theorem Turn.told_urgency (t : Turn) : t.told 1 =
    if (match t.kind with | .telex _ => true | .pass p => decide (1 < p.rank)) = true then t.caused .urgency else t := by
  have told : t.told 1 = if (match t.kind with | .telex _ => true | .pass p => decide (1 < p.rank)) = true ∧ (1 : Rank) = 0
      then t.caused .distress
      else if (match t.kind with | .telex _ => true | .pass p => decide (1 < p.rank)) = true ∧ (1 : Rank) = 1
      then t.caused .urgency else t := by
    obtain ⟨kind, phase, count, text, position, held, pending, progress⟩ := t
    cases kind <;> rfl
  rw [told, if_neg (by simp)]
  simp

end Sys2Proof.Machine
end

section
/-! PROOFS. SILENCE stops the turns of observing channels (06: R106, R107; 07: R117; 09: R158). -/

namespace Sys2Proof.Machine

/-! ## The stop -/

section

variable {s w : State} {ch : Fin 8} {x : Channel}

/-- The turn of a channel, at whatever point, beside the state that a statement speaks of. -/
theorem State.inTurn_beside (noted : s.Noted w) (t : Turn) (state : x.state = (s.channel ch).state)
    (queue : x.queue = (s.channel ch).queue) (bound : x.bound = (s.channel ch).bound)
    (profile : x.profile = (s.channel ch).profile) : s.Beside (w.inTurn ch x t) ch := by
  obtain ⟨only, reports⟩ := noted
  have own := State.inTurn_own w ch x t
  refine ⟨?_, fun j other => ?_, by rw [own, state], by rw [own, queue], by rw [own, bound], by rw [own, profile], reports⟩
  · rw [State.inTurn, only]
    rfl
  · rw [State.inTurn_other w ch x t other, only]
    rfl

theorem State.consulted_silenceStop {u : State} (h : s.consulted ch u) :
    (u.channel ch).silenceStop = (s.channel ch).silenceStop := by
  unfold State.consulted at h
  dsimp only at h
  split_ifs at h with still absent
  · rw [h]
  · rw [h, State.channel_setChannel, if_pos rfl]
  · unfold State.turnStarted at h
    dsimp only at h
    split at h
    · cases h
    · obtain ⟨b, -, same⟩ := h
      rw [same, State.setBulletin_channel, State.channel_setChannel, if_pos rfl, State.channel_setChannel, if_pos rfl]
    · rw [h, State.setCircuit_channel, State.channel_setChannel, if_pos rfl, State.channel_setChannel, if_pos rfl]

end

section

variable {s : State} {ch : Fin 8} {t : Turn} {e : Emission} (turn : (s.channel ch).turn = some t)
  (output : (s.channel ch).output = some e) (stop : (s.channel ch).silenceStop = true)
  (deaf : (s.channel ch).deaf)
  (open_ : (t.phase = .trailer ∨ t.phase = .closing) → t.textPosition + 1 < t.text.length)

/-- The state once the work of the symbol is done. -/
def State.turnWorkDone (s : State) (ch : Fin 8) (e : Emission) (t : Turn) : State :=
  ((({ s with now := max s.now e.due } : State).inTurn ch ((s.channel ch).symbolDone e.symbol) t).completeTurn ch t
    e.symbol).1

theorem State.turnWorkDone_moves : ({ s with now := max s.now e.due } : State).Moves (s.turnWorkDone ch e t) :=
  (State.Moves.channel ch _ State.Moves.refl).completeTurn ch t e.symbol

include turn output stop open_ in
/-- Where a stop leads. -/
theorem State.completeSymbol_of_stop :
    s.completeSymbol ch = ((s.turnWorkDone ch e t).stopTurn ch .silence).afterSilence ch := by
  have goes : ((({ s with now := max s.now e.due } : State).inTurn ch ((s.channel ch).symbolDone e.symbol) t).completeTurn
      ch t e.symbol).2 ≠ .turnEnds := fun ends => by
    obtain ⟨phase, last⟩ := State.completeTurn_ends ends
    have := open_ phase
    omega
  rw [State.completeSymbol_of_turn output turn, State.symbolDone_inTurn turn, stop, State.goOn_stop _ ch goes]
  rfl

/-- The turn has been worked on and still stands. -/
theorem State.turnWorkDone_turn : ∃ (w : State) (t' : Turn), s.turnWorkDone ch e t = w.inTurn ch ((s.channel ch).symbolDone e.symbol) t' := by
  cases kind : t.kind with
  | pass p =>
    obtain ⟨w, t', _, _, same, -⟩ := State.completeTurn_passStep (s := ({ s with now := max s.now e.due } : State))
      (ch := ch) (x := (s.channel ch).symbolDone e.symbol) kind e.symbol
    exact ⟨w, t', same⟩
  | telex c =>
    obtain ⟨w, t', _, same, -⟩ := State.completeTurn_step (s := ({ s with now := max s.now e.due } : State))
      (ch := ch) (x := (s.channel ch).symbolDone e.symbol) kind e.symbol
    exact ⟨w, t', same⟩

include deaf in
/-- The channel once the turn is stopped. -/
theorem State.silenceStopped_own : ∃ queue bound, ((s.turnWorkDone ch e t).stopTurn ch .silence).channel ch =
    { (s.channel ch).symbolDone e.symbol with queue := queue, bound := bound, turn := none, output := none } := by
  obtain ⟨w, t', same⟩ := State.turnWorkDone_turn (s := s) (ch := ch) (e := e) (t := t)
  have own := State.inTurn_own w ch ((s.channel ch).symbolDone e.symbol) t'
  have turn' : ((w.inTurn ch ((s.channel ch).symbolDone e.symbol) t').channel ch).turn = some t' := by rw [own]
  obtain ⟨queue, bound, ended⟩ := State.endTurn_own (by rw [own]; exact deaf) turn' (t'.stopEnding .silence)
  rw [same, State.stopTurn_of_turn turn', ended, own]
  exact ⟨queue, bound, rfl⟩

include deaf

theorem State.silenceStopped_pass {p : PassTurn} (kind : t.kind = .pass p) :
    ({ s with now := max s.now e.due } : State).passEnded ch p (t.outcomeOf p .interrupted)
      ((s.turnWorkDone ch e t).stopTurn ch .silence) := by
  obtain ⟨w, t', offset, timer, same, noted, cut, kind'⟩ := State.completeTurn_passStep
    (s := ({ s with now := max s.now e.due } : State)) (ch := ch) (x := (s.channel ch).symbolDone e.symbol) kind e.symbol
  have beside := State.inTurn_beside (ch := ch) (x := (s.channel ch).symbolDone e.symbol) noted t' rfl rfl rfl rfl
  have outcome : t'.outcomeOf { p with bodyOffset := offset, gapTimer := timer } .interrupted =
      t.outcomeOf p .interrupted := by
    rw [Turn.outcomeOf, cut, Turn.outcomeOf]
  have ended := State.passEnded_of_stopTurn beside deaf (by rw [State.inTurn_own]) kind' .silence
  rw [show Ending.plain (.stopped .silence) = .interrupted from rfl, outcome] at ended
  rw [show s.turnWorkDone ch e t = _ from same]
  exact ended

theorem State.silenceStopped_telex {c : TelexTurn} (kind : t.kind = .telex c) (home : (s.circuit c.circuit).channel = ch) :
    ∃ w emitted, ({ s with now := max s.now e.due } : State).telexWorked t c e.symbol w emitted ∧
      w.telexEnded ch c.circuit ((w.circuit c.circuit).resume || decide (1 ≤ emitted))
        ((s.turnWorkDone ch e t).stopTurn ch .silence) := by
  obtain ⟨w, t', c', same, cut, kind', named, home', worked⟩ := State.completeTurn_step
    (s := ({ s with now := max s.now e.due } : State)) (ch := ch) (x := (s.channel ch).symbolDone e.symbol) kind e.symbol
  have channel : w.channel ch = s.channel ch := by
    rw [worked.1]
    rfl
  have beside := State.inTurn_beside (ch := ch) (x := (s.channel ch).symbolDone e.symbol) (.refl w) t'
    (by rw [channel]; rfl) (by rw [channel]; rfl) (by rw [channel]; rfl) (by rw [channel]; rfl)
  have ended := State.telexEnded_of_stopTurn beside (by rw [channel]; exact deaf) (by rw [State.inTurn_own]) kind'
    (by rw [named]; exact home'.trans home) .silence
  rw [named] at ended
  rw [show s.turnWorkDone ch e t = _ from same]
  exact ⟨w, c'.bodyCount, worked, ended⟩

end

/-! ## The obligation -/

theorem exec_silenceAssert {s : State} (released : s.resetHeld = false) :
    exec .silenceAssert s = .next (if s.silence then s else s.assertSilence).arbitrate := by
  have asserts : exec .silenceAssert s = event (fun s => if s.silence then s else s.assertSilence) s :=
    if_neg (by simp [released])
  rw [asserts, event_of_released released]

theorem exec_silenceRelease {s : State} (released : s.resetHeld = false) :
    exec .silenceRelease s = .next (if s.silence then s.releaseSilence else s).arbitrate := by
  have releases : exec .silenceRelease s = event (fun s => if s.silence then s.releaseSilence else s) s :=
    if_neg (by simp [released])
  rw [releases, event_of_released released]

section

variable (s : State)

/-- The state with SILENCE raised, and its event. -/
def State.quieted : State := ({ s with silence := true } : State).raiseEvent .station .silenceOn

/-- The state with SILENCE gone, and its event. -/
def State.freed : State := ({ s with silence := false } : State).raiseEvent .station .silenceOff

theorem State.assertSilence_spec : s.assertSilence = { s.quieted with channels := s.assertSilence.channels } ∧
    ∀ ch, s.assertSilence.channel ch = s.quieted.hushed ch := by
  obtain ⟨only, each⟩ := State.silenceAll (List.nodup_finRange 8) s.quieted
  exact ⟨only, fun ch => (each ch).trans (if_pos (List.mem_finRange ch))⟩

/-- The record of a channel at the assertion, as the statement has it. -/
theorem State.hushed_quieted (ch : Fin 8) : s.quieted.hushed ch =
    if (s.channel ch).settings.observeSilence = false then s.channel ch
    else match (s.channel ch).state with
      | .keyed | .stopping =>
        if (s.channel ch).turn.any Turn.isDistress then s.channel ch else { s.channel ch with silenceStop := true }
      | .requesting =>
        if ({ s with silence := true } : State).anythingEligible ch then s.channel ch
        else { s.channel ch with state := .idle, keyreq := false, permitTimer := none }
      | _ => s.channel ch := by
  have channel : s.quieted.channel ch = s.channel ch := rfl
  have eligible : s.quieted.anythingEligible ch = ({ s with silence := true } : State).anythingEligible ch := rfl
  rw [State.hushed, channel, eligible]
  cases (s.channel ch).state <;> rfl

theorem State.quieted_only {u : State} (only : u = { s.quieted with channels := u.channels }) :
    u = { ({ s with silence := true } : State) with channels := u.channels, notices := u.notices } ∧
    u.reports .station .silenceOn := by
  rw [only]
  exact ⟨rfl, (State.reports_raiseEvent ({ s with silence := true } : State) .station .silenceOn :)⟩

theorem State.releaseSilence_spec : s.freed.Told s.releaseSilence ∧
    ∀ ch, ∃ t, s.freed.Told t ∧ t.channel ch = s.channel ch ∧
      s.releaseSilence.channel ch = (t.unsilenceChannel ch).channel ch := by
  obtain ⟨told, each⟩ := State.foldl_told State.unsilenceChannel_told
    (fun s ch _ other => State.unsilenceChannel_other s ch other) (l := allChannels) (List.nodup_finRange 8) s.freed
  exact ⟨told, fun ch => (each ch).2 (List.mem_finRange ch)⟩

/-- What the release of SILENCE does to an observing channel. -/
theorem State.releaseSilence_observing {ch : Fin 8} (observes : (s.channel ch).settings.observeSilence = true) :
    (s.bindingLaw → (s.channel ch).state = .idle → s.freed.anythingEligible ch = true →
      (s.releaseSilence.channel ch).keyreq = true) ∧
    (s.bindingLaw → (s.channel ch).state = .idle → s.freed.anythingEligible ch = false →
      s.releaseSilence.channel ch = s.channel ch) ∧
    ((s.channel ch).state = .keyed → s.releaseSilence.channel ch =
      if ∃ e ∈ (s.channel ch).queue, e.rank = 1 ∧ s.freed.entryEligible ch e = true then
        { s.channel ch with turn := (s.channel ch).turn.map fun t => t.told 1 }
      else s.channel ch) := by
  obtain ⟨t, told, before, after⟩ := (State.releaseSilence_spec s).2 ch
  have before' : t.channel ch = s.freed.channel ch := before
  rw [← before] at observes
  obtain ⟨idle, keyed, -⟩ := State.unsilenceChannel_of_observing t ch observes
  refine ⟨fun law isIdle eligible => ?_, fun law isIdle eligible => ?_, fun isKeyed => ?_⟩
  · have isIdle' : (t.channel ch).state = .idle := by rw [before]; exact isIdle
    have eligible' : t.anythingEligible ch = true := (told.anythingEligible before' law).trans eligible
    have consults : t.consulted ch (t.consult ch) := by
      have tells := t.tellIdle_consulted ch
      rwa [State.tellIdle, if_pos isIdle'] at tells
    rw [after, idle isIdle']
    exact (State.consulted_keyreq consults isIdle' eligible').1
  · have isIdle' : (t.channel ch).state = .idle := by rw [before]; exact isIdle
    have eligible' : t.anythingEligible ch = false := (told.anythingEligible before' law).trans eligible
    rw [after, idle isIdle', State.consult, eligible', if_neg (by decide), before]
  · have isKeyed' : (t.channel ch).state = .keyed := by rw [before]; exact isKeyed
    have urgent : (t.headEligible ch 1).isSome = true ↔
        ∃ e ∈ (s.channel ch).queue, e.rank = 1 ∧ s.freed.entryEligible ch e = true := by
      rw [State.headEligible_isSome, before]
      simp only [told.entryEligible before']
    rw [after, keyed isKeyed']
    by_cases held : ∃ e ∈ (s.channel ch).queue, e.rank = 1 ∧ s.freed.entryEligible ch e = true
    · rw [if_pos (urgent.mpr held), if_pos held, State.tellEntry_of_keyed t ch 1 isKeyed', State.channel_setChannel,
        if_pos rfl, before]
    · rw [if_neg fun h => held (urgent.mp h), if_neg held, before]

end

/-- A turn that is to stop is cut at the completion of the symbol in progress (09: R158; log 15). -/
theorem State.silence_stop {s : State} {ch : Fin 8} {t : Turn} {e : Emission} (released : s.resetHeld = false)
    (deaf : (s.channel ch).deaf) (turn : (s.channel ch).turn = some t) (output : (s.channel ch).output = some e)
    (stop : (s.channel ch).silenceStop = true)
    (open_ : (t.phase = .trailer ∨ t.phase = .closing) → t.textPosition + 1 < t.text.length) :
    let later : State := { s with now := max s.now e.due }
    ∃ v u : State, exec (.symbolCompletion ch) s = .next u.arbitrate ∧ u.now = later.now ∧
      (u.channel ch).silenceStop = false ∧ u.clock = s.clock ∧ u.link = s.link ∧ u.store.cells = s.store.cells ∧
      ((s.channel ch).state = .stopping → v.wentOff ch u) ∧
      ((s.channel ch).state = .keyed →
        let y := v.channel ch
        v.silence = s.silence ∧ v.keyok = s.keyok ∧ y.state = .idle ∧ y.keyreq = false ∧ y.turn = none ∧ y.output = none ∧
        y.settings = (s.channel ch).settings ∧ v.consulted ch u) ∧
      (∀ p, t.kind = .pass p → later.passEnded ch p (t.outcomeOf p .interrupted) v) ∧
      (∀ c, t.kind = .telex c → (s.circuit c.circuit).channel = ch →
        ∃ w emitted, later.telexWorked t c e.symbol w emitted ∧
          w.telexEnded ch c.circuit ((w.circuit c.circuit).resume || decide (1 ≤ emitted)) v) := by
  intro later
  have done := State.completeSymbol_of_stop turn output stop open_
  have exec := exec_symbolCompletion released ch
  obtain ⟨queue, bound, own⟩ := State.silenceStopped_own (e := e) (t := t) deaf
  have worked : later.Moves ((s.turnWorkDone ch e t).stopTurn ch .silence) :=
    (State.turnWorkDone_moves (e := e) (t := t)).stopTurn ch .silence
  have moves : later.Moves (s.completeSymbol ch) := by
    rw [done]
    exact worked.afterSilence ch
  have frame : (s.completeSymbol ch).now = later.now ∧ (s.completeSymbol ch).clock = s.clock ∧
      (s.completeSymbol ch).link = s.link ∧ (s.completeSymbol ch).store.cells = s.store.cells := by
    rw [moves.only]
    exact ⟨rfl, rfl, rfl, rfl⟩
  obtain ⟨now, clock, link, cells⟩ := frame
  rcases deaf with keyed | stopping
  · have here : (((s.turnWorkDone ch e t).stopTurn ch .silence).channel ch).state = .keyed := by
      rw [own]
      exact keyed
    have after : s.completeSymbol ch =
        (((s.turnWorkDone ch e t).stopTurn ch .silence).release ch).tellIdle ch := by
      rw [done, State.afterSilence, here]
    have released' : (((s.turnWorkDone ch e t).stopTurn ch .silence).release ch).channel ch =
        { (s.channel ch).symbolDone e.symbol with
          queue := queue, bound := bound, turn := none, output := none, state := .idle, keyreq := false
          holdCount := 0 } := by
      rw [State.release, State.channel_setChannel, if_pos rfl, own]
    have consults := State.tellIdle_consulted (((s.turnWorkDone ch e t).stopTurn ch .silence).release ch) ch
    rw [← after] at consults
    have levels : (((s.turnWorkDone ch e t).stopTurn ch .silence).release ch).silence = s.silence ∧
        (((s.turnWorkDone ch e t).stopTurn ch .silence).release ch).keyok = s.keyok := by
      rw [(worked.release ch).only]
      exact ⟨rfl, rfl⟩
    refine ⟨_, _, exec, now, ?_, clock, link, cells, fun stopping => ?_, fun _ => ⟨levels.1, levels.2,
      by rw [released'], by rw [released'], by rw [released'], by rw [released'], by rw [released']; rfl, consults⟩,
      fun p kind => ?_, fun c kind home => ?_⟩
    · rw [State.consulted_silenceStop consults, released']
      rfl
    · rw [keyed] at stopping
      cases stopping
    · exact State.passEnded_setChannel (State.silenceStopped_pass (.inl keyed) kind) rfl rfl rfl
    · obtain ⟨w, emitted, work, ended⟩ := State.silenceStopped_telex (e := e) (.inl keyed) kind home
      refine ⟨w, emitted, work, State.telexEnded_setChannel ended ?_ rfl rfl rfl⟩
      rw [own]
  · have here : (((s.turnWorkDone ch e t).stopTurn ch .silence).channel ch).state = .stopping := by
      rw [own]
      exact stopping
    have after : s.completeSymbol ch = ((s.turnWorkDone ch e t).stopTurn ch .silence).enterOff ch := by
      rw [done, State.afterSilence, here]
    have off := State.wentOff_of_enterOff ((s.turnWorkDone ch e t).stopTurn ch .silence) ch
    have record := State.enterOff_channel ((s.turnWorkDone ch e t).stopTurn ch .silence) ch ch
    rw [← after] at off record
    rw [if_pos rfl] at record
    refine ⟨_, _, exec, now, by rw [record]; rfl, clock, link, cells, fun _ => off, fun keyed => ?_,
      fun p kind => State.silenceStopped_pass (.inr stopping) kind,
      fun c kind home => State.silenceStopped_telex (.inr stopping) kind home⟩
    rw [stopping] at keyed
    cases keyed

/-- Settles O41. -/
theorem silenceStopsObservingChannels : Obligations.SilenceStopsObservingChannels := by
  intro s released quiet free observes
  refine ⟨fun on => by rw [exec_silenceAssert released, if_pos on], fun off => by
    rw [exec_silenceRelease released, if_neg (by simp [off])], fun off => ?_, fun on => ?_,
    fun ch t e stop turn output state open_ => ?_⟩
  · obtain ⟨only, each⟩ := State.assertSilence_spec s
    obtain ⟨frame, raised⟩ := State.quieted_only s only
    refine ⟨s.assertSilence, by rw [exec_silenceAssert released, if_neg (by simp [off])], frame, raised, fun ch => ?_⟩
    rw [each]
    exact State.hushed_quieted s ch
  · obtain ⟨told, each⟩ := State.releaseSilence_spec s
    refine ⟨s.releaseSilence, by rw [exec_silenceRelease released, if_pos on], told.silence, ?_, told.clock, told.link,
      told.store, fun ch => ?_⟩
    · exact told.reports (State.reports_raiseEvent free .station .silenceOff)
    obtain ⟨t, -, before, after⟩ := each ch
    refine ⟨fun deaf => ?_, fun law observes => (State.releaseSilence_observing s observes).1 law,
      fun law observes => (State.releaseSilence_observing s observes).2.1 law, fun observes keyed => ?_, fun still => ?_⟩
    · rw [after, State.unsilenceChannel_of_deaf t ch (by rw [before]; exact deaf), before]
    · refine ((State.releaseSilence_observing s observes).2.2 keyed).trans ?_
      simp only [Turn.told_urgency]
      rfl
    · rw [after]
      cases observes : (t.channel ch).settings.observeSilence with
      | false => rw [State.unsilenceChannel_of_deaf t ch observes, before]
      | true => rw [(State.unsilenceChannel_of_observing t ch observes).2.2 (by rw [before]; exact still), before]
  · exact State.silence_stop released (List.mem_pair.mp state) turn output stop open_

end Sys2Proof.Machine
end

section
/-! PROOFS. The shift state and the substitution count between two symbols (06: R108, R109). -/

namespace Sys2Proof.Machine

/-- No channel's shift state or substitution count has changed. -/
def State.LineKept (s t : State) : Prop :=
  ∀ j, (t.channel j).shift = (s.channel j).shift ∧ (t.channel j).substitutions = (s.channel j).substitutions

namespace State.LineKept

variable {s t u : State}

theorem refl (s : State) : s.LineKept s := fun _ => ⟨rfl, rfl⟩

theorem trans (h : s.LineKept t) (h' : t.LineKept u) : s.LineKept u := fun j =>
  ⟨(h' j).1.trans (h j).1, (h' j).2.trans (h j).2⟩

theorem of_channels (same : t.channels = s.channels) : s.LineKept t := fun j => by
  rw [State.channel, same]
  exact ⟨rfl, rfl⟩

theorem setChannel (s : State) (ch : Fin 8) {x : Channel} (shift : x.shift = (s.channel ch).shift)
    (substitutions : x.substitutions = (s.channel ch).substitutions) : s.LineKept (s.setChannel ch x) := fun j => by
  rw [State.channel_setChannel]
  split
  · next here => exact here ▸ ⟨shift, substitutions⟩
  · exact ⟨rfl, rfl⟩

/-! ## Selection and its reports -/

theorem turnStarted {ch : Fin 8} {phase : Phase} {choice : Choice} (h : s.turnStarted ch phase choice u) :
    s.LineKept u := by
  match choice, h with
  | .entry e, ⟨b, _, same⟩ =>
    intro j
    rw [same, State.setBulletin_channel]
    exact setChannel s ch (by rfl) (by rfl) j
  | .circuit c, same =>
    intro j
    rw [show u = _ from same, State.setCircuit_channel]
    exact setChannel s ch (by rfl) (by rfl) j

theorem consulted {ch : Fin 8} (h : s.consulted ch u) : s.LineKept u := by
  unfold State.consulted at h
  dsimp only at h
  split_ifs at h with still absent
  · exact h ▸ refl s
  · exact h ▸ setChannel s ch rfl rfl
  · exact (setChannel s ch (by rfl) (by rfl)).trans (turnStarted h)

theorem tellIdle (s : State) (ch : Fin 8) : s.LineKept (s.tellIdle ch) := consulted (s.tellIdle_consulted ch)

theorem tellEntryOf (s : State) (n : Fin 64) (ch : Fin 8) : s.LineKept (s.tellEntryOf n ch) := by
  rcases State.tellEntryOf_cases s n ch with same | ⟨e, -, -, same⟩
  · exact same.symm ▸ refl s
  · rw [same]
    by_cases idle : (s.channel ch).state = .idle
    · rw [State.tellEntry_of_idle s ch _ idle]
      exact tellIdle s ch
    · by_cases keyed : (s.channel ch).state = .keyed
      · rw [State.tellEntry_of_keyed s ch _ keyed]
        exact setChannel s ch rfl rfl
      · rw [State.tellEntry_of_deaf s ch _ idle keyed]
        exact refl s

theorem tellHolders (s : State) (n : Fin 64) : s.LineKept (s.tellHolders n) := by
  have folds : ∀ (l : List (Fin 8)) (t : State), t.LineKept (l.foldl (fun s ch => s.tellEntryOf n ch) t) := fun l => by
    induction l with
    | nil => exact refl
    | cons ch l ih => exact fun t => (tellEntryOf t n ch).trans (ih _)
  exact folds _ s

theorem release (s : State) (ch : Fin 8) : s.LineKept (s.release ch) := setChannel s ch rfl rfl

theorem emit (s : State) (ch : Fin 8) (y : Symbol) : s.LineKept (s.emit ch y) := setChannel s ch rfl rfl

theorem enterHold (s : State) (ch : Fin 8) : s.LineKept (s.enterHold ch) := by
  unfold State.enterHold
  split
  · exact release s ch
  · exact (setChannel s ch (by rfl) (by rfl)).trans (emit _ ch .idle)

theorem selectOrHold (s : State) (g : Bool) (ch : Fin 8) : s.LineKept ((s.selectTurn g ch).getD (s.enterHold ch)) := by
  cases eligible : s.anythingEligible ch with
  | true =>
    obtain ⟨u, selects, started⟩ := State.selectTurn_started g eligible
    rw [selects]
    exact turnStarted started
  | false =>
    rw [State.selectTurn, State.choose_nothing_iff.mpr eligible]
    exact enterHold s ch

/-! ## The end of a turn -/

theorem settleWait (s : State) (c : Fin 32) : s.LineKept (s.settleWait c) := by
  rcases State.settleWait_cases s c with same | same
  · rw [same]
    exact of_channels rfl
  · rw [same]
    exact (of_channels rfl).trans (tellIdle _ _)

theorem circuitTurnEnd (s : State) (c : Fin 32) : s.LineKept (s.circuitTurnEnd c) := by
  unfold State.circuitTurnEnd
  dsimp only
  split
  · intro j
    rw [State.finishClose_channel]
    split <;> exact ⟨rfl, rfl⟩
  · cases (s.circuit c).movePending with
    | none => exact settleWait s c
    | some dest =>
      have placed : s.LineKept (s.reboundSettled c dest) := fun j => by
        rw [State.reboundSettled_channel, State.rebound_channel]
        exact ⟨rfl, rfl⟩
      rcases State.applyMove_cases s c dest with same | consults
      · exact (show s.LineKept (s.applyMove c dest) from same.symm ▸ placed)
      · exact placed.trans (consulted consults)

theorem retirementTest (s : State) (n : Fin 64) : s.LineKept (s.retirementTest n) :=
  of_channels (s.retirementTest_gaveUp n).1.channels

theorem commit (s : State) (n : Fin 64) (b : Bulletin) (m : TextMap) : s.LineKept (s.commit n b m) := by
  obtain ⟨-, -, channels, -⟩ := State.committing_reported s n b m
  rw [State.commit_eq]
  split
  · exact (of_channels channels).trans (tellHolders _ n)
  · exact of_channels channels

theorem lastPassEnded (s : State) (n : Fin 64) : s.LineKept (s.lastPassEnded n) := by
  unfold State.lastPassEnded
  cases s.bulletin n with
  | none => exact refl s
  | some b =>
    dsimp only
    cases b.state with
    | composing => exact refl s
    | withdrawing => exact of_channels (State.emptyEntry_emptied s n b).gaveUp.channels
    | released =>
      cases b.commitPending with
      | false => exact retirementTest s n
      | true =>
        cases b.staged with
        | none => exact retirementTest s n
        | some m => exact (commit s n b m).trans (retirementTest _ n)

theorem passEndReport (s : State) (n : Fin 64) (o : PassOutcome) : s.LineKept (s.passEndReport n o) := by
  unfold State.passEndReport
  cases s.bulletin n with
  | none => exact refl s
  | some b =>
    have counted : s.LineKept (s.passCounted n b o) := by
      obtain ⟨notices, same⟩ := State.passCounted_only s n b o
      exact of_channels (by rw [same]; rfl)
    dsimp only
    rw [← State.passCounted]
    split
    · exact counted.trans (lastPassEnded _ n)
    · exact counted

theorem endTurn (s : State) (ch : Fin 8) (e : Ending) : s.LineKept (s.endTurn ch e) := by
  unfold State.endTurn
  cases (s.channel ch).turn with
  | none => exact refl s
  | some t =>
    dsimp only
    cases t.kind with
    | telex c =>
      exact (setChannel s ch (x := { s.channel ch with turn := none, output := none }) rfl rfl).trans
        ((of_channels rfl).trans (circuitTurnEnd (s.telexCleared ch c.circuit _) c.circuit))
    | pass p =>
      have ended : s.LineKept (s.endPass ch p e) := by
        rw [State.endPass_eq]
        exact (setChannel s ch (by rfl) (by rfl)).trans (passEndReport _ _ _)
      exact ended

theorem stopTurn (s : State) (ch : Fin 8) (r : StopReason) : s.LineKept (s.stopTurn ch r) := by
  unfold State.stopTurn
  cases (s.channel ch).turn with
  | none => exact refl s
  | some t => exact endTurn s ch _

end State.LineKept

/-! ## The next symbol -/

/-- The next symbol of a turn changes the output and the turn of its channel. -/
theorem State.beginSymbol_inTurn_writes (w : State) (ch : Fin 8) (x : Channel) (t : Turn) :
    ∃ output turn, (w.inTurn ch x t).beginSymbol ch = w.setChannel ch { x with output := output, turn := turn } := by
  cases held : t.held with
  | some c => exact ⟨_, _, State.beginSymbol_inTurn_held w ch x held⟩
  | none =>
    by_cases phase : t.phase = .preamble
    · exact ⟨_, _, State.beginSymbol_inTurn_preamble w ch x held phase⟩
    · exact ⟨_, _, State.beginSymbol_inTurn w ch x held phase⟩

theorem State.fallCut_inTurn_writes (w : State) (ch : Fin 8) (x : Channel) (t : Turn) :
    ∃ output turn, (w.inTurn ch x t).fallCut ch = w.setChannel ch { x with output := output, turn := turn } := by
  cases pending : t.pendingCut with
  | some p => exact ⟨_, _, State.fallCut_inTurn w ch x pending⟩
  | none =>
    rw [State.fallCut, State.inTurn_mapTurn, pending]
    exact State.beginSymbol_inTurn_writes w ch x t

/-- The line of the channel is as the symbol has left it, but for the shift state of a channel that is OFF. -/
def State.LineEnds (s u : State) (ch : Fin 8) : Prop :=
  (u.channel ch).substitutions = (s.channel ch).substitutions ∧
    ((u.channel ch).state ≠ .off → (u.channel ch).shift = (s.channel ch).shift)

section

variable {s t u : State} {ch : Fin 8}

theorem State.LineKept.ends (h : s.LineKept u) (ch : Fin 8) : s.LineEnds u ch := ⟨(h ch).2, fun _ => (h ch).1⟩

theorem State.LineKept.endsAfter (h : s.LineKept t) (h' : t.LineEnds u ch) : s.LineEnds u ch :=
  ⟨h'.1.trans (h ch).2, fun on => (h'.2 on).trans (h ch).1⟩

theorem State.enterOff_lineEnds (s : State) (ch : Fin 8) : s.LineEnds (s.enterOff ch) ch := by
  have record := State.enterOff_channel s ch ch
  rw [if_pos rfl] at record
  rw [State.LineEnds, record]
  exact ⟨rfl, fun on => absurd rfl on⟩

theorem State.afterTurnEnd_lineEnds (s : State) (ch : Fin 8) : s.LineEnds (s.afterTurnEnd ch) ch := by
  unfold State.afterTurnEnd
  cases (s.channel ch).state with
  | stopping => exact State.enterOff_lineEnds s ch
  | keyed => exact (State.LineKept.selectOrHold s false ch).ends ch
  | unset | off | locking | idle | requesting | backoff => exact (State.LineKept.refl s).ends ch

theorem State.afterSilence_lineEnds (s : State) (ch : Fin 8) : s.LineEnds (s.afterSilence ch) ch := by
  unfold State.afterSilence
  cases (s.channel ch).state with
  | stopping => exact State.enterOff_lineEnds s ch
  | unset | off | locking | idle | requesting | keyed | backoff =>
    exact ((State.LineKept.release s ch).trans (State.LineKept.tellIdle _ ch)).ends ch

/-- Whatever a completion leads to. -/
theorem State.goOn_lineEnds (w : State) (ch : Fin 8) (x : Channel) (t : Turn) (stop : Bool) (g : Progress) :
    (w.inTurn ch x t).LineEnds ((w.inTurn ch x t).goOn ch stop g) ch := by
  have stopped : (w.inTurn ch x t).LineEnds (((w.inTurn ch x t).stopTurn ch .silence).afterSilence ch) ch :=
    (State.LineKept.stopTurn _ ch _).endsAfter (State.afterSilence_lineEnds _ ch)
  have written : ∀ output turn, (w.inTurn ch x t).LineEnds
      (w.setChannel ch { x with output := output, turn := turn }) ch := fun output turn => by
    rw [State.LineEnds, State.inTurn_own, State.channel_setChannel, if_pos rfl]
    exact ⟨rfl, fun _ => rfl⟩
  cases g with
  | goOn =>
    cases stop with
    | true => exact stopped
    | false =>
      obtain ⟨output, turn, same⟩ := State.beginSymbol_inTurn_writes w ch x t
      exact (show (w.inTurn ch x t).goOn ch false .goOn = _ from same) ▸ written output turn
  | cutFalls =>
    cases stop with
    | true => exact stopped
    | false =>
      obtain ⟨output, turn, same⟩ := State.fallCut_inTurn_writes w ch x t
      exact (show (w.inTurn ch x t).goOn ch false .cutFalls = _ from same) ▸ written output turn
  | turnEnds =>
    rw [State.goOn, State.inTurn_own]
    exact (State.LineKept.endTurn _ ch _).endsAfter (State.afterTurnEnd_lineEnds _ ch)

theorem State.completeHold_lineEnds (s : State) (ch : Fin 8) (stop : Bool) : s.LineEnds (s.completeHold ch stop) ch := by
  have counted : s.LineKept (s.setChannel ch { s.channel ch with
      holdCount := (s.channel ch).holdCount + 1, output := none }) := .setChannel s ch rfl rfl
  unfold State.completeHold
  dsimp only
  cases eligible : (s.setChannel ch { s.channel ch with
      holdCount := (s.channel ch).holdCount + 1, output := none }).anythingEligible ch with
  | true =>
    obtain ⟨u, selects, started⟩ := State.selectTurn_started false eligible
    rw [selects]
    exact (counted.trans (.turnStarted started)).ends ch
  | false =>
    rw [State.selectTurn, State.choose_nothing_iff.mpr eligible]
    dsimp only
    split
    · exact (counted.trans (.release _ ch)).ends ch
    · exact (counted.trans (.emit _ ch _)).ends ch

variable {e : Emission}

/-- The shift state and the substitution count that a completion leaves (06: R108, R109). -/
theorem State.completeSymbol_line (output : (s.channel ch).output = some e) :
    ((s.completeSymbol ch).channel ch).substitutions = (s.channel ch).substitutionsAfter e.symbol ∧
      (((s.completeSymbol ch).channel ch).state ≠ .off →
        ((s.completeSymbol ch).channel ch).shift = (s.channel ch).shiftAfter e.symbol) := by
  have own := State.symbolDone_own s ch e
  cases turn : (s.channel ch).turn with
  | none =>
    rw [State.completeSymbol_of_hold output turn]
    obtain ⟨substitutions, shift⟩ := State.completeHold_lineEnds (s.symbolDone ch e) ch (s.channel ch).silenceStop
    rw [own] at substitutions shift
    exact ⟨substitutions, shift⟩
  | some t =>
    obtain ⟨w, t', same⟩ := State.turnWorkDone_turn (s := s) (ch := ch) (e := e) (t := t)
    rw [State.completeSymbol_of_turn output turn, State.symbolDone_inTurn turn,
      show (State.completeTurn _ _ _ _).1 = w.inTurn ch _ t' from same]
    obtain ⟨substitutions, shift⟩ := State.goOn_lineEnds w ch ((s.channel ch).symbolDone e.symbol) t'
      (s.channel ch).silenceStop ((({ s with now := max s.now e.due } : State).inTurn ch
        ((s.channel ch).symbolDone e.symbol) t).completeTurn ch t e.symbol).2
    rw [State.inTurn_own] at substitutions shift
    exact ⟨substitutions, shift⟩

end

end Sys2Proof.Machine
end

section
/-! PROOFS. The opening of a turn: LEAD, PREAMBLE and the texts (06: R93, R108, R109; 08: R129 to R134, R140, R149). -/

namespace Sys2Proof.Machine

/-! ## A completion that nothing stops -/

theorem Channel.symbolDone_eq {x : Channel} (calm : x.silenceStop = false) (y : Symbol) : x.symbolDone y =
    { x with shift := x.shiftAfter y, substitutions := x.substitutionsAfter y } := by
  rw [Channel.symbolDone, ← calm]

theorem Channel.symbolDone_idle {x : Channel} (calm : x.silenceStop = false) : x.symbolDone .idle = x := by
  rw [Channel.symbolDone_eq calm]
  rfl

theorem Channel.symbolDone_phase {x : Channel} (calm : x.silenceStop = false) :
    x.symbolDone .phase = { x with shift := .unknown } := by
  rw [Channel.symbolDone_eq calm]
  rfl

/-- The state in which a turn does the work of a completed symbol. -/
def State.working (s : State) (ch : Fin 8) (y : Symbol) (due : Nat) (t : Turn) : State :=
  ({ s with now := max s.now due } : State).inTurn ch ((s.channel ch).symbolDone y) t

section

variable {s : State} {ch : Fin 8} {t : Turn} {y : Symbol} {due : Nat}

theorem State.completeSymbol_of_step (turn : (s.channel ch).turn = some t)
    (calm : (s.channel ch).silenceStop = false) (output : (s.channel ch).output = some ⟨y, due⟩) {r : State} {g : Progress}
    (step : (s.working ch y due t).completeTurn ch t y = (r, g)) : s.completeSymbol ch = r.goOn ch false g := by
  have work : s.completeSymbol ch = ((s.working ch y due t).completeTurn ch t y).1.goOn ch false
      ((s.working ch y due t).completeTurn ch t y).2 := by
    rw [State.completeSymbol_of_turn output turn, State.symbolDone_inTurn turn, calm]
    rfl
  rw [work, step]

theorem exec_of_step (released : s.resetHeld = false) (turn : (s.channel ch).turn = some t)
    (calm : (s.channel ch).silenceStop = false) (output : (s.channel ch).output = some ⟨y, due⟩) {r : State} {g : Progress}
    (step : (s.working ch y due t).completeTurn ch t y = (r, g)) :
    exec (.symbolCompletion ch) s = .next (r.goOn ch false g).arbitrate := by
  rw [exec_symbolCompletion released, State.completeSymbol_of_step turn calm output step]

/-- A shift does none of the tests of its phase (08: R129). -/
theorem State.completeTurn_of_shift (w : State) (shift : y ∈ [Symbol.shiftLetters, .shiftFigures]) :
    w.completeTurn ch t y = (w, if t.cutAtShift then .cutFalls else .goOn) := by
  rcases List.mem_pair.mp shift with letters | figures
  · rw [letters]
    rfl
  · rw [figures]
    rfl

theorem Turn.cutAtShift_of_none (uncut : t.pendingCut = none) : t.cutAtShift = false := by
  rw [Turn.cutAtShift, Turn.cutAnywhere, uncut]
  split <;> rfl

/-- A data character opens in the shift that stands, which no data character changes. -/
theorem Channel.symbolDone_opening (x : Channel) (sent source : Byte) :
    (x.symbolDone (.data sent source)).opening = x.opening := rfl

/-! ## The first character of a body (08: R133) -/

theorem State.bodyChar_of_written {s : State} {p : PassTurn} (written : s.bodyWritten p = true) :
    some (s.bodyChar p) = (s.bulletin p.bulletin).map fun b => b.current.charAt s.store.cells p.bodyOffset := by
  rw [State.bodyWritten_eq] at written
  rw [State.bodyChar, State.bulletinText]
  cases present : s.bulletin p.bulletin with
  | some b => rfl
  | none =>
    rw [present] at written
    cases written

/-! ## LEAD and PREAMBLE (08: R130, R131) -/

section

variable (turn : (s.channel ch).turn = some t) (calm : (s.channel ch).silenceStop = false) (uncut : t.pendingCut = none)

include uncut

theorem State.working_lead (phase : t.phase = .lead) : (s.working ch .idle due t).completeTurn ch t .idle =
    (s.working ch .idle due (if (s.channel ch).settings.lead ≤ t.phaseCount + 1
      then { t with phase := .preamble, phaseCount := 0 } else { t with phaseCount := t.phaseCount + 1 }), .goOn) := by
  have work : (s.working ch .idle due t).completeTurn ch t .idle = (s.working ch .idle due t).completeLead ch t := by
    rw [State.completeTurn, State.completePhase, phase]
  rw [work, State.working, State.completeLead_inTurn, uncut, if_neg (by decide),
    show ((s.channel ch).symbolDone .idle).settings = (s.channel ch).settings from rfl]
  split <;> rfl

theorem State.working_preamble (phase : t.phase = .preamble) : (s.working ch .phase due t).completeTurn ch t .phase =
    (s.working ch .phase due (if (s.channel ch).settings.phasing ≤ t.phaseCount + 1
      then { t with phaseCount := t.phaseCount + 1 }.enterText .header (s.headerOctets t.kind)
      else { t with phaseCount := t.phaseCount + 1 }), .goOn) := by
  have work : (s.working ch .phase due t).completeTurn ch t .phase = (s.working ch .phase due t).completePreamble ch t := by
    rw [State.completeTurn, State.completePhase, phase]
  have header : ({ s with now := max s.now due } : State).headerText t.kind = s.headerOctets t.kind := by
    rw [State.headerText_eq]
    cases t.kind <;> rfl
  rw [work, State.working, State.completePreamble_inTurn, uncut, if_neg (by decide), header,
    show ((s.channel ch).symbolDone .phase).settings = (s.channel ch).settings from rfl]
  split <;> rfl

/-! ## The characters of a text -/

/-- A character of a text that is not the last one. -/
theorem State.working_text (phase : t.phase ∈ [.header, .trailer, .closing]) (sent source : Byte)
    (more : t.textPosition + 1 < t.text.length) :
    (s.working ch (.data sent source) due t).completeTurn ch t (.data sent source) =
      (s.working ch (.data sent source) due { t with textPosition := t.textPosition + 1 }, .goOn) := by
  have header : (s.working ch (.data sent source) due t).completeHeader ch t =
      (s.working ch (.data sent source) due { t with textPosition := t.textPosition + 1 }, .goOn) := by
    rw [State.working, State.completeHeader_inTurn, uncut, if_neg (by decide), if_neg (by omega)]
    rfl
  have closing : (s.working ch (.data sent source) due t).completeClosing ch t =
      (s.working ch (.data sent source) due { t with textPosition := t.textPosition + 1 }, .goOn) := by
    rw [State.working, State.completeClosing_inTurn, if_neg (by omega)]
    rfl
  simp only [List.mem_cons, List.not_mem_nil, or_false] at phase
  rcases phase with here | here | here
  · refine Eq.trans ?_ header
    rw [State.completeTurn, State.completePhase, here]
  · refine Eq.trans ?_ closing
    rw [State.completeTurn, State.completePhase, here]
  · refine Eq.trans ?_ closing
    rw [State.completeTurn, State.completePhase, here]

/-- The last character of a header opens the body. -/
theorem State.working_header (phase : t.phase = .header) (sent source : Byte) (last : t.text.length ≤ t.textPosition + 1) :
    (s.working ch (.data sent source) due t).completeTurn ch t (.data sent source) =
      ((s.working ch (.data sent source) due { t with textPosition := t.textPosition + 1 }).enterBody ch t, .goOn) := by
  have work : (s.working ch (.data sent source) due t).completeTurn ch t (.data sent source) =
      (s.working ch (.data sent source) due t).completeHeader ch t := by
    rw [State.completeTurn, State.completePhase, phase]
  rw [work, State.working, State.completeHeader_inTurn, uncut, if_neg (by decide), if_pos last]
  rfl

end

end

end Sys2Proof.Machine
end

section
/-! PROOFS. A turn opens with phasing and header (08: R129 to R134). -/

namespace Sys2Proof.Machine

section

variable {s : State} {ch : Fin 8} {t : Turn} {due : Nat}

/-- What the next symbol of a turn leaves. -/
theorem State.goOn_begins (w : State) (ch : Fin 8) (x : Channel) {t : Turn} (held : t.held = none)
    (phase : t.phase ≠ .preamble) :
    (w.inTurn ch x t).goOn ch false .goOn = w.setChannel ch (x.begun w.now t (w.nextChar t)) :=
  State.beginSymbol_inTurn w ch x held phase

theorem State.goOn_begins_preamble (w : State) (ch : Fin 8) (x : Channel) {t : Turn} (held : t.held = none)
    (phase : t.phase = .preamble) : (w.inTurn ch x t).goOn ch false .goOn =
      w.setChannel ch { x with output := some ⟨.phase, w.now + x.settings.symbolTicks⟩, turn := some t } :=
  State.beginSymbol_inTurn_preamble w ch x held phase

/-- The next character of a text is in its place. -/
theorem State.nextChar_text (w : State) (phase : t.phase ∈ [.header, .trailer, .closing]) :
    w.nextChar t = some (t.text[t.textPosition]?.getD 0x20) := by
  simp only [List.mem_cons, List.not_mem_nil, or_false] at phase
  unfold State.nextChar
  rcases phase with here | here | here
  · rw [here]
  · rw [here]
  · rw [here]

theorem not_preamble_of_text (phase : t.phase ∈ [.header, .trailer, .closing]) : t.phase ≠ .preamble := by
  simp only [List.mem_cons, List.not_mem_nil, or_false] at phase
  rcases phase with here | here | here
  · simp [here]
  · simp [here]
  · simp [here]

/-- A character of the text begins: the shift it needs first, with the character held. -/
theorem Channel.begun_text (x : Channel) (now : Nat) (t : Turn) (c : Byte) :
    (x.begun now t (some c)).turn = some { t with
      held := if (convert x.settings.code c).need = none ∨ (convert x.settings.code c).need = some x.shift then none
        else some c } ∧
    (x.begun now t (some c)).output = some ⟨if (convert x.settings.code c).need = none ∨
        (convert x.settings.code c).need = some x.shift then .data (convert x.settings.code c).sent c
      else if (convert x.settings.code c).need = some .letters then .shiftLetters else .shiftFigures,
      now + x.settings.symbolTicks⟩ := by
  rw [Channel.begun, Option.elim_some, Channel.opening]
  split_ifs <;> exact ⟨rfl, rfl⟩

theorem Channel.begun_idle (x : Channel) (now : Nat) {t : Turn} (held : t.held = none) : x.begun now t none =
    { x with output := some ⟨.idle, now + x.settings.symbolTicks⟩, turn := some t } := by
  have same : { t with held := none } = t := by rw [← held]
  rw [Channel.begun, Option.elim_none, same]

variable (released : s.resetHeld = false) (turn : (s.channel ch).turn = some t)
  (calm : (s.channel ch).silenceStop = false) (uncut : t.pendingCut = none)

include released turn calm uncut

/-- The character held for a shift begins. -/
theorem exec_held {c : Byte} {y : Symbol} (held : t.held = some c) (shift : y ∈ [Symbol.shiftLetters, .shiftFigures])
    (output : (s.channel ch).output = some ⟨y, due⟩) : exec (.symbolCompletion ch) s =
      .next ((({ s with now := max s.now due } : State).setChannel ch { s.channel ch with
        shift := if y = .shiftLetters then .letters else .figures
        output := some ⟨.data (convert (s.channel ch).settings.code c).sent c,
          max s.now due + (s.channel ch).settings.symbolTicks⟩
        turn := some { t with held := none } }).arbitrate) := by
  have step := State.completeTurn_of_shift (ch := ch) (t := t) (s.working ch y due t) shift
  rw [Turn.cutAtShift_of_none uncut, if_neg (by decide)] at step
  rw [exec_of_step released turn calm output step, show (s.working ch y due t).goOn ch false .goOn =
    (s.working ch y due t).beginSymbol ch from rfl, State.working, State.beginSymbol_inTurn_held _ ch _ held,
    Channel.symbolDone_eq calm]
  rcases List.mem_pair.mp shift with letters | figures
  · rw [letters]
    rfl
  · rw [figures]
    rfl

section

variable (held : t.held = none)

include held

theorem exec_lead (phase : t.phase = .lead) (output : (s.channel ch).output = some ⟨.idle, due⟩) :
    exec (.symbolCompletion ch) s = .next ((({ s with now := max s.now due } : State).setChannel ch
      (if t.phaseCount + 1 < (s.channel ch).settings.lead
        then { s.channel ch with
          output := some ⟨.idle, max s.now due + (s.channel ch).settings.symbolTicks⟩
          turn := some { t with phaseCount := t.phaseCount + 1 } }
        else { s.channel ch with
          output := some ⟨.phase, max s.now due + (s.channel ch).settings.symbolTicks⟩
          turn := some { t with phase := .preamble, phaseCount := 0 } })).arbitrate) := by
  rw [exec_of_step released turn calm output (State.working_lead uncut phase), State.working,
    Channel.symbolDone_idle calm]
  by_cases more : t.phaseCount + 1 < (s.channel ch).settings.lead
  · have idle : ({ s with now := max s.now due } : State).nextChar { t with phaseCount := t.phaseCount + 1 } = none := by
      rw [State.nextChar, phase]
    rw [if_neg (by omega), if_pos more, State.goOn_begins _ _ _ (by exact held) (by simp [phase]), idle,
      Channel.begun_idle _ _ (by exact held)]
  · rw [if_pos (by omega), if_neg more]
    rw [State.goOn_begins_preamble _ _ _ (by exact held) (by rfl)]

theorem exec_preamble (phase : t.phase = .preamble) (output : (s.channel ch).output = some ⟨.phase, due⟩)
    (more : t.phaseCount + 1 < (s.channel ch).settings.phasing) : exec (.symbolCompletion ch) s =
      .next ((({ s with now := max s.now due } : State).setChannel ch { s.channel ch with
        shift := .unknown
        output := some ⟨.phase, max s.now due + (s.channel ch).settings.symbolTicks⟩
        turn := some { t with phaseCount := t.phaseCount + 1 } }).arbitrate) := by
  rw [exec_of_step released turn calm output (State.working_preamble uncut phase), State.working,
    Channel.symbolDone_phase calm, if_neg (by omega)]
  rw [State.goOn_begins_preamble _ _ _ (by exact held) (by exact phase)]
  rfl

omit held in
/-- The header begins after the last symbol of the preamble. -/
theorem exec_header_begins (phase : t.phase = .preamble) (output : (s.channel ch).output = some ⟨.phase, due⟩)
    (last : (s.channel ch).settings.phasing ≤ t.phaseCount + 1) :
    exec (.symbolCompletion ch) s = .next ((({ s with now := max s.now due } : State).setChannel ch
      ({ s.channel ch with shift := .unknown }.begun (max s.now due)
        ({ t with phaseCount := t.phaseCount + 1 }.enterText .header (s.headerOctets t.kind))
        (s.headerOctets t.kind).head?)).arbitrate) := by
  obtain ⟨c, first⟩ := State.headerOctets_head s t.kind
  have character : ({ s with now := max s.now due } : State).nextChar
      ({ t with phaseCount := t.phaseCount + 1 }.enterText .header (s.headerOctets t.kind)) =
      (s.headerOctets t.kind).head? := by
    rw [State.nextChar_text _ (by simp [Turn.enterText]), first]
    show some (((s.headerOctets t.kind)[0]?).getD 0x20) = some c
    rw [← List.head?_eq_getElem?, first]
    rfl
  rw [exec_of_step released turn calm output (State.working_preamble uncut phase), State.working,
    Channel.symbolDone_phase calm, if_pos last, State.goOn_begins _ _ _ (by rfl) (by simp [Turn.enterText]), character]

/-- The next character of a text begins. -/
theorem exec_text (phase : t.phase ∈ [.header, .trailer, .closing]) {sent source : Byte}
    (output : (s.channel ch).output = some ⟨.data sent source, due⟩) {c : Byte}
    (next : t.text[t.textPosition + 1]? = some c) :
    exec (.symbolCompletion ch) s = .next ((({ s with now := max s.now due } : State).setChannel ch
      (((s.channel ch).symbolDone (.data sent source)).begun (max s.now due)
        { t with textPosition := t.textPosition + 1 } (some c))).arbitrate) := by
  obtain ⟨more, -⟩ := List.getElem?_eq_some_iff.mp next
  rw [exec_of_step released turn calm output (State.working_text uncut phase sent source more), State.working,
    State.goOn_begins _ _ _ (by exact held) (not_preamble_of_text (by exact phase)),
    State.nextChar_text _ (by exact phase), next]
  rfl

/-- The body of a telex turn begins (08: R132). -/
theorem exec_body_telex {c : TelexTurn} (kind : t.kind = .telex c) (phase : t.phase = .header) {sent source : Byte}
    (output : (s.channel ch).output = some ⟨.data sent source, due⟩) (last : t.text.length ≤ t.textPosition + 1) :
    exec (.symbolCompletion ch) s = .next (((({ s with now := max s.now due } : State).setCircuit c.circuit
      { s.circuit c.circuit with resume := false }).setChannel ch
      (((s.channel ch).symbolDone (.data sent source)).begun (max s.now due)
        { t with
          textPosition := t.textPosition + 1, phase := .body
          kind := .telex { c with bodyCount := 0, graceCount := 0 } }
        ((s.circuit c.circuit).chain.head? s.store.cells))).arbitrate) := by
  rw [exec_of_step released turn calm output (State.working_header uncut phase sent source last), State.working,
    State.enterBody_telex _ ch _ t kind, State.goOn_begins _ _ _ (by exact held) (by rintro ⟨⟩)]
  have character : ((({ s with now := max s.now due } : State).setCircuit c.circuit
      { s.circuit c.circuit with resume := false }).nextChar { t with
        textPosition := t.textPosition + 1, phase := .body
        kind := .telex { c with bodyCount := 0, graceCount := 0 } }) =
      (s.circuit c.circuit).chain.head? s.store.cells := by
    unfold State.nextChar
    dsimp only
    rw [State.circuit_setCircuit, if_pos rfl]
    rfl
  rw [← character]
  rfl

/-- The body of a pass begins, or its gap (08: R133, R143). -/
theorem exec_body_pass {p : PassTurn} (kind : t.kind = .pass p) (phase : t.phase = .header) {sent source : Byte}
    (output : (s.channel ch).output = some ⟨.data sent source, due⟩) (last : t.text.length ≤ t.textPosition + 1) :
    exec (.symbolCompletion ch) s = .next (State.arbitrate
      (if s.bodyWritten { p with bodyOffset := 0 } = true then
        ({ s with now := max s.now due } : State).setChannel ch
          (((s.channel ch).symbolDone (.data sent source)).begun (max s.now due)
            { t with textPosition := t.textPosition + 1, phase := .body, kind := .pass { p with bodyOffset := 0 } }
            (some (s.bodyChar { p with bodyOffset := 0 })))
      else (({ s with now := max s.now due } : State).raiseEvent (.channel ch) .gapStart).setChannel ch
          (((s.channel ch).symbolDone (.data sent source)).begun (max s.now due)
            { t with
              textPosition := t.textPosition + 1, phase := .gap
              kind := .pass { p with
                bodyOffset := 0
                gapTimer := some ⟨Config.seconds s.gapTimeout, max s.now due + Config.seconds s.gapTimeout⟩ } }
            none))) := by
  rw [exec_of_step released turn calm output (State.working_header uncut phase sent source last), State.working,
    State.enterBody_pass _ ch _ t kind,
    show ({ s with now := max s.now due } : State).bodyWritten { p with bodyOffset := 0 } =
      s.bodyWritten { p with bodyOffset := 0 } from rfl]
  split
  · rw [State.goOn_begins _ _ _ (by exact held) (by rintro ⟨⟩)]
    rfl
  · rw [State.goOn_begins _ _ _ (by exact held) (by rintro ⟨⟩)]
    rfl

end

end

/-- Settles O48. -/
theorem turnOpensWithPhasingAndHeader : Obligations.TurnOpensWithPhasingAndHeader := by
  intro ch t due s released turn calm uncut x later ends run
  have own : ∀ (w : State) (z : Channel), (w.setChannel ch z).channel ch = z := fun w z =>
    (State.channel_setChannel _ _ _ _).trans (if_pos rfl)
  refine ⟨fun y output => ⟨s.completeSymbol ch, exec_symbolCompletion released ch, (State.completeSymbol_line output).1⟩,
    fun c y held shift output => exec_held released turn calm uncut held shift output, fun held =>
    ⟨fun phase output => exec_lead released turn calm uncut held phase output, fun phase output =>
      ⟨fun more => exec_preamble released turn calm uncut held phase output more, fun last => ?_⟩,
      fun phase sent source output c next => ?_, fun phase sent source output last => ?_⟩⟩
  · refine ⟨_, _, exec_header_begins released turn calm uncut phase output last, by rw [own],
      congrArg Channel.turn (own _ _), rfl, rfl, rfl, rfl, congrArg Channel.shift (own _ _), ?_⟩
    rw [own]
    exact Channel.begins_begun rfl rfl _ _ _
  · intro v plain
    obtain ⟨turn', output'⟩ := Channel.begun_text (x.symbolDone (.data sent source)) (max s.now due)
      { t with textPosition := t.textPosition + 1 } c
    refine ⟨_, exec_text released turn calm uncut held phase output next, ?_⟩
    rw [own]
    exact ⟨rfl, turn', output'⟩
  · cases kind : t.kind with
    | telex c =>
      refine ⟨_, _, exec_body_telex released turn calm uncut held kind phase output last,
        congrArg Channel.turn (own _ _), rfl, fun c' same => ?_, nofun⟩
      cases same
      refine ⟨rfl, rfl, ?_, rfl, fun law => ?_⟩
      · rw [State.setChannel_circuit, State.circuit_setCircuit, if_pos rfl]
      · rw [own, ← Chain.head?_eq law]
        exact Channel.begins_begun rfl rfl _ _ _
    | pass p =>
      have body := exec_body_pass released turn calm uncut held kind phase output last
      have there := State.bodyWritten_eq s { p with bodyOffset := 0 }
      cases written : s.bodyWritten { p with bodyOffset := 0 } with
      | true =>
        rw [written, if_pos rfl] at body
        refine ⟨_, _, body, congrArg Channel.turn (own _ _), rfl, nofun, fun p' same => ?_⟩
        cases same
        rw [if_pos (there.symm.trans written), own]
        refine ⟨rfl, rfl, rfl, ?_⟩
        have character := State.bodyChar_of_written written
        dsimp only at character
        rw [← character]
        exact Channel.begins_begun rfl rfl _ _ _
      | false =>
        rw [written, if_neg (by decide)] at body
        refine ⟨_, _, body, congrArg Channel.turn (own _ _), rfl, nofun, fun p' same => ?_⟩
        cases same
        rw [if_neg (fun h => by rw [← there, written] at h; cases h), own]
        exact ⟨rfl, State.reports_raiseEvent _ _ _, Channel.begins_begun rfl rfl _ _ _, rfl⟩

end Sys2Proof.Machine
end

section
/-! PROOFS. The body of a telex turn (01: R16, R18; 05: R80, R81; 08: R135 to R140). -/

namespace Sys2Proof.Machine

/-- What a turn that goes on leaves: its next symbol, on its channel alone. -/
theorem State.goOn_spec (w : State) (ch : Fin 8) (x : Channel) (t : Turn) :
    ∃ y held, (w.inTurn ch x t).goOn ch false .goOn = w.setChannel ch y ∧ y.turn = some { t with held := held } ∧
      y.state = x.state ∧ (t.held = none → t.phase ≠ .preamble →
        ∀ z : Channel, x.profile = z.profile → x.shift = z.shift → z.begins w.now (w.nextChar t) y) ∧
      ∀ c, t.held = some c → held = none ∧
        y.output = some ⟨.data (convert x.settings.code c).sent c, w.now + x.settings.symbolTicks⟩ := by
  cases held : t.held with
  | some c =>
    exact ⟨_, none, State.beginSymbol_inTurn_held w ch x held, rfl, rfl, nofun, fun c' same => by cases same; exact ⟨rfl, rfl⟩⟩
  | none =>
    by_cases phase : t.phase = .preamble
    · have same : { t with held := none } = t := by rw [← held]
      exact ⟨_, none, State.beginSymbol_inTurn_preamble w ch x held phase, by rw [same], rfl,
        fun _ other => absurd phase other, nofun⟩
    · exact ⟨_, _, State.beginSymbol_inTurn w ch x held phase, rfl, rfl,
        fun _ _ z profile shift => Channel.begins_begun profile shift _ _ _, nofun⟩

section

variable {s : State} {ch : Fin 8} {t : Turn} {c : TelexTurn} {due : Nat}

/-- The first character of a trailer is CR. -/
theorem State.nextChar_trailer (w : State) (t : Turn) : w.nextChar t.enterTrailer = some 0x0D := by
  obtain ⟨rest, text⟩ := trailerOctets_head t.kind
  show some (((trailerText t.kind)[0]?).getD 0x20) = some 0x0D
  rw [trailerText_eq, text]
  rfl

theorem Turn.cutInBody_of_none (uncut : t.pendingCut = none) (boundary : Bool) : t.cutInBody boundary = false := by
  rw [Turn.cutInBody, uncut]
  rfl

variable (kind : t.kind = .telex c) (phase : t.phase = .body)

/-- The turn once a body character has left the queue (08: R135). -/
def Turn.charSent (t : Turn) (c : TelexTurn) : Turn :=
  { t.countUrgency with kind := .telex { c with bodyCount := c.bodyCount + 1, graceCount := 0 } }

include kind phase

theorem State.working_telexChar {sent source : Byte} (law : (s.circuit c.circuit).chain.law)
    (filled : (s.circuit c.circuit).count ≠ 0) :
    (s.working ch (.data sent source) due t).completeTurn ch t (.data sent source) =
      ((({ s with now := max s.now due } : State).leaveQueue c.circuit).inTurn ch
        ((s.channel ch).symbolDone (.data sent source)) (t.charSent c)).testTelexBody ch
        (isBreakChar source || decide ((s.circuit c.circuit).count = 1)) := by
  have work : (s.working ch (.data sent source) due t).completeTurn ch t (.data sent source) =
      (s.working ch (.data sent source) due t).completeTelexChar ch c source := by
    rw [State.completeTurn, State.completePhase, phase]
    dsimp only
    unfold State.completeBody
    rw [kind]
  have count : ((({ s with now := max s.now due } : State).leaveQueue c.circuit).circuit c.circuit).count =
      (s.circuit c.circuit).count - 1 := by
    rw [State.leaveQueue_circuit, State.headGone_circuit, if_pos rfl]
    exact Chain.leave_count law
  have last : (s.circuit c.circuit).count - 1 = 0 ↔ (s.circuit c.circuit).count = 1 := by omega
  rw [work, State.working, State.completeTelexChar_inTurn, if_neg (by exact filled), count]
  simp only [last]
  rfl

theorem State.working_telexIdle_empty (empty : (s.circuit c.circuit).count = 0) :
    (s.working ch .idle due t).completeTurn ch t .idle =
      (s.working ch .idle due { t with kind := .telex { c with graceCount := c.graceCount + 1 } }).testTelexBody ch true := by
  have work : (s.working ch .idle due t).completeTurn ch t .idle = (s.working ch .idle due t).completeTelexIdle ch t c := by
    rw [State.completeTurn, State.completePhase, phase]
    dsimp only
    unfold State.completeBody
    rw [kind]
  rw [work, State.working, State.completeTelexIdle_inTurn, if_pos (by exact empty)]
  rfl

theorem State.working_telexIdle_filled (filled : (s.circuit c.circuit).count ≠ 0) :
    (s.working ch .idle due t).completeTurn ch t .idle =
      (s.working ch .idle due { t with kind := .telex { c with graceCount := 0 } },
        if t.cutInBody false then .cutFalls else .goOn) := by
  have work : (s.working ch .idle due t).completeTurn ch t .idle = (s.working ch .idle due t).completeTelexIdle ch t c := by
    rw [State.completeTurn, State.completePhase, phase]
    dsimp only
    unfold State.completeBody
    rw [kind]
  rw [work, State.working, State.completeTelexIdle_inTurn, if_neg (by exact filled)]
  rfl

end

/-- The tests of the end of a telex body (08: R137), as the statement has them. -/
def telexEnds (x : Circuit) (p : Profile) (left body grace : Nat) (boundary : Bool) : Bool :=
  (decide (x.life = .closing) && decide (left = 0)) || decide (p.telexQuota + 32 ≤ body) ||
  (decide (p.telexQuota ≤ body) && boundary) || (x.hostHold && boundary) || decide (p.turnGrace ≤ grace)

/-- A body that no cut ends goes on, or to its trailer. -/
theorem State.testTelexBody_uncut (w : State) (ch : Fin 8) (x : Channel) {t : Turn} {c : TelexTurn}
    (kind : t.kind = .telex c) (uncut : t.pendingCut = none) (boundary : Bool) :
    (w.inTurn ch x t).testTelexBody ch boundary =
      (w.inTurn ch x (if telexEnds (w.circuit c.circuit) x.settings (w.circuit c.circuit).count c.bodyCount c.graceCount
        boundary = true then t.enterTrailer else t), .goOn) := by
  rw [State.testTelexBody_inTurn w ch x t kind, Turn.cutInBody_of_none uncut, if_neg (by decide),
    show bodyEnds x.settings (w.circuit c.circuit) c boundary = telexEnds (w.circuit c.circuit) x.settings
      (w.circuit c.circuit).count c.bodyCount c.graceCount boundary from rfl]
  split <;> rfl

section

variable {t : Turn} (phase : t.phase = .body) (fin : Bool)

include phase

theorem Turn.tested_phase : (if fin = true then t.enterTrailer else t).phase = if fin = true then .trailer else .body := by
  cases fin with
  | true => rfl
  | false => exact phase

theorem Turn.tested_not_preamble : (if fin = true then t.enterTrailer else t).phase ≠ .preamble := by
  rw [Turn.tested_phase phase]
  cases fin <;> nofun

theorem Turn.tested_text {c : TelexTurn} (kind : t.kind = .telex c)
    (trailer : (if fin = true then t.enterTrailer else t).phase = .trailer) :
    (if fin = true then t.enterTrailer else t).text = [0x0D, 0x0A] ∧
      (if fin = true then t.enterTrailer else t).textPosition = 0 := by
  cases fin with
  | true =>
    refine ⟨?_, rfl⟩
    show trailerText t.kind = _
    rw [kind]
    rfl
  | false =>
    rw [Turn.tested_phase phase] at trailer
    cases trailer

omit phase in
theorem Turn.tested_held (held : t.held = none) : (if fin = true then t.enterTrailer else t).held = none := by
  cases fin with
  | true => rfl
  | false => exact held

end

/-- What the turn sends next in its body, or at the beginning of its trailer. -/
theorem State.nextChar_telex (w : State) {t : Turn} {c : TelexTurn} (kind : t.kind = .telex c) (phase : t.phase = .body)
    (ends : Bool) (law : (w.circuit c.circuit).chain.law) :
    w.nextChar (if ends = true then t.enterTrailer else t) =
      if (if ends = true then t.enterTrailer else t).phase = .trailer then some 0x0D
      else ((w.circuit c.circuit).chain.text w.store.cells).head? := by
  cases ends with
  | true =>
    rw [if_pos rfl, State.nextChar_trailer]
    rfl
  | false =>
    rw [if_neg (by decide), if_neg (by simp [phase]), State.nextChar, phase]
    dsimp only
    rw [kind]
    exact Chain.head?_eq law _

section

variable {s : State} {ch : Fin 8} {t : Turn} {c : TelexTurn} {due : Nat} (released : s.resetHeld = false)
  (turn : (s.channel ch).turn = some t) (calm : (s.channel ch).silenceStop = false) (uncut : t.pendingCut = none)
  (kind : t.kind = .telex c) (phase : t.phase = .body) (law : (s.circuit c.circuit).chain.law)

include released turn calm uncut kind phase law

/-- A character of a telex body that nothing stops or cuts. -/
theorem telexBody_char {sent source : Byte} (output : (s.channel ch).output = some ⟨.data sent source, due⟩)
    (filled : (s.circuit c.circuit).count ≠ 0) :
    let boundary := source = 0x20 || source = 0x0D || source = 0x0A || decide ((s.circuit c.circuit).count = 1)
    ∃ (u : State) (t' : Turn), exec (.symbolCompletion ch) s = .next u.arbitrate ∧
      s.headLeft c.circuit u ∧ u.bulletins = s.bulletins ∧ (∀ j, j ≠ ch → u.channel j = s.channel j) ∧
      (u.channel ch).turn = some t' ∧
      t'.kind = .telex { c with bodyCount := c.bodyCount + 1, graceCount := 0 } ∧
      t'.phase = (if telexEnds (s.circuit c.circuit) (s.channel ch).settings ((s.circuit c.circuit).count - 1)
        (c.bodyCount + 1) 0 boundary then .trailer else .body) ∧
      (t'.phase = .trailer → t'.text = [0x0D, 0x0A] ∧ t'.textPosition = 0) ∧
      u.now = max s.now due ∧ u.clock = s.clock ∧ u.link = s.link ∧
      (t.held = none → (s.channel ch).begins u.now (if t'.phase = .trailer then some 0x0D
        else ((u.circuit c.circuit).chain.text u.store.cells).head?) (u.channel ch)) := by
  intro boundary
  obtain ⟨w, isW⟩ : ∃ w, w = ({ s with now := max s.now due } : State).leaveQueue c.circuit := ⟨_, rfl⟩
  have left : s.headLeft c.circuit w := by
    rw [isW]
    exact State.headLeft_leaveQueue (s := ({ s with now := max s.now due } : State)) law filled
  obtain ⟨circuits, notices, only⟩ := State.leaveQueue_only ({ s with now := max s.now due } : State) c.circuit
  rw [← isW] at only
  have record : w.circuit c.circuit = { s.circuit c.circuit with
      chain := (s.circuit c.circuit).chain.leave.1, flow := (w.circuit c.circuit).flow } := by
    have circuit := State.leaveQueue_circuit ({ s with now := max s.now due } : State) c.circuit c.circuit
    rw [← isW, State.headGone_circuit, if_pos rfl] at circuit
    exact circuit
  have chain : (w.circuit c.circuit).chain = (s.circuit c.circuit).chain.leave.1 := by rw [record]
  have count : (w.circuit c.circuit).count = (s.circuit c.circuit).count - 1 := by
    rw [Circuit.count, chain]
    exact Chain.leave_count law
  have ends : telexEnds (w.circuit c.circuit) (s.channel ch).settings (w.circuit c.circuit).count (c.bodyCount + 1) 0
      boundary = telexEnds (s.circuit c.circuit) (s.channel ch).settings ((s.circuit c.circuit).count - 1)
        (c.bodyCount + 1) 0 boundary := by
    rw [count, record]
    rfl
  have uncut' : (t.charSent c).pendingCut = none := by
    rw [Turn.charSent, Turn.countUrgency, uncut]
    rfl
  have step := State.working_telexChar (ch := ch) (due := due) (sent := sent) (source := source) kind phase law filled
  rw [← isW, State.testTelexBody_uncut w ch _ (t := t.charSent c) rfl uncut'] at step
  dsimp only at step
  rw [show ((s.channel ch).symbolDone (.data sent source)).settings = (s.channel ch).settings from rfl,
    show (isBreakChar source || decide ((s.circuit c.circuit).count = 1)) = boundary from rfl, ends] at step
  generalize telexEnds (s.circuit c.circuit) (s.channel ch).settings ((s.circuit c.circuit).count - 1)
    (c.bodyCount + 1) 0 boundary = fin at step ⊢
  obtain ⟨y, held, went, turn', -, begins, -⟩ := State.goOn_spec w ch ((s.channel ch).symbolDone (.data sent source))
    (if fin = true then (t.charSent c).enterTrailer else t.charSent c)
  have own : (w.setChannel ch y).channel ch = y := (State.channel_setChannel _ _ _ _).trans (if_pos rfl)
  have next := State.nextChar_telex w (t := t.charSent c) rfl phase fin (by rw [chain]; exact Chain.leave_law law)
  refine ⟨w.setChannel ch y, _, by rw [exec_of_step released turn calm output step, went], left, by rw [only]; rfl,
    fun j other => ?_, (congrArg Channel.turn own).trans turn', ?_, ?_, ?_, by rw [only]; rfl, by rw [only]; rfl,
    by rw [only]; rfl, fun none => ?_⟩
  · rw [State.channel_setChannel, if_neg other.symm, only]
    rfl
  · cases fin <;> rfl
  · exact Turn.tested_phase (t := t.charSent c) phase fin
  · exact Turn.tested_text (t := t.charSent c) phase fin rfl
  · have started := begins (Turn.tested_held fin (t := t.charSent c) none)
      (Turn.tested_not_preamble (t := t.charSent c) phase fin) (s.channel ch) rfl rfl
    rw [next] at started
    rw [own]
    exact started

end

end Sys2Proof.Machine
end

section
/-! PROOFS. A telex body takes from the queue of its circuit (08: R135 to R140). -/

namespace Sys2Proof.Machine

section

variable {s : State} {ch : Fin 8} {t : Turn} {c : TelexTurn} {due : Nat} (released : s.resetHeld = false)
  (turn : (s.channel ch).turn = some t) (calm : (s.channel ch).silenceStop = false) (uncut : t.pendingCut = none)
  (kind : t.kind = .telex c) (phase : t.phase = .body) (law : (s.circuit c.circuit).chain.law)
  (output : (s.channel ch).output = some ⟨.idle, due⟩)

include released turn calm uncut kind phase output

include law in
/-- An IDLE symbol of an empty queue counts against the grace (08: R136). -/
theorem telexBody_idle_empty (empty : (s.circuit c.circuit).count = 0) : ∃ (u : State) (t' : Turn),
      exec (.symbolCompletion ch) s = .next u.arbitrate ∧ u = { s with now := u.now, channels := u.channels } ∧
      u.now = max s.now due ∧ (u.channel ch).turn = some t' ∧
      t'.kind = .telex { c with graceCount := c.graceCount + 1 } ∧
      t'.phase = (if telexEnds (s.circuit c.circuit) (s.channel ch).settings 0 c.bodyCount (c.graceCount + 1) true
        then .trailer else .body) ∧
      (t'.phase = .trailer → t'.text = [0x0D, 0x0A] ∧ t'.textPosition = 0) ∧
      (t.held = none → (s.channel ch).begins u.now (if t'.phase = .trailer then some 0x0D else none) (u.channel ch)) := by
  have step := State.working_telexIdle_empty (s := s) (ch := ch) (due := due) kind phase empty
  rw [State.working, State.working, State.testTelexBody_uncut _ ch _ (t := { t with
    kind := .telex { c with graceCount := c.graceCount + 1 } }) rfl (by exact uncut),
    show ({ s with now := max s.now due } : State).circuit c.circuit = s.circuit c.circuit from rfl, empty] at step
  dsimp only at step
  rw [show ((s.channel ch).symbolDone .idle).settings = (s.channel ch).settings from rfl] at step
  generalize telexEnds (s.circuit c.circuit) (s.channel ch).settings 0 c.bodyCount (c.graceCount + 1) true = fin
    at step ⊢
  obtain ⟨y, held, went, turn', -, begins, -⟩ := State.goOn_spec ({ s with now := max s.now due } : State) ch
    ((s.channel ch).symbolDone .idle) (if fin = true then ({ t with
      kind := .telex { c with graceCount := c.graceCount + 1 } } : Turn).enterTrailer
      else { t with kind := .telex { c with graceCount := c.graceCount + 1 } })
  have own : (({ s with now := max s.now due } : State).setChannel ch y).channel ch = y :=
    (State.channel_setChannel _ _ _ _).trans (if_pos rfl)
  have next := State.nextChar_telex ({ s with now := max s.now due } : State) (t := { t with
    kind := .telex { c with graceCount := c.graceCount + 1 } }) rfl (by exact phase) fin law
  have blank : ((s.circuit c.circuit).chain.text s.store.cells).head? = none := by
    have nothing := List.length_eq_zero_iff.mp ((Chain.text_length (s.circuit c.circuit).chain s.store.cells).trans empty)
    rw [nothing]
    rfl
  refine ⟨({ s with now := max s.now due } : State).setChannel ch y, _,
    by rw [exec_of_step released turn calm output step, went], rfl, rfl, (congrArg Channel.turn own).trans turn', ?_, ?_, ?_,
    fun none => ?_⟩
  · cases fin <;> rfl
  · exact Turn.tested_phase (t := { t with kind := .telex { c with graceCount := c.graceCount + 1 } }) phase fin
  · exact Turn.tested_text (t := { t with kind := .telex { c with graceCount := c.graceCount + 1 } }) phase fin rfl
  · have started := begins (Turn.tested_held fin (by exact none)) (Turn.tested_not_preamble (by exact phase) fin)
      (s.channel ch) rfl rfl
    rw [next] at started
    rw [own, ← blank]
    exact started

include law in
/-- An IDLE symbol of a queue with characters tests no end (08: R136). -/
theorem telexBody_idle_filled (filled : (s.circuit c.circuit).count ≠ 0) (free : t.held = none) : ∃ u : State,
      exec (.symbolCompletion ch) s = .next u.arbitrate ∧
      u = { s with now := max s.now due, channels := s.channels.set ch.val (u.channel ch) } ∧
      (s.channel ch).begins u.now ((s.circuit c.circuit).chain.text s.store.cells).head? (u.channel ch) ∧
      (u.channel ch).turn.map (fun t' => { t' with held := none }) =
        some { t with kind := .telex { c with graceCount := 0 } } := by
  have step := State.working_telexIdle_filled (s := s) (ch := ch) (due := due) kind phase filled
  rw [Turn.cutInBody_of_none uncut, if_neg (by decide)] at step
  obtain ⟨y, held, went, turn', -, begins, -⟩ := State.goOn_spec ({ s with now := max s.now due } : State) ch
    ((s.channel ch).symbolDone .idle) { t with kind := .telex { c with graceCount := 0 } }
  have own : (({ s with now := max s.now due } : State).setChannel ch y).channel ch = y :=
    (State.channel_setChannel _ _ _ _).trans (if_pos rfl)
  have next := State.nextChar_telex ({ s with now := max s.now due } : State)
    (t := { t with kind := .telex { c with graceCount := 0 } }) rfl (by exact phase) false law
  have inBody : ({ t with kind := .telex { c with graceCount := 0 } } : Turn).phase = .body := phase
  rw [if_neg (by decide), if_neg (by rw [inBody]; decide)] at next
  refine ⟨({ s with now := max s.now due } : State).setChannel ch y,
    by rw [exec_of_step released turn calm output step, State.working, went], ?_, ?_, ?_⟩
  · rw [own]
    rfl
  · have started := begins (by exact free) (by rw [inBody]; decide) (s.channel ch) rfl rfl
    rw [next] at started
    rw [own]
    exact started
  · rw [own, turn', Option.map_some, ← free]

end

/-- Settles O49. -/
theorem telexBodyTakesFromTheQueue : Obligations.TelexBodyTakesFromTheQueue := by
  intro ch t c due s released turn calm uncut phase kind law grace x p ends
  exact ⟨fun sent source output filled => telexBody_char released turn calm uncut kind phase law output filled,
    fun output empty => telexBody_idle_empty released turn calm uncut kind phase law output empty,
    fun output filled free => telexBody_idle_filled released turn calm uncut kind phase law output filled free⟩

end Sys2Proof.Machine
end

section
/-! PROOFS. The body of a pass reads the current map, and the gap waits for it (01: R10, R11; 08: R141 to R147). -/

namespace Sys2Proof.Machine

section

variable {s : State} {ch : Fin 8} {t : Turn} {p : PassTurn} {due : Nat}

/-- The turn of a pass once one more character is sent. -/
def Turn.passSent (t : Turn) (p : PassTurn) : Turn :=
  { t.countUrgency with kind := .pass { p with bodyOffset := p.bodyOffset + 1 } }

/-- The turn of a pass that waits for a character. -/
def Turn.waiting (t : Turn) (s : State) (now : Nat) (p : PassTurn) : Turn :=
  { t with
    phase := .gap
    kind := .pass { p with gapTimer := some ⟨Config.seconds s.gapTimeout, now + Config.seconds s.gapTimeout⟩ } }

theorem State.nextChar_passBody (w : State) {t : Turn} {p : PassTurn} (kind : t.kind = .pass p) (phase : t.phase = .body) :
    w.nextChar t = some (w.bodyChar p) := by
  unfold State.nextChar
  rw [phase]
  dsimp only
  rw [kind]

theorem State.nextChar_gap (w : State) {t : Turn} (phase : t.phase = .gap) : w.nextChar t = none := by
  rw [State.nextChar, phase]

/-- The break sequence begins with CR. -/
theorem State.nextChar_break (w : State) (t : Turn) : w.nextChar t.enterBreak = some 0x0D := rfl

theorem State.working_passChar (kind : t.kind = .pass p) (phase : t.phase = .body) (sent source : Byte) :
    (s.working ch (.data sent source) due t).completeTurn ch t (.data sent source) =
      if p.length ≤ p.bodyOffset + 1 then (s.working ch (.data sent source) due (t.passSent p).enterTrailer, .goOn)
      else if (t.passSent p).cutInBody (isBreakChar source) then
        (s.working ch (.data sent source) due (t.passSent p), .cutFalls)
      else if s.bodyWritten { p with bodyOffset := p.bodyOffset + 1 } then
        (s.working ch (.data sent source) due (t.passSent p), .goOn)
      else ((({ s with now := max s.now due } : State).raiseEvent (.channel ch) .gapStart).inTurn ch
        ((s.channel ch).symbolDone (.data sent source))
        ((t.passSent p).waiting s (max s.now due) { p with bodyOffset := p.bodyOffset + 1 }), .goOn) := by
  have work : (s.working ch (.data sent source) due t).completeTurn ch t (.data sent source) =
      (s.working ch (.data sent source) due t).completePassChar ch t p source := by
    rw [State.completeTurn, State.completePhase, phase]
    dsimp only
    unfold State.completeBody
    rw [kind]
  rw [work, State.working, State.completePassChar_inTurn]
  rfl

theorem State.working_gap (kind : t.kind = .pass p) (phase : t.phase = .gap) :
    (s.working ch .idle due t).completeTurn ch t .idle =
      if p.abandoned then (s.working ch .idle due t.enterBreak, .goOn)
      else if t.pendingCut.isSome then (s.working ch .idle due t, .cutFalls)
      else if s.bodyWritten p then
        ((({ s with now := max s.now due } : State).raiseEvent (.channel ch) .gapEnd).inTurn ch
          ((s.channel ch).symbolDone .idle) { t with phase := .body, kind := t.kind.stopGapTimer }, .goOn)
      else (s.working ch .idle due t, .goOn) := by
  have work : (s.working ch .idle due t).completeTurn ch t .idle = (s.working ch .idle due t).completeGap ch t p := by
    rw [State.completeTurn, State.completePhase, phase]
    dsimp only
    rw [kind]
  rw [work, State.working, State.completeGap_inTurn]
  rfl

variable (released : s.resetHeld = false) (turn : (s.channel ch).turn = some t)
  (calm : (s.channel ch).silenceStop = false) (uncut : t.pendingCut = none) (free : t.held = none) (kind : t.kind = .pass p)

/-- What a symbol of a pass leaves beside the turn and what begins. -/
theorem passSymbol_leaves {y : Symbol} {r : State} {t' : Turn} (released : s.resetHeld = false)
    (turn : (s.channel ch).turn = some t) (calm : (s.channel ch).silenceStop = false)
    (output : (s.channel ch).output = some ⟨y, due⟩)
    (shift : (s.channel ch).shiftAfter y = (s.channel ch).shift) (noted : ({ s with now := max s.now due } : State).Noted r)
    (step : (s.working ch y due t).completeTurn ch t y = (r.inTurn ch ((s.channel ch).symbolDone y) t', .goOn))
    (free : t'.held = none) (phase : t'.phase ≠ .preamble) :
    ∃ (u : State) (held : Option Byte), exec (.symbolCompletion ch) s = .next u.arbitrate ∧
      u = { s with now := max s.now due, channels := u.channels, notices := u.notices } ∧
      (∀ j, j ≠ ch → u.channel j = s.channel j) ∧ (u.channel ch).turn = some { t' with held := held } ∧
      (s.channel ch).begins u.now (r.nextChar t') (u.channel ch) ∧ u.notices = r.notices := by
  obtain ⟨only, -⟩ := noted
  obtain ⟨z, held, went, turn', -, begins, -⟩ := State.goOn_spec r ch ((s.channel ch).symbolDone y) t'
  have own : (r.setChannel ch z).channel ch = z := (State.channel_setChannel _ _ _ _).trans (if_pos rfl)
  have now : r.now = max s.now due := by rw [only]
  have started := begins free phase (s.channel ch) rfl shift
  refine ⟨r.setChannel ch z, held, by rw [exec_of_step released turn calm output step, went], ?_, fun j other => ?_,
    (congrArg Channel.turn own).trans turn', ?_, rfl⟩
  · rw [only]
    rfl
  · rw [State.channel_setChannel, if_neg other.symm, only]
    rfl
  · rw [own]
    exact started

include released turn calm uncut free kind

/-- A character of a pass that nothing stops or cuts. -/
theorem passBody_char {sent source : Byte} (phase : t.phase = .body)
    (output : (s.channel ch).output = some ⟨.data sent source, due⟩) :
    let written (o : Nat) : Bool := (s.bulletin p.bulletin).any fun b : Bulletin => b.current.written o
    let character (o : Nat) : Option Byte := (s.bulletin p.bulletin).map fun b => b.current.charAt s.store.cells o
    let next := p.bodyOffset + 1
    ∃ (u : State) (t' : Turn), exec (.symbolCompletion ch) s = .next u.arbitrate ∧
      u = { s with now := max s.now due, channels := u.channels, notices := u.notices } ∧
      (∀ j, j ≠ ch → u.channel j = s.channel j) ∧ (u.channel ch).turn = some t' ∧
      (s.channel ch).begins u.now
        (if p.length ≤ next then some 0x0D else if written next then character next else none) (u.channel ch) ∧
      if p.length ≤ next then
        t'.phase = .trailer ∧ t'.text = trailerOctets t.kind ∧ t'.textPosition = 0 ∧
        t'.kind = .pass { p with bodyOffset := next } ∧ u.notices = s.notices
      else if written next then
        t'.phase = .body ∧ t'.kind = .pass { p with bodyOffset := next } ∧ u.notices = s.notices
      else t'.phase = .gap ∧ u.reports (.channel ch) .gapStart ∧ t'.kind = .pass { p with
        bodyOffset := next
        gapTimer := some ⟨Config.seconds s.gapTimeout, max s.now due + Config.seconds s.gapTimeout⟩ } := by
  intro written character next
  have step := State.working_passChar (s := s) (ch := ch) (due := due) kind phase sent source
  have uncut' : (t.passSent p).pendingCut = none := by
    rw [Turn.passSent, Turn.countUrgency, uncut]
    rfl
  have there : s.bodyWritten { p with bodyOffset := p.bodyOffset + 1 } = written next := State.bodyWritten_eq s _
  rw [Turn.cutInBody_of_none uncut', if_neg Bool.false_ne_true, there] at step
  have leaves := fun (r : State) (t' : Turn) => passSymbol_leaves (r := r) (t' := t') released turn calm output rfl
  by_cases ends : p.length ≤ next
  · rw [if_pos ends] at step
    obtain ⟨u, held, ran, only, others, turned, begins, notices⟩ := leaves _ _ (.refl _) step rfl nofun
    rw [State.nextChar_trailer] at begins
    refine ⟨u, _, ran, only, others, turned, ?_, ?_⟩
    · rw [if_pos ends]
      exact begins
    · rw [if_pos ends]
      refine ⟨rfl, ?_, rfl, rfl, notices⟩
      rw [kind]
      rfl
  · rw [if_neg ends] at step
    cases here : written next with
    | true =>
      rw [here, if_pos rfl] at step
      obtain ⟨u, held, ran, only, others, turned, begins, notices⟩ := leaves _ _ (.refl _) step free (by
        rw [show (t.passSent p).phase = t.phase from rfl, phase]; decide)
      rw [State.nextChar_passBody _ (t := t.passSent p) rfl phase] at begins
      refine ⟨u, _, ran, only, others, turned, ?_, ?_⟩
      · rw [if_neg ends, if_pos rfl]
        have stands := State.bodyChar_of_written (there.trans here)
        rw [show character next = _ from stands.symm]
        exact begins
      · rw [if_neg ends, if_pos rfl]
        exact ⟨phase, rfl, notices⟩
    | false =>
      rw [here, if_neg (by decide)] at step
      obtain ⟨u, held, ran, only, others, turned, begins, notices⟩ := leaves _ _ (.raiseEvent _ _ _) step free nofun
      rw [State.nextChar_gap _ rfl] at begins
      refine ⟨u, _, ran, only, others, turned, ?_, ?_⟩
      · rw [if_neg ends, if_neg (by decide)]
        exact begins
      · rw [if_neg ends, if_neg (by decide)]
        refine ⟨rfl, ?_, rfl⟩
        rw [State.reports, notices]
        exact State.reports_raiseEvent ({ s with now := max s.now due } : State) _ _

/-- A symbol of a gap that nothing stops or cuts. -/
theorem passGap_idle (phase : t.phase = .gap) (output : (s.channel ch).output = some ⟨.idle, due⟩) :
    let written (o : Nat) : Bool := (s.bulletin p.bulletin).any fun b : Bulletin => b.current.written o
    let character (o : Nat) : Option Byte := (s.bulletin p.bulletin).map fun b => b.current.charAt s.store.cells o
    ∃ (u : State) (t' : Turn), exec (.symbolCompletion ch) s = .next u.arbitrate ∧
      u = { s with now := max s.now due, channels := u.channels, notices := u.notices } ∧
      (∀ j, j ≠ ch → u.channel j = s.channel j) ∧ (u.channel ch).turn = some t' ∧
      (s.channel ch).begins u.now (if p.abandoned then some 0x0D
        else if written p.bodyOffset then character p.bodyOffset else none) (u.channel ch) ∧
      if p.abandoned then t'.phase = .closing ∧ t'.text = breakOctets ∧ t'.textPosition = 0 ∧
        t'.cutInProgress = t.cutInProgress ∧ t'.kind = .pass { p with gapTimer := none }
      else if written p.bodyOffset then
        t'.phase = .body ∧ t'.kind = .pass { p with gapTimer := none } ∧ u.reports (.channel ch) .gapEnd
      else t' = t := by
  intro written character
  have step := State.working_gap (s := s) (ch := ch) (due := due) kind phase
  have there : s.bodyWritten p = written p.bodyOffset := State.bodyWritten_eq s p
  have stopped : t.kind.stopGapTimer = .pass { p with gapTimer := none } := by rw [kind]; rfl
  rw [uncut, there] at step
  have leaves := fun (r : State) (t' : Turn) => passSymbol_leaves (r := r) (t' := t') released turn calm output rfl
  by_cases gone : p.abandoned = true
  · rw [if_pos gone] at step
    obtain ⟨u, held, ran, only, others, turned, begins, -⟩ := leaves _ _ (.refl _) step rfl nofun
    refine ⟨u, _, ran, only, others, turned, ?_, ?_⟩
    · rw [if_pos gone]
      exact begins
    · rw [if_pos gone]
      exact ⟨rfl, rfl, rfl, rfl, stopped⟩
  · rw [if_neg gone, Option.isSome_none, if_neg Bool.false_ne_true] at step
    cases here : written p.bodyOffset with
    | true =>
      rw [here, if_pos rfl, stopped] at step
      obtain ⟨u, held, ran, only, others, turned, begins, notices⟩ := leaves _ _ (.raiseEvent _ _ _) step free nofun
      rw [State.nextChar_passBody _ (p := { p with gapTimer := none }) (by rfl) (by rfl)] at begins
      refine ⟨u, _, ran, only, others, turned, ?_, ?_⟩
      · have stands := State.bodyChar_of_written (there.trans here)
        rw [if_neg gone, if_pos rfl, show character p.bodyOffset = _ from stands.symm]
        exact begins
      · rw [if_neg gone, if_pos rfl]
        refine ⟨rfl, rfl, ?_⟩
        rw [State.reports, notices]
        exact State.reports_raiseEvent ({ s with now := max s.now due } : State) _ _
    | false =>
      rw [here, if_neg Bool.false_ne_true] at step
      obtain ⟨u, held, ran, only, others, turned, begins, -⟩ := leaves _ _ (.refl _) step free (by rw [phase]; decide)
      rw [State.nextChar_gap _ phase] at begins
      have same : { t with held := held } = t := by
        have waits := begins.2
        rw [turned] at waits
        rw [show held = none from Option.some.inj waits, ← free]
      rw [same] at turned
      refine ⟨u, t, ran, only, others, turned, ?_, ?_⟩
      · rw [if_neg gone, if_neg Bool.false_ne_true]
        exact begins
      · rw [if_neg gone, if_neg Bool.false_ne_true]

end

/-- Settles O50. -/
theorem passBodyReadsTheMap : Obligations.PassBodyReadsTheMap := by
  intro ch t p due s released turn calm uncut free kind written character next
  exact ⟨fun sent source phase output => passBody_char released turn calm uncut free kind phase output,
    fun phase output => passGap_idle released turn calm uncut free kind phase output⟩

end Sys2Proof.Machine
end

section
/-! PROOFS. A pending cut at its point (09: R153 to R155, R157). -/

namespace Sys2Proof.Machine

/-! ## The pending cut (09: R154) -/

/-- The count of an URGENCY cut after a body character. -/
def PendingCut.counted (p : PendingCut) : PendingCut :=
  if p.reason = .urgency then { p with urgencyCount := min 16 (p.urgencyCount + 1) } else p

section

variable {t : Turn} {p : PendingCut} (pending : t.pendingCut = some p)

theorem PendingCut.counted_reason (p : PendingCut) : p.counted.reason = p.reason := by
  unfold PendingCut.counted
  split <;> rfl

theorem PendingCut.counted_of_urgency {p : PendingCut} (urgent : p.reason = .urgency) :
    p.counted = ⟨.urgency, min 16 (p.urgencyCount + 1)⟩ := by
  rw [PendingCut.counted, if_pos urgent, urgent]

include pending

theorem Turn.countUrgency_pending : t.countUrgency.pendingCut = some p.counted := by
  rw [Turn.countUrgency, pending, PendingCut.counted]
  rfl

theorem Turn.cutInBody_iff (boundary : Bool) :
    t.cutInBody boundary = true ↔ p.reason ≠ .urgency ∨ boundary = true ∨ 16 ≤ p.urgencyCount := by
  rw [Turn.cutInBody, pending, show Config.urgencyLimit = 16 from rfl]
  simp [or_assoc]

theorem Turn.cutAtShift_of_pending (phase : t.phase ≠ .body) : t.cutAtShift = true := by
  rw [Turn.cutAtShift, if_neg phase, pending]
  rfl

theorem Turn.cutAtShift_in_body (phase : t.phase = .body) : t.cutAtShift = decide (p.reason ≠ .urgency) := by
  rw [Turn.cutAtShift, if_pos phase, Turn.cutAnywhere, pending]
  rfl

end

/-- The counted cut falls where the count that the statement names says so. -/
theorem PendingCut.counted_falls (p : PendingCut) (boundary : Prop) :
    (p.counted.reason ≠ .urgency ∨ boundary ∨ 16 ≤ p.counted.urgencyCount) ↔
      (p.reason ≠ .urgency ∨ boundary ∨ 16 ≤ min 16 (p.urgencyCount + 1)) := by
  by_cases urgent : p.reason = .urgency
  · rw [PendingCut.counted_of_urgency urgent, urgent]
  · rw [PendingCut.counted_reason]
    exact ⟨fun _ => .inl urgent, fun _ => .inl urgent⟩

/-! ## The fall -/

theorem Channel.begun_cr_turn (x : Channel) (now : Nat) {t : Turn} (held : t.held = none) :
    (x.begun now t (some 0x0D)).turn = some t := by
  have same : { t with held := none } = t := by rw [← held]
  simp only [Channel.begun, Option.elim_some, Channel.opening_cr, same]

section

variable {s : State} {ch : Fin 8} {t : Turn} {p : PendingCut} {y : Symbol} {due : Nat}

/-- A cut that falls begins its closing sequence, whatever the work of the symbol has left. -/
theorem exec_cut {w : State} {t' : Turn} {q : PendingCut} (released : s.resetHeld = false)
    (turn : (s.channel ch).turn = some t) (calm : (s.channel ch).silenceStop = false)
    (output : (s.channel ch).output = some ⟨y, due⟩)
    (step : (s.working ch y due t).completeTurn ch t y = (w.inTurn ch ((s.channel ch).symbolDone y) t', .cutFalls))
    (pending : t'.pendingCut = some q) (reason : q.reason = p.reason) (now : w.now = max s.now due)
    (kind : closingOctets t'.kind p.reason = closingOctets t.kind p.reason) :
    ∃ u : State, exec (.symbolCompletion ch) s = .next u.arbitrate ∧ u = w.setChannel ch (u.channel ch) ∧
      (u.channel ch).state = (s.channel ch).state ∧ (u.channel ch).turn = some (t'.fall p.reason) ∧
      (s.channel ch).cutFallen (max s.now due) t p.reason (u.channel ch) (t'.fall p.reason) := by
  have falls := State.fallCut_inTurn w ch ((s.channel ch).symbolDone y) pending
  rw [reason, now] at falls
  have own : (w.setChannel ch (((s.channel ch).symbolDone y).begun (max s.now due) (t'.fall p.reason)
      (some 0x0D))).channel ch = ((s.channel ch).symbolDone y).begun (max s.now due) (t'.fall p.reason) (some 0x0D) :=
    (State.channel_setChannel _ _ _ _).trans (if_pos rfl)
  refine ⟨_, ?_, by rw [own], by rw [own]; rfl, ?_, ?_⟩
  · rw [exec_of_step released turn calm output step, ← falls]
    rfl
  · rw [own, Channel.begun_cr_turn _ _ rfl]
  · rw [own]
    exact Channel.cutFallen_begun (x := s.channel ch) (y := (s.channel ch).symbolDone y) rfl _ kind

/-- In LEAD, PREAMBLE and HEADER every completion is the point of a cut. -/
theorem State.working_opening_cut (phase : t.phase ∈ [.lead, .preamble, .header]) (pending : t.pendingCut = some p) :
    ∃ t', (s.working ch y due t).completeTurn ch t y = (s.working ch y due t', .cutFalls) ∧
      t'.pendingCut = some p ∧ t'.kind = t.kind := by
  simp only [List.mem_cons, List.not_mem_nil, or_false] at phase
  have some_ : t.pendingCut.isSome = true := by rw [pending]; rfl
  have outside : t.phase ≠ .body := by
    rcases phase with here | here | here
    · simp [here]
    · simp [here]
    · simp [here]
  have works : y ≠ .shiftLetters → y ≠ .shiftFigures →
      (s.working ch y due t).completeTurn ch t y = (s.working ch y due t).completePhase ch t y := fun letters figures => by
    cases y with
    | shiftLetters => exact absurd rfl letters
    | shiftFigures => exact absurd rfl figures
    | idle | phase | data => rfl
  have phases : ∃ t', (s.working ch y due t).completePhase ch t y = (s.working ch y due t', .cutFalls) ∧
      t'.pendingCut = some p ∧ t'.kind = t.kind := by
    rcases phase with here | here | here
    · refine ⟨{ t with phaseCount := t.phaseCount + 1 }, ?_, pending, rfl⟩
      have work : (s.working ch y due t).completePhase ch t y = (s.working ch y due t).completeLead ch t := by
        rw [State.completePhase, here]
      rw [work, State.working, State.completeLead_inTurn, if_pos some_]
      rfl
    · refine ⟨{ t with phaseCount := t.phaseCount + 1 }, ?_, pending, rfl⟩
      have work : (s.working ch y due t).completePhase ch t y = (s.working ch y due t).completePreamble ch t := by
        rw [State.completePhase, here]
      rw [work, State.working, State.completePreamble_inTurn, if_pos some_]
      rfl
    · refine ⟨{ t with textPosition := t.textPosition + 1 }, ?_, pending, rfl⟩
      have work : (s.working ch y due t).completePhase ch t y = (s.working ch y due t).completeHeader ch t := by
        rw [State.completePhase, here]
      rw [work, State.working, State.completeHeader_inTurn, if_pos some_]
      rfl
  by_cases shift : y ∈ [Symbol.shiftLetters, .shiftFigures]
  · refine ⟨t, ?_, pending, rfl⟩
    rw [State.completeTurn_of_shift (ch := ch) _ shift, Turn.cutAtShift_of_pending pending outside, if_pos rfl]
  · rw [List.mem_pair, not_or] at shift
    rw [works shift.1 shift.2]
    exact phases

/-- In a gap that is not abandoned every completion is the point of a cut. -/
theorem State.working_gap_cut {pass : PassTurn} (phase : t.phase = .gap) (kind : t.kind = .pass pass)
    (stands : pass.abandoned = false) (pending : t.pendingCut = some p) :
    (s.working ch y due t).completeTurn ch t y = (s.working ch y due t, .cutFalls) := by
  have some_ : t.pendingCut.isSome = true := by rw [pending]; rfl
  have phases : (s.working ch y due t).completePhase ch t y = (s.working ch y due t, .cutFalls) := by
    have work : (s.working ch y due t).completePhase ch t y = (s.working ch y due t).completeGap ch t pass := by
      rw [State.completePhase, phase]
      dsimp only
      rw [kind]
    rw [work, State.working, State.completeGap_inTurn, stands, if_neg Bool.false_ne_true, if_pos some_]
  have shifts : ∀ {y}, y ∈ [Symbol.shiftLetters, .shiftFigures] →
      (s.working ch y due t).completeTurn ch t y = (s.working ch y due t, .cutFalls) := fun shift => by
    rw [State.completeTurn_of_shift (ch := ch) _ shift, Turn.cutAtShift_of_pending pending (by rw [phase]; decide), if_pos rfl]
  cases y with
  | shiftLetters => exact shifts (by simp)
  | shiftFigures => exact shifts (by simp)
  | idle | phase | data => exact phases

end

/-! ## The end of HOLD (06: R101, R106) -/

/-- The choice reads the lists, the counters and the profile of the channel. -/
theorem State.choose_of_same {s t : State} {ch : Fin 8} (queue : (t.channel ch).queue = (s.channel ch).queue)
    (bound : (t.channel ch).bound = (s.channel ch).bound) (profile : (t.channel ch).profile = (s.channel ch).profile)
    (bulletinRun : (t.channel ch).bulletinRun = (s.channel ch).bulletinRun)
    (telexRun : (t.channel ch).telexRun = (s.channel ch).telexRun)
    (lastServed : (t.channel ch).lastServed = (s.channel ch).lastServed)
    (bulletins : t.bulletins = s.bulletins) (silence : t.silence = s.silence) (waiting : ∀ c, t.waiting c = s.waiting c) :
    t.choose ch = s.choose ch := by
  have silenced : t.silenced ch = s.silenced ch := by rw [State.silenced, profile, silence, State.silenced]
  have settings : (t.channel ch).settings = (s.channel ch).settings := by
    rw [Channel.settings, profile, ← Channel.settings]
  have entries : t.entryEligible ch = s.entryEligible ch := funext fun e => by
    rw [State.entryEligible, State.bulletin, bulletins, silenced, ← State.bulletin, ← State.entryEligible]
  have circuits : t.circuitEligible ch = s.circuitEligible ch := funext fun c => by
    rw [State.circuitEligible, waiting, silenced, ← State.circuitEligible]
  have rotation : (t.channel ch).rotation = (s.channel ch).rotation := by
    rw [Channel.rotation, lastServed, bound, ← Channel.rotation]
  unfold State.choose State.nextCircuit State.headEligible State.headEligibleAny
  dsimp only
  rw [entries, circuits, rotation, queue, settings, bulletinRun, telexRun]

/-- A turn that starts takes over the output and the hold count. -/
theorem State.turnStarted_setChannel_own {v u : State} {ch : Fin 8} {x : Channel} {phase : Phase} {choice : Choice}
    (output : Option Emission) (holdCount : Nat)
    (h : (v.setChannel ch { x with output := output, holdCount := holdCount }).turnStarted ch phase choice u) :
    (v.setChannel ch x).turnStarted ch phase choice u := by
  have own : ∀ z : Channel, (v.setChannel ch z).channel ch = z := fun z => (State.channel_setChannel _ _ _ _).trans (if_pos rfl)
  unfold State.turnStarted at h ⊢
  rw [own] at h ⊢
  cases choice with
  | nothing => exact h
  | entry e =>
    obtain ⟨b, present, same⟩ := h
    refine ⟨b, present, ?_⟩
    rw [same, State.setChannel_setChannel, State.setChannel_setChannel]
    rfl
  | circuit c =>
    dsimp only at h ⊢
    rw [h, State.setChannel_setChannel, State.setChannel_setChannel]
    rfl

end Sys2Proof.Machine
end

section
/-! PROOFS. The point of a cut in a body (09: R154, R155), and the end of HOLD (06: R101). -/

namespace Sys2Proof.Machine

theorem isBreakChar_iff (c : Byte) : isBreakChar c = true ↔ c ∈ [0x20, 0x0D, 0x0A] := by
  simp [isBreakChar, or_assoc]

section

variable {s : State} {ch : Fin 8} {t : Turn} {p : PendingCut} {due : Nat} (released : s.resetHeld = false)
  (turn : (s.channel ch).turn = some t) (calm : (s.channel ch).silenceStop = false) (phase : t.phase = .body)
  (pending : t.pendingCut = some p)

include released turn calm phase pending

/-- At a shift in a body an URGENCY cut waits, and any other one falls. -/
theorem bodyCut_shift {y : Symbol} (output : (s.channel ch).output = some ⟨y, due⟩)
    (shift : y ∈ [Symbol.shiftLetters, .shiftFigures]) : ∃ (u : State) (t' : Turn),
      exec (.symbolCompletion ch) s = .next u.arbitrate ∧
      u = ({ s with now := max s.now due } : State).setChannel ch (u.channel ch) ∧ (u.channel ch).turn = some t' ∧
      if p.reason = .urgency then t'.phase = .body ∧ t'.pendingCut = some p ∧ t'.kind = t.kind ∧
        ∀ c, t.held = some c → t'.held = none ∧ (u.channel ch).output =
          some ⟨.data (convert (s.channel ch).settings.code c).sent c, max s.now due + (s.channel ch).settings.symbolTicks⟩
      else (s.channel ch).cutFallen (max s.now due) t p.reason (u.channel ch) t' := by
  have step := State.completeTurn_of_shift (ch := ch) (t := t) (s.working ch y due t) shift
  rw [Turn.cutAtShift_in_body pending phase] at step
  by_cases urgent : p.reason = .urgency
  · rw [if_neg (by simp [urgent])] at step
    obtain ⟨z, held, went, turned, -, -, holds⟩ := State.goOn_spec ({ s with now := max s.now due } : State) ch
      ((s.channel ch).symbolDone y) t
    have own : (({ s with now := max s.now due } : State).setChannel ch z).channel ch = z :=
      (State.channel_setChannel _ _ _ _).trans (if_pos rfl)
    refine ⟨_, _, by rw [exec_of_step released turn calm output step, State.working, went], by rw [own],
      (congrArg Channel.turn own).trans turned, ?_⟩
    rw [if_pos urgent]
    refine ⟨phase, pending, rfl, fun c same => ?_⟩
    rw [own]
    exact holds c same
  · rw [if_pos (by simp [urgent])] at step
    obtain ⟨u, ran, only, -, turned, fallen⟩ := exec_cut (p := p) released turn calm output step pending rfl rfl rfl
    refine ⟨u, _, ran, only, turned, ?_⟩
    rw [if_neg urgent]
    exact fallen

/-- A body character of a pass with a cut pending. -/
theorem bodyCut_pass {pass : PassTurn} {sent source : Byte} (kind : t.kind = .pass pass)
    (output : (s.channel ch).output = some ⟨.data sent source, due⟩) :
    ∃ (u : State) (t' : Turn), exec (.symbolCompletion ch) s = .next u.arbitrate ∧ u.store = s.store ∧
      u.bulletins = s.bulletins ∧ u.clock = s.clock ∧ u.link = s.link ∧ u.now = max s.now due ∧
      (∀ j, j ≠ ch → u.channel j = s.channel j) ∧ (u.channel ch).turn = some t' ∧
      let next := pass.bodyOffset + 1
      let written := (s.bulletin pass.bulletin).any fun b : Bulletin => b.current.written next
      if pass.length ≤ next then
        t'.phase = .trailer ∧ t'.text = trailerOctets t.kind ∧ t'.textPosition = 0 ∧ t'.pendingCut = none ∧
          t'.cutInProgress = t.cutInProgress ∧ (s.channel ch).begins (max s.now due) (some 0x0D) (u.channel ch)
      else if p.reason ≠ .urgency ∨ source ∈ [0x20, 0x0D, 0x0A] ∨ 16 ≤ min 16 (p.urgencyCount + 1) then
        (s.channel ch).cutFallen (max s.now due) t p.reason (u.channel ch) t'
      else t'.phase = (if written then .body else .gap) ∧ t'.pendingCut = some ⟨.urgency, min 16 (p.urgencyCount + 1)⟩ ∧
        (t.held = none → (s.channel ch).begins (max s.now due) (if written
          then (s.bulletin pass.bulletin).map fun b => b.current.charAt s.store.cells next else none) (u.channel ch)) := by
  have step := State.working_passChar (s := s) (ch := ch) (due := due) kind phase sent source
  have counted : (t.passSent pass).pendingCut = some p.counted := Turn.countUrgency_pending pending
  have there : s.bodyWritten { pass with bodyOffset := pass.bodyOffset + 1 } =
      (s.bulletin pass.bulletin).any fun b : Bulletin => b.current.written (pass.bodyOffset + 1) := State.bodyWritten_eq s _
  have falls : (t.passSent pass).cutInBody (isBreakChar source) = true ↔
      p.reason ≠ .urgency ∨ source ∈ [0x20, 0x0D, 0x0A] ∨ 16 ≤ min 16 (p.urgencyCount + 1) := by
    rw [Turn.cutInBody_iff counted, PendingCut.counted_falls, isBreakChar_iff]
  have went : ∀ (r : State) (t' : Turn), ({ s with now := max s.now due } : State).Noted r →
      (s.working ch (.data sent source) due t).completeTurn ch t (.data sent source) =
        (r.inTurn ch ((s.channel ch).symbolDone (.data sent source)) t', .goOn) → t'.phase ≠ .preamble →
      ∃ (u : State) (held : Option Byte), exec (.symbolCompletion ch) s = .next u.arbitrate ∧ u.store = s.store ∧
        u.bulletins = s.bulletins ∧ u.clock = s.clock ∧ u.link = s.link ∧ u.now = max s.now due ∧
        (∀ j, j ≠ ch → u.channel j = s.channel j) ∧ (u.channel ch).turn = some { t' with held := held } ∧
        (t'.held = none → (s.channel ch).begins (max s.now due) (r.nextChar t') (u.channel ch)) :=
    fun r t' ⟨only, _⟩ step phase => by
      obtain ⟨z, held, went, turned, -, begins, -⟩ := State.goOn_spec r ch ((s.channel ch).symbolDone (.data sent source)) t'
      have own : (r.setChannel ch z).channel ch = z := (State.channel_setChannel _ _ _ _).trans (if_pos rfl)
      have now : r.now = max s.now due := by rw [only]
      refine ⟨r.setChannel ch z, held, by rw [exec_of_step released turn calm output step, went], by rw [only]; rfl,
        by rw [only]; rfl, by rw [only]; rfl, by rw [only]; rfl, now, fun j other => ?_,
        (congrArg Channel.turn own).trans turned, fun free => ?_⟩
      · rw [State.channel_setChannel, if_neg other.symm, only]
        rfl
      · rw [own, ← now]
        exact begins free phase (s.channel ch) rfl rfl
  dsimp only
  by_cases ends : pass.length ≤ pass.bodyOffset + 1
  · rw [if_pos ends] at step
    obtain ⟨u, held, ran, store, bulletins, clock, link, now, others, turned, begins⟩ := went _ _ (.refl _) step nofun
    refine ⟨u, _, ran, store, bulletins, clock, link, now, others, turned, ?_⟩
    rw [if_pos ends]
    refine ⟨rfl, ?_, rfl, rfl, rfl, ?_⟩
    · rw [kind]
      rfl
    · have started := begins rfl
      rw [State.nextChar_trailer] at started
      exact started
  · rw [if_neg ends] at step
    by_cases falling : p.reason ≠ .urgency ∨ source ∈ [0x20, 0x0D, 0x0A] ∨ 16 ≤ min 16 (p.urgencyCount + 1)
    · rw [if_pos (falls.mpr falling)] at step
      have text : closingOctets (t.passSent pass).kind p.reason = closingOctets t.kind p.reason := by
        rw [kind]
        cases p.reason <;> rfl
      obtain ⟨u, ran, only, -, turned, fallen⟩ := exec_cut (p := p) released turn calm output step counted
        (PendingCut.counted_reason p) rfl text
      refine ⟨u, _, ran, by rw [only]; rfl, by rw [only]; rfl, by rw [only]; rfl, by rw [only]; rfl, by rw [only]; rfl,
        fun j other => ?_, turned, ?_⟩
      · rw [only, State.channel_setChannel, if_neg other.symm]
        rfl
      · rw [if_neg ends, if_pos falling]
        exact fallen
    · rw [if_neg fun h => falling (falls.mp h), there] at step
      have urgent : p.reason = .urgency := by
        by_contra other
        exact falling (.inl other)
      rw [PendingCut.counted_of_urgency urgent] at counted
      cases here : (s.bulletin pass.bulletin).any fun b : Bulletin => b.current.written (pass.bodyOffset + 1) with
      | true =>
        rw [here, if_pos rfl] at step
        obtain ⟨u, held, ran, store, bulletins, clock, link, now, others, turned, begins⟩ := went _ _ (.refl _) step (by
          rw [show (t.passSent pass).phase = t.phase from rfl, phase]; decide)
        refine ⟨u, _, ran, store, bulletins, clock, link, now, others, turned, ?_⟩
        rw [if_neg ends, if_neg falling]
        refine ⟨phase, counted, fun free => ?_⟩
        have started := begins free
        have stands := State.bodyChar_of_written (there.trans here)
        rw [State.nextChar_passBody _ (t := t.passSent pass) rfl phase] at started
        rw [if_pos rfl, ← stands]
        exact started
      | false =>
        rw [here, if_neg Bool.false_ne_true] at step
        obtain ⟨u, held, ran, store, bulletins, clock, link, now, others, turned, begins⟩ :=
          went _ _ (.raiseEvent _ _ _) step nofun
        refine ⟨u, _, ran, store, bulletins, clock, link, now, others, turned, ?_⟩
        rw [if_neg ends, if_neg falling]
        refine ⟨rfl, counted, fun free => ?_⟩
        have started := begins free
        rw [State.nextChar_gap _ rfl] at started
        exact started

section

variable {c : TelexTurn} (kind : t.kind = .telex c)

include kind

/-- A body character whose queue a purge has emptied is a point of every cut. -/
theorem bodyCut_telex_purged {sent source : Byte} (output : (s.channel ch).output = some ⟨.data sent source, due⟩)
    (empty : (s.circuit c.circuit).count = 0) :
    ∃ (u : State) (t' : Turn), exec (.symbolCompletion ch) s = .next u.arbitrate ∧
      u = ({ s with now := max s.now due } : State).setChannel ch (u.channel ch) ∧
      (u.channel ch).state = (s.channel ch).state ∧ (u.channel ch).turn = some t' ∧
      (s.channel ch).cutFallen (max s.now due) t p.reason (u.channel ch) t' ∧ t'.kind = t.kind := by
  have work : (s.working ch (.data sent source) due t).completeTurn ch t (.data sent source) =
      (s.working ch (.data sent source) due t).completeTelexChar ch c source := by
    rw [State.completeTurn, State.completePhase, phase]
    dsimp only
    unfold State.completeBody
    rw [kind]
  have step : (s.working ch (.data sent source) due t).completeTurn ch t (.data sent source) =
      (s.working ch (.data sent source) due t, .cutFalls) := by
    rw [work, State.working, State.completeTelexChar_inTurn, if_pos (by exact empty),
      State.testTelexBody_inTurn _ ch _ t kind, if_pos ((Turn.cutInBody_iff pending true).mpr (.inr (.inl rfl)))]
  obtain ⟨u, ran, only, state, turned, fallen⟩ := exec_cut (p := p) released turn calm output step pending rfl rfl rfl
  refine ⟨u, _, ran, only, state, turned, fallen, ?_⟩
  show t.kind.stopGapTimer = t.kind
  rw [kind]
  rfl

/-- An IDLE symbol of a telex body with a cut pending. -/
theorem bodyCut_telex_idle (law : (s.circuit c.circuit).chain.law) (output : (s.channel ch).output = some ⟨.idle, due⟩) :
    ∃ (u : State) (t' : Turn), exec (.symbolCompletion ch) s = .next u.arbitrate ∧
      u = ({ s with now := max s.now due } : State).setChannel ch (u.channel ch) ∧ (u.channel ch).turn = some t' ∧
      if p.reason ≠ .urgency ∨ (s.circuit c.circuit).count = 0 ∨ 16 ≤ p.urgencyCount then
        (s.channel ch).cutFallen (max s.now due) t p.reason (u.channel ch) t'
      else t'.phase = .body ∧ t'.pendingCut = some p ∧
        (t.held = none → (s.channel ch).begins (max s.now due)
          ((s.circuit c.circuit).chain.text s.store.cells).head? (u.channel ch)) := by
  have text : ∀ c' : TelexTurn, closingOctets (.telex c') p.reason = closingOctets t.kind p.reason := fun c' => by
    rw [kind]
    cases p.reason <;> rfl
  by_cases empty : (s.circuit c.circuit).count = 0
  · have step := State.working_telexIdle_empty (s := s) (ch := ch) (due := due) kind phase empty
    rw [State.working, State.working, State.testTelexBody_inTurn _ ch _ { t with
      kind := .telex { c with graceCount := c.graceCount + 1 } } (by rfl),
      if_pos ((Turn.cutInBody_iff (by exact pending) true).mpr (.inr (.inl rfl)))] at step
    obtain ⟨u, ran, only, -, turned, fallen⟩ := exec_cut (p := p) released turn calm output step pending rfl rfl (text _)
    refine ⟨u, _, ran, only, turned, ?_⟩
    rw [if_pos (.inr (.inl empty))]
    exact fallen
  · have step := State.working_telexIdle_filled (s := s) (ch := ch) (due := due) kind phase empty
    have falls := Turn.cutInBody_iff pending false
    by_cases falling : p.reason ≠ .urgency ∨ (s.circuit c.circuit).count = 0 ∨ 16 ≤ p.urgencyCount
    · rw [if_pos (falls.mpr (falling.imp_right fun h => .inr (h.resolve_left empty)))] at step
      obtain ⟨u, ran, only, -, turned, fallen⟩ := exec_cut (p := p) released turn calm output step pending rfl rfl (text _)
      refine ⟨u, _, ran, only, turned, ?_⟩
      rw [if_pos falling]
      exact fallen
    · rw [if_neg fun h => falling ((falls.mp h).imp_right fun h => .inr (h.resolve_left (by decide)))] at step
      obtain ⟨z, held, went, turned, -, begins, -⟩ := State.goOn_spec ({ s with now := max s.now due } : State) ch
        ((s.channel ch).symbolDone .idle) { t with kind := .telex { c with graceCount := 0 } }
      have own : (({ s with now := max s.now due } : State).setChannel ch z).channel ch = z :=
        (State.channel_setChannel _ _ _ _).trans (if_pos rfl)
      have inBody : ({ t with kind := .telex { c with graceCount := 0 } } : Turn).phase = .body := phase
      have next := State.nextChar_telex ({ s with now := max s.now due } : State)
        (t := { t with kind := .telex { c with graceCount := 0 } }) rfl inBody false law
      rw [if_neg Bool.false_ne_true, if_neg (by rw [inBody]; decide)] at next
      refine ⟨_, _, by rw [exec_of_step released turn calm output step, State.working, went], by rw [own],
        (congrArg Channel.turn own).trans turned, ?_⟩
      rw [if_neg falling]
      refine ⟨phase, pending, fun free => ?_⟩
      have started := begins (by exact free) (by rw [inBody]; decide) (s.channel ch) rfl rfl
      rw [next] at started
      rw [own]
      exact started

end

end

end Sys2Proof.Machine
end

section
/-! PROOFS. A cut in a telex body, and what ends HOLD (06: R101, R106; 09: R154, R155, R162). -/

namespace Sys2Proof.Machine

section

variable {s : State} {ch : Fin 8} {t : Turn} {p : PendingCut} {c : TelexTurn} {due : Nat} (released : s.resetHeld = false)
  (turn : (s.channel ch).turn = some t) (calm : (s.channel ch).silenceStop = false) (phase : t.phase = .body)
  (pending : t.pendingCut = some p) (kind : t.kind = .telex c) (law : (s.circuit c.circuit).chain.law)

/-- Away from a boundary only the quota and 32 more end a body whose queue holds more characters (08: R137). -/
theorem bodyEnds_inside {x : Circuit} {q : Profile} {c : TelexTurn} (filled : x.count ≠ 0) (grace : c.graceCount < q.turnGrace) :
    bodyEnds q x c false = decide (q.telexQuota + 32 ≤ c.bodyCount) := by
  unfold bodyEnds
  rw [decide_eq_false filled, decide_eq_false (by omega : ¬ q.turnGrace ≤ c.graceCount), show Config.quotaMargin = 32 from rfl]
  simp

include released turn calm phase pending kind law

/-- A body character of a telex turn with a cut pending. -/
theorem bodyCut_telex_char {sent source : Byte} (output : (s.channel ch).output = some ⟨.data sent source, due⟩)
    (filled : (s.circuit c.circuit).count ≠ 0) (grace : 1 ≤ (s.channel ch).settings.turnGrace) :
    ∃ (u : State) (t' : Turn), exec (.symbolCompletion ch) s = .next u.arbitrate ∧ s.headLeft c.circuit u ∧
      u.bulletins = s.bulletins ∧ u.clock = s.clock ∧ u.link = s.link ∧ u.now = max s.now due ∧
      (∀ j, j ≠ ch → u.channel j = s.channel j) ∧
      (u.channel ch).turn = some t' ∧ t'.kind = .telex { c with bodyCount := c.bodyCount + 1, graceCount := 0 } ∧
      if p.reason ≠ .urgency ∨ source ∈ [0x20, 0x0D, 0x0A] ∨ (s.circuit c.circuit).count = 1 ∨
          16 ≤ min 16 (p.urgencyCount + 1) then
        (s.channel ch).cutFallen (max s.now due) t p.reason (u.channel ch) t'
      else if (s.channel ch).settings.telexQuota + 32 ≤ c.bodyCount + 1 then t'.phase = .trailer ∧ t'.text = [0x0D, 0x0A] ∧
        t'.textPosition = 0 ∧ t'.pendingCut = none ∧ (s.channel ch).begins (max s.now due) (some 0x0D) (u.channel ch)
      else t'.phase = .body ∧ t'.pendingCut = some ⟨.urgency, min 16 (p.urgencyCount + 1)⟩ ∧ (t.held = none →
        (s.channel ch).begins (max s.now due) ((s.circuit c.circuit).chain.text s.store.cells).tail.head?
          (u.channel ch)) := by
  obtain ⟨w, isW⟩ : ∃ w, w = ({ s with now := max s.now due } : State).leaveQueue c.circuit := ⟨_, rfl⟩
  have left : s.headLeft c.circuit w := by
    rw [isW]
    exact State.headLeft_leaveQueue (s := ({ s with now := max s.now due } : State)) law filled
  obtain ⟨circuits, notices, only⟩ := State.leaveQueue_only ({ s with now := max s.now due } : State) c.circuit
  rw [← isW] at only
  have record : w.circuit c.circuit = { s.circuit c.circuit with
      chain := (s.circuit c.circuit).chain.leave.1, flow := (w.circuit c.circuit).flow } := by
    have circuit := State.leaveQueue_circuit ({ s with now := max s.now due } : State) c.circuit c.circuit
    rw [← isW, State.headGone_circuit, if_pos rfl] at circuit
    exact circuit
  have chain : (w.circuit c.circuit).chain = (s.circuit c.circuit).chain.leave.1 := by rw [record]
  have count : (w.circuit c.circuit).count = (s.circuit c.circuit).count - 1 := by
    rw [Circuit.count, chain]
    exact Chain.leave_count law
  have now : w.now = max s.now due := by rw [only]
  have counted : (t.charSent c).pendingCut = some p.counted := Turn.countUrgency_pending pending
  have falls : (t.charSent c).cutInBody (isBreakChar source || decide ((s.circuit c.circuit).count = 1)) = true ↔
      p.reason ≠ .urgency ∨ source ∈ [0x20, 0x0D, 0x0A] ∨ (s.circuit c.circuit).count = 1 ∨
        16 ≤ min 16 (p.urgencyCount + 1) := by
    rw [Turn.cutInBody_iff counted, PendingCut.counted_falls, Bool.or_eq_true, isBreakChar_iff, decide_eq_true_eq, or_assoc]
  have others : ∀ (z : Channel) (j : Fin 8), j ≠ ch → (w.setChannel ch z).channel j = s.channel j := fun z j other => by
    rw [State.channel_setChannel, if_neg other.symm, only]
    rfl
  have step := State.working_telexChar (ch := ch) (due := due) (sent := sent) (source := source) kind phase law filled
  rw [← isW, State.testTelexBody_inTurn w ch _ (t.charSent c) rfl] at step
  by_cases falling : p.reason ≠ .urgency ∨ source ∈ [0x20, 0x0D, 0x0A] ∨ (s.circuit c.circuit).count = 1 ∨
      16 ≤ min 16 (p.urgencyCount + 1)
  · rw [if_pos (falls.mpr falling)] at step
    have text : closingOctets (t.charSent c).kind p.reason = closingOctets t.kind p.reason := by
      rw [kind]
      cases p.reason <;> rfl
    obtain ⟨u, ran, same, -, turned, fallen⟩ := exec_cut (p := p) released turn calm output step counted
      (PendingCut.counted_reason p) now text
    refine ⟨u, _, ran, ?_, ?_, ?_, ?_, ?_, fun j other => ?_, turned, rfl, ?_⟩
    · rw [same]
      exact left
    · rw [same, only]
      rfl
    · rw [same, only]
      rfl
    · rw [same, only]
      rfl
    · rw [same]
      exact now
    · rw [same]
      exact others _ j other
    · rw [if_pos falling]
      exact fallen
  · have urgent : p.reason = .urgency := by
      by_contra other
      exact falling (.inl other)
    have inside : (isBreakChar source || decide ((s.circuit c.circuit).count = 1)) = false := by
      rw [Bool.eq_false_iff]
      intro boundary
      rw [Bool.or_eq_true, isBreakChar_iff, decide_eq_true_eq] at boundary
      exact falling (.inr (boundary.imp_right .inl))
    have more : (s.circuit c.circuit).count ≠ 1 := fun one => falling (.inr (.inr (.inl one)))
    rw [PendingCut.counted_of_urgency urgent] at counted
    rw [if_neg fun h => falling (falls.mp h), inside, bodyEnds_inside (by rw [count]; omega) (by exact grace)] at step
    dsimp only at step
    rw [show ((s.channel ch).symbolDone (.data sent source)).settings = (s.channel ch).settings from rfl] at step
    by_cases quota : (s.channel ch).settings.telexQuota + 32 ≤ c.bodyCount + 1
    · rw [if_pos (decide_eq_true quota)] at step
      obtain ⟨z, held, went, turned, -, begins, -⟩ := State.goOn_spec w ch ((s.channel ch).symbolDone (.data sent source))
        (t.charSent c).enterTrailer
      have own : (w.setChannel ch z).channel ch = z := (State.channel_setChannel _ _ _ _).trans (if_pos rfl)
      refine ⟨w.setChannel ch z, _, by rw [exec_of_step released turn calm output step, went], left, by rw [only]; rfl,
        by rw [only]; rfl, by rw [only]; rfl, now, others z, (congrArg Channel.turn own).trans turned, rfl, ?_⟩
      rw [if_neg falling, if_pos quota, own]
      have started := begins rfl nofun (s.channel ch) rfl rfl
      rw [State.nextChar_trailer, now] at started
      exact ⟨rfl, rfl, rfl, rfl, started⟩
    · rw [if_neg (by rw [decide_eq_true_eq]; exact quota)] at step
      obtain ⟨z, held, went, turned, -, begins, -⟩ := State.goOn_spec w ch ((s.channel ch).symbolDone (.data sent source))
        (t.charSent c)
      have own : (w.setChannel ch z).channel ch = z := (State.channel_setChannel _ _ _ _).trans (if_pos rfl)
      have inBody : (t.charSent c).phase = .body := phase
      have next := State.nextChar_telex w (t := t.charSent c) rfl inBody false (by rw [chain]; exact Chain.leave_law law)
      rw [if_neg Bool.false_ne_true, if_neg (by rw [inBody]; decide), left.1] at next
      refine ⟨w.setChannel ch z, _, by rw [exec_of_step released turn calm output step, went], left, by rw [only]; rfl,
        by rw [only]; rfl, by rw [only]; rfl, now, others z, (congrArg Channel.turn own).trans turned, rfl, ?_⟩
      rw [if_neg falling, if_neg quota, own]
      refine ⟨phase, counted, fun free => ?_⟩
      have started := begins free (by rw [inBody]; decide) (s.channel ch) rfl rfl
      rw [next, now] at started
      exact started

end

/-! ## HOLD (06: R101, R106) -/

section

variable {s : State} {ch : Fin 8} {due : Nat} (released : s.resetHeld = false) (turn : (s.channel ch).turn = none)
  (output : (s.channel ch).output = some ⟨.idle, due⟩)

/-- The state in which HOLD counts its symbol. -/
def State.holdCounted (s : State) (ch : Fin 8) (due : Nat) : State :=
  ({ s with now := max s.now due } : State).setChannel ch { s.channel ch with
    silenceStop := false, holdCount := (s.channel ch).holdCount + 1, output := none }

theorem State.holdCounted_own (s : State) (ch : Fin 8) (due : Nat) : (s.holdCounted ch due).channel ch =
    { s.channel ch with silenceStop := false, holdCount := (s.channel ch).holdCount + 1, output := none } :=
  (State.channel_setChannel _ _ _ _).trans (if_pos rfl)

theorem State.holdCounted_waiting (s : State) (ch : Fin 8) (due : Nat) (c : Fin 32) :
    (s.holdCounted ch due).waiting c = s.waiting c := by
  have onAir : (s.holdCounted ch due).onAir c = s.onAir c :=
    State.setChannel_onAir (s := ({ s with now := max s.now due } : State)) (ch := ch) (by rfl) c
  rw [State.waiting, onAir]
  rfl

/-- Counting the symbol makes nothing eligible and changes no choice. -/
theorem State.holdCounted_selects (s : State) (ch : Fin 8) (due : Nat) :
    (s.holdCounted ch due).choose ch = s.choose ch ∧ (s.holdCounted ch due).anythingEligible ch = s.anythingEligible ch := by
  have own := State.holdCounted_own s ch due
  exact ⟨State.choose_of_same (by rw [own]) (by rw [own]) (by rw [own]) (by rw [own]) (by rw [own]) (by rw [own]) rfl rfl
    (State.holdCounted_waiting s ch due), State.anythingEligible_of_same (by rw [own]) (by rw [own]) (by rw [own]) rfl rfl
    (State.holdCounted_waiting s ch due)⟩

include turn output in
theorem State.completeSymbol_hold : s.completeSymbol ch =
    match (s.holdCounted ch due).selectTurn false ch with
    | some u => u
    | none =>
      if (s.channel ch).silenceStop = true ∨ (s.channel ch).settings.keyHold ≤ (s.channel ch).holdCount + 1 then
        (s.holdCounted ch due).release ch
      else (s.holdCounted ch due).emit ch .idle := by
  have counted : (s.symbolDone ch ⟨.idle, due⟩).setChannel ch { (s.symbolDone ch ⟨.idle, due⟩).channel ch with
      holdCount := ((s.symbolDone ch ⟨.idle, due⟩).channel ch).holdCount + 1, output := none } = s.holdCounted ch due := by
    rw [State.symbolDone_own, State.symbolDone, State.setChannel_setChannel]
    rfl
  have settings : ((s.symbolDone ch ⟨.idle, due⟩).channel ch).settings = (s.channel ch).settings := by
    rw [State.symbolDone_own]
    rfl
  have holds : ((s.symbolDone ch ⟨.idle, due⟩).channel ch).holdCount = (s.channel ch).holdCount := by
    rw [State.symbolDone_own]
    rfl
  rw [State.completeSymbol_of_hold output turn, State.completeHold]
  rw [counted, settings, holds]
  cases (s.holdCounted ch due).selectTurn false ch with
  | some u => rfl
  | none => simp only [Bool.or_eq_true, decide_eq_true_eq]

include released turn output

/-- With nothing eligible HOLD goes on, up to the key hold and to a stop. -/
theorem hold_goesOn (nothing : s.anythingEligible ch = false) : exec (.symbolCompletion ch) s =
    .next ((({ s with now := max s.now due } : State).setChannel ch
      (if (s.channel ch).silenceStop = true ∨ (s.channel ch).settings.keyHold ≤ (s.channel ch).holdCount + 1
        then { s.channel ch with
          state := .idle, keyreq := false, output := none, holdCount := 0, silenceStop := false }
        else { s.channel ch with
          output := some ⟨.idle, max s.now due + (s.channel ch).settings.symbolTicks⟩
          holdCount := (s.channel ch).holdCount + 1 })).arbitrate) := by
  have eligible : (s.holdCounted ch due).anythingEligible ch = false :=
    (State.holdCounted_selects s ch due).2.trans nothing
  have own := State.holdCounted_own s ch due
  rw [exec_symbolCompletion released, State.completeSymbol_hold turn output, State.selectTurn,
    State.choose_nothing_iff.mpr eligible]
  dsimp only
  by_cases leaves : (s.channel ch).silenceStop = true ∨ (s.channel ch).settings.keyHold ≤ (s.channel ch).holdCount + 1
  · rw [if_pos leaves, if_pos leaves, State.release, own, State.holdCounted, State.setChannel_setChannel, turn]
  · have calm : (s.channel ch).silenceStop = false := by
      rw [Bool.eq_false_iff]
      exact fun stop => leaves (.inl stop)
    rw [if_neg leaves, if_neg leaves, State.emit, own, State.holdCounted, State.setChannel_setChannel, ← calm]
    rfl

/-- With something eligible a turn starts. -/
theorem hold_selects (eligible : s.anythingEligible ch = true) : ∃ u : State,
    exec (.symbolCompletion ch) s = .next u.arbitrate ∧
    (({ s with now := max s.now due } : State).setChannel ch { s.channel ch with silenceStop := false }).turnStarted ch
      .preamble (s.choose ch) u := by
  obtain ⟨choice, same⟩ := State.holdCounted_selects s ch due
  obtain ⟨u, selects, started⟩ := State.selectTurn_started false (same.trans eligible)
  rw [choice] at started
  refine ⟨u, ?_, State.turnStarted_setChannel_own none ((s.channel ch).holdCount + 1) started⟩
  rw [exec_symbolCompletion released, State.completeSymbol_hold turn output, selects]

end

/-- Settles O52, phase by phase for a cut that falls, and by what HOLD finds eligible. -/
theorem cutsFallAndHoldEnds : Obligations.CutsFallAndHoldEnds := by
  intro ch e s released output x later run
  obtain ⟨y, due⟩ := e
  refine ⟨⟨_, exec_symbolCompletion released ch, State.completeSymbol_line output⟩,
    fun t p turn phase pending calm => ?_, fun t p pass turn phase kind stands pending calm => ?_,
    fun t p pass turn phase kind gone pending calm idle => ?_, fun t p turn phase pending calm => ?_,
    fun turn idle => ?_⟩
  · obtain ⟨t', step, pending', kind⟩ := State.working_opening_cut (s := s) (ch := ch) (y := y) (due := due) phase pending
    obtain ⟨u, ran, only, state, turned, fallen⟩ := exec_cut (p := p) released turn calm output step pending' rfl rfl
      (by rw [kind])
    exact ⟨u, _, ran, only, state, turned, fallen⟩
  · have step := State.working_gap_cut (s := s) (ch := ch) (y := y) (due := due) phase kind stands pending
    obtain ⟨u, ran, only, state, turned, fallen⟩ := exec_cut (p := p) released turn calm output step pending rfl rfl rfl
    refine ⟨u, _, ran, only, state, turned, fallen, ?_⟩
    show t.kind.stopGapTimer = _
    rw [kind]
    rfl
  · cases idle
    have step := State.working_gap (s := s) (ch := ch) (due := due) kind phase
    rw [if_pos gone] at step
    obtain ⟨z, held, went, turned, state, begins, -⟩ := State.goOn_spec later ch ((s.channel ch).symbolDone .idle) t.enterBreak
    have own : (later.setChannel ch z).channel ch = z := (State.channel_setChannel _ _ _ _).trans (if_pos rfl)
    refine ⟨later.setChannel ch z, _, by rw [show run = _ from exec_of_step released turn calm output step, State.working, went],
      by rw [own], by rw [own, state]; rfl, (congrArg Channel.turn own).trans turned, ?_, rfl, rfl, rfl, rfl, rfl, ?_⟩
    · rw [own]
      exact begins rfl nofun (s.channel ch) rfl rfl
    · show t.kind.stopGapTimer = _
      rw [kind]
      rfl
  · intro counted
    refine ⟨fun shift => bodyCut_shift released turn calm phase pending output shift, fun pass sent source kind data => ?_,
      fun c kind law => ?_⟩
    · subst data
      exact bodyCut_pass released turn calm phase pending kind output
    · refine ⟨fun sent source data filled grace => ?_, fun sent source data empty => ?_, fun idle => ?_⟩
      · subst data
        exact bodyCut_telex_char released turn calm phase pending kind law output filled grace
      · subst data
        exact bodyCut_telex_purged released turn calm phase pending kind output empty
      · subst idle
        exact bodyCut_telex_idle released turn calm phase pending kind law output
  · subst idle
    exact ⟨fun nothing => hold_goesOn released turn output nothing, fun eligible => hold_selects released turn output eligible⟩

end Sys2Proof.Machine
end

section
/-! PROOFS. A channel takes the entry of an occasion (04: R64 to R68; 07: R114, R117). -/

namespace Sys2Proof.Machine

/-! ## A queue with a new entry (07: R114) -/

theorem find?_insertAtTail {q : List Entry} {e : Entry} (fresh : ∀ y ∈ q, y.bulletin ≠ e.bulletin) :
    (insertAtTail q e).find? (fun y => y.bulletin = e.bulletin) = some e := by
  have before : (q.takeWhile fun y => y.rank ≤ e.rank).find? (fun y => y.bulletin = e.bulletin) = none :=
    List.find?_eq_none.mpr fun y mem named => fresh y ((List.takeWhile_prefix _).subset mem) (of_decide_eq_true named)
  rw [insertAtTail, List.find?_append, before, Option.none_or,
    List.find?_cons_of_pos (p := fun y : Entry => decide (y.bulletin = e.bulletin)) (decide_eq_true rfl)]

/-- In a queue that stands in the order of its classes, another entry may leave first or last. -/
theorem insertAtTail_eraseP {q : List Entry} (sorted : (q.map fun y => y.rank).Pairwise (· ≤ ·)) {e : Entry}
    {p : Entry → Bool} (keeps : ¬ p e = true) : insertAtTail (q.eraseP p) e = (insertAtTail q e).eraseP p := by
  induction q with
  | nil => simp [insertAtTail, keeps]
  | cons y q ih =>
    rw [List.map_cons, List.pairwise_cons] at sorted
    obtain ⟨least, sorted⟩ := sorted
    by_cases ahead : y.rank ≤ e.rank
    · have joins : ∀ l, insertAtTail (y :: l) e = y :: insertAtTail l e := fun l => by
        simp [insertAtTail, ahead]
      by_cases leaves : p y = true
      · rw [joins, List.eraseP_cons_of_pos leaves, List.eraseP_cons_of_pos leaves]
      · rw [joins, List.eraseP_cons_of_neg leaves, List.eraseP_cons_of_neg leaves, joins, ih sorted]
    · have first : ∀ l : List Entry, (∀ z ∈ l, y.rank ≤ z.rank) → insertAtTail l e = e :: l := fun l high => by
        cases l with
        | nil => rfl
        | cons z l =>
          have behind : ¬ z.rank ≤ e.rank := fun h => ahead (le_trans (high z List.mem_cons_self) h)
          simp [insertAtTail, behind]
      have high : ∀ z ∈ y :: q, y.rank ≤ z.rank := fun z mem => by
        rcases List.mem_cons.mp mem with here | later
        · exact here ▸ le_refl _
        · exact least _ (List.mem_map.mpr ⟨z, later, rfl⟩)
      rw [first _ high, List.eraseP_cons_of_neg keeps, first _ fun z mem => high z (List.mem_of_mem_eraseP mem)]

/-! ## The bulletins that a channel has -/

/-- The channel holds an entry of the bulletin, or its current turn is a pass of it. -/
def Channel.engages (x : Channel) (n : Fin 64) : Prop := x.holdsEntry n = true ∨ x.carriesPass n = true

theorem Channel.holdsEntry_iff (x : Channel) (n : Fin 64) : x.holdsEntry n = true ↔ ∃ e ∈ x.queue, e.bulletin = n := by
  simp [Channel.holdsEntry]

theorem Channel.takesOccasion_iff (x : Channel) (n : Fin 64) (b : Bulletin) : x.takesOccasion n b = true ↔
    x.isOn = true ∧ x.accepts b.category = true ∧ ¬ x.engages n := by
  simp [Channel.takesOccasion, Channel.engages, and_assoc]

theorem Channel.carriesPass_of_turn {x : Channel} {t : Turn} (turn : x.turn = some t) (n : Fin 64) :
    x.carriesPass n = t.kind.isPassOf n := by
  rw [Channel.carriesPass, turn, Option.any_some]

/-- The channel with the entry in its queue. -/
def Channel.queuing (x : Channel) (e : Entry) : Channel := { x with queue := insertAtTail x.queue e }

theorem Channel.engages_queuing (x : Channel) (e : Entry) (n : Fin 64) :
    (x.queuing e).engages n ↔ x.engages n ∨ e.bulletin = n := by
  have carries : (x.queuing e).carriesPass n = x.carriesPass n := rfl
  rw [Channel.engages, Channel.holdsEntry_iff, carries, Channel.engages, Channel.holdsEntry_iff, Channel.queuing]
  simp only [mem_insertAtTail]
  constructor
  · rintro (⟨y, rfl | mem, named⟩ | carried)
    · exact .inr named
    · exact .inl (.inl ⟨y, mem, named⟩)
    · exact .inl (.inr carried)
  · rintro ((⟨y, mem, named⟩ | carried) | named)
    · exact .inl ⟨y, .inr mem, named⟩
    · exact .inr carried
    · exact .inl ⟨e, .inl rfl, named⟩

/-! ## An IDLE channel with an eligible entry (06: R96; 07: R121) -/

/-- The channel has asked for the key, or keys: then a turn has started, for which a pass's entry has left the queue. -/
structure Channel.Woken (x : Channel) (keyok : Bool) (x' : Channel) : Prop where
  profile : x'.profile = x.profile
  keyreq : x'.keyreq = true
  absent : keyok = false → x'.state = .requesting ∧ x'.queue = x.queue ∧ x'.turn = x.turn
  present : keyok = true → x'.state = .keyed ∧ ∃ t, x'.turn = some t ∧ match t.kind with
    | .telex _ => x'.queue = x.queue
    | .pass p => x'.queue = x.queue.eraseP (fun y => decide (y.bulletin = p.bulletin)) ∧
      ∃ e ∈ x.queue, e.bulletin = p.bulletin

theorem State.consulted_woken {v u : State} {ch : Fin 8} (h : v.consulted ch u) (idle : (v.channel ch).state = .idle)
    (eligible : v.anythingEligible ch = true) : (v.channel ch).Woken (v.keyokOf ch) (u.channel ch) := by
  cases key : v.keyokOf ch with
  | false =>
    rw [State.consulted_of_absent h idle eligible key, State.channel_setChannel, if_pos rfl]
    exact ⟨rfl, rfl, fun _ => ⟨rfl, rfl, rfl⟩, nofun⟩
  | true =>
    have started := State.consulted_of_present h idle eligible key
    have own : (v.keyedAt ch).channel ch =
        { v.channel ch with state := .keyed, keyreq := true, permitTimer := none } :=
      (State.channel_setChannel _ _ _ _).trans (if_pos rfl)
    obtain ⟨state, keyreq, -, profile⟩ := State.turnStarted_channel started
    rw [own] at state keyreq profile
    refine ⟨profile, keyreq, nofun, fun _ => ⟨state, ?_⟩⟩
    cases choice : v.choose ch with
    | nothing => rw [choice] at started; exact started.elim
    | circuit c =>
      rw [choice] at started
      have after : u = _ := started
      rw [after, State.setCircuit_channel, State.channel_setChannel, if_pos rfl]
      exact ⟨_, rfl, show ((v.keyedAt ch).channel ch).queue = _ by rw [own]⟩
    | entry e =>
      rw [choice] at started
      obtain ⟨b, -, after⟩ := started
      rw [after, State.setBulletin_channel, State.channel_setChannel, if_pos rfl]
      refine ⟨_, rfl, ?_, e, (State.choose_entry choice).1, rfl⟩
      rw [own]

namespace Channel.Woken

variable {x x' : Channel} {keyok : Bool} (h : x.Woken keyok x')

include h

/-- A channel that is woken has left IDLE, and is ON. -/
theorem state : x'.state = .requesting ∨ x'.state = .keyed := by
  cases keyok with
  | false => exact .inl (h.absent rfl).1
  | true => exact .inr (h.present rfl).1

theorem queuePlaced {y : Channel} (idle : y.state = .idle) : y.queuePlaced x.queue x' := by
  rw [Channel.queuePlaced]
  cases keyok with
  | false =>
    obtain ⟨state, queue, -⟩ := h.absent rfl
    rw [if_neg (by simp [state])]
    exact queue
  | true =>
    obtain ⟨state, t, turn, left⟩ := h.present rfl
    rw [if_pos ⟨idle, state⟩, turn, Option.map_some]
    cases kind : t.kind with
    | telex z =>
      rw [kind] at left
      exact left
    | pass p =>
      rw [kind] at left
      exact left.1

/-- What leaves the queue for a pass is on the air. -/
theorem engages {n : Fin 64} (before : x.holdsEntry n = true) : x'.engages n := by
  cases keyok with
  | false =>
    obtain ⟨-, queue, -⟩ := h.absent rfl
    rw [Channel.holdsEntry, ← queue] at before
    exact .inl before
  | true =>
    obtain ⟨-, t, turn, left⟩ := h.present rfl
    cases kind : t.kind with
    | telex z =>
      rw [kind] at left
      rw [Channel.holdsEntry, ← show x'.queue = x.queue from left] at before
      exact .inl before
    | pass p =>
      rw [kind] at left
      by_cases own : p.bulletin = n
      · exact .inr ((Channel.carriesPass_of_turn turn n).trans (by rw [kind]; exact decide_eq_true own))
      · obtain ⟨e, mem, named⟩ := (x.holdsEntry_iff n).mp before
        have other : ¬ decide (e.bulletin = p.bulletin) = true := by
          rw [named, decide_eq_true_eq]
          exact Ne.symm own
        refine .inl ((x'.holdsEntry_iff n).mpr ⟨e, ?_, named⟩)
        rw [left.1]
        exact (List.mem_eraseP_of_neg (p := fun y => decide (y.bulletin = p.bulletin)) other).mpr mem

/-- A channel without a turn comes by no bulletin whose entry it does not hold. -/
theorem holdsEntry_of_engages (turn : x.turn = none) {n : Fin 64} (after : x'.engages n) : x.holdsEntry n = true := by
  cases keyok with
  | false =>
    obtain ⟨-, queue, same⟩ := h.absent rfl
    rcases after with held | carried
    · rw [Channel.holdsEntry, queue] at held
      exact held
    · rw [Channel.carriesPass, same, turn] at carried
      cases carried
  | true =>
    obtain ⟨-, t, started, left⟩ := h.present rfl
    rw [Channel.engages, Channel.carriesPass_of_turn started] at after
    cases kind : t.kind with
    | telex z =>
      rw [kind] at left after
      rcases after with held | carried
      · rw [Channel.holdsEntry, show x'.queue = x.queue from left] at held
        exact held
      · cases carried
    | pass p =>
      rw [kind] at left after
      rcases after with held | carried
      · obtain ⟨e, mem, named⟩ := (x'.holdsEntry_iff n).mp held
        rw [left.1] at mem
        exact (x.holdsEntry_iff n).mpr ⟨e, List.mem_of_mem_eraseP mem, named⟩
      · obtain ⟨e, mem, named⟩ := left.2
        exact (x.holdsEntry_iff n).mpr ⟨e, mem, named.trans (of_decide_eq_true carried)⟩

end Channel.Woken

/-! ## The new entry told (04: R68; 07: R117) -/

/-- The channel has taken the entry and has been told of it, if it is eligible. -/
structure Channel.Took (x : Channel) (e : Entry) (free keyok : Bool) (x' : Channel) : Prop where
  still : x.state ≠ .idle ∨ free = false → x' = { x.queuing e with
    turn := if x.state = .keyed ∧ free = true then x.turn.map fun t => t.told e.rank else x.turn }
  woken : x.state = .idle → free = true → (x.queuing e).Woken keyok x'

theorem State.tellEntryOf_took {v : State} {ch : Fin 8} {x : Channel} {e : Entry} {b : Bulletin}
    (queued : v.channel ch = x.queuing e) (fresh : x.holdsEntry e.bulletin = false)
    (bulletin : v.bulletin e.bulletin = some b) (released : b.state = .released) :
    x.Took e (!b.commitPending && (!v.silenced ch || decide (e.rank = 0))) (v.keyokOf ch)
      ((v.tellEntryOf e.bulletin ch).channel ch) := by
  have found : (v.channel ch).queue.find? (fun y => y.bulletin = e.bulletin) = some e := by
    rw [queued]
    refine find?_insertAtTail fun y mem named => ?_
    rw [(x.holdsEntry_iff _).mpr ⟨y, mem, named⟩] at fresh
    cases fresh
  have eligible : v.entryEligible ch e = (!b.commitPending && (!v.silenced ch || decide (e.rank = 0))) := by
    rw [State.entryEligible, bulletin]
    dsimp only
    rw [released]
    cases v.silenced ch
    · simp
    · simp
  have state : (v.channel ch).state = x.state := by rw [queued]; rfl
  rw [← eligible]
  cases free : v.entryEligible ch e with
  | false =>
    have untold : v.tellEntryOf e.bulletin ch = v := by
      rcases State.tellEntryOf_cases v e.bulletin ch with same | ⟨y, first, eligible, -⟩
      · exact same
      · rw [found] at first
        cases first
        rw [free] at eligible
        cases eligible
    rw [untold, queued]
    exact ⟨fun _ => by rw [if_neg (by simp)]; rfl, nofun⟩
  | true =>
    rw [State.tellEntryOf_of_eligible found free]
    refine ⟨fun busy => ?_, fun idle _ => ?_⟩
    · have awake : (v.channel ch).state ≠ .idle := by
        rw [state]
        exact busy.resolve_right (by decide)
      by_cases keyed : (v.channel ch).state = .keyed
      · rw [State.tellEntry_of_keyed v ch _ keyed, State.channel_setChannel, if_pos rfl, queued, if_pos ⟨state ▸ keyed, rfl⟩]
        rfl
      · rw [State.tellEntry_of_deaf v ch _ awake keyed, queued, if_neg fun h => keyed (state.trans h.1)]
        rfl
    · rw [State.tellEntry_of_idle v ch _ (state.trans idle), ← queued]
      exact State.consulted_woken (v.tellIdle_consulted ch) (state.trans idle)
        (State.anythingEligible_iff.mpr (.inl ⟨e, List.mem_of_find?_eq_some found, free⟩))

theorem Turn.told_kind (t : Turn) (k : Rank) : (t.told k).kind = t.kind := by
  rw [Turn.told_eq]
  split_ifs
  · rw [Turn.causeCut]; split <;> rfl
  · rw [Turn.causeCut]; split <;> rfl
  · rfl
  · rfl

/-- Without a start the queue gains the entry and the air is as it was. -/
theorem Channel.engages_of_still {x x' : Channel} {e : Entry} {free : Bool} (same : x' = { x.queuing e with
    turn := if x.state = .keyed ∧ free = true then x.turn.map fun t => t.told e.rank else x.turn }) (n : Fin 64) :
    x'.engages n ↔ (x.queuing e).engages n := by
  have carries : x'.carriesPass n = (x.queuing e).carriesPass n := by
    rw [same]
    show Option.any _ (if _ then _ else _) = Option.any _ x.turn
    split
    · rw [Option.any_map]
      simp only [Turn.told_kind]
    · rfl
  have holds : x'.holdsEntry n = (x.queuing e).holdsEntry n := by rw [same]; rfl
  rw [Channel.engages, carries, holds, ← Channel.engages]

namespace Channel.Took

variable {x x' : Channel} {e : Entry} {free keyok : Bool} (h : x.Took e free keyok x')

include h

theorem woken_or_still : (x.state = .idle ∧ free = true ∧ (x.queuing e).Woken keyok x') ∨
    ((x.state ≠ .idle ∨ free = false) ∧ x' = { x.queuing e with
      turn := if x.state = .keyed ∧ free = true then x.turn.map fun t => t.told e.rank else x.turn }) := by
  by_cases still : x.state ≠ .idle ∨ free = false
  · exact .inr ⟨still, h.still still⟩
  · rw [not_or, not_not, Bool.not_eq_false] at still
    exact .inl ⟨still.1, still.2, h.woken still.1 still.2⟩

theorem profile : x'.profile = x.profile := by
  rcases h.woken_or_still with ⟨-, -, woken⟩ | ⟨-, same⟩
  · exact woken.profile
  · rw [same]
    rfl

theorem isOn : x'.isOn = x.isOn := by
  rcases h.woken_or_still with ⟨idle, -, woken⟩ | ⟨-, same⟩
  · rcases woken.state with state | state
    · simp [Channel.isOn, state, idle]
    · simp [Channel.isOn, state, idle]
  · rw [same]
    rfl

theorem queuePlaced : x.queuePlaced (insertAtTail x.queue e) x' := by
  rcases h.woken_or_still with ⟨idle, -, woken⟩ | ⟨-, same⟩
  · exact woken.queuePlaced idle
  · have state : x'.state = x.state := by rw [same]; rfl
    have steady : ¬ (x.state = .idle ∧ x'.state = .keyed) := fun ⟨idle, keyed⟩ => by
      rw [state, idle] at keyed
      cases keyed
    rw [Channel.queuePlaced, if_neg steady, same]
    rfl

theorem engages : x'.engages e.bulletin := by
  rcases h.woken_or_still with ⟨-, -, woken⟩ | ⟨-, same⟩
  · exact woken.engages (((x.queuing e).holdsEntry_iff _).mpr ⟨e, mem_insertAtTail.mpr (.inl rfl), rfl⟩)
  · exact (Channel.engages_of_still same _).mpr ((x.engages_queuing e _).mpr (.inr rfl))

theorem engages_iff (rests : x.state = .idle → x.turn = none) (n : Fin 64) :
    x'.engages n ↔ x.engages n ∨ e.bulletin = n := by
  rw [← Channel.engages_queuing]
  rcases h.woken_or_still with ⟨idle, -, woken⟩ | ⟨-, same⟩
  · refine ⟨fun after => .inl (woken.holdsEntry_of_engages (rests idle) after), fun before => ?_⟩
    refine before.elim woken.engages fun carried => ?_
    rw [show (x.queuing e).carriesPass n = x.carriesPass n from rfl, Channel.carriesPass, rests idle] at carried
    cases carried
  · exact Channel.engages_of_still same n

end Channel.Took

end Sys2Proof.Machine
end

section
/-! PROOFS. What an occasion does on the channels of its mask, before they are told (04: R64 to R66). -/

namespace Sys2Proof.Machine

/-! ## The visits (04: R64, R66) -/

theorem State.newEntry_of_clock {s t : State} (clock : t.clock = s.clock) (n : Fin 64) (b : Bulletin) :
    t.newEntry n b = s.newEntry n b := by
  rw [State.newEntry, clock, State.newEntry]

theorem State.visitChannel_of_taken {s : State} {n : Fin 64} {b : Bulletin} {ch : Fin 8} (placed : List (Fin 8))
    (takes : (s.channel ch).takesOccasion n b = true) : State.visitChannel n b (s, placed) ch =
      (s.setChannel ch ((s.channel ch).queuing (s.newEntry n b)), placed ++ [ch]) := by
  rw [State.visitChannel]
  exact if_pos takes

theorem State.visitChannel_of_missed {s : State} {n : Fin 64} {b : Bulletin} {ch : Fin 8} (placed : List (Fin 8))
    (misses : (s.channel ch).takesOccasion n b = false) : State.visitChannel n b (s, placed) ch = (s.missed n, placed) := by
  rw [State.visitChannel]
  exact if_neg (by rw [misses]; exact Bool.false_ne_true)

/-- The channels of the mask that the occasion finds able to take its entry. -/
def State.reaches (v : State) (n : Fin 64) (b : Bulletin) (mask : List (Fin 8)) (ch : Fin 8) : Prop :=
  ch ∈ mask ∧ (v.channel ch).takesOccasion n b = true

/-- The misses of the occasion, each of which counts (02: R23). -/
def State.misses (v : State) (n : Fin 64) (b : Bulletin) (mask : List (Fin 8)) : Nat :=
  (mask.filter fun ch => !(v.channel ch).takesOccasion n b).length

/-- The occasion has visited the channels of the mask, each as it found it at the start. -/
structure State.Visited (v : State) (n : Fin 64) (b : Bulletin) (mask : List (Fin 8)) (y : State) (placed : List (Fin 8)) :
    Prop where
  only : y = { v with channels := y.channels, bulletins := y.bulletins, notices := y.notices }
  reached (j : Fin 8) : v.reaches n b mask j → y.channel j = (v.channel j).queuing (v.newEntry n b)
  passed (j : Fin 8) : ¬ v.reaches n b mask j → y.channel j = v.channel j
  other (i : Fin 64) : i ≠ n → y.bulletin i = v.bulletin i
  own : v.bulletin n = some b → ∃ m, y.bulletin n = some { b with missed := m } ∧
    (mask.Nodup → b.missed ≤ 65535 → m = min 65535 (b.missed + v.misses n b mask))
  missed : ∀ ch ∈ mask, (v.channel ch).takesOccasion n b = false → y.reports (.bulletin n) .missed
  reports {key : NoticeKey} {e : NoticeEvent} : v.reports key e → y.reports key e
  distinct : placed.Nodup
  mem (j : Fin 8) : j ∈ placed ↔ v.reaches n b mask j

namespace State.Visited

variable {v y : State} {n : Fin 64} {b : Bulletin} {mask placed : List (Fin 8)}

theorem start (v : State) (n : Fin 64) (b : Bulletin) : v.Visited n b [] v [] := by
  refine ⟨rfl, fun _ h => (List.not_mem_nil h.1).elim, fun _ _ => rfl, fun _ _ => rfl, fun present => ?_, nofun, id,
    List.nodup_nil, fun j => ⟨fun h => (List.not_mem_nil h).elim, fun h => (List.not_mem_nil h.1).elim⟩⟩
  refine ⟨b.missed, present, fun _ high => ?_⟩
  rw [State.misses]
  exact (Nat.min_eq_right high).symm

variable (h : v.Visited n b mask y placed) (ch : Fin 8)

include h

/-- A channel that has taken the entry takes no other one. -/
theorem takes : (y.channel ch).takesOccasion n b = true ↔ ch ∉ mask ∧ (v.channel ch).takesOccasion n b = true := by
  by_cases reached : v.reaches n b mask ch
  · rw [h.reached ch reached, Channel.takesOccasion_iff]
    refine ⟨fun ⟨_, _, free⟩ => (free ?_).elim, fun ⟨out, _⟩ => (out reached.1).elim⟩
    exact ((v.channel ch).engages_queuing _ n).mpr (.inr rfl)
  · rw [h.passed ch reached]
    exact ⟨fun takes => ⟨fun mem => reached ⟨mem, takes⟩, takes⟩, And.right⟩

theorem visit_taken (takes : (y.channel ch).takesOccasion n b = true) : v.Visited n b (mask ++ [ch])
    (y.setChannel ch ((y.channel ch).queuing (y.newEntry n b))) (placed ++ [ch]) := by
  obtain ⟨out, free⟩ := (h.takes ch).mp takes
  have reaches : ∀ j, v.reaches n b (mask ++ [ch]) j ↔ v.reaches n b mask j ∨ j = ch := fun j => by
    rw [State.reaches, State.reaches, List.mem_append, List.mem_singleton, or_and_right]
    exact or_congr_right ⟨And.left, fun here => ⟨here, here ▸ free⟩⟩
  have before : y.channel ch = v.channel ch := h.passed ch fun reached => out reached.1
  have clock : y.clock = v.clock := by rw [h.only]
  refine ⟨?_, fun j reached => ?_, fun j far => ?_, h.other, fun present => ?_, fun j mem misses => ?_, h.reports, ?_, ?_⟩
  · rw [h.only]
    rfl
  · rw [State.channel_setChannel]
    split
    · next here => rw [before, State.newEntry_of_clock clock, here]
    · next other => exact h.reached j (((reaches j).mp reached).resolve_right (Ne.symm other))
  · rw [reaches, not_or] at far
    rw [State.channel_setChannel, if_neg (Ne.symm far.2)]
    exact h.passed j far.1
  · obtain ⟨m, own, counts⟩ := h.own present
    refine ⟨m, own, fun distinct high => ?_⟩
    rw [counts (List.nodup_append.mp distinct).1 high, State.misses, State.misses, List.filter_append,
      List.filter_singleton, free, Bool.not_true, List.length_append]
    rfl
  · rcases List.mem_append.mp mem with earlier | here
    · exact h.missed j earlier misses
    · rw [List.mem_singleton.mp here, free] at misses
      cases misses
  · refine List.nodup_append.mpr ⟨h.distinct, List.nodup_singleton _, fun a ha c hc same => ?_⟩
    exact out ((h.mem ch).mp (List.mem_singleton.mp hc ▸ same ▸ ha)).1
  · intro j
    rw [reaches, List.mem_append, List.mem_singleton, h.mem]

theorem visit_missed (misses : (y.channel ch).takesOccasion n b = false) :
    v.Visited n b (mask ++ [ch]) (y.missed n) placed := by
  have passes : ch ∈ mask ∨ (v.channel ch).takesOccasion n b = false := by
    by_contra none
    rw [not_or, Bool.not_eq_false] at none
    rw [(h.takes ch).mpr none] at misses
    cases misses
  have reaches : ∀ j, v.reaches n b (mask ++ [ch]) j ↔ v.reaches n b mask j := fun j => by
    rw [State.reaches, State.reaches, List.mem_append, List.mem_singleton]
    refine ⟨fun ⟨mem, takes⟩ => ⟨mem.elim id fun here => ?_, takes⟩, fun ⟨mem, takes⟩ => ⟨.inl mem, takes⟩⟩
    rw [here] at takes ⊢
    exact passes.resolve_right (by rw [takes]; decide)
  obtain ⟨notices, first⟩ := y.missed_only n
  have channel : ∀ j, (y.missed n).channel j = y.channel j := fun j => by rw [first]; rfl
  have bulletin : ∀ i, (y.missed n).bulletin i =
      if n = i then (y.bulletin n).map Bulletin.missedOnce else y.bulletin i := fun i => by
    rw [first]
    exact State.bulletin_setBulletin y n i _
  have moves : y.Moves (y.missed n) := State.Moves.refl.missed n
  refine ⟨?_, fun j reached => (channel j).trans (h.reached j ((reaches j).mp reached)),
    fun j far => (channel j).trans (h.passed j fun reached => far ((reaches j).mpr reached)), fun i other => ?_,
    fun present => ?_, fun _ _ _ => y.missed_reports n, fun before => moves.reports (h.reports before), h.distinct,
    fun j => (h.mem j).trans (reaches j).symm⟩
  · rw [first, h.only]
    rfl
  · rw [bulletin, if_neg (Ne.symm other)]
    exact h.other i other
  · obtain ⟨m, own, counts⟩ := h.own present
    refine ⟨min 65535 (m + 1), by rw [bulletin, if_pos rfl, own]; rfl, fun distinct high => ?_⟩
    obtain ⟨first, -, apart⟩ := List.nodup_append.mp distinct
    have out : ch ∉ mask := fun mem => apart ch mem ch (List.mem_singleton.mpr rfl) rfl
    have one : v.misses n b (mask ++ [ch]) = v.misses n b mask + 1 := by
      rw [State.misses, List.filter_append, List.filter_singleton, passes.resolve_left out, Bool.not_false,
        List.length_append]
      rfl
    rw [counts first high, one]
    omega

end State.Visited

theorem State.visitChannels_visited (v : State) (n : Fin 64) (b : Bulletin) (mask : List (Fin 8)) :
    v.Visited n b mask (mask.foldl (State.visitChannel n b) (v, [])).1 (mask.foldl (State.visitChannel n b) (v, [])).2 := by
  induction mask using List.reverseRecOn with
  | nil => exact State.Visited.start v n b
  | append_singleton mask ch ih =>
    rw [List.foldl_append, List.foldl_cons, List.foldl_nil]
    generalize mask.foldl (State.visitChannel n b) (v, []) = acc at ih
    obtain ⟨y, placed⟩ := acc
    cases takes : (y.channel ch).takesOccasion n b with
    | true =>
      rw [State.visitChannel_of_taken placed takes]
      exact ih.visit_taken ch takes
    | false =>
      rw [State.visitChannel_of_missed placed takes]
      exact ih.visit_missed ch takes

end Sys2Proof.Machine
end

section
/-! PROOFS. An occasion: its count against the limit, and the channels that act on its entry (04: R65, R67, R68). -/

namespace Sys2Proof.Machine

/-! ## The count against the limit (04: R65) -/

/-- The record once an occasion has counted. -/
def Bulletin.occasioned (b : Bulletin) : Bulletin :=
  { b with schedule := { b.schedule with limit := b.schedule.limit.map fun l => l - 1 } }

section

variable {y : State} {n : Fin 64} {b : Bulletin} (present : y.bulletin n = some b)

include present

theorem State.mapBulletin_of_some (f : Bulletin → Bulletin) : y.mapBulletin n f = y.setBulletin n (some (f b)) := by
  rw [State.mapBulletin, present]
  rfl

theorem State.countOccasion_of_some {l : Nat} (limit : b.schedule.limit = some l) : y.countOccasion n b.schedule.limit =
    if l - 1 = 0 then (y.setBulletin n (some b.occasioned)).retirementTest n else y.setBulletin n (some b.occasioned) := by
  have counted : ({ b with schedule := { b.schedule with limit := some (l - 1) } } : Bulletin) = b.occasioned := by
    rw [Bulletin.occasioned, limit]
    rfl
  rw [limit, State.countOccasion, State.mapBulletin_of_some present, counted]

/-- The last occasion retires the bulletin, if nothing of it waits or is on the air. -/
theorem State.countOccasion_retires (last : b.schedule.limit = some 1) (retires : y.retires n b.occasioned = true) :
    y.GaveUp b.allBlocks (y.countOccasion n b.schedule.limit) ∧
    (∀ i, (y.countOccasion n b.schedule.limit).bulletin i = if n = i then none else y.bulletin i) ∧
    (y.countOccasion n b.schedule.limit).reports (.bulletin n) .retired := by
  have own : (y.setBulletin n (some b.occasioned)).bulletin n = some b.occasioned :=
    (State.bulletin_setBulletin _ _ _ _).trans (if_pos rfl)
  obtain ⟨emptied, retired⟩ := State.retirementTest_of_retires own
    ((State.retires_of_channels (t := y.setBulletin n (some b.occasioned)) rfl n b.occasioned).trans retires)
  rw [State.countOccasion_of_some present last, if_pos rfl]
  refine ⟨⟨?_, emptied.store, emptied.circuit, emptied.returned, emptied.reports⟩, fun i => ?_, retired⟩
  · rw [emptied.only]
    rfl
  · rw [emptied.bulletin, State.bulletin_setBulletin]
    split
    · rfl
    · rfl

theorem State.countOccasion_stands (more : b.schedule.limit ≠ some 0)
    (stands : ¬ (b.schedule.limit = some 1 ∧ y.retires n b.occasioned = true)) :
    y.countOccasion n b.schedule.limit = { y with bulletins := (y.countOccasion n b.schedule.limit).bulletins } ∧
    ∀ i, (y.countOccasion n b.schedule.limit).bulletin i = if n = i then some b.occasioned else y.bulletin i := by
  have set : ∀ z, z = y.setBulletin n (some b.occasioned) → z = { y with bulletins := z.bulletins } ∧
      ∀ i, z.bulletin i = if n = i then some b.occasioned else y.bulletin i := fun z same => by
    subst same
    exact ⟨rfl, fun i => State.bulletin_setBulletin y n i _⟩
  cases limit : b.schedule.limit with
  | none =>
    refine ⟨rfl, fun i => ?_⟩
    have same : b.occasioned = b := by
      rw [Bulletin.occasioned, limit, Option.map_none, ← limit]
    split
    · next here => rw [same, ← here, ← present]; rfl
    · rfl
  | some l =>
    rw [← limit]
    refine set _ ?_
    rw [State.countOccasion_of_some present limit]
    split
    · next zero =>
      have one : l = 1 := by
        have positive : l ≠ 0 := fun here => more (limit.trans (congrArg some here))
        omega
      have own : (y.setBulletin n (some b.occasioned)).bulletin n = some b.occasioned :=
        (State.bulletin_setBulletin _ _ _ _).trans (if_pos rfl)
      refine State.retirementTest_of_stays own ?_
      rw [State.retires_of_channels (t := y.setBulletin n (some b.occasioned)) rfl, Bool.eq_false_iff]
      exact fun retires => stands ⟨limit.trans (congrArg some one), retires⟩
    · rfl

end

/-! ## What telling of one bulletin leaves of the others -/

theorem State.spares_congr {s t : State} {n : Fin 64} (bulletin : t.bulletin n = s.bulletin n)
    (queue : ∀ j, (t.channel j).queue = (s.channel j).queue) : t.spares n ↔ s.spares n :=
  ⟨fun h => State.spares_of h bulletin.symm fun j => (queue j).symm, fun h => State.spares_of h bulletin queue⟩

/-- A bulletin with nothing waiting and nothing on the air gets nothing there. -/
theorem State.spares_of_turnStarted {s u : State} {ch : Fin 8} {phase : Phase} {choice : Choice} {n : Fin 64}
    (chosen : ∀ e, choice = .entry e → e ∈ (s.channel ch).queue) (started : s.turnStarted ch phase choice u)
    (h : u.spares n) : s.spares n := by
  match choice, started with
  | .circuit c, same =>
    rw [show u = _ from same] at h
    exact (State.spares_congr (by rfl) (State.setChannel_queue (s := s) (ch := ch) (by rfl))).mp h
  | .entry e, ⟨b, present, same⟩ =>
    by_cases own : e.bulletin = n
    · exact .inr ⟨ch, ((s.channel ch).holdsEntry_iff n).mpr ⟨e, chosen e rfl, own⟩⟩
    · rw [same] at h
      refine h.imp (fun ⟨b', present', air⟩ => ⟨b', ?_, air⟩) fun ⟨j, held⟩ => ⟨j, ?_⟩
      · rw [State.bulletin_setBulletin, if_neg own] at present'
        exact present'
      · rw [State.setBulletin_channel, State.channel_setChannel] at held
        split at held
        · next here =>
          obtain ⟨y, mem, named⟩ := List.any_eq_true.mp held
          rw [← here]
          exact List.any_eq_true.mpr ⟨y, List.mem_of_mem_eraseP mem, named⟩
        · exact held

theorem State.spares_of_consulted {s u : State} {ch : Fin 8} {n : Fin 64} (consulted : s.consulted ch u) (h : u.spares n) :
    s.spares n := by
  by_cases idle : (s.channel ch).state = .idle
  · cases eligible : s.anythingEligible ch with
    | false => exact State.consulted_of_still consulted (.inr eligible) ▸ h
    | true =>
      cases key : s.keyokOf ch with
      | false =>
        rw [State.consulted_of_absent consulted idle eligible key] at h
        exact (State.spares_congr (by rfl) (State.setChannel_queue (s := s) (ch := ch) (by rfl))).mp h
      | true =>
        have queue : ∀ j, ((s.keyedAt ch).channel j).queue = (s.channel j).queue := State.setChannel_queue rfl
        have before : (s.keyedAt ch).spares n := by
          refine State.spares_of_turnStarted (fun e choice => ?_) (State.consulted_of_present consulted idle eligible key) h
          rw [queue]
          exact (State.choose_entry choice).1
        exact (State.spares_congr (s := s) (t := s.keyedAt ch) rfl queue).mp before
  · exact State.consulted_of_still consulted (.inl idle) ▸ h

theorem State.spares_tellEntryOf_iff (s : State) (n i : Fin 64) (ch : Fin 8) : (s.tellEntryOf i ch).spares n ↔ s.spares n := by
  refine ⟨fun h => ?_, fun h => State.spares_tellEntryOf h i ch⟩
  rcases State.tellEntryOf_cases s i ch with same | ⟨e, -, -, same⟩
  · exact same ▸ h
  · rw [same] at h
    by_cases idle : (s.channel ch).state = .idle
    · rw [State.tellEntry_of_idle s ch _ idle] at h
      exact State.spares_of_consulted (s.tellIdle_consulted ch) h
    · by_cases keyed : (s.channel ch).state = .keyed
      · rw [State.tellEntry_of_keyed s ch _ keyed] at h
        exact (State.spares_congr (by rfl) (State.setChannel_queue (s := s) (ch := ch) (by rfl))).mp h
      · rw [State.tellEntry_of_deaf s ch _ idle keyed] at h
        exact h

theorem State.spares_tells (s : State) (n i : Fin 64) (l : List (Fin 8)) :
    (l.foldl (fun s ch => s.tellEntryOf i ch) s).spares n ↔ s.spares n := by
  induction l generalizing s with
  | nil => exact Iff.rfl
  | cons ch l ih => exact (ih _).trans (State.spares_tellEntryOf_iff s n i ch)

/-! ## The occasion (04: R64 to R68) -/

/-- The occasion is the last one, and the bulletin ends with it. -/
def State.occasionRetires (v : State) (n : Fin 64) (b : Bulletin) : Prop :=
  b.schedule.limit = some 1 ∧ v.retiresUnplaced n b b.schedule.mask = true

/-- Silence and a pending commit leave the new entry of the occasion eligible on the channel. -/
def State.occasionFree (v : State) (b : Bulletin) (ch : Fin 8) : Bool :=
  !b.commitPending && (!v.silenced ch || decide (b.category.rank = 0))

/-- The occasion of the bulletin has taken place. -/
structure State.Occasioned (v : State) (n : Fin 64) (b : Bulletin) (w : State) : Prop where
  retired : v.occasionRetires n b → v.GaveUp b.allBlocks w ∧ w.bulletin n = none ∧ w.reports (.bulletin n) .retired
  stands : ¬ v.occasionRetires n b → w.store = v.store ∧
    (∀ d, w.circuit d = { v.circuit d with waitStart := (w.circuit d).waitStart }) ∧
    ∃ k m, w.bulletin n = some { b.occasioned with onAir := k, missed := m } ∧
      (b.schedule.mask.Nodup → b.missed ≤ 65535 → m = min 65535 (b.missed + v.misses n b b.schedule.mask))
  missed : ∀ ch ∈ b.schedule.mask, (v.channel ch).takesOccasion n b = false → w.reports (.bulletin n) .missed
  reports {key : NoticeKey} {e : NoticeEvent} : v.reports key e → w.reports key e
  took (j : Fin 8) : v.reaches n b b.schedule.mask j →
    (v.channel j).Took (v.newEntry n b) (v.occasionFree b j) (v.keyokOf j) (w.channel j)
  passed (j : Fin 8) : ¬ v.reaches n b b.schedule.mask j → w.channel j = v.channel j
  other (i : Fin 64) : i ≠ n → ∃ k, w.bulletin i = (v.bulletin i).map fun b => { b with onAir := k }
  spares (i : Fin 64) : i ≠ n → (w.spares i ↔ v.spares i)

section

variable {v y : State} {n : Fin 64} {b : Bulletin} {placed : List (Fin 8)}

theorem State.Visited.retires_iff {b' : Bulletin} (h : v.Visited n b b.schedule.mask y placed)
    (released : b'.state = .released) (air : b'.onAir = b.onAir) :
    (b'.schedule.limit = some 1 ∧ y.retires n b'.occasioned = true) ↔
      b'.schedule.limit = some 1 ∧ v.retiresUnplaced n b b.schedule.mask = true := by
  refine and_congr_right fun last => ?_
  have counted : b'.occasioned.schedule.limit = some 0 := by rw [Bulletin.occasioned, last]; rfl
  have same : b'.occasioned.onAir = b.onAir := air
  rw [State.retires_iff, counted, same]
  simp only [State.retiresUnplaced, allChannels, Bool.and_eq_true, decide_eq_true_eq, List.all_eq_true, Bool.not_eq_true',
    List.mem_finRange, true_implies]
  constructor
  · rintro ⟨-, -, offAir, none⟩
    have far : ∀ j, ¬ v.reaches n b b.schedule.mask j := fun j reached => by
      have held := none j
      rw [h.reached j reached, Bool.eq_false_iff, Ne, Channel.holdsEntry_iff] at held
      exact held ⟨_, mem_insertAtTail.mpr (.inl rfl), rfl⟩
    refine ⟨⟨offAir, fun j mem => Bool.eq_false_iff.mpr fun takes => far j ⟨mem, takes⟩⟩, fun j => ?_⟩
    rw [← h.passed j (far j)]
    exact none j
  · rintro ⟨⟨offAir, misses⟩, none⟩
    refine ⟨released, trivial, offAir, fun j => ?_⟩
    rw [h.passed j fun reached => Bool.eq_false_iff.mp (misses j reached.1) reached.2]
    exact none j

theorem State.Visited.spares_iff (h : v.Visited n b b.schedule.mask y placed) {i : Fin 64} (other : i ≠ n) :
    y.spares i ↔ v.spares i := by
  have holds : ∀ j, (y.channel j).holdsEntry i = true ↔ (v.channel j).holdsEntry i = true := fun j => by
    by_cases reached : v.reaches n b b.schedule.mask j
    · rw [h.reached j reached, Channel.holdsEntry_iff, Channel.holdsEntry_iff, Channel.queuing]
      refine exists_congr fun e => ?_
      rw [mem_insertAtTail, or_and_right]
      exact ⟨fun found => found.resolve_left fun new => other (by rw [← new.2, new.1]; rfl), .inr⟩
    · rw [h.passed j reached]
  rw [State.spares, State.spares, h.other i other]
  exact or_congr_right (exists_congr holds)

theorem State.occasion_eq (present : v.bulletin n = some b)
    {y : State} {placed : List (Fin 8)} (visits : b.schedule.mask.foldl (State.visitChannel n b) (v, []) = (y, placed)) :
    v.occasion n = placed.foldl (fun s ch => s.tellEntryOf n ch) (y.countOccasion n b.schedule.limit) := by
  rw [State.occasion, present]
  dsimp only
  rw [visits]

theorem State.Visited.occasioned (h : v.Visited n b b.schedule.mask y placed) (present : v.bulletin n = some b)
    (released : b.state = .released) (more : b.schedule.limit ≠ some 0) :
    v.Occasioned n b (placed.foldl (fun s ch => s.tellEntryOf n ch) (y.countOccasion n b.schedule.limit)) := by
  obtain ⟨m, own, counts⟩ := h.own present
  have ends := h.retires_iff (b' := { b with missed := m }) released rfl
  have frame := h.only
  by_cases retires : v.occasionRetires n b
  · have far : ∀ j, ¬ v.reaches n b b.schedule.mask j := fun j reached => by
      have misses := retires.2
      rw [State.retiresUnplaced, Bool.and_eq_true, Bool.and_eq_true, List.all_eq_true] at misses
      have miss := misses.1.2 j reached.1
      rw [reached.2] at miss
      cases miss
    have nobody : placed = [] := List.eq_nil_iff_forall_not_mem.mpr fun j mem => far j ((h.mem j).mp mem)
    obtain ⟨gave, bulletin, retired⟩ := State.countOccasion_retires own (b := { b with missed := m }) retires.1
      (ends.mpr retires).2
    have channel : ∀ j, y.channel j = v.channel j := fun j => h.passed j (far j)
    have channels : y.channels = v.channels := Vector.ext fun j small => channel ⟨j, small⟩
    rw [nobody, List.foldl_nil]
    refine ⟨fun _ => ⟨⟨?_, ?_, ?_, ?_, ?_⟩, ?_, retired⟩, fun stands => (stands retires).elim,
      fun j mem misses => gave.reports (h.missed j mem misses), fun before => gave.reports (h.reports before),
      fun j reached => (far j reached).elim, fun j _ => (gave.channel j).trans (channel j), fun i other => ?_,
      fun i other => ?_⟩
    · rw [gave.only, frame, channels]
    · rw [gave.store, frame]
      rfl
    · intro d
      rw [gave.circuit d, frame]
      rfl
    · intro d
      have circuit : y.circuit d = v.circuit d := by rw [frame]; rfl
      have returned := gave.returned d
      rw [State.returnReported, circuit] at returned
      exact returned
    · exact fun before => gave.reports (h.reports before)
    · rw [bulletin, if_pos rfl]
    · rw [bulletin, if_neg (Ne.symm other), h.other i other]
      exact State.Told.bulletin_self i
    · rw [← h.spares_iff other]
      have same : (y.countOccasion n b.schedule.limit).bulletin i = y.bulletin i :=
        (bulletin i).trans (if_neg (Ne.symm other))
      exact State.spares_congr same fun j => congrArg Channel.queue (gave.channel j)
  · obtain ⟨counted, bulletin⟩ := State.countOccasion_stands own (b := { b with missed := m }) more fun ended =>
      retires (ends.mp ended)
    have same : y.countOccasion n b.schedule.limit = y.countOccasion n ({ b with missed := m } : Bulletin).schedule.limit := rfl
    rw [← same] at counted bulletin
    generalize y.countOccasion n b.schedule.limit = z at counted bulletin
    have channel : ∀ j, z.channel j = y.channel j := fun j => by rw [counted]; rfl
    obtain ⟨told, each⟩ := State.foldl_told (fun s => State.tellEntryOf_told s n)
      (fun s ch _ => State.tellEntryOf_other s n ch) h.distinct z
    have reports : ∀ {key e}, y.reports key e → (placed.foldl (fun s ch => s.tellEntryOf n ch) z).reports key e :=
      fun before => told.reports (by rw [counted]; exact before)
    refine ⟨fun retired => (retires retired).elim, fun _ => ⟨?_, fun d => ?_, ?_⟩,
      fun j mem misses => reports (h.missed j mem misses), fun before => reports (h.reports before), fun j reached => ?_,
      fun j far => ?_, fun i other => ?_, fun i other => ?_⟩
    · rw [told.store, counted, frame]
    · rw [told.circuit d, counted, frame]
      rfl
    · obtain ⟨k, after⟩ := told.bulletin n
      rw [bulletin, if_pos rfl] at after
      exact ⟨k, m, after, counts⟩
    · obtain ⟨t, reachedTold, before, after⟩ := (each j).2 ((h.mem j).mpr reached)
      obtain ⟨k, record⟩ := reachedTold.bulletin n
      rw [bulletin, if_pos rfl] at record
      have queued : t.channel j = (v.channel j).queuing (v.newEntry n b) :=
        before.trans ((channel j).trans (h.reached j reached))
      have fresh : (v.channel j).holdsEntry n = false := Bool.eq_false_iff.mpr fun held =>
        (((v.channel j).takesOccasion_iff n b).mp reached.2).2.2 (.inl held)
      have silenced : t.silenced j = v.silenced j := by
        rw [State.silenced, queued, reachedTold.silence, counted, frame]
        rfl
      have keyok : t.keyokOf j = v.keyokOf j := by
        rw [reachedTold.keyokOf, counted, frame]
        rfl
      have took := State.tellEntryOf_took queued fresh record released
      rw [silenced, keyok] at took
      rw [after]
      exact took
    · rw [(each j).1 fun mem => far ((h.mem j).mp mem), channel, h.passed j far]
    · obtain ⟨k, after⟩ := told.bulletin i
      rw [bulletin, if_neg (Ne.symm other), h.other i other] at after
      exact ⟨k, after⟩
    · rw [State.spares_tells, ← h.spares_iff other]
      have unmoved : z.bulletin i = y.bulletin i := (bulletin i).trans (if_neg (Ne.symm other))
      exact State.spares_congr unmoved fun j => congrArg Channel.queue (channel j)

theorem State.occasion_occasioned (present : v.bulletin n = some b) (released : b.state = .released)
    (more : b.schedule.limit ≠ some 0) : v.Occasioned n b (v.occasion n) := by
  rw [State.occasion_eq present rfl]
  exact (State.visitChannels_visited v n b b.schedule.mask).occasioned present released more

end

end Sys2Proof.Machine
end

section
/-! PROOFS. RELEASE BULLETIN and AMEND BULLETIN put a schedule group in force (02: R29 to R32). -/

namespace Sys2Proof.Machine

/-! ## The requests (02: R29, R32) -/

section

variable {r : ReplyTo} {n : Fin 64} {b : Bulletin} {f : ScheduleFields} {s : State}

theorem amendBulletin_of_composing {g : Schedule} (nonzero : n ≠ 0) (present : s.bulletin n = some b)
    (good : acceptSchedule 1 f = .ok g) (composing : b.state = .composing) : amendBulletin n f s =
      (s.setBulletin n (some { b with schedule := g, countdown := g.start.countdown }), .ok) := by
  rw [amendBulletin, onBulletin_of_some _ nonzero present, good, if_neg (by rw [composing]; decide)]
  exact if_pos composing

theorem amendBulletin_of_error {v : Verdict} (nonzero : n ≠ 0) (present : s.bulletin n = some b)
    (bad : acceptSchedule 1 f = .error v) (stands : b.state ≠ .withdrawing) : amendBulletin n f s = (s, v) := by
  rw [amendBulletin, onBulletin_of_some _ nonzero present, bad, if_neg stands]

theorem amendBulletin_of_released {g : Schedule} (nonzero : n ≠ 0) (present : s.bulletin n = some b)
    (good : acceptSchedule 1 f = .ok g) (released : b.state = .released) : amendBulletin n f s = s.testAndForce n b g := by
  rw [amendBulletin, onBulletin_of_some _ nonzero present, good, if_neg (by rw [released]; decide)]
  exact if_neg (by rw [released]; decide)

theorem releaseBulletin_of_composing (nonzero : n ≠ 0) (present : s.bulletin n = some b) (composing : b.state = .composing) :
    releaseBulletin n s = s.testAndForce n b b.schedule := by
  rw [releaseBulletin, onBulletin_of_some _ nonzero present]
  exact if_pos composing

/-- Both requests answer as the category test does. -/
theorem exec_of_testAndForce {i : Instr} {kind : Byte} {g : Schedule} (served : s.serves) (nonzero : n ≠ 0)
    (present : s.bulletin n = some b)
    (form : (i = .releaseBulletin r n ∧ kind = 0x33 ∧ b.state = .composing ∧ g = b.schedule) ∨
      (i = .amendBulletin r n f ∧ kind = 0x32 ∧ b.state = .released ∧ acceptSchedule 1 f = .ok g)) {u : State} {v : Verdict}
    (test : s.testAndForce n b g = (u, v)) : exec i s = .next (u.replied r kind v) := by
  rcases form with ⟨rfl, rfl, composing, rfl⟩ | ⟨rfl, rfl, released, good⟩
  · exact exec_answers served (q := .releaseBulletin n)
      ((releaseBulletin_of_composing nonzero present composing).trans test)
  · exact exec_answers served (q := .amendBulletin n f)
      ((amendBulletin_of_released nonzero present good released).trans test)

end

/-! ## The category test (02: R31) -/

section

variable {s : State} {n : Fin 64} {b : Bulletin} {g : Schedule}

theorem State.testAndForce_of_refused {before after : List (Fin 8)} {ch : Fin 8} (mask : g.mask = before ++ ch :: after)
    (accepts : ∀ x ∈ before, (s.channel x).accepts b.category = true) (refuses : (s.channel ch).accepts b.category = false) :
    s.testAndForce n b g = (s, ⟨.category, [BitVec.ofNat 8 ch.val]⟩) := by
  have first : s.refusingChannel g.mask b.category = some ch :=
    List.find?_eq_some_iff_append.mpr ⟨by rw [refuses]; rfl, before, after, mask, fun x mem => by rw [accepts x mem]; rfl⟩
  rw [State.testAndForce, first]
  rfl

theorem State.testAndForce_of_accepted (accepts : ∀ x ∈ g.mask, (s.channel x).accepts b.category = true) :
    s.testAndForce n b g = (s.putInForce n b g, .ok) := by
  have nobody : s.refusingChannel g.mask b.category = none :=
    List.find?_eq_none.mpr fun x mem => by simp [accepts x mem]
  rw [State.testAndForce, nobody]

/-- The record with the group in force, whose occasion at once is its last one. -/
def Bulletin.releasedNow (b : Bulletin) (g : Schedule) : Bulletin :=
  { b with state := .released, schedule := { g with limit := some 1 }, countdown := g.start.countdown }

theorem State.putInForce_later (later : g.start ≠ .now) : s.putInForce n b g = s.setBulletin n
    (some { b with state := .released, schedule := g, countdown := g.start.countdown }) := by
  rw [State.putInForce, if_neg later, if_neg later]

theorem State.putInForce_now (now : g.start = .now) :
    s.putInForce n b g = (s.setBulletin n (some (b.releasedNow g))).occasion n := by
  rw [State.putInForce, if_pos now, if_pos now, Bulletin.releasedNow]

theorem State.putInForce_occasioned (now : g.start = .now) :
    (s.setBulletin n (some (b.releasedNow g))).Occasioned n (b.releasedNow g) (s.putInForce n b g) := by
  rw [State.putInForce_now now]
  exact State.occasion_occasioned ((State.bulletin_setBulletin _ _ _ _).trans (if_pos rfl)) rfl nofun

theorem State.putInForce_only (now : g.start = .now) :
    (s.putInForce n b g).clock = s.clock ∧ (s.putInForce n b g).link = s.link := by
  rw [State.putInForce_now now, ((State.Moves.refl (s := s.setBulletin n (some (b.releasedNow g)))).occasion n).only]
  exact ⟨rfl, rfl⟩

end

/-! ## The occasion at once (04: R64 to R68) -/

section

variable {v w : State} {n : Fin 64} {b : Bulletin} (h : v.Occasioned n b w)

theorem State.not_occasionRetires_of_reaches {ch : Fin 8} (reached : v.reaches n b b.schedule.mask ch) :
    ¬ v.occasionRetires n b := by
  rintro ⟨-, unplaced⟩
  rw [State.retiresUnplaced, Bool.and_eq_true, Bool.and_eq_true, List.all_eq_true] at unplaced
  have miss := unplaced.1.2 ch reached.1
  rw [reached.2] at miss
  cases miss

include h

theorem State.Occasioned.isSome (stands : ¬ v.occasionRetires n b) : (w.bulletin n).isSome = true := by
  obtain ⟨-, -, k, m, own, -⟩ := h.stands stands
  rw [own]
  rfl

theorem State.Occasioned.own {b' : Bulletin} (after : w.bulletin n = some b') :
    ∃ k m, b' = { b.occasioned with onAir := k, missed := m } ∧
      (b.schedule.mask.Nodup → b.missed ≤ 65535 → m = min 65535 (b.missed + v.misses n b b.schedule.mask)) := by
  by_cases retires : v.occasionRetires n b
  · rw [(h.retired retires).2.1] at after
    cases after
  · obtain ⟨-, -, k, m, own, counts⟩ := h.stands retires
    rw [own] at after
    exact ⟨k, m, (Option.some.inj after).symm, counts⟩

end

theorem State.occasionFree_eq_true {v : State} {b : Bulletin} {ch : Fin 8} (settled : b.commitPending = false)
    (loud : v.silenced ch = false ∨ b.category.rank = 0) : v.occasionFree b ch = true := by
  rw [State.occasionFree, settled]
  simpa using loud

/-- Settles O24: the category test decides, and the occasion of a start of NOW is one that has taken place. -/
theorem amendAndReleasePutTheGroupInForce : Obligations.AmendAndReleasePutTheGroupInForce := by
  intro r n b f s served nonzero present
  refine ⟨fun g good composing => ?_, fun v bad stands => ?_, fun i kind g form => ⟨fun before ch after mask accepts refuses => ?_,
    fun accepts => ⟨fun later => ?_, fun now => ?_⟩⟩⟩
  · have runs := exec_answers (i := .amendBulletin r n f) served (q := .amendBulletin n f)
      (amendBulletin_of_composing nonzero present good composing)
    cases start : g.start with
    | now | atMinutes _ | every _ =>
      rw [start] at runs
      exact runs
  · exact exec_answers served (q := .amendBulletin n f) (amendBulletin_of_error nonzero present bad stands)
  · exact exec_of_testAndForce served nonzero present form (State.testAndForce_of_refused mask accepts refuses)
  · have runs := exec_of_testAndForce served nonzero present form (State.testAndForce_of_accepted accepts)
    rw [State.putInForce_later later] at runs
    cases start : g.start with
    | now | atMinutes _ | every _ =>
      rw [start] at runs
      exact runs
  · have h := State.putInForce_occasioned (s := s) (n := n) (b := b) now
    obtain ⟨clock, link⟩ := State.putInForce_only (s := s) (n := n) (b := b) now
    refine ⟨s.putInForce n b g, exec_of_testAndForce served nonzero present form (State.testAndForce_of_accepted accepts),
      fun b' after => ?_, fun ch mem takes => ?_, fun ch far => ?_, h.missed, fun distinct high b' after => ?_,
      fun ch mem takes idle settled loud => ?_, fun ch mem takes t keyed turn settled loud => ?_, ?_, clock, link⟩
    · obtain ⟨k, m, same, -⟩ := h.own after
      rw [same]
      exact ⟨rfl, rfl, rfl, rfl⟩
    · have took := h.took ch ⟨mem, takes⟩
      exact ⟨h.isSome (State.not_occasionRetires_of_reaches ⟨mem, takes⟩), took.engages, took.queuePlaced⟩
    · refine h.passed ch fun reached => far.elim (fun out => out reached.1) fun misses => ?_
      exact Bool.eq_false_iff.mp misses reached.2
    · obtain ⟨k, m, same, counts⟩ := h.own after
      rw [same]
      exact counts distinct high
    · have woken := (h.took ch ⟨mem, takes⟩).woken idle (State.occasionFree_eq_true settled loud)
      exact ⟨woken.keyreq, fun absent => (woken.absent absent).1⟩
    · have awake : (s.channel ch).state ≠ .idle := by rw [keyed]; decide
      have free : State.occasionFree (s.setBulletin n (some (b.releasedNow g))) (b.releasedNow g) ch = true :=
        State.occasionFree_eq_true settled loud
      rw [(h.took ch ⟨mem, takes⟩).still (.inl awake)]
      show (if _ then _ else _) = _
      rw [if_pos ⟨keyed, free⟩]
      exact congrArg _ turn
    · split_ifs with unplaced
      · obtain ⟨gave, gone, retired⟩ := h.retired ⟨rfl, unplaced⟩
        exact ⟨gone, retired, gave.channels, gave.store, fun d => ⟨gave.circuit d, gave.returned d⟩⟩
      · have stands : ¬ State.occasionRetires (s.setBulletin n (some (b.releasedNow g))) n (b.releasedNow g) :=
          fun retires => unplaced retires.2
        obtain ⟨store, circuit, -⟩ := h.stands stands
        refine ⟨h.isSome stands, store, fun d => ?_⟩
        rw [circuit d]
        rfl

end Sys2Proof.Machine
end

section
/-! PROOFS. A channel that takes the entries of a minute advance, one after the other (04: R54, R68). -/

namespace Sys2Proof.Machine

/-- The queue with the entries at the tails of their classes, in this order. -/
def Channel.gathered (x : Channel) (l : List Entry) : List Entry := l.foldl insertAtTail x.queue

theorem Channel.gathered_append (x : Channel) (l : List Entry) (e : Entry) :
    x.gathered (l ++ [e]) = insertAtTail (x.gathered l) e := by
  rw [Channel.gathered, List.foldl_append]
  rfl

theorem Channel.gathered_sorted {x : Channel} (sorted : (x.queue.map fun y => y.rank).Pairwise (· ≤ ·)) (l : List Entry) :
    ((x.gathered l).map fun y => y.rank).Pairwise (· ≤ ·) := by
  induction l using List.reverseRecOn with
  | nil => exact sorted
  | append_singleton l e ih =>
    rw [Channel.gathered_append]
    exact insertAtTail_sorted e ih

/-- The turn once the channel has been told of the eligible ones of the entries. -/
def Turn.toldOf (t : Turn) (l : List Entry) : Turn := l.foldl (fun t e => t.told e.rank) t

theorem Turn.toldOf_append (t : Turn) (l : List Entry) (e : Entry) : t.toldOf (l ++ [e]) = (t.toldOf l).told e.rank := by
  rw [Turn.toldOf, List.foldl_append]
  rfl

/-- The channel that has left IDLE for an entry: what its queue holds, and what it keys. -/
structure Channel.Awake (x : Channel) (l : List Entry) (keyok : Bool) (x' : Channel) : Prop where
  profile : x'.profile = x.profile
  keyreq : x'.keyreq = true
  absent : keyok = false → x'.state = .requesting
  keys : (x'.state = .requesting ∧ x'.queue = x.gathered l) ∨ (x'.state = .keyed ∧ ∃ t, x'.turn = some t ∧
    match t.kind with
    | .telex _ => x'.queue = x.gathered l
    | .pass p => (x.queue.map fun y => y.rank).Pairwise (· ≤ ·) →
      x'.queue = (x.gathered l).eraseP fun y => decide (y.bulletin = p.bulletin))

/-- The channel has taken the entries, and has been told of each that is eligible. -/
structure Channel.Received (x : Channel) (l : List Entry) (free : Entry → Bool) (keyok : Bool) (x' : Channel) : Prop where
  busy : x.state ≠ .idle → x' = { x with
    queue := x.gathered l
    turn := if x.state = .keyed then x.turn.map fun t => t.toldOf (l.filter free) else x.turn }
  idle : x.state = .idle →
    (x' = { x with queue := x.gathered l } ∧ ∀ e ∈ l, free e = false) ∨ x.Awake l keyok x'
  engages (n : Fin 64) : x'.engages n ↔ x.engages n ∨ ∃ e ∈ l, e.bulletin = n

namespace Channel.Awake

variable {x y z : Channel} {l : List Entry} {e : Entry} {f keyok : Bool}

theorem busy (h : x.Awake l keyok y) : y.state ≠ .idle := by
  rcases h.keys with ⟨state, -⟩ | ⟨state, -⟩
  · rw [state]; decide
  · rw [state]; decide

/-- The entry that wakes the channel. -/
theorem of_woken (h : (x.queuing e).Woken keyok z) (queue : x.queue = y.gathered l) (profile : x.profile = y.profile) :
    y.Awake (l ++ [e]) keyok z := by
  have joined : (x.queuing e).queue = y.gathered (l ++ [e]) := by
    rw [Channel.gathered_append, ← queue]
    rfl
  refine ⟨h.profile.trans profile, h.keyreq, fun absent => (h.absent absent).1, ?_⟩
  cases keyok with
  | false =>
    obtain ⟨state, left, -⟩ := h.absent rfl
    exact .inl ⟨state, left.trans joined⟩
  | true =>
    obtain ⟨state, t, turn, left⟩ := h.present rfl
    refine .inr ⟨state, t, turn, ?_⟩
    cases kind : t.kind with
    | telex c =>
      rw [kind] at left
      exact Eq.trans left joined
    | pass p =>
      rw [kind] at left
      exact fun _ => left.1.trans (congrArg _ joined)

/-- An entry of another bulletin than that on the air. -/
theorem took (h : x.Awake l keyok y) (took : y.Took e f keyok z) (fresh : ¬ y.engages e.bulletin) :
    x.Awake (l ++ [e]) keyok z := by
  have same := took.still (.inl h.busy)
  have state : z.state = y.state := by rw [same]; rfl
  have queue : z.queue = insertAtTail y.queue e := by rw [same]; rfl
  refine ⟨took.profile.trans h.profile, ?_, fun absent => state.trans (h.absent absent), ?_⟩
  · rw [same]
    exact h.keyreq
  · rw [state, queue, Channel.gathered_append]
    refine h.keys.imp (fun ⟨requests, left⟩ => ⟨requests, by rw [left]⟩) fun ⟨keyed, t, turn, left⟩ => ⟨keyed, ?_⟩
    obtain ⟨t', turn', kind⟩ : ∃ t', z.turn = some t' ∧ t'.kind = t.kind := by
      have after : z.turn = if y.state = .keyed ∧ f = true then y.turn.map fun t => t.told e.rank else y.turn := by
        rw [same]
      rw [after, turn]
      split
      · exact ⟨t.told e.rank, rfl, Turn.told_kind t _⟩
      · exact ⟨t, rfl, rfl⟩
    refine ⟨t', turn', ?_⟩
    rw [kind]
    cases carried : t.kind with
    | telex c =>
      rw [carried] at left
      exact congrArg (insertAtTail · e) left
    | pass p =>
      rw [carried] at left
      intro sorted
      have other : ¬ decide (e.bulletin = p.bulletin) = true := fun own => fresh (.inr (by
        rw [Channel.carriesPass_of_turn turn, carried]
        exact decide_eq_true (of_decide_eq_true own).symm))
      rw [left sorted, insertAtTail_eraseP (Channel.gathered_sorted sorted l) (by exact other)]

end Channel.Awake

namespace Channel.Received

variable {x y z : Channel} {l : List Entry} {e : Entry} {free : Entry → Bool} {keyok : Bool}

theorem nil (x : Channel) (free : Entry → Bool) (keyok : Bool) : x.Received [] free keyok x := by
  refine ⟨fun _ => ?_, fun _ => .inl ⟨rfl, nofun⟩, fun n => by simp⟩
  have told : (if x.state = .keyed then x.turn.map fun t => t.toldOf ([].filter free) else x.turn) = x.turn := by
    split
    · exact Option.map_id'
    · rfl
  rw [told]
  rfl

variable (h : x.Received l free keyok y)

include h

theorem isOn_profile : y.isOn = x.isOn ∧ y.profile = x.profile := by
  by_cases idle : x.state = .idle
  · rcases h.idle idle with ⟨same, -⟩ | awake
    · rw [same]
      exact ⟨rfl, rfl⟩
    · refine ⟨?_, awake.profile⟩
      rcases awake.keys with ⟨state, -⟩ | ⟨state, -⟩
      · simp [Channel.isOn, state, idle]
      · simp [Channel.isOn, state, idle]
  · rw [h.busy idle]
    exact ⟨rfl, rfl⟩

/-- The entries of other bulletins bear on no occasion. -/
theorem takesOccasion {n : Fin 64} {b b' : Bulletin} (category : b'.category = b.category) (out : ∀ e ∈ l, e.bulletin ≠ n) :
    y.takesOccasion n b' = x.takesOccasion n b := by
  obtain ⟨isOn, profile⟩ := h.isOn_profile
  rw [Bool.eq_iff_iff, Channel.takesOccasion_iff, Channel.takesOccasion_iff, isOn, Channel.accepts, profile, category,
    h.engages]
  refine and_congr_right fun _ => and_congr_right fun _ => not_congr ⟨fun found => found.resolve_right ?_, .inl⟩
  exact fun ⟨e, mem, named⟩ => out e mem named

theorem rests (rests : x.state = .idle → x.turn = none) (still : y.state = .idle) : y.turn = none := by
  by_cases idle : x.state = .idle
  · rcases h.idle idle with ⟨same, -⟩ | awake
    · rw [same]
      exact rests idle
    · exact (awake.busy still).elim
  · rw [h.busy idle] at still
    exact (idle still).elim

theorem took (rests : x.state = .idle → x.turn = none) (took : y.Took e (free e) keyok z) (fresh : ¬ y.engages e.bulletin) :
    x.Received (l ++ [e]) free keyok z := by
  refine ⟨fun busy => ?_, fun idle => ?_, fun n => ?_⟩
  · have before := h.busy busy
    have awake : y.state ≠ .idle := by rw [before]; exact busy
    have turns : (if x.state = .keyed ∧ free e = true then
        Option.map (fun t => t.told e.rank) (if x.state = .keyed then x.turn.map fun t => t.toldOf (l.filter free) else x.turn)
      else if x.state = .keyed then x.turn.map fun t => t.toldOf (l.filter free) else x.turn) =
        if x.state = .keyed then x.turn.map fun t => t.toldOf ((l ++ [e]).filter free) else x.turn := by
      by_cases keyed : x.state = .keyed
      · rw [if_pos keyed, if_pos keyed, List.filter_append, List.filter_singleton]
        cases eligible : free e with
        | false =>
          rw [if_neg (by simp)]
          exact congrArg (fun k : List Entry => x.turn.map fun t => t.toldOf k) (List.append_nil _).symm
        | true =>
          rw [if_pos ⟨keyed, rfl⟩, Option.map_map]
          exact congrArg (fun g => x.turn.map g) (funext fun t => (t.toldOf_append _ e).symm)
      · rw [if_neg fun both => keyed both.1, if_neg keyed, if_neg keyed]
    rw [took.still (.inl awake), before, Channel.gathered_append]
    exact congrArg (fun t => ({ x with queue := insertAtTail (x.gathered l) e, turn := t } : Channel)) turns
  · rcases h.idle idle with ⟨same, none⟩ | awake
    · have queue : y.queue = x.gathered l := by rw [same]
      cases eligible : free e with
      | false =>
        refine .inl ⟨?_, fun a mem => ?_⟩
        · have still : ¬ (y.state = .keyed ∧ free e = true) := fun both => by
            rw [eligible] at both
            cases both.2
          rw [took.still (.inr eligible), if_neg still, same, Channel.gathered_append]
          rfl
        · rcases List.mem_append.mp mem with earlier | here
          · exact none a earlier
          · exact List.mem_singleton.mp here ▸ eligible
      | true =>
        have state : y.state = .idle := by rw [same]; exact idle
        exact .inr (.of_woken (took.woken state eligible) queue (by rw [same]))
    · exact .inr (awake.took took fresh)
  · rw [took.engages_iff (h.rests rests), h.engages]
    simp only [List.mem_append, List.mem_singleton, or_and_right, exists_or, exists_eq_left, or_assoc]

theorem queuePlaced (ordered : (x.queue.map fun y => y.rank).Pairwise (· ≤ ·) ∨ ¬ (x.state = .idle ∧ y.state = .keyed)) :
    x.queuePlaced (x.gathered l) y := by
  by_cases keys : x.state = .idle ∧ y.state = .keyed
  · rw [Channel.queuePlaced, if_pos keys]
    rcases h.idle keys.1 with ⟨same, -⟩ | awake
    · rw [same, keys.1] at keys
      cases keys.2
    · rcases awake.keys with ⟨state, -⟩ | ⟨-, t, turn, left⟩
      · rw [state] at keys
        cases keys.2
      · rw [turn, Option.map_some]
        cases kind : t.kind with
        | telex c =>
          rw [kind] at left
          exact left
        | pass p =>
          rw [kind] at left
          exact left (ordered.resolve_right (not_not.mpr keys))
  · rw [Channel.queuePlaced, if_neg keys]
    by_cases idle : x.state = .idle
    · rcases h.idle idle with ⟨same, -⟩ | awake
      · rw [same]
      · rcases awake.keys with ⟨-, queue⟩ | ⟨state, -⟩
        · exact queue
        · exact (keys ⟨idle, state⟩).elim
    · rw [h.busy idle]

end Channel.Received

end Sys2Proof.Machine
end

section
/-! PROOFS. The minute advance, bulletin by bulletin (04: R54, R63 to R68). -/

namespace Sys2Proof.Machine

/-! ## One bulletin at an advance (04: R54) -/

theorem State.setBulletin_bulletin (v : State) (n : Fin 64) : v.setBulletin n (v.bulletin n) = v := by
  simp [State.setBulletin, State.bulletin]

/-- The clock of an advance. -/
def Clock.advanced (k : Clock) (now : Nat) : Clock := { k with minute := (k.minute + 1) % 1440, lastAdvance := now }

/-- The record that an occasion of the advance finds: the countdown of EVERY has started again. -/
def Bulletin.restarted (b : Bulletin) : Bulletin :=
  { b with countdown := match b.schedule.start with | .every i => i | _ => b.countdown }

/-- The record that the advance brings no occasion. -/
def Bulletin.waited (b : Bulletin) : Bulletin :=
  { b with countdown := if b.state ≠ .released ∨ b.schedule.limit = some 0 then b.countdown
      else match b.schedule.start with | .every _ => b.countdown - 1 | _ => b.countdown }

section

variable {v : State} {n : Fin 64} {b : Bulletin} {k : Clock} {now : Nat}

theorem State.advanceBulletin_of_due (present : v.bulletin n = some b) (clock : v.clock = k.advanced now)
    (due : b.dueAt k = true) : v.advanceBulletin n = (v.setBulletin n (some b.restarted)).occasion n := by
  rw [Bulletin.dueAt, Bool.and_eq_true, Bool.and_eq_true, decide_eq_true_eq, decide_eq_true_eq] at due
  obtain ⟨⟨released, more⟩, due⟩ := due
  rw [State.advanceBulletin, present]
  dsimp only
  rw [if_pos ⟨released, more⟩]
  cases start : b.schedule.start with
  | now => rw [start] at due; cases due
  | atMinutes ms =>
    rw [start] at due
    have same : b.restarted = b := by rw [Bulletin.restarted, start]
    rw [same, ← present, State.setBulletin_bulletin]
    exact if_pos (by rw [clock]; exact due)
  | every i =>
    rw [start] at due
    have restarts : b.restarted = { b with countdown := i } := by rw [Bulletin.restarted, start]
    rw [restarts, ← State.mapBulletin_of_some present fun b => { b with countdown := i }]
    exact if_pos (of_decide_eq_true due)

theorem State.advanceBulletin_of_waits (present : v.bulletin n = some b) (clock : v.clock = k.advanced now)
    (waits : b.dueAt k = false) : v.advanceBulletin n = v.setBulletin n (some b.waited) := by
  have stays : b.waited = b → v = v.setBulletin n (some b.waited) := fun same => by
    rw [same, ← present, State.setBulletin_bulletin]
  rw [State.advanceBulletin, present]
  dsimp only
  by_cases counts : b.state = .released ∧ b.schedule.limit ≠ some 0
  · rw [if_pos counts]
    have runs : b.waited = { b with
        countdown := match b.schedule.start with | .every _ => b.countdown - 1 | _ => b.countdown } := by
      rw [Bulletin.waited, if_neg (by simpa using counts)]
    rw [Bulletin.dueAt, decide_eq_true counts.1, decide_eq_true counts.2, Bool.true_and, Bool.true_and] at waits
    cases start : b.schedule.start with
    | now =>
      rw [start] at runs
      exact stays runs
    | atMinutes ms =>
      rw [start] at runs waits
      have silent : ¬ (v.clock.isSet && ms.contains v.clock.minute) = true := by
        rw [clock]
        exact Bool.eq_false_iff.mp waits
      exact (if_neg silent).trans (stays runs)
    | every i =>
      rw [start] at runs waits
      rw [runs, ← State.mapBulletin_of_some present fun b => { b with countdown := b.countdown - 1 }]
      exact if_neg (of_decide_eq_false waits)
  · have same : b.waited = b := by
      rw [Bulletin.waited, if_pos (by by_contra neither; rw [not_or, not_not] at neither; exact counts neither)]
    rw [if_neg counts]
    exact stays same

theorem State.advanceBulletin_of_empty (empty : v.bulletin n = none) : v.advanceBulletin n = v := by
  rw [State.advanceBulletin, empty]

end

/-! ## What the advance has done so far -/

/-- The entry that the advance places on the channel for the bulletin. -/
def State.dueEntry (s : State) (ch : Fin 8) (n : Fin 64) : Option Entry :=
  (s.bulletin n).bind fun b =>
    if b.dueAt s.clock = true ∧ ch ∈ b.schedule.mask ∧ (s.channel ch).takesOccasion n b = true then
      some ⟨n, b.category.rank, b.schedule.passes, 0, (s.clock.minute + 1) % 1440⟩
    else none

/-- The blocks of the bulletin, if the advance retires it. -/
def State.dueReturn (s : State) (n : Fin 64) : List BlockNo :=
  (s.bulletin n).elim [] fun b => if s.advanceRetires n b = true then b.allBlocks else []

theorem State.advanceEntries_eq (s : State) (ch : Fin 8) : s.advanceEntries ch = allEntries.filterMap (s.dueEntry ch) := rfl

theorem State.advanceReturns_eq (s : State) : s.advanceReturns = allEntries.flatMap s.dueReturn := rfl

theorem State.dueEntry_bulletin {s : State} {ch : Fin 8} {n : Fin 64} {e : Entry} (due : s.dueEntry ch n = some e) :
    e.bulletin = n := by
  rw [State.dueEntry, Option.bind_eq_some_iff] at due
  obtain ⟨b, -, due⟩ := due
  split at due
  · cases due
    rfl
  · cases due

/-- The record of the bulletin after its turn at the advance. -/
structure State.Stepped (s : State) (n : Fin 64) (b : Bulletin) (v : State) : Prop where
  retired : b.dueAt s.clock = true → s.advanceRetires n b = true → v.bulletin n = none ∧ v.reports (.bulletin n) .retired
  counted : b.dueAt s.clock = true → s.advanceRetires n b = false →
    ∃ k m, v.bulletin n = some { b.restarted.occasioned with onAir := k, missed := m } ∧
      (b.schedule.mask.Nodup → b.missed ≤ 65535 → m = min 65535 (b.missed + s.misses n b b.schedule.mask))
  missed : b.dueAt s.clock = true → ∀ ch ∈ b.schedule.mask, (s.channel ch).takesOccasion n b = false →
    v.reports (.bulletin n) .missed
  waited : b.dueAt s.clock = false → ∃ k, v.bulletin n = some { b.waited with onAir := k }

theorem State.Stepped.later {s v w : State} {n : Fin 64} {b : Bulletin} (h : s.Stepped n b v)
    (bulletin : ∃ k, w.bulletin n = (v.bulletin n).map fun b => { b with onAir := k })
    (reports : ∀ {key e}, v.reports key e → w.reports key e) : s.Stepped n b w := by
  obtain ⟨l, same⟩ := bulletin
  refine ⟨fun due retires => ?_, fun due stands => ?_, fun due ch mem misses => reports (h.missed due ch mem misses),
    fun waits => ?_⟩
  · obtain ⟨gone, retired⟩ := h.retired due retires
    exact ⟨by rw [same, gone]; rfl, reports retired⟩
  · obtain ⟨k, m, own, counts⟩ := h.counted due stands
    exact ⟨l, m, by rw [same, own]; rfl, counts⟩
  · obtain ⟨k, own⟩ := h.waited waits
    exact ⟨l, by rw [same, own]; rfl⟩

/-- The advance has come past these bulletins. -/
structure State.Advanced (s : State) (l : List (Fin 64)) (v : State) : Prop where
  moves : (s.setClock (s.clock.advanced s.now)).Moves v
  channel (j : Fin 8) : (s.channel j).Received (l.filterMap (s.dueEntry j)) (s.entryFree j) (s.keyokOf j) (v.channel j)
  ahead (n : Fin 64) : n ∉ l →
    (∃ k, v.bulletin n = (s.bulletin n).map fun b => { b with onAir := k }) ∧ (v.spares n ↔ s.spares n)
  stepped (n : Fin 64) : n ∈ l → ∀ b, s.bulletin n = some b → s.Stepped n b v
  store : v.store = { s.store with free := s.store.free ++ l.flatMap s.dueReturn }
  returned (d : Fin 32) : s.returnReported (l.flatMap s.dueReturn) d v
  circuit (d : Fin 32) : v.circuit d = { s.circuit d with flow := (v.circuit d).flow, waitStart := (v.circuit d).waitStart }

/-- What the turn of one bulletin does, whether or not it brings an occasion. -/
structure State.AdvanceTurn (s : State) (n : Fin 64) (v w : State) : Prop where
  moves : v.Moves w
  passed (j : Fin 8) : s.dueEntry j n = none → w.channel j = v.channel j
  took (j : Fin 8) (e : Entry) : s.dueEntry j n = some e →
    ¬ (v.channel j).engages n ∧ (v.channel j).Took e (s.entryFree j e) (s.keyokOf j) (w.channel j)
  other (i : Fin 64) : i ≠ n →
    (∃ k, w.bulletin i = (v.bulletin i).map fun b => { b with onAir := k }) ∧ (w.spares i ↔ v.spares i)
  own (b : Bulletin) : s.bulletin n = some b → s.Stepped n b w
  store : w.store = { v.store with free := v.store.free ++ s.dueReturn n }
  returned (d : Fin 32) : v.returnReported (s.dueReturn n) d w
  circuit (d : Fin 32) : w.circuit d = { v.circuit d with flow := (w.circuit d).flow, waitStart := (w.circuit d).waitStart }

namespace State.Advanced

variable {s v w : State} {l : List (Fin 64)} {n : Fin 64}

theorem start (s : State) : s.Advanced [] (s.setClock (s.clock.advanced s.now)) := by
  refine ⟨.refl, fun j => Channel.Received.nil _ _ _, fun i _ => ⟨State.Told.bulletin_self i, Iff.rfl⟩, nofun, ?_, fun d => ?_,
    fun d => rfl⟩
  · rw [List.flatMap_nil, List.append_nil]
    rfl
  · rw [State.returnReported, if_neg (by simp)]
    rfl

theorem step (h : s.Advanced l v) (out : n ∉ l) (rests : ∀ j, (s.channel j).state = .idle → (s.channel j).turn = none)
    (turn : s.AdvanceTurn n v w) : s.Advanced (l ++ [n]) w := by
  refine ⟨h.moves.trans turn.moves, fun j => ?_, fun i far => ?_, fun i mem b present => ?_, ?_, fun d => ?_, fun d => ?_⟩
  · rw [List.filterMap_append, List.filterMap_cons, List.filterMap_nil]
    cases due : s.dueEntry j n with
    | none =>
      rw [turn.passed j due]
      dsimp only
      rw [List.append_nil]
      exact h.channel j
    | some e =>
      obtain ⟨fresh, took⟩ := turn.took j e due
      refine (h.channel j).took (rests j) took ?_
      rw [State.dueEntry_bulletin due]
      exact fresh
  · rw [List.mem_append, List.mem_singleton, not_or] at far
    obtain ⟨⟨k, first⟩, spares⟩ := h.ahead i far.1
    obtain ⟨⟨k', later⟩, spares'⟩ := turn.other i far.2
    refine ⟨⟨k', ?_⟩, spares'.trans spares⟩
    rw [later, first]
    cases s.bulletin i <;> rfl
  · rcases List.mem_append.mp mem with earlier | here
    · have other : i ≠ n := fun same => out (same ▸ earlier)
      exact (h.stepped i earlier b present).later (turn.other i other).1 fun before => turn.moves.reports before
    · obtain rfl := List.mem_singleton.mp here
      exact turn.own b present
  · rw [turn.store, h.store, List.flatMap_append, List.flatMap_singleton, List.append_assoc]
  · rw [List.flatMap_append, List.flatMap_singleton]
    refine State.returnReported_append (h.returned d) (turn.returned d) ?_ fun before => turn.moves.reports before
    rw [h.circuit d]
    rfl
  · rw [turn.circuit d, h.circuit d]

theorem clock (h : s.Advanced l v) : v.clock = s.clock.advanced s.now := by
  rw [h.moves.only]
  rfl

theorem keyokOf (h : s.Advanced l v) (j : Fin 8) : v.keyokOf j = s.keyokOf j := by
  rw [h.moves.only]
  rfl

theorem silenced (h : s.Advanced l v) (j : Fin 8) : v.silenced j = s.silenced j := by
  have silence : v.silence = s.silence := by
    rw [h.moves.only]
    rfl
  rw [State.silenced, (h.channel j).isOn_profile.2, silence, State.silenced]

/-- The occasions of other bulletins bear on none of this one. -/
theorem takesOccasion (h : s.Advanced l v) (out : n ∉ l) {b b' : Bulletin} (category : b'.category = b.category) (j : Fin 8) :
    (v.channel j).takesOccasion n b' = (s.channel j).takesOccasion n b := by
  refine (h.channel j).takesOccasion category fun e mem named => ?_
  obtain ⟨i, earlier, due⟩ := List.mem_filterMap.mp mem
  exact out (named ▸ State.dueEntry_bulletin due ▸ earlier)

/-! ## The turn of one bulletin -/

theorem empty (h : s.Advanced l v) (out : n ∉ l) (absent : s.bulletin n = none) : s.AdvanceTurn n v (v.advanceBulletin n) := by
  obtain ⟨⟨k, same⟩, -⟩ := h.ahead n out
  rw [absent] at same
  have nothing : s.dueReturn n = [] := by rw [State.dueReturn, absent]; rfl
  rw [State.advanceBulletin_of_empty same]
  refine ⟨.refl, fun _ _ => rfl, fun j e due => ?_, fun i _ => ⟨State.Told.bulletin_self i, Iff.rfl⟩, fun b present => ?_, ?_,
    fun d => ?_, fun d => rfl⟩
  · rw [State.dueEntry, absent] at due
    cases due
  · rw [absent] at present
    cases present
  · rw [nothing, List.append_nil]
  · rw [nothing, State.returnReported, if_neg (by simp)]

theorem waits (h : s.Advanced l v) (out : n ∉ l) {b : Bulletin} (present : s.bulletin n = some b)
    (waits : b.dueAt s.clock = false) : s.AdvanceTurn n v (v.advanceBulletin n) := by
  obtain ⟨⟨k, record⟩, -⟩ := h.ahead n out
  rw [present] at record
  have nothing : s.dueReturn n = [] := by
    rw [State.dueReturn, present, Option.elim_some, State.advanceRetires, waits]
    rfl
  have moves : v.Moves (v.advanceBulletin n) := State.Moves.refl.advanceBulletin n
  rw [State.advanceBulletin_of_waits record h.clock waits] at moves ⊢
  have bulletin : ∀ i, (v.setBulletin n (some (Bulletin.waited { b with onAir := k }))).bulletin i =
      if n = i then some (Bulletin.waited { b with onAir := k }) else v.bulletin i := fun i => State.bulletin_setBulletin v n i _
  refine ⟨moves, fun _ _ => rfl, fun j e due => ?_, fun i other => ?_, fun b' same => ?_, ?_, fun d => ?_, fun d => rfl⟩
  · rw [State.dueEntry, present, Option.bind_some, if_neg fun all => by rw [waits] at all; cases all.1] at due
    cases due
  · have unmoved := (bulletin i).trans (if_neg (Ne.symm other))
    refine ⟨?_, State.spares_congr unmoved fun _ => rfl⟩
    rw [unmoved]
    exact State.Told.bulletin_self i
  · rw [present] at same
    cases same
    have still : b.dueAt s.clock ≠ true := Bool.eq_false_iff.mp waits
    exact ⟨fun due => (still due).elim, fun due => (still due).elim, fun due => (still due).elim,
      fun _ => ⟨k, (bulletin n).trans (if_pos rfl)⟩⟩
  · rw [nothing, List.append_nil]
    rfl
  · rw [nothing, State.returnReported, if_neg (by simp)]
    rfl

theorem retiresUnplaced_iff {b : Bulletin} (present : v.bulletin n = some b) (mask : List (Fin 8)) :
    v.retiresUnplaced n b mask = true ↔ ¬ v.spares n ∧ ∀ ch ∈ mask, (v.channel ch).takesOccasion n b = false := by
  have idle : ¬ v.spares n ↔ b.onAir = 0 ∧ ∀ j, (v.channel j).holdsEntry n = false := by
    rw [State.spares, present, not_or, not_exists, not_exists]
    refine and_congr ⟨fun air => ?_, fun off b' same => ?_⟩ (forall_congr' fun j => Bool.eq_false_iff.symm)
    · by_contra up
      exact air b ⟨rfl, up⟩
    · cases same.1
      exact same.2 off
  rw [idle]
  simp only [State.retiresUnplaced, allChannels, Bool.and_eq_true, decide_eq_true_eq, List.all_eq_true, Bool.not_eq_true',
    List.mem_finRange, true_implies, and_right_comm]

theorem due (h : s.Advanced l v) (out : n ∉ l) {b : Bulletin} (present : s.bulletin n = some b)
    (due : b.dueAt s.clock = true) : s.AdvanceTurn n v (v.advanceBulletin n) := by
  obtain ⟨⟨k, record⟩, spares⟩ := h.ahead n out
  rw [present] at record
  have moves : v.Moves (v.advanceBulletin n) := State.Moves.refl.advanceBulletin n
  have standing := due
  rw [Bulletin.dueAt, Bool.and_eq_true, Bool.and_eq_true, decide_eq_true_eq, decide_eq_true_eq] at standing
  obtain ⟨⟨released, more⟩, -⟩ := standing
  have own : (v.setBulletin n (some (Bulletin.restarted { b with onAir := k }))).bulletin n =
      some (Bulletin.restarted { b with onAir := k }) := (State.bulletin_setBulletin _ _ _ _).trans (if_pos rfl)
  have occasioned := State.occasion_occasioned own released more
  rw [State.advanceBulletin_of_due record h.clock due] at moves ⊢
  have takes : ∀ j, (v.channel j).takesOccasion n (Bulletin.restarted { b with onAir := k }) =
      (s.channel j).takesOccasion n b := fun j => h.takesOccasion out rfl j
  have before : ∀ i, i ≠ n → (v.setBulletin n (some (Bulletin.restarted { b with onAir := k }))).bulletin i = v.bulletin i :=
    fun i other => (State.bulletin_setBulletin _ _ _ _).trans (if_neg (Ne.symm other))
  have retires : State.occasionRetires (v.setBulletin n (some (Bulletin.restarted { b with onAir := k }))) n
      (Bulletin.restarted { b with onAir := k }) ↔ s.advanceRetires n b = true := by
    have same : State.retiresUnplaced (v.setBulletin n (some (Bulletin.restarted { b with onAir := k }))) n
        (Bulletin.restarted { b with onAir := k }) b.schedule.mask = v.retiresUnplaced n { b with onAir := k } b.schedule.mask := rfl
    rw [State.advanceRetires, due, Bool.true_and, Bool.and_eq_true, decide_eq_true_eq, retiresUnplaced_iff present, ← spares]
    refine and_congr_right fun _ => ?_
    rw [show (Bulletin.restarted { b with onAir := k }).schedule.mask = b.schedule.mask from rfl, same,
      retiresUnplaced_iff record]
    exact and_congr_right fun _ => forall₂_congr fun j _ => by rw [← takes j]; rfl
  have returns : s.dueReturn n = if s.advanceRetires n b = true then b.allBlocks else [] := by
    rw [State.dueReturn, present]
    rfl
  have entry : ∀ j, s.dueEntry j n = if j ∈ b.schedule.mask ∧ (s.channel j).takesOccasion n b = true then
      some ⟨n, b.category.rank, b.schedule.passes, 0, (s.clock.minute + 1) % 1440⟩ else none := fun j => by
    rw [State.dueEntry, present, Option.bind_some]
    simp only [due, true_and]
  have blocks : (Bulletin.restarted { b with onAir := k }).allBlocks = b.allBlocks := rfl
  have misses : State.misses (v.setBulletin n (some (Bulletin.restarted { b with onAir := k }))) n
      (Bulletin.restarted { b with onAir := k }) b.schedule.mask = s.misses n b b.schedule.mask := by
    rw [State.misses, State.misses]
    exact congrArg (fun p => (b.schedule.mask.filter p).length) (funext fun j => congrArg (!·) (takes j))
  refine ⟨moves, fun j far => occasioned.passed j fun reached => ?_, fun j e placed => ?_, fun i other => ?_,
    fun b' same => ?_, ?_, fun d => ?_, fun d => ?_⟩
  · rw [entry, if_pos ⟨reached.1, (takes j).symm.trans reached.2⟩] at far
    cases far
  · rw [entry] at placed
    obtain ⟨⟨mem, taken⟩, same⟩ := Option.ite_none_right_eq_some.mp placed
    have took := occasioned.took j ⟨mem, (takes j).trans taken⟩
    have new : State.newEntry (v.setBulletin n (some (Bulletin.restarted { b with onAir := k }))) n
        (Bulletin.restarted { b with onAir := k }) = e := by
      rw [← Option.some.inj same, State.newEntry, State.setBulletin_clock, h.clock]
      rfl
    have free : State.occasionFree (v.setBulletin n (some (Bulletin.restarted { b with onAir := k })))
        (Bulletin.restarted { b with onAir := k }) j = s.entryFree j e := by
      rw [← Option.some.inj same, State.entryFree, present, ← h.silenced j]
      rfl
    rw [new, free] at took
    refine ⟨(((v.channel j).takesOccasion_iff n b).mp ((h.takesOccasion out rfl j).trans taken)).2.2, ?_⟩
    rw [← h.keyokOf j]
    exact took
  · obtain ⟨k', after⟩ := occasioned.other i other
    rw [before i other] at after
    exact ⟨⟨k', after⟩, (occasioned.spares i other).trans (State.spares_congr (before i other) fun _ => rfl)⟩
  · rw [present] at same
    cases same
    refine ⟨fun _ gone => (occasioned.retired (retires.mpr gone)).2, fun _ stands => ?_,
      fun _ j mem missed => occasioned.missed j mem ((takes j).trans missed), fun waits => ?_⟩
    · obtain ⟨-, -, k', m, after, counts⟩ := occasioned.stands fun gone => Bool.eq_false_iff.mp stands (retires.mp gone)
      rw [← misses]
      exact ⟨k', m, after, counts⟩
    · rw [due] at waits
      cases waits
  · rw [returns]
    split_ifs with gone
    · exact (occasioned.retired (retires.mpr gone)).1.store
    · rw [(occasioned.stands fun retiring => gone (retires.mp retiring)).1, List.append_nil]
      rfl
  · rw [returns]
    split_ifs with gone
    · exact (occasioned.retired (retires.mpr gone)).1.returned d
    · rw [State.returnReported, if_neg (by simp), (occasioned.stands fun retiring => gone (retires.mp retiring)).2.1 d]
      rfl
  · by_cases gone : s.advanceRetires n b = true
    · rw [(occasioned.retired (retires.mpr gone)).1.circuit d]
      rfl
    · rw [(occasioned.stands fun retiring => gone (retires.mp retiring)).2.1 d]
      rfl

theorem turn (h : s.Advanced l v) (out : n ∉ l) : s.AdvanceTurn n v (v.advanceBulletin n) := by
  cases present : s.bulletin n with
  | none => exact h.empty out present
  | some b =>
    cases due : b.dueAt s.clock with
    | false => exact h.waits out present due
    | true => exact h.due out present due

end State.Advanced

theorem State.advance_advanced {s : State} (rests : ∀ j, (s.channel j).state = .idle → (s.channel j).turn = none)
    {l : List (Fin 64)} (distinct : l.Nodup) :
    s.Advanced l (l.foldl State.advanceBulletin (s.setClock (s.clock.advanced s.now))) := by
  induction l using List.reverseRecOn with
  | nil => exact State.Advanced.start s
  | append_singleton l n ih =>
    obtain ⟨earlier, -, apart⟩ := List.nodup_append.mp distinct
    have out : n ∉ l := fun mem => apart n mem n (List.mem_singleton.mpr rfl) rfl
    rw [List.foldl_append, List.foldl_cons, List.foldl_nil]
    exact (ih earlier).step out rests ((ih earlier).turn out)

theorem State.minuteAdvance_advanced {s : State} (rests : ∀ j, (s.channel j).state = .idle → (s.channel j).turn = none) :
    s.Advanced allEntries s.minuteAdvance :=
  State.advance_advanced rests (List.Nodup.sublist (List.tail_sublist _) (List.nodup_finRange 64))

end Sys2Proof.Machine
end

section
/-! PROOFS. The minute advance (04: R54). -/

namespace Sys2Proof.Machine

theorem mem_allEntries {n : Fin 64} (nonzero : n ≠ 0) : n ∈ allEntries := by
  have all : List.finRange 64 = 0 :: allEntries := by decide
  have mem := List.mem_finRange n
  rw [all] at mem
  exact (List.mem_cons.mp mem).resolve_left nonzero

theorem State.keyingLaw_rests {s : State} (law : s.keyingLaw) (j : Fin 8) (idle : (s.channel j).state = .idle) :
    (s.channel j).turn = none := by
  obtain ⟨-, -, -, keyed, -⟩ := law j
  by_contra turn
  have keys := keyed (Option.ne_none_iff_isSome.mp turn)
  rw [Channel.isKeyed, idle] at keys
  cases keys

section

variable {s : State} {n : Fin 64} {b : Bulletin} {ch : Fin 8} (present : s.bulletin n = some b)
  (due : b.dueAt s.clock = true) (mem : ch ∈ b.schedule.mask) (takes : (s.channel ch).takesOccasion n b = true)

include present due mem takes

/-- The entry that the occasion places on a channel of the mask. -/
theorem State.mem_advanceEntries (nonzero : n ≠ 0) :
    ⟨n, b.category.rank, b.schedule.passes, 0, (s.clock.minute + 1) % 1440⟩ ∈ s.advanceEntries ch := by
  rw [State.advanceEntries_eq]
  refine List.mem_filterMap.mpr ⟨n, mem_allEntries nonzero, ?_⟩
  rw [State.dueEntry, present, Option.bind_some]
  exact if_pos ⟨due, mem, takes⟩

/-- An IDLE channel that takes an eligible entry has left IDLE. -/
theorem State.Advanced.awake {v : State} (h : s.Advanced allEntries v) (nonzero : n ≠ 0) (settled : b.commitPending = false)
    (loud : s.silenced ch = false ∨ b.category.rank = 0) (idle : (s.channel ch).state = .idle) :
    (s.channel ch).Awake (s.advanceEntries ch) (s.keyokOf ch) (v.channel ch) := by
  refine ((h.channel ch).idle idle).resolve_left fun still => ?_
  have silent := still.2 _ (State.mem_advanceEntries present due mem takes nonzero)
  rw [State.entryFree, present, Option.any_some, settled] at silent
  simp only [Bool.not_false, Bool.true_and, Bool.or_eq_false_iff, Bool.not_eq_false', decide_eq_false_iff_not] at silent
  rcases loud with open_ | first
  · rw [open_] at silent
    cases silent.1
  · exact silent.2 first

end

theorem Bulletin.waited_onAir (b : Bulletin) (k : Nat) : ({ b.waited with onAir := k } : Bulletin) = { b with
    onAir := k
    countdown := if b.state ≠ .released ∨ b.schedule.limit = some 0 then b.countdown
      else match b.schedule.start with | .every _ => b.countdown - 1 | _ => b.countdown } := rfl

/-- Settles O40, by what the advance has done when it has come past every bulletin. -/
theorem minuteAdvanceStepsCountdowns : Obligations.MinuteAdvanceStepsCountdowns := by
  intro s law
  have h := State.minuteAdvance_advanced (State.keyingLaw_rests law)
  refine ⟨fun ch ordered => (h.channel ch).queuePlaced (ordered.imp_left fun queue => queue.2.2),
    fun ch => (h.channel ch).busy, h.store, h.returned, fun n b nonzero present => ?_⟩
  have stepped := h.stepped n (mem_allEntries nonzero) b present
  refine ⟨?_, fun waits => ?_, fun due => ⟨fun b' after => ?_, fun ch mem takes => ?_, stepped.missed due,
    fun ch mem takes settled loud idle => ?_⟩⟩
  · split_ifs with retires
    · have due : b.dueAt s.clock = true := by
        rw [State.advanceRetires, Bool.and_eq_true, Bool.and_eq_true] at retires
        exact retires.1.1
      exact stepped.retired due retires
    · cases due : b.dueAt s.clock with
      | true =>
        obtain ⟨k, m, own, -⟩ := stepped.counted due (Bool.eq_false_iff.mpr retires)
        rw [own]
        rfl
      | false =>
        obtain ⟨k, own⟩ := stepped.waited due
        rw [own]
        rfl
  · obtain ⟨k, own⟩ := stepped.waited waits
    exact ⟨_, own, Bulletin.waited_onAir b k⟩
  · cases retires : s.advanceRetires n b with
    | true =>
      rw [(stepped.retired due retires).1] at after
      cases after
    | false =>
      obtain ⟨k, m, own, counts⟩ := stepped.counted due retires
      rw [own] at after
      cases after
      exact ⟨rfl, rfl, counts⟩
  · exact ((h.channel ch).engages n).mpr (.inr ⟨_, State.mem_advanceEntries present due mem takes nonzero, rfl⟩)
  · have awake := h.awake present due mem takes nonzero settled loud idle
    exact ⟨awake.keyreq, awake.absent⟩

end Sys2Proof.Machine
end
